-- ==== Sys2Proof/Word.lean ====
section
/-! DEFINITION. The two word types of the core: R7 (XLEN = 32, byte addressed), R10 (every register value,
address and ALU operand is a 32-bit unsigned bit vector). -/

namespace Sys2Proof

/-- A register value, an address or an instruction word (R7, R10, R100). -/
abbrev Word := BitVec 32

/-- The smallest addressable unit (R7, R81). -/
abbrev Byte := BitVec 8

end Sys2Proof
end

