-- ==== Sys2Proof/Config.lean ====
section
/-! DEFINITION. The implementation parameters of R7, the requests the core makes of its two collaborators, and the
free values of the model.

A parameter the spec fixes is a constant here. A parameter the spec leaves OPEN is plain data in State
(`Policy`, the memory and coprocessor collaborators, the host's inputs), so that a statement about every state is a
statement about every value of it. What a collaborator answers where State does not say it is an opaque constant
applied to the collaborator's own state and the request, and a value the spec leaves open after an event is one applied
to State's counter `freeCount`: nothing in Lean can say what they are. -/

namespace Sys2Proof

namespace Machine

/-- A call of one of the six operations of the memory collaborator (R70), at the address R72 to R74 give it. The fetch
is a word read (R72, R77). -/
inductive MemRequest where
  | readByte (a : Word)
  | readHalf (a : Word)
  | readWord (a : Word)
  | writeByte (a : Word) (value : Byte)
  | writeHalf (a : Word) (value : BitVec 16)
  | writeWord (a : Word) (value : Word)
  deriving DecidableEq, Repr

/-- A request the core makes of the COPROC collaborator (R378). -/
inductive CoprocRequest where
  | cdp (cp op1 crn crd : BitVec 4) (op2 : BitVec 3) (crm : BitVec 4)
  | mcr (cp : BitVec 4) (op1 : BitVec 3) (crn crm : BitVec 4) (op2 : BitVec 3) (value : Word)
  | mrc (cp : BitVec 4) (op1 : BitVec 3) (crn crm : BitVec 4) (op2 : BitVec 3)
  | ldcBegin (cp : BitVec 4) (n : Bool) (crd : BitVec 4)
  | stcBegin (cp : BitVec 4) (n : Bool) (crd : BitVec 4)
  | ldcWord (cp : BitVec 4) (index : Nat) (value : Word)
  | stcWord (cp : BitVec 4) (index : Nat)
  deriving DecidableEq, Repr

/-- The coprocessor number a request carries: w[11:8] (R375). -/
def CoprocRequest.cp : CoprocRequest → BitVec 4
  | .cdp cp .. | .mcr cp .. | .mrc cp .. | .ldcBegin cp .. | .stcBegin cp .. | .ldcWord cp .. | .stcWord cp .. => cp

end Machine

namespace Config

/-- PC_READ_OFFSET of R7: an operand read of r15 yields pc + 8 (R164). -/
def pcReadOffset : Word := 8#32

/-- PC_STORE_OFFSET of R7: STR, STM and MCR of r15 give pc + 12 (R164, R264, R303, R381). -/
def pcStoreOffset : Word := 12#32

/-- VECTOR_BASE of R7 and R402, fixed. -/
def vectorBase : Word := 0x00000000#32

/-- What a byte of memory that nothing has written reads as. The spec takes memory contents from the MEM
collaborator (R70, R85). DESIGN CHOICE, unsafe: log entry 3. -/
def unlistedByte : Byte := 0x00#8

/-- R418, ABORT draw `baseUpdated` of the n-th free value: whether the base write-back of an aborted transfer
took effect. FREE VALUE: log entry 6. -/
opaque abortBaseUpdated : Nat → Bool

/-- R418, ABORT draws of an aborted LDM: bit r says whether register r, if its read completed, holds its loaded
value. FREE VALUE: log entry 6. -/
opaque abortLoaded : Nat → BitVec 16

/-- R450, R58: what R14_svc holds after a reset asserted during a run. FREE VALUE: log entry 7. -/
opaque resetLink : Nat → Word

/-- R450, R58: what SPSR_svc holds after a reset asserted during a run. FREE VALUE: log entry 7. -/
opaque resetSpsr : Nat → Word

/-- R70, R85: whether a device of the memory collaborator in the given state answers a request with an abort. FREE
VALUE: log entry 4. -/
opaque memAborts : Nat → Machine.MemRequest → Bool

/-- R70, R85: what a device of the memory collaborator returns for a read. FREE VALUE: log entry 4. -/
opaque memValue : Nat → Machine.MemRequest → Word

/-- R80, R85: the collaborator's state after a request to one of its devices. FREE VALUE: log entry 4. -/
opaque memNext : Nat → Machine.MemRequest → Nat

/-- R378: whether a registered coprocessor in the given state answers a request with Ok. FREE VALUE: log entry 8. -/
opaque coprocPresent : Nat → Machine.CoprocRequest → Bool

/-- R378: the word of a registered coprocessor's Ok(value). FREE VALUE: log entry 8. -/
opaque coprocValue : Nat → Machine.CoprocRequest → Word

/-- R378: a registered coprocessor's Ok(count), less 1. FREE VALUE: log entry 8. -/
opaque coprocMore : Nat → Machine.CoprocRequest → Fin 16

/-- R378: a registered coprocessor's new state. FREE VALUE: log entry 8. -/
opaque coprocNext : Nat → Machine.CoprocRequest → Nat

end Config

/-- UNDEF_POLICY of R7 and R385. -/
inductive UndefPolicy where
  | trap
  | halt
  deriving DecidableEq, Repr

/-- COPROC_ABSENT_POLICY of R7 and R377. -/
inductive CoprocAbsentPolicy where
  | refuse
  | trapUndefined
  | halt
  deriving DecidableEq, Repr

/-- HALF_MISALIGN of R7 and R73. -/
inductive HalfMisalign where
  | align
  | refuse
  deriving DecidableEq, Repr

/-- The parameters of R7 that name a choice and that the spec leaves to the host: plain data, changed by no step. -/
structure Policy where
  undef : UndefPolicy
  coprocAbsent : CoprocAbsentPolicy
  msrGeneralMask : Bool
  halfMisalign : HalfMisalign
  deriving DecidableEq, Repr

/-- The choices State.reset starts with. DESIGN CHOICE: log entry 5 (UNDEF_POLICY = Trap is the spec's
recommendation, HALF_MISALIGN = Align its default; TrapUndefined and MSR_GENERAL_MASK = true are the values under
which the spec gives an instruction an effect instead of a refusal). -/
def Config.resetPolicy : Policy where
  undef := .trap
  coprocAbsent := .trapUndefined
  msrGeneralMask := true
  halfMisalign := .align

end Sys2Proof
end

