-- ==== Sys2Proof/Syntax.lean ====
section
/-! DEFINITION. The instructions: the closed tagged union of R101, one constructor per row of
spec/opcode_table.json. Every field of a format is kept (R118 to R136), a should-be-zero field too, so that the
well-formedness check of R140 can look at it. -/

namespace Sys2Proof

/-- A register field: r0 to r15 (R33). -/
abbrev RegNum := Fin 16

/-- The sixteen values of the condition field (R151, R162), `nv` being 1111, which never passes (R143). -/
inductive Cond where
  | eq | ne | cs | cc | mi | pl | vs | vc | hi | ls | ge | lt | gt | le | al | nv
  deriving DecidableEq, Repr

/-- The shift types of R123. -/
inductive ShiftType where
  | lsl | lsr | asr | ror
  deriving DecidableEq, Repr

/-- The ALU opcodes of R118, in the order of their numbers. -/
inductive AluOp where
  | and | eor | sub | rsb | add | adc | sbc | rsc | tst | teq | cmp | cmn | orr | mov | bic | mvn
  deriving DecidableEq, Repr

/-- Operand 2 of data processing: the three forms of R121. -/
inductive Operand2 where
  | imm (rotate : BitVec 4) (imm8 : BitVec 8)
  | regImm (rm : RegNum) (ty : ShiftType) (amount : BitVec 5)
  | regReg (rm : RegNum) (ty : ShiftType) (rs : RegNum)
  deriving DecidableEq, Repr

/-- The offset of a single data transfer (R128). -/
inductive Offset where
  | imm (offset : BitVec 12)
  | reg (rm : RegNum) (ty : ShiftType) (amount : BitVec 5)
  deriving DecidableEq, Repr

/-- The offset of a halfword or signed transfer (R129); `sbz` is w[11:8] of the register form. -/
inductive HalfOffset where
  | imm (offset : BitVec 8)
  | reg (sbz : BitVec 4) (rm : RegNum)
  deriving DecidableEq, Repr

/-- The source of an MSR (R120); `sbz` is w[11:4] of the register form. -/
inductive PsrSource where
  | imm (rotate : BitVec 4) (imm8 : BitVec 8)
  | reg (sbz : BitVec 8) (rm : RegNum)
  deriving DecidableEq, Repr

/-- The instructions. `cond` is w[31:28] in every one of them (R100). -/
inductive Instr where
  -- data processing (R118): `sf` is S = w[20]
  | and (cond : Cond) (sf : Bool) (rn rd : RegNum) (op2 : Operand2)
  | eor (cond : Cond) (sf : Bool) (rn rd : RegNum) (op2 : Operand2)
  | sub (cond : Cond) (sf : Bool) (rn rd : RegNum) (op2 : Operand2)
  | rsb (cond : Cond) (sf : Bool) (rn rd : RegNum) (op2 : Operand2)
  | add (cond : Cond) (sf : Bool) (rn rd : RegNum) (op2 : Operand2)
  | adc (cond : Cond) (sf : Bool) (rn rd : RegNum) (op2 : Operand2)
  | sbc (cond : Cond) (sf : Bool) (rn rd : RegNum) (op2 : Operand2)
  | rsc (cond : Cond) (sf : Bool) (rn rd : RegNum) (op2 : Operand2)
  | tst (cond : Cond) (sf : Bool) (rn rd : RegNum) (op2 : Operand2)
  | teq (cond : Cond) (sf : Bool) (rn rd : RegNum) (op2 : Operand2)
  | cmp (cond : Cond) (sf : Bool) (rn rd : RegNum) (op2 : Operand2)
  | cmn (cond : Cond) (sf : Bool) (rn rd : RegNum) (op2 : Operand2)
  | orr (cond : Cond) (sf : Bool) (rn rd : RegNum) (op2 : Operand2)
  | mov (cond : Cond) (sf : Bool) (rn rd : RegNum) (op2 : Operand2)
  | bic (cond : Cond) (sf : Bool) (rn rd : RegNum) (op2 : Operand2)
  | mvn (cond : Cond) (sf : Bool) (rn rd : RegNum) (op2 : Operand2)
  -- PSR transfer (R119, R120, R357): `spsr` is Ps or Pd = w[22]
  | mrs (cond : Cond) (spsr : Bool) (rd : RegNum)
  | msrReg (cond : Cond) (spsr : Bool) (rm : RegNum)
  | msrFlg (cond : Cond) (spsr : Bool) (src : PsrSource)
  | msrGen (cond : Cond) (spsr : Bool) (mask : BitVec 4) (src : PsrSource)
  -- multiply (R124, R125)
  | mul (cond : Cond) (sf : Bool) (rd rn rs rm : RegNum)
  | mla (cond : Cond) (sf : Bool) (rd rn rs rm : RegNum)
  | umull (cond : Cond) (sf : Bool) (rdHi rdLo rs rm : RegNum)
  | umlal (cond : Cond) (sf : Bool) (rdHi rdLo rs rm : RegNum)
  | smull (cond : Cond) (sf : Bool) (rdHi rdLo rs rm : RegNum)
  | smlal (cond : Cond) (sf : Bool) (rdHi rdLo rs rm : RegNum)
  -- single data swap (R126): `sbz` is w[21:20]
  | swp (cond : Cond) (sbz : BitVec 2) (rn rd rm : RegNum)
  | swpb (cond : Cond) (sbz : BitVec 2) (rn rd rm : RegNum)
  -- branch and exchange (R127)
  | bx (cond : Cond) (rm : RegNum)
  -- halfword and signed transfer (R129): `p` P, `u` U, `w` W
  | ldrh (cond : Cond) (p u w : Bool) (rn rd : RegNum) (off : HalfOffset)
  | strh (cond : Cond) (p u w : Bool) (rn rd : RegNum) (off : HalfOffset)
  | ldrsb (cond : Cond) (p u w : Bool) (rn rd : RegNum) (off : HalfOffset)
  | ldrsh (cond : Cond) (p u w : Bool) (rn rd : RegNum) (off : HalfOffset)
  -- undefined encodings (R141 b, c, a): the bits the class leaves free
  | undefStoreSigned (cond : Cond) (hi : BitVec 4) (mid : BitVec 12) (h : Bool) (lo : BitVec 4)
  | undefHalfZero (cond : Cond) (hi : BitVec 5) (mid : BitVec 12) (lo : BitVec 4)
  | undefTrap (cond : Cond) (hi : BitVec 20) (lo : BitVec 4)
  -- single data transfer (R128): pre-indexed (P = 1), post-indexed (P = 0, W = 0), T forms (P = 0, W = 1)
  | ldrPre (cond : Cond) (u w : Bool) (rn rd : RegNum) (off : Offset)
  | ldrPost (cond : Cond) (u : Bool) (rn rd : RegNum) (off : Offset)
  | strPre (cond : Cond) (u w : Bool) (rn rd : RegNum) (off : Offset)
  | strPost (cond : Cond) (u : Bool) (rn rd : RegNum) (off : Offset)
  | ldrbPre (cond : Cond) (u w : Bool) (rn rd : RegNum) (off : Offset)
  | ldrbPost (cond : Cond) (u : Bool) (rn rd : RegNum) (off : Offset)
  | strbPre (cond : Cond) (u w : Bool) (rn rd : RegNum) (off : Offset)
  | strbPost (cond : Cond) (u : Bool) (rn rd : RegNum) (off : Offset)
  | ldrt (cond : Cond) (u : Bool) (rn rd : RegNum) (off : Offset)
  | strt (cond : Cond) (u : Bool) (rn rd : RegNum) (off : Offset)
  | ldrbt (cond : Cond) (u : Bool) (rn rd : RegNum) (off : Offset)
  | strbt (cond : Cond) (u : Bool) (rn rd : RegNum) (off : Offset)
  -- block data transfer (R130): `sb` is the S bit
  | ldm (cond : Cond) (p u sb w : Bool) (rn : RegNum) (list : BitVec 16)
  | stm (cond : Cond) (p u sb w : Bool) (rn : RegNum) (list : BitVec 16)
  -- branch (R131)
  | b (cond : Cond) (offset24 : BitVec 24)
  | bl (cond : Cond) (offset24 : BitVec 24)
  -- coprocessor (R132 to R134) and software interrupt (R135): `n` is the N bit
  | ldc (cond : Cond) (p u n w : Bool) (rn : RegNum) (crd cp : BitVec 4) (offset8 : BitVec 8)
  | stc (cond : Cond) (p u n w : Bool) (rn : RegNum) (crd cp : BitVec 4) (offset8 : BitVec 8)
  | swi (cond : Cond) (comment : BitVec 24)
  | cdp (cond : Cond) (op1 crn crd cp : BitVec 4) (op2 : BitVec 3) (crm : BitVec 4)
  | mcr (cond : Cond) (op1 : BitVec 3) (crn : BitVec 4) (rd : RegNum) (cp : BitVec 4) (op2 : BitVec 3) (crm : BitVec 4)
  | mrc (cond : Cond) (op1 : BitVec 3) (crn : BitVec 4) (rd : RegNum) (cp : BitVec 4) (op2 : BitVec 3) (crm : BitVec 4)
  deriving DecidableEq, Repr

/-- The condition field of an instruction (R100). -/
def Instr.cond : Instr → Cond
  | .and c .. | .eor c .. | .sub c .. | .rsb c .. | .add c .. | .adc c .. | .sbc c .. | .rsc c ..
  | .tst c .. | .teq c .. | .cmp c .. | .cmn c .. | .orr c .. | .mov c .. | .bic c .. | .mvn c ..
  | .mrs c .. | .msrReg c .. | .msrFlg c .. | .msrGen c ..
  | .mul c .. | .mla c .. | .umull c .. | .umlal c .. | .smull c .. | .smlal c ..
  | .swp c .. | .swpb c .. | .bx c ..
  | .ldrh c .. | .strh c .. | .ldrsb c .. | .ldrsh c ..
  | .undefStoreSigned c .. | .undefHalfZero c .. | .undefTrap c ..
  | .ldrPre c .. | .ldrPost c .. | .strPre c .. | .strPost c .. | .ldrbPre c .. | .ldrbPost c ..
  | .strbPre c .. | .strbPost c .. | .ldrt c .. | .strt c .. | .ldrbt c .. | .strbt c ..
  | .ldm c .. | .stm c .. | .b c .. | .bl c .. | .ldc c .. | .stc c .. | .swi c ..
  | .cdp c .. | .mcr c .. | .mrc c .. => c

/-- The rules that refuse an encoding, an operand or a mode as UNPREDICTABLE, by the name the refusal carries
(R15, and the UNPREDICTABLE cases P1 to P20 of 93_implementation_defined.md). -/
inductive UnpRule where
  | r32 | r41 | r142 | r167 | r220 | r222 | r223 | r248 | r249 | r271 | r277 | r283
  | r306 | r307 | r312 | r333 | r355 | r356 | r384
  deriving DecidableEq, Repr

end Sys2Proof
end

