-- ==== Sys2Proof/Machine/Checks.lean ====
section
/-! DEFINITION. The part of the well-formedness check WF(result, state) of R140 that reads the instruction alone:
should-be-zero fields, forbidden registers, overlapping registers (the "Refused" lists of 41_data_processing.md to
47_swi_coprocessor.md). The part that reads the mode or a register value is in Machine/Gate.lean. -/

namespace Sys2Proof

/-- The first of the listed conditions that holds names the refusal. -/
def firstRule : List (Bool × UnpRule) → Option UnpRule
  | [] => none
  | (true, r) :: _ => some r
  | (false, _) :: rest => firstRule rest

/-- R220: a register-specified shift with r15 in Rd, Rn, Rm or Rs. -/
def regShiftUsesPc (rn rd : RegNum) : Operand2 → Bool
  | .regReg rm _ rs => rd == 15 || rn == 15 || rm == 15 || rs == 15
  | _ => false

/-- The static refusals of the ten opcodes that read Rn and write Rd (R220). -/
def dataProcRule (rn rd : RegNum) (op2 : Operand2) : Option UnpRule :=
  firstRule [(regShiftUsesPc rn rd op2, .r220)]

/-- The static refusals of TST, TEQ, CMP and CMN: S = 0 (R221, whose refusal is named R142), Rd ≠ 0 (R222), R220. -/
def compareRule (sf : Bool) (rn rd : RegNum) (op2 : Operand2) : Option UnpRule :=
  firstRule [(!sf, .r142), (rd != 0, .r222), (regShiftUsesPc rn rd op2, .r220)]

/-- The static refusals of MOV and MVN: Rn ≠ 0 (R223), R220. -/
def moveRule (rn rd : RegNum) (op2 : Operand2) : Option UnpRule :=
  firstRule [(rn != 0, .r223), (regShiftUsesPc rn rd op2, .r220)]

/-- R356: MSR with Rm = 15 or w[11:4] ≠ 0 in the register form. -/
def psrSourceRule : PsrSource → Option UnpRule
  | .imm _ _ => none
  | .reg sbz rm => firstRule [(rm == 15, .r356), (sbz != 0, .r356)]

/-- R249, the operand restrictions of the long multiplies. -/
def mulLongRule (rdHi rdLo rs rm : RegNum) : Option UnpRule :=
  firstRule [(rdHi == rdLo || rdHi == rm || rdLo == rm, .r249),
    (rdHi == 15 || rdLo == 15 || rm == 15 || rs == 15, .r249)]

/-- R283, the restrictions of SWP and SWPB. -/
def swapRule (sbz : BitVec 2) (rn rd rm : RegNum) : Option UnpRule :=
  firstRule [(sbz != 0, .r283), (rd == 15 || rn == 15 || rm == 15, .r283), (rn == rm || rn == rd, .r283)]

/-- R271: the restrictions of a single data transfer; `byte` is B, `wb` is the write-back of R260. -/
def singleRule (byte wb : Bool) (rn rd : RegNum) : Offset → Option UnpRule
  | .imm _ => firstRule [(byte && rd == 15, .r271), (wb && (rn == 15 || rn == rd), .r271)]
  | .reg rm _ _ => firstRule [(byte && rd == 15, .r271), (wb && (rn == 15 || rn == rd), .r271),
      (rm == 15, .r271), (wb && rm == rn, .r271)]

/-- R277: the restrictions of a halfword or signed transfer. -/
def halfRule (p w : Bool) (rn rd : RegNum) (off : HalfOffset) : Option UnpRule :=
  let wb := !p || w
  match off with
  | .imm _ => firstRule [(rd == 15, .r277), (wb && (rn == 15 || rn == rd), .r277), (!p && w, .r277)]
  | .reg sbz rm => firstRule [(rd == 15, .r277), (wb && (rn == 15 || rn == rd), .r277), (!p && w, .r277),
      (rm == 15, .r277), (sbz != 0, .r277), (wb && rm == rn, .r277)]

/-- Whether register n is in a block transfer's list (R110: bit i set = register i in the list). -/
def inList (list : BitVec 16) (n : RegNum) : Bool := list.getLsbD n.val

/-- Whether a register lower than n is in the list. -/
def listedBelow (list : BitVec 16) (n : RegNum) : Bool := list &&& ((1#16 <<< n.val) - 1#16) != 0#16

/-- R312, R306, R307: the restrictions of LDM and STM that do not read the mode. -/
def blockRule (load sb w : Bool) (rn : RegNum) (list : BitVec 16) : Option UnpRule :=
  firstRule [(rn == 15, .r312), (list == 0, .r312),
    (sb && w && !(load && inList list 15), .r312),
    (!load && w && inList list rn && listedBelow list rn, .r306),
    (load && w && inList list rn, .r307)]

/-- R384, the restrictions of LDC and STC. -/
def coprocTransferRule (p w : Bool) (rn : RegNum) : Option UnpRule :=
  firstRule [((w || !p) && rn == 15, .r384), (!p && !w, .r384)]

/-- The rule that refuses the instruction whatever the state is, if one does (R140). -/
def Instr.staticRule : Instr → Option UnpRule
  | .and _ _ rn rd op2 | .eor _ _ rn rd op2 | .sub _ _ rn rd op2 | .rsb _ _ rn rd op2
  | .add _ _ rn rd op2 | .adc _ _ rn rd op2 | .sbc _ _ rn rd op2 | .rsc _ _ rn rd op2
  | .orr _ _ rn rd op2 | .bic _ _ rn rd op2 => dataProcRule rn rd op2
  | .tst _ sf rn rd op2 | .teq _ sf rn rd op2 | .cmp _ sf rn rd op2 | .cmn _ sf rn rd op2 =>
    compareRule sf rn rd op2
  | .mov _ _ rn rd op2 | .mvn _ _ rn rd op2 => moveRule rn rd op2
  | .mrs _ _ rd => firstRule [(rd == 15, .r356)]
  | .msrReg _ _ rm => firstRule [(rm == 15, .r356)]
  | .msrFlg _ _ src | .msrGen _ _ _ src => psrSourceRule src
  | .mul _ _ rd rn rs rm =>
    firstRule [(rd == rm, .r248), (rd == 15 || rm == 15 || rs == 15, .r248), (rn != 0, .r248)]
  | .mla _ _ rd rn rs rm =>
    firstRule [(rd == rm, .r248), (rd == 15 || rm == 15 || rs == 15, .r248), (rn == 15, .r248)]
  | .umull _ _ rdHi rdLo rs rm | .umlal _ _ rdHi rdLo rs rm
  | .smull _ _ rdHi rdLo rs rm | .smlal _ _ rdHi rdLo rs rm => mulLongRule rdHi rdLo rs rm
  | .swp _ sbz rn rd rm | .swpb _ sbz rn rd rm => swapRule sbz rn rd rm
  | .bx _ rm => firstRule [(rm == 15, .r333)]
  | .ldrh _ p _ w rn rd off | .strh _ p _ w rn rd off
  | .ldrsb _ p _ w rn rd off | .ldrsh _ p _ w rn rd off => halfRule p w rn rd off
  | .undefStoreSigned .. | .undefHalfZero .. | .undefTrap .. => none
  | .ldrPre _ _ w rn rd off | .strPre _ _ w rn rd off => singleRule false w rn rd off
  | .ldrPost _ _ rn rd off | .strPost _ _ rn rd off
  | .ldrt _ _ rn rd off | .strt _ _ rn rd off => singleRule false true rn rd off
  | .ldrbPre _ _ w rn rd off | .strbPre _ _ w rn rd off => singleRule true w rn rd off
  | .ldrbPost _ _ rn rd off | .strbPost _ _ rn rd off
  | .ldrbt _ _ rn rd off | .strbt _ _ rn rd off => singleRule true true rn rd off
  | .ldm _ _ _ sb w rn list => blockRule true sb w rn list
  | .stm _ _ _ sb w rn list => blockRule false sb w rn list
  | .b .. | .bl .. | .swi .. | .cdp .. | .mcr .. | .mrc .. => none
  | .ldc _ p _ _ w rn _ _ _ | .stc _ p _ _ w rn _ _ _ => coprocTransferRule p w rn

/-- The registers an instruction names in a register field it reads or writes, and r14 for BL, which writes it
implicitly: what the banked-register hazard of R463 looks at. -/
def Operand2.regs : Operand2 → List RegNum
  | .imm _ _ => []
  | .regImm rm _ _ => [rm]
  | .regReg rm _ rs => [rm, rs]

def Offset.regs : Offset → List RegNum
  | .imm _ => []
  | .reg rm _ _ => [rm]

def HalfOffset.regs : HalfOffset → List RegNum
  | .imm _ => []
  | .reg _ rm => [rm]

def PsrSource.regs : PsrSource → List RegNum
  | .imm _ _ => []
  | .reg _ rm => [rm]

/-- r0 to r15 in increasing register order (R301). -/
def allRegs : List RegNum := [0, 1, 2, 3, 4, 5, 6, 7, 8, 9, 10, 11, 12, 13, 14, 15]

/-- The registers of a block transfer's list, in increasing register order (R301). -/
def regList (list : BitVec 16) : List RegNum := allRegs.filter (inList list)

def Instr.namedRegs : Instr → List RegNum
  | .and _ _ rn rd op2 | .eor _ _ rn rd op2 | .sub _ _ rn rd op2 | .rsb _ _ rn rd op2
  | .add _ _ rn rd op2 | .adc _ _ rn rd op2 | .sbc _ _ rn rd op2 | .rsc _ _ rn rd op2
  | .orr _ _ rn rd op2 | .bic _ _ rn rd op2 => rn :: rd :: op2.regs
  | .tst _ _ rn _ op2 | .teq _ _ rn _ op2 | .cmp _ _ rn _ op2 | .cmn _ _ rn _ op2 => rn :: op2.regs
  | .mov _ _ _ rd op2 | .mvn _ _ _ rd op2 => rd :: op2.regs
  | .mrs _ _ rd => [rd]
  | .msrReg _ _ rm => [rm]
  | .msrFlg _ _ src | .msrGen _ _ _ src => src.regs
  | .mul _ _ rd _ rs rm => [rd, rs, rm]
  | .mla _ _ rd rn rs rm => [rd, rn, rs, rm]
  | .umull _ _ rdHi rdLo rs rm | .umlal _ _ rdHi rdLo rs rm
  | .smull _ _ rdHi rdLo rs rm | .smlal _ _ rdHi rdLo rs rm => [rdHi, rdLo, rs, rm]
  | .swp _ _ rn rd rm | .swpb _ _ rn rd rm => [rn, rd, rm]
  | .bx _ rm => [rm]
  | .ldrh _ _ _ _ rn rd off | .strh _ _ _ _ rn rd off
  | .ldrsb _ _ _ _ rn rd off | .ldrsh _ _ _ _ rn rd off => rn :: rd :: off.regs
  | .undefStoreSigned .. | .undefHalfZero .. | .undefTrap .. => []
  | .ldrPre _ _ _ rn rd off | .strPre _ _ _ rn rd off
  | .ldrPost _ _ rn rd off | .strPost _ _ rn rd off
  | .ldrt _ _ rn rd off | .strt _ _ rn rd off
  | .ldrbPre _ _ _ rn rd off | .strbPre _ _ _ rn rd off
  | .ldrbPost _ _ rn rd off | .strbPost _ _ rn rd off
  | .ldrbt _ _ rn rd off | .strbt _ _ rn rd off => rn :: rd :: off.regs
  | .ldm _ _ _ _ _ rn list | .stm _ _ _ _ _ rn list => rn :: regList list
  | .b .. => []
  | .bl .. => [14]
  | .swi .. | .cdp .. => []
  | .mcr _ _ _ rd _ _ _ | .mrc _ _ _ rd _ _ _ => [rd]
  | .ldc _ _ _ _ _ rn _ _ _ | .stc _ _ _ _ _ rn _ _ _ => [rn]

end Sys2Proof
end

