-- ==== Sys2Proof/WellFormed.lean ====
section
/-! DEFINITION. Well-formed instruction terms: what R153 calls a constructible instruction variant, and passes the
state-independent part of the check of R140 (Machine/Checks.lean). Two constructors have terms that stand for no
word, because an earlier step of R102 or R115 takes the word their fields spell: `canonical` rules those out. -/

namespace Sys2Proof

/-- R107: S = H = 0 is reached only by words that steps 1 to 3 did not take. With `hi` = w[24:20] and `mid` = w[19:8]:
not multiply (w[24:22] = 000), not multiply long (w[24:23] = 01), not swap (w[24:23] = 10 and w[11:8] = 0000). -/
def halfZeroCanonical (hi : BitVec 5) (mid : BitVec 12) : Bool :=
  !(hi.extractLsb' 2 3 == 0b000#3) && !(hi.extractLsb' 3 2 == 0b01#2) &&
    !(hi.extractLsb' 3 2 == 0b10#2 && mid.extractLsb' 0 4 == 0b0000#4)

/-- R357: mask 1000 never reaches MSR_gen, and the register form with mask 1001 and w[11:4] = 0 is MSR_reg. -/
def msrGenCanonical (mask : BitVec 4) (src : PsrSource) : Bool :=
  match src with
  | .imm _ _ => mask != 0b1000#4
  | .reg sbz _ => mask != 0b1000#4 && (mask != 0b1001#4 || sbz != 0#8)

/-- No earlier step of R102 or R115 takes the word of this term (among the terms that pass `staticRule`). -/
def Instr.canonical : Instr → Bool
  | .undefHalfZero _ hi mid _ => halfZeroCanonical hi mid
  | .msrGen _ _ mask src => msrGenCanonical mask src
  | _ => true

/-- The well-formedness check as a Bool. -/
def Instr.isWellFormed (i : Instr) : Bool := i.canonical && i.staticRule.isNone

abbrev Instr.WellFormed (i : Instr) : Prop := i.isWellFormed = true

end Sys2Proof
end

