-- ==== Sys2Proof/Decode.lean ====
section
/-! DEFINITION. The decoder (30_encoding.md R102 to R117), total on any word and on any bytes, and after it the
encoder, written from the same format tables (R118 to R136). -/

namespace Sys2Proof

/-! ### Fields -/

/-- w[lo + len - 1 : lo] (R8). -/
abbrev field (w : Word) (lo len : Nat) : BitVec len := w.extractLsb' lo len

/-- w[n] (R8). -/
abbrev bit (w : Word) (n : Nat) : Bool := w.getLsbD n

/-- A 4-bit register field as a register number. -/
def regField (w : Word) (lo : Nat) : RegNum := (field w lo 4).toFin

/-- The 4 bits of a register number. -/
def regBits (n : RegNum) : BitVec 4 := BitVec.ofFin n

/-- One bit. -/
def boolBit (b : Bool) : BitVec 1 := BitVec.ofBool b

/-! ### Code tables -/

/-- R151: the condition field values. -/
def Cond.bits : Cond → BitVec 4
  | .eq => 0b0000#4 | .ne => 0b0001#4 | .cs => 0b0010#4 | .cc => 0b0011#4
  | .mi => 0b0100#4 | .pl => 0b0101#4 | .vs => 0b0110#4 | .vc => 0b0111#4
  | .hi => 0b1000#4 | .ls => 0b1001#4 | .ge => 0b1010#4 | .lt => 0b1011#4
  | .gt => 0b1100#4 | .le => 0b1101#4 | .al => 0b1110#4 | .nv => 0b1111#4

def Cond.ofBits (v : BitVec 4) : Cond :=
  match v.toNat with
  | 0 => .eq | 1 => .ne | 2 => .cs | 3 => .cc | 4 => .mi | 5 => .pl | 6 => .vs | 7 => .vc
  | 8 => .hi | 9 => .ls | 10 => .ge | 11 => .lt | 12 => .gt | 13 => .le | 14 => .al | _ => .nv

/-- R118: the ALU opcode numbers. -/
def AluOp.bits : AluOp → BitVec 4
  | .and => 0b0000#4 | .eor => 0b0001#4 | .sub => 0b0010#4 | .rsb => 0b0011#4
  | .add => 0b0100#4 | .adc => 0b0101#4 | .sbc => 0b0110#4 | .rsc => 0b0111#4
  | .tst => 0b1000#4 | .teq => 0b1001#4 | .cmp => 0b1010#4 | .cmn => 0b1011#4
  | .orr => 0b1100#4 | .mov => 0b1101#4 | .bic => 0b1110#4 | .mvn => 0b1111#4

def AluOp.ofBits (v : BitVec 4) : AluOp :=
  match v.toNat with
  | 0 => .and | 1 => .eor | 2 => .sub | 3 => .rsb | 4 => .add | 5 => .adc | 6 => .sbc | 7 => .rsc
  | 8 => .tst | 9 => .teq | 10 => .cmp | 11 => .cmn | 12 => .orr | 13 => .mov | 14 => .bic | _ => .mvn

/-- R123: the shift type codes. -/
def ShiftType.bits : ShiftType → BitVec 2
  | .lsl => 0b00#2 | .lsr => 0b01#2 | .asr => 0b10#2 | .ror => 0b11#2

def ShiftType.ofBits (v : BitVec 2) : ShiftType :=
  match v.toNat with
  | 0 => .lsl | 1 => .lsr | 2 => .asr | _ => .ror

/-! ### Operand fields -/

/-- R121, selected by I = w[25] and w[4]. -/
def decodeOperand2 (w : Word) : Operand2 :=
  if bit w 25 then .imm (field w 8 4) (field w 0 8)
  else if bit w 4 then .regReg (regField w 0) (ShiftType.ofBits (field w 5 2)) (regField w 8)
  else .regImm (regField w 0) (ShiftType.ofBits (field w 5 2)) (field w 7 5)

/-- R128: I = 0 is the immediate, I = 1 the shifted register. -/
def decodeOffset (w : Word) : Offset :=
  if bit w 25 then .reg (regField w 0) (ShiftType.ofBits (field w 5 2)) (field w 7 5)
  else .imm (field w 0 12)

/-- R129: I = w[22] = 1 is the immediate. -/
def decodeHalfOffset (w : Word) : HalfOffset :=
  if bit w 22 then .imm (field w 8 4 ++ field w 0 4) else .reg (field w 8 4) (regField w 0)

/-- R120: I = w[25]. -/
def decodePsrSource (w : Word) : PsrSource :=
  if bit w 25 then .imm (field w 8 4) (field w 0 8) else .reg (field w 4 8) (regField w 0)

/-! ### The classes of R102 -/

/-- Step 1 (R103). -/
def decodeMul (c : Cond) (w : Word) : Instr :=
  let (s, rd, rn, rs, rm) := (bit w 20, regField w 16, regField w 12, regField w 8, regField w 0)
  if bit w 21 then .mla c s rd rn rs rm else .mul c s rd rn rs rm

/-- Step 2 (R104): U = w[22] is signed, A = w[21] accumulates. -/
def decodeMulLong (c : Cond) (w : Word) : Instr :=
  let (s, hi, lo, rs, rm) := (bit w 20, regField w 16, regField w 12, regField w 8, regField w 0)
  if bit w 22 then (if bit w 21 then .smlal c s hi lo rs rm else .smull c s hi lo rs rm)
  else (if bit w 21 then .umlal c s hi lo rs rm else .umull c s hi lo rs rm)

/-- Step 3 (R105): B = w[22]. -/
def decodeSwap (c : Cond) (w : Word) : Instr :=
  if bit w 22 then .swpb c (field w 20 2) (regField w 16) (regField w 12) (regField w 0)
  else .swp c (field w 20 2) (regField w 16) (regField w 12) (regField w 0)

/-- Step 5 (R107): sub-dispatch on L, S, H. -/
def decodeHalf (c : Cond) (w : Word) : Instr :=
  let (p, u, wb, rn, rd, off) :=
    (bit w 24, bit w 23, bit w 21, regField w 16, regField w 12, decodeHalfOffset w)
  match bit w 20, bit w 6, bit w 5 with
  | true, false, true => .ldrh c p u wb rn rd off
  | true, true, false => .ldrsb c p u wb rn rd off
  | true, true, true => .ldrsh c p u wb rn rd off
  | false, false, true => .strh c p u wb rn rd off
  | false, true, h => .undefStoreSigned c (field w 21 4) (field w 8 12) h (field w 0 4)
  | _, false, false => .undefHalfZero c (field w 20 5) (field w 8 12) (field w 0 4)

/-- Step 7 (R109): B = w[22], L = w[20]; P = w[24] and W = w[21] tell the pre-indexed, post-indexed and T forms
apart (R262). -/
def decodeSingle (c : Cond) (w : Word) : Instr :=
  let (u, wb, rn, rd, off) := (bit w 23, bit w 21, regField w 16, regField w 12, decodeOffset w)
  match bit w 24, bit w 22, bit w 20 with
  | true, false, true => .ldrPre c u wb rn rd off
  | true, false, false => .strPre c u wb rn rd off
  | true, true, true => .ldrbPre c u wb rn rd off
  | true, true, false => .strbPre c u wb rn rd off
  | false, false, true => if wb then .ldrt c u rn rd off else .ldrPost c u rn rd off
  | false, false, false => if wb then .strt c u rn rd off else .strPost c u rn rd off
  | false, true, true => if wb then .ldrbt c u rn rd off else .ldrbPost c u rn rd off
  | false, true, false => if wb then .strbt c u rn rd off else .strbPost c u rn rd off

/-- Step 8 (R110). -/
def decodeBlock (c : Cond) (w : Word) : Instr :=
  if bit w 20 then .ldm c (bit w 24) (bit w 23) (bit w 22) (bit w 21) (regField w 16) (field w 0 16)
  else .stm c (bit w 24) (bit w 23) (bit w 22) (bit w 21) (regField w 16) (field w 0 16)

/-- Step 10 (R112, R132). -/
def decodeCoprocTransfer (c : Cond) (w : Word) : Instr :=
  if bit w 20 then
    .ldc c (bit w 24) (bit w 23) (bit w 22) (bit w 21) (regField w 16) (field w 12 4) (field w 8 4) (field w 0 8)
  else
    .stc c (bit w 24) (bit w 23) (bit w 22) (bit w 21) (regField w 16) (field w 12 4) (field w 8 4) (field w 0 8)

/-- Step 12 (R114, R133, R134). -/
def decodeCoproc (c : Cond) (w : Word) : Instr :=
  if bit w 4 then
    if bit w 20 then
      .mrc c (field w 21 3) (field w 16 4) (regField w 12) (field w 8 4) (field w 5 3) (field w 0 4)
    else
      .mcr c (field w 21 3) (field w 16 4) (regField w 12) (field w 8 4) (field w 5 3) (field w 0 4)
  else .cdp c (field w 20 4) (field w 16 4) (field w 12 4) (field w 8 4) (field w 5 3) (field w 0 4)

/-- The ALU form of step 13 (R115 item 4). -/
def dataProcInstr : AluOp → Cond → Bool → RegNum → RegNum → Operand2 → Instr
  | .and => .and | .eor => .eor | .sub => .sub | .rsb => .rsb | .add => .add | .adc => .adc | .sbc => .sbc
  | .rsc => .rsc | .tst => .tst | .teq => .teq | .cmp => .cmp | .cmn => .cmn | .orr => .orr | .mov => .mov
  | .bic => .bic | .mvn => .mvn

/-- Step 13 (R115), with the fifth shape of R357 when `general` (MSR_GENERAL_MASK) is true. -/
def decodeDataProc (general : Bool) (c : Cond) (w : Word) : Instr :=
  if field w 23 5 == 0b00010#5 && field w 16 6 == 0b001111#6 && field w 0 12 == 0#12 then
    .mrs c (bit w 22) (regField w 12)
  else if field w 23 5 == 0b00010#5 && field w 4 18 == 0x29F00#18 then
    .msrReg c (bit w 22) (regField w 0)
  else if field w 23 2 == 0b10#2 && field w 12 10 == 0x28F#10 then
    .msrFlg c (bit w 22) (decodePsrSource w)
  else if general && field w 23 2 == 0b10#2 && field w 20 2 == 0b10#2 && field w 12 4 == 0b1111#4 then
    .msrGen c (bit w 22) (field w 16 4) (decodePsrSource w)
  else
    dataProcInstr (AluOp.ofBits (field w 21 4)) c (bit w 20) (regField w 16) (regField w 12) (decodeOperand2 w)

/-- Why bytes give no instruction: fewer than four of them, or a word that no step of R102 takes (R116: there is
none). -/
inductive DecodeError where
  | truncated
  | decoderDefect
  deriving DecidableEq, Repr

/-- The ordered decode tree of R102, steps 1 to 13. -/
def decodeWord (general : Bool) (w : Word) : Except DecodeError Instr :=
  let c := Cond.ofBits (field w 28 4)
  if field w 22 6 == 0b000000#6 && field w 4 4 == 0b1001#4 then .ok (decodeMul c w)
  else if field w 23 5 == 0b00001#5 && field w 4 4 == 0b1001#4 then .ok (decodeMulLong c w)
  else if field w 23 5 == 0b00010#5 && field w 4 8 == 0b00001001#8 then .ok (decodeSwap c w)
  else if field w 4 24 == 0x12FFF1#24 then .ok (.bx c (regField w 0))
  else if field w 25 3 == 0b000#3 && bit w 7 && bit w 4 then .ok (decodeHalf c w)
  else if field w 25 3 == 0b011#3 && bit w 4 then .ok (.undefTrap c (field w 5 20) (field w 0 4))
  else if field w 26 2 == 0b01#2 then .ok (decodeSingle c w)
  else if field w 25 3 == 0b100#3 then .ok (decodeBlock c w)
  else if field w 25 3 == 0b101#3 then .ok (if bit w 24 then .bl c (field w 0 24) else .b c (field w 0 24))
  else if field w 25 3 == 0b110#3 then .ok (decodeCoprocTransfer c w)
  else if field w 24 4 == 0b1111#4 then .ok (.swi c (field w 0 24))
  else if field w 24 4 == 0b1110#4 then .ok (decodeCoproc c w)
  else if field w 26 2 == 0b00#2 then .ok (decodeDataProc general c w)
  else .error .decoderDefect

/-- R71: the word whose bytes stand at a, a + 1, a + 2, a + 3. -/
def wordOfBytes (b0 b1 b2 b3 : Byte) : Word := b3 ++ b2 ++ b1 ++ b0

/-- R71: the bytes of a word, least significant (lowest address) first. -/
def bytesOfWord (w : Word) : List Byte := [field w 0 8, field w 8 8, field w 16 8, field w 24 8]

/-- The decoder on bytes as they stand in memory: the instruction and the bytes after it (R100: 4 bytes each). -/
def decodeBytes (general : Bool) : List Byte → Except DecodeError (Instr × List Byte)
  | b0 :: b1 :: b2 :: b3 :: rest =>
    match decodeWord general (wordOfBytes b0 b1 b2 b3) with
    | .ok i => .ok (i, rest)
    | .error e => .error e
  | _ => .error .truncated

/-- The instruction the decoder reads from an instruction word numbered as the opcode table numbers it, under the
MSR_GENERAL_MASK of State.reset. -/
def decodeTableWord (nbits w : Nat) : Option Instr :=
  match decodeBytes Config.resetPolicy.msrGeneralMask (bytesOfWord (BitVec.ofNat 32 (w % 2 ^ nbits))) with
  | .ok (i, _) => some i
  | .error _ => none

/-! ### The encoder -/

/-- I = w[25] and w[11:0] of R121. -/
def Operand2.iBit : Operand2 → BitVec 1
  | .imm _ _ => 0b1#1
  | _ => 0b0#1

def Operand2.bits : Operand2 → BitVec 12
  | .imm rotate imm8 => rotate ++ imm8
  | .regImm rm ty amount => amount ++ ty.bits ++ 0b0#1 ++ regBits rm
  | .regReg rm ty rs => regBits rs ++ 0b0#1 ++ ty.bits ++ 0b1#1 ++ regBits rm

/-- I = w[25] and w[11:0] of R128. -/
def Offset.iBit : Offset → BitVec 1
  | .imm _ => 0b0#1
  | .reg .. => 0b1#1

def Offset.bits : Offset → BitVec 12
  | .imm offset => offset
  | .reg rm ty amount => amount ++ ty.bits ++ 0b0#1 ++ regBits rm

/-- I = w[22], w[11:8] and w[3:0] of R129. -/
def HalfOffset.iBit : HalfOffset → BitVec 1
  | .imm _ => 0b1#1
  | .reg .. => 0b0#1

def HalfOffset.hiBits : HalfOffset → BitVec 4
  | .imm offset => offset.extractLsb' 4 4
  | .reg sbz _ => sbz

def HalfOffset.loBits : HalfOffset → BitVec 4
  | .imm offset => offset.extractLsb' 0 4
  | .reg _ rm => regBits rm

/-- I = w[25] and w[11:0] of R120. -/
def PsrSource.iBit : PsrSource → BitVec 1
  | .imm .. => 0b1#1
  | .reg .. => 0b0#1

def PsrSource.bits : PsrSource → BitVec 12
  | .imm rotate imm8 => rotate ++ imm8
  | .reg sbz rm => sbz ++ regBits rm

/-- R118. -/
def encodeDataProc (op : AluOp) (c : Cond) (sf : Bool) (rn rd : RegNum) (op2 : Operand2) : Word :=
  c.bits ++ 0b00#2 ++ op2.iBit ++ op.bits ++ boolBit sf ++ regBits rn ++ regBits rd ++ op2.bits

/-- R124. -/
def encodeMul (a : BitVec 1) (c : Cond) (sf : Bool) (rd rn rs rm : RegNum) : Word :=
  c.bits ++ 0b000000#6 ++ a ++ boolBit sf ++ regBits rd ++ regBits rn ++ regBits rs ++ 0b1001#4 ++ regBits rm

/-- R125. -/
def encodeMulLong (u a : BitVec 1) (c : Cond) (sf : Bool) (rdHi rdLo rs rm : RegNum) : Word :=
  c.bits ++ 0b00001#5 ++ u ++ a ++ boolBit sf ++ regBits rdHi ++ regBits rdLo ++ regBits rs ++ 0b1001#4 ++
    regBits rm

/-- R126. -/
def encodeSwap (b : BitVec 1) (c : Cond) (sbz : BitVec 2) (rn rd rm : RegNum) : Word :=
  c.bits ++ 0b00010#5 ++ b ++ sbz ++ regBits rn ++ regBits rd ++ 0b00001001#8 ++ regBits rm

/-- R129. -/
def encodeHalf (l s h : BitVec 1) (c : Cond) (p u w : Bool) (rn rd : RegNum) (off : HalfOffset) : Word :=
  c.bits ++ 0b000#3 ++ boolBit p ++ boolBit u ++ off.iBit ++ boolBit w ++ l ++ regBits rn ++ regBits rd ++
    off.hiBits ++ 0b1#1 ++ s ++ h ++ 0b1#1 ++ off.loBits

/-- R128. -/
def encodeSingle (p : BitVec 1) (b : BitVec 1) (w : Bool) (l : BitVec 1) (c : Cond) (u : Bool) (rn rd : RegNum)
    (off : Offset) : Word :=
  c.bits ++ 0b01#2 ++ off.iBit ++ p ++ boolBit u ++ b ++ boolBit w ++ l ++ regBits rn ++ regBits rd ++ off.bits

/-- R130. -/
def encodeBlock (l : BitVec 1) (c : Cond) (p u sb w : Bool) (rn : RegNum) (list : BitVec 16) : Word :=
  c.bits ++ 0b100#3 ++ boolBit p ++ boolBit u ++ boolBit sb ++ boolBit w ++ l ++ regBits rn ++ list

/-- R132. -/
def encodeCoprocTransfer (l : BitVec 1) (c : Cond) (p u n w : Bool) (rn : RegNum) (crd cp : BitVec 4)
    (offset8 : BitVec 8) : Word :=
  c.bits ++ 0b110#3 ++ boolBit p ++ boolBit u ++ boolBit n ++ boolBit w ++ l ++ regBits rn ++ crd ++ cp ++ offset8

/-- R134. -/
def encodeCoprocReg (l : BitVec 1) (c : Cond) (op1 : BitVec 3) (crn : BitVec 4) (rd : RegNum) (cp : BitVec 4)
    (op2 : BitVec 3) (crm : BitVec 4) : Word :=
  c.bits ++ 0b1110#4 ++ op1 ++ l ++ crn ++ regBits rd ++ cp ++ op2 ++ 0b1#1 ++ crm

/-- The word of an instruction: every fixed field of R118 to R136 with its pattern (R153). -/
def encode : Instr → Word
  | .and c s rn rd o => encodeDataProc .and c s rn rd o
  | .eor c s rn rd o => encodeDataProc .eor c s rn rd o
  | .sub c s rn rd o => encodeDataProc .sub c s rn rd o
  | .rsb c s rn rd o => encodeDataProc .rsb c s rn rd o
  | .add c s rn rd o => encodeDataProc .add c s rn rd o
  | .adc c s rn rd o => encodeDataProc .adc c s rn rd o
  | .sbc c s rn rd o => encodeDataProc .sbc c s rn rd o
  | .rsc c s rn rd o => encodeDataProc .rsc c s rn rd o
  | .tst c s rn rd o => encodeDataProc .tst c s rn rd o
  | .teq c s rn rd o => encodeDataProc .teq c s rn rd o
  | .cmp c s rn rd o => encodeDataProc .cmp c s rn rd o
  | .cmn c s rn rd o => encodeDataProc .cmn c s rn rd o
  | .orr c s rn rd o => encodeDataProc .orr c s rn rd o
  | .mov c s rn rd o => encodeDataProc .mov c s rn rd o
  | .bic c s rn rd o => encodeDataProc .bic c s rn rd o
  | .mvn c s rn rd o => encodeDataProc .mvn c s rn rd o
  | .mrs c ps rd => c.bits ++ 0b00010#5 ++ boolBit ps ++ 0b001111#6 ++ regBits rd ++ 0#12
  | .msrReg c pd rm => c.bits ++ 0b00010#5 ++ boolBit pd ++ 0b1010011111#10 ++ 0#8 ++ regBits rm
  | .msrFlg c pd src =>
    c.bits ++ 0b00#2 ++ src.iBit ++ 0b10#2 ++ boolBit pd ++ 0b1010001111#10 ++ src.bits
  | .msrGen c pd mask src =>
    c.bits ++ 0b00#2 ++ src.iBit ++ 0b10#2 ++ boolBit pd ++ 0b10#2 ++ mask ++ 0b1111#4 ++ src.bits
  | .mul c s rd rn rs rm => encodeMul 0b0#1 c s rd rn rs rm
  | .mla c s rd rn rs rm => encodeMul 0b1#1 c s rd rn rs rm
  | .umull c s hi lo rs rm => encodeMulLong 0b0#1 0b0#1 c s hi lo rs rm
  | .umlal c s hi lo rs rm => encodeMulLong 0b0#1 0b1#1 c s hi lo rs rm
  | .smull c s hi lo rs rm => encodeMulLong 0b1#1 0b0#1 c s hi lo rs rm
  | .smlal c s hi lo rs rm => encodeMulLong 0b1#1 0b1#1 c s hi lo rs rm
  | .swp c z rn rd rm => encodeSwap 0b0#1 c z rn rd rm
  | .swpb c z rn rd rm => encodeSwap 0b1#1 c z rn rd rm
  | .bx c rm => c.bits ++ 0x12FFF1#24 ++ regBits rm
  | .ldrh c p u w rn rd off => encodeHalf 0b1#1 0b0#1 0b1#1 c p u w rn rd off
  | .strh c p u w rn rd off => encodeHalf 0b0#1 0b0#1 0b1#1 c p u w rn rd off
  | .ldrsb c p u w rn rd off => encodeHalf 0b1#1 0b1#1 0b0#1 c p u w rn rd off
  | .ldrsh c p u w rn rd off => encodeHalf 0b1#1 0b1#1 0b1#1 c p u w rn rd off
  | .undefStoreSigned c hi mid h lo =>
    c.bits ++ 0b000#3 ++ hi ++ 0b0#1 ++ mid ++ 0b1#1 ++ 0b1#1 ++ boolBit h ++ 0b1#1 ++ lo
  | .undefHalfZero c hi mid lo => c.bits ++ 0b000#3 ++ hi ++ mid ++ 0b1001#4 ++ lo
  | .undefTrap c hi lo => c.bits ++ 0b011#3 ++ hi ++ 0b1#1 ++ lo
  | .ldrPre c u w rn rd off => encodeSingle 0b1#1 0b0#1 w 0b1#1 c u rn rd off
  | .ldrPost c u rn rd off => encodeSingle 0b0#1 0b0#1 false 0b1#1 c u rn rd off
  | .strPre c u w rn rd off => encodeSingle 0b1#1 0b0#1 w 0b0#1 c u rn rd off
  | .strPost c u rn rd off => encodeSingle 0b0#1 0b0#1 false 0b0#1 c u rn rd off
  | .ldrbPre c u w rn rd off => encodeSingle 0b1#1 0b1#1 w 0b1#1 c u rn rd off
  | .ldrbPost c u rn rd off => encodeSingle 0b0#1 0b1#1 false 0b1#1 c u rn rd off
  | .strbPre c u w rn rd off => encodeSingle 0b1#1 0b1#1 w 0b0#1 c u rn rd off
  | .strbPost c u rn rd off => encodeSingle 0b0#1 0b1#1 false 0b0#1 c u rn rd off
  | .ldrt c u rn rd off => encodeSingle 0b0#1 0b0#1 true 0b1#1 c u rn rd off
  | .strt c u rn rd off => encodeSingle 0b0#1 0b0#1 true 0b0#1 c u rn rd off
  | .ldrbt c u rn rd off => encodeSingle 0b0#1 0b1#1 true 0b1#1 c u rn rd off
  | .strbt c u rn rd off => encodeSingle 0b0#1 0b1#1 true 0b0#1 c u rn rd off
  | .ldm c p u sb w rn list => encodeBlock 0b1#1 c p u sb w rn list
  | .stm c p u sb w rn list => encodeBlock 0b0#1 c p u sb w rn list
  | .b c offset24 => c.bits ++ 0b101#3 ++ 0b0#1 ++ offset24
  | .bl c offset24 => c.bits ++ 0b101#3 ++ 0b1#1 ++ offset24
  | .ldc c p u n w rn crd cp offset8 => encodeCoprocTransfer 0b1#1 c p u n w rn crd cp offset8
  | .stc c p u n w rn crd cp offset8 => encodeCoprocTransfer 0b0#1 c p u n w rn crd cp offset8
  | .swi c comment => c.bits ++ 0b1111#4 ++ comment
  | .cdp c op1 crn crd cp op2 crm => c.bits ++ 0b1110#4 ++ op1 ++ crn ++ crd ++ cp ++ op2 ++ 0b0#1 ++ crm
  | .mcr c op1 crn rd cp op2 crm => encodeCoprocReg 0b0#1 c op1 crn rd cp op2 crm
  | .mrc c op1 crn rd cp op2 crm => encodeCoprocReg 0b1#1 c op1 crn rd cp op2 crm

end Sys2Proof
end

