-- ==== Sys2Proof/Machine/State.lean ====
section
/-! DEFINITION. The state of the machine: the record of R55 (31 physical general registers, the CPSR, five SPSRs,
the hazard tracker, the fault and refusal marks), and beside it the collaborators the core reaches through
interfaces, as plain data: memory (R70, R71, R85), the coprocessors (R378), the host's inputs of the coming steps
(R404), and the choices the host made (R7). -/

namespace Sys2Proof.Machine

/-! ### The collaborators -/

/-- The bytes of the one address space of R81 that read as something other than an unlisted byte, in canonical form
(Machine/Memory.lean, `Memory.wf`). -/
structure Memory where
  cells : List Host.Cell
  deriving DecidableEq, Repr

/-- An access is a read, as the fetch is, or a write (R70). -/
inductive AccessKind where
  | read | write
  deriving DecidableEq, Repr

/-- Addresses at which the byte array aborts (R70, R83): `size` bytes from `base`, for the kinds of access that are
set. -/
structure AbortRegion where
  base : Nat
  size : Nat
  onRead : Bool
  onWrite : Bool
  deriving DecidableEq, Repr

/-- One answer of the memory collaborator (R70): an abort, or done; a read that does not abort returns `value`, of
which a byte or halfword read takes the low bits. -/
structure MemAnswer where
  aborts : Bool
  value : Word
  deriving DecidableEq, Repr

/-- What the memory collaborator answers to one request in one of its states, and the state it goes to (R80, R85). -/
structure MemRule where
  own : Nat
  request : MemRequest
  answer : MemAnswer
  next : Nat
  deriving DecidableEq, Repr

/-- Addresses of devices (R80, R83): `size` bytes from `base`, whose answers no rule need give. -/
structure DeviceRegion where
  base : Nat
  size : Nat
  deriving DecidableEq, Repr

/-- The memory collaborator beside its byte array (R70, R80, R85): its own state, what it answers by rule, its devices,
and the requests it has received, newest first. -/
structure Bus where
  own : Nat
  rules : List MemRule
  devices : List DeviceRegion
  requests : List MemRequest
  deriving DecidableEq, Repr

/-- One answer of the COPROC collaborator (R378): `present` is Ok rather than Absent, `value` the word of Ok(value),
and `more` + 1 the count of Ok(count), which is 1 to 16. A request reads the parts its row of R378 names. -/
structure CoprocAnswer where
  present : Bool
  value : Word
  more : Fin 16
  deriving DecidableEq, Repr

/-- One coprocessor number (R375): whether a coprocessor is registered for it, and that coprocessor's own state
(R376, R378). -/
structure CoprocUnit where
  registered : Bool
  own : Nat
  deriving DecidableEq, Repr

/-- What a registered coprocessor answers to one request, which carries its number, in one of its own states, and the
state it goes to (R378). -/
structure CoprocRule where
  own : Nat
  request : CoprocRequest
  answer : CoprocAnswer
  next : Nat
  deriving DecidableEq, Repr

/-- The COPROC collaborator (R375, R376, R378): the sixteen coprocessor numbers, what the registered ones answer by
rule, and the requests received, newest first. -/
structure CoprocPort where
  units : Vector CoprocUnit 16
  rules : List CoprocRule
  requests : List CoprocRequest
  deriving DecidableEq, Repr

/-- Memory and the two collaborators as a fault or a refusal in the midst of Execute leaves them: what was written and
asked before it stays (R80, R85, R166). -/
structure Collaborators where
  memory : Memory
  bus : Bus
  coproc : CoprocPort
  deriving DecidableEq, Repr

/-! ### Why a step stops (R15) -/

/-- The faults of R15: a step that ends so is never a successful end. -/
inductive Fault where
  /-- Raised by a condition-passed `Undefined` word under UNDEF_POLICY = Halt (R385). Safe: the spec's own halt. -/
  | undefinedHalt
  /-- Raised by a coprocessor instruction whose coprocessor is absent under COPROC_ABSENT_POLICY = Halt (R377).
  `kept`: the collaborators after the request. Safe: the spec's own halt. -/
  | coprocessorHalt (kept : Collaborators)
  /-- Raised by a data write into pc + 4 to pc + 11 (R462). `kept`: memory and the collaborators just before that
  write, the words an STM or STC wrote earlier among them (R166). Safe: the silicon goes on with the old words. -/
  | prefetchHazard (kept : Collaborators)
  /-- Raised by an instruction that names a banked register directly after a User-bank LDM (R463). Safe: the
  silicon's result is not defined. -/
  | bankedAfterUserTransfer
  /-- Raised by a word that no step of the decode tree takes (R116). Safe: it is unreachable. -/
  | decoderDefect
  deriving DecidableEq, Repr

/-- The refusals of R15: the model gives the instruction or the state no meaning. -/
inductive Refusal where
  /-- Raised by an arm of exec whose instruction has no meaning yet. Safe: it removes runs. -/
  | notModelled (mnemonic : String)
  /-- Raised by the check of R140 for what the architecture leaves UNPREDICTABLE, under the rule's name. Safe: it
  removes runs. -/
  | unpredictable (rule : UnpRule)
  /-- Raised by a fetch with T = 1 (R161). Safe: it removes runs. -/
  | thumbUnsupported
  /-- Raised by a coprocessor instruction whose coprocessor is absent under COPROC_ABSENT_POLICY = Refuse (R377).
  `kept`: the collaborators after the request. Safe: it removes runs. -/
  | coprocessorAbsent (cp : BitVec 4) (kept : Collaborators)
  /-- Raised by a halfword access at an odd address under HALF_MISALIGN = Refuse (R73). Safe: it removes runs. -/
  | halfMisaligned
  deriving DecidableEq, Repr

/-! ### Processor state -/

/-- The modes of R31. -/
inductive Mode where
  | user | fiq | irq | supervisor | abort | undefined | system
  deriving DecidableEq, Repr

/-- The columns of the bank map of R35. -/
inductive Bank where
  | usr | fiq | irq | svc | abt | und
  deriving DecidableEq, Repr

/-- A program status register (R42), the CPSR or an SPSR. Bits 27:8 hold no state: they read as zero and ignore
writes (R51). `m` is M[4:0], which may be an illegal value in an SPSR (R32). -/
structure Psr where
  n : Bool
  z : Bool
  c : Bool
  v : Bool
  i : Bool
  f : Bool
  t : Bool
  m : BitVec 5
  deriving DecidableEq, Repr

/-- The physical registers of R34 other than the PC. -/
inductive PhysReg where
  /-- R0 to R7. -/
  | low (n : Fin 8)
  /-- R8 to R12 of every mode but FIQ. -/
  | mid (n : Fin 5)
  /-- R8_fiq to R12_fiq. -/
  | midFiq (n : Fin 5)
  /-- R13 of a bank. -/
  | r13 (bank : Bank)
  /-- R14 of a bank. -/
  | r14 (bank : Bank)
  deriving DecidableEq, Repr

/-- The six copies of R13 or of R14 (R34). -/
structure Banked where
  usr : Word
  fiq : Word
  irq : Word
  svc : Word
  abt : Word
  und : Word
  deriving DecidableEq, Repr

/-- The 30 physical general registers of R34 beside the PC. -/
structure RegFile where
  low : Vector Word 8
  mid : Vector Word 5
  midFiq : Vector Word 5
  r13 : Banked
  r14 : Banked
  deriving DecidableEq, Repr

/-- The five saved status registers of R40. -/
structure SpsrFile where
  fiq : Psr
  irq : Psr
  svc : Psr
  abt : Psr
  und : Psr
  deriving DecidableEq, Repr

/-- What the host asserts at one step boundary (R404; reset of R160). -/
structure HostInputs where
  reset : Bool
  fiq : Bool
  irq : Bool
  deriving DecidableEq, Repr

/-- The state of the machine. -/
structure State where
  /-- The physical general registers (R34). -/
  regs : RegFile
  /-- The address of the instruction being executed (R38). -/
  pc : Word
  /-- The current program status register (R40, R42). -/
  cpsr : Psr
  /-- SPSR_fiq, SPSR_irq, SPSR_svc, SPSR_abt, SPSR_und (R40). -/
  spsrs : SpsrFile
  /-- The hazard tracker of R54, R463. -/
  lastUserBankTransfer : Bool
  /-- The fault mark of R15, R55. -/
  faultMark : Option Fault
  /-- The refusal mark of R15, R55. -/
  refusalMark : Option Refusal
  /-- The byte array behind the interface of R70 (R71, R85). -/
  memory : Memory
  /-- The accesses the byte array aborts (R70, R83). -/
  abortMap : List AbortRegion
  /-- The memory collaborator beside its byte array, and the accesses made of it (R70, R80, R85). -/
  bus : Bus
  /-- The COPROC collaborator (R378). -/
  coproc : CoprocPort
  /-- What the host asserts at the coming step boundaries, next first; nothing is asserted after the last (R404). -/
  inputs : List HostInputs
  /-- The host's choices (R7). -/
  policy : Policy
  /-- The model's own: how many free values have been drawn. -/
  freeCount : Nat
  deriving DecidableEq, Repr

/-- The outcome of a step or of an instruction (R15). -/
abbrev Result := Host.Outcome State Fault Refusal

/-- The value of a register, a flag or an SPSR that reset leaves unspecified (R58 to R60, LAUNCH). DESIGN CHOICE,
unsafe: log entry 2. -/
def launchBanked : Banked where
  usr := 0#32
  fiq := 0#32
  irq := 0#32
  svc := 0#32
  abt := 0#32
  und := 0#32

def launchPsr : Psr where
  n := false
  z := false
  c := false
  v := false
  i := false
  f := false
  t := false
  m := 0b00000#5

/-- The machine right after reset (R57 to R61, R452): Supervisor mode, I = F = 1, T = 0, pc = 0, no tracker, no
marks; every other register at the LAUNCH value of log entry 2; memory with nothing listed, no rule, no device
(log entries 3, 4) and no coprocessor registered (log entry 8). -/
def State.reset : State where
  regs := {
    low := Vector.replicate 8 0#32
    mid := Vector.replicate 5 0#32
    midFiq := Vector.replicate 5 0#32
    r13 := launchBanked
    r14 := launchBanked }
  pc := 0x00000000#32
  cpsr := { launchPsr with i := true, f := true, t := false, m := 0b10011#5 }
  spsrs := { fiq := launchPsr, irq := launchPsr, svc := launchPsr, abt := launchPsr, und := launchPsr }
  lastUserBankTransfer := false
  faultMark := none
  refusalMark := none
  memory := { cells := [] }
  abortMap := []
  bus := { own := 0, rules := [], devices := [], requests := [] }
  coproc := { units := Vector.replicate 16 { registered := false, own := 0 }, rules := [], requests := [] }
  inputs := []
  policy := Config.resetPolicy
  freeCount := 0

end Sys2Proof.Machine
end

