-- ==== Sys2Proof/Machine/Memory.lean ====
section
/-! DEFINITION. Memory behind the interface of R70: bytes in one canonical list, little-endian words and halfwords
built from bytes in one place (R71), the alignment masks of R72 and R73, the collaborator's aborts, and the prefetch
window of R462. -/

namespace Sys2Proof.Machine

/-! ### The canonical list of bytes -/

/-- The byte at an address. -/
def readCells : List Host.Cell → Nat → Byte
  | [], _ => Config.unlistedByte
  | (k, v) :: rest, a => if k = a then v else readCells rest a

/-- Writing a byte keeps the canonical form: addresses rising, no entry equal to an unlisted byte. -/
def writeCells : List Host.Cell → Nat → Byte → List Host.Cell
  | [], a, v => if v = Config.unlistedByte then [] else [(a, v)]
  | (k, u) :: rest, a, v =>
    if a < k then (if v = Config.unlistedByte then (k, u) :: rest else (a, v) :: (k, u) :: rest)
    else if a = k then (if v = Config.unlistedByte then rest else (a, v) :: rest)
    else (k, u) :: writeCells rest a v

/-- Every address is at least `lo` and below 2^32 (R81), the addresses rise strictly, and no entry equals what an
unlisted address reads as. -/
def cellsWf : Nat → List Host.Cell → Bool
  | _, [] => true
  | lo, (k, v) :: rest => decide (lo ≤ k) && decide (k < 2 ^ 32) && (v != Config.unlistedByte) && cellsWf (k + 1) rest

/-- The canonical form of memory. -/
def Memory.wf (m : Memory) : Bool := cellsWf 0 m.cells

def Memory.readByte (m : Memory) (a : Word) : Byte := readCells m.cells a.toNat

def Memory.writeByte (m : Memory) (a : Word) (v : Byte) : Memory := { cells := writeCells m.cells a.toNat v }

/-- R71: `concat(b[a+1], b[a])`. -/
def Memory.readHalf (m : Memory) (a : Word) : BitVec 16 := m.readByte (a + 1#32) ++ m.readByte a

/-- R71: `concat(b[a+3], b[a+2], b[a+1], b[a])`. -/
def Memory.readWord (m : Memory) (a : Word) : Word :=
  m.readByte (a + 3#32) ++ m.readByte (a + 2#32) ++ m.readByte (a + 1#32) ++ m.readByte a

/-- R71: the least significant byte at the lowest address. -/
def Memory.writeHalf (m : Memory) (a : Word) (v : BitVec 16) : Memory :=
  (m.writeByte a (v.extractLsb' 0 8)).writeByte (a + 1#32) (v.extractLsb' 8 8)

def Memory.writeWord (m : Memory) (a : Word) (v : Word) : Memory :=
  (((m.writeByte a (v.extractLsb' 0 8)).writeByte (a + 1#32) (v.extractLsb' 8 8)).writeByte (a + 2#32)
    (v.extractLsb' 16 8)).writeByte (a + 3#32) (v.extractLsb' 24 8)

/-! ### Alignment (R72, R73) -/

def alignWord (a : Word) : Word := a &&& 0xFFFFFFFC#32

def alignHalf (a : Word) : Word := a &&& 0xFFFFFFFE#32

/-! ### A request and the byte array (R70) -/

/-- The bytes a request accesses, the lowest address first. -/
def MemRequest.bytes : MemRequest → List Word
  | .readByte a | .writeByte a _ => [a]
  | .readHalf a | .writeHalf a _ => [a, a + 1#32]
  | .readWord a | .writeWord a _ => [a, a + 1#32, a + 2#32, a + 3#32]

def MemRequest.kind : MemRequest → AccessKind
  | .readByte _ | .readHalf _ | .readWord _ => .read
  | .writeByte _ _ | .writeHalf _ _ | .writeWord _ _ => .write

/-- What a request does to the bytes of the byte array. -/
def Memory.apply (m : Memory) : MemRequest → Memory
  | .readByte _ | .readHalf _ | .readWord _ => m
  | .writeByte a v => m.writeByte a v
  | .writeHalf a v => m.writeHalf a v
  | .writeWord a v => m.writeWord a v

def AbortRegion.onKind (r : AbortRegion) : AccessKind → Bool
  | .read => r.onRead
  | .write => r.onWrite

def AbortRegion.covers (r : AbortRegion) (kind : AccessKind) (a : Word) : Bool :=
  r.onKind kind && decide (r.base ≤ a.toNat) && decide (a.toNat < r.base + r.size)

/-- The byte array aborts an access that touches a byte of an aborting region. -/
def byteAborts (s : State) (kind : AccessKind) (a : Word) : Bool := s.abortMap.any fun r => r.covers kind a

/-! ### The collaborator's answers (R70, R80, R85) -/

def DeviceRegion.covers (d : DeviceRegion) (a : Word) : Bool :=
  decide (d.base ≤ a.toNat) && decide (a.toNat < d.base + d.size)

/-- The request touches a device. -/
def Bus.touches (b : Bus) (q : MemRequest) : Bool := q.bytes.any fun a => b.devices.any fun d => d.covers a

/-- What the collaborator's rules and devices answer to a request, and its next state: the first rule for its state
and the request; else, at a device, a free value of both; none where the byte array answers (log entry 4). -/
def Bus.reply (b : Bus) (q : MemRequest) : Option (MemAnswer × Nat) :=
  match b.rules.find? fun r => r.own == b.own && r.request == q with
  | some r => some (r.answer, r.next)
  | none =>
    if b.touches q then
      some ({ aborts := Config.memAborts b.own q, value := Config.memValue b.own q }, Config.memNext b.own q)
    else none

/-- The collaborator after a request: its next state, and the request recorded (R80). -/
def Bus.after (b : Bus) (q : MemRequest) : Bus :=
  { b with own := (b.reply q).elim b.own (·.2), requests := q :: b.requests }

/-- The state after a request, but for the bytes a write changes. -/
def called (q : MemRequest) (s : State) : State := { s with bus := s.bus.after q }

/-- The request is answered with an abort. -/
def memAborts (q : MemRequest) (s : State) : Bool :=
  match s.bus.reply q with
  | some (answer, _) => answer.aborts
  | none => q.bytes.any (byteAborts s q.kind)

/-- The byte a read of `a` returns, if it is not aborted. -/
def byteAt (a : Word) (s : State) : Byte :=
  match s.bus.reply (.readByte a) with
  | some (answer, _) => answer.value.setWidth 8
  | none => s.memory.readByte a

/-- The halfword a read of `a` returns, if it is not aborted. -/
def halfAt (a : Word) (s : State) : BitVec 16 :=
  match s.bus.reply (.readHalf a) with
  | some (answer, _) => answer.value.setWidth 16
  | none => s.memory.readHalf a

/-- The word a read of `a` returns, if it is not aborted. -/
def wordAt (a : Word) (s : State) : Word :=
  match s.bus.reply (.readWord a) with
  | some (answer, _) => answer.value
  | none => s.memory.readWord a

/-- The byte array after a request that is not aborted: a write that a rule or a device answers changes none of its
bytes. -/
def written (q : MemRequest) (s : State) : Memory :=
  match s.bus.reply q with
  | some _ => s.memory
  | none => s.memory.apply q

/-! ### Reads: `MemRead` of R12; none is an abort

Each is one call of the collaborator, whatever it answers. -/

def loadByte (a : Word) (s : State) : Option Byte × State :=
  let q := .readByte a
  (if memAborts q s then none else some (byteAt a s), called q s)

/-- R73: at the aligned halfword. -/
def loadHalf (a : Word) (s : State) : Option (BitVec 16) × State :=
  let q := .readHalf (alignHalf a)
  (if memAborts q s then none else some (halfAt (alignHalf a) s), called q s)

/-- R72: at the aligned word. -/
def loadWord (a : Word) (s : State) : Option Word × State :=
  let q := .readWord (alignWord a)
  (if memAborts q s then none else some (wordAt (alignWord a) s), called q s)

/-- R77: the fetch. -/
def fetchWord (s : State) : Option Word × State := loadWord s.pc s

/-! ### Writes: `MemWrite` of R12 -/

/-- What data writes end in, with the state they leave: done, an abort of the collaborator, or the hazard of R462,
which comes before the write that meets it. -/
inductive StoreOutcome where
  | done (s : State)
  | abort (s : State)
  | hazard (s : State)
  deriving DecidableEq, Repr

/-- R462: the byte at `a` is one of pc + 4 to pc + 11. -/
def inPrefetchWindow (pc a : Word) : Bool := decide ((a - (pc + 4#32)).toNat < 8)

/-- One write: the hazard of R462, else one call of the collaborator. -/
def store (q : MemRequest) (s : State) : StoreOutcome :=
  if q.bytes.any (inPrefetchWindow s.pc) then .hazard s
  else if memAborts q s then .abort (called q s)
  else .done { called q s with memory := written q s }

/-- R74, R76: the low byte at the address given. -/
def storeByte (a : Word) (v : Byte) (s : State) : StoreOutcome := store (.writeByte a v) s

/-- R73, R76: the halfword at the aligned address. -/
def storeHalf (a : Word) (v : BitVec 16) (s : State) : StoreOutcome := store (.writeHalf (alignHalf a) v) s

/-- R72, R76: the whole word at the aligned address, unrotated. -/
def storeWord (a : Word) (v : Word) (s : State) : StoreOutcome := store (.writeWord (alignWord a) v) s

/-- Several writes, in order; none follows one that is aborted or meets the hazard. -/
def storeAll : List MemRequest → State → StoreOutcome
  | [], s => .done s
  | q :: rest, s =>
    match store q s with
    | .hazard s' => .hazard s'
    | .abort s' => .abort s'
    | .done s' => storeAll rest s'

/-- Memory and the collaborators, as a stop in Execute keeps them (R166). -/
def State.collaborators (s : State) : Collaborators where
  memory := s.memory
  bus := s.bus
  coproc := s.coproc

end Sys2Proof.Machine
end

