-- ==== Sys2Proof/Machine/Ops.lean ====
section
/-! DEFINITION. The named operations over the registers and the status registers, the writes of the program counter
(R167), taking an exception (R410) and returning from one (R203, R310), and reset (R450). -/

namespace Sys2Proof.Machine

/-! ### Modes (R31) -/

def Mode.bits : Mode → BitVec 5
  | .user => 0b10000#5
  | .fiq => 0b10001#5
  | .irq => 0b10010#5
  | .supervisor => 0b10011#5
  | .abort => 0b10111#5
  | .undefined => 0b11011#5
  | .system => 0b11111#5

/-- The mode a legal M[4:0] names; every other value is illegal (R32). -/
def Mode.ofBits? (m : BitVec 5) : Option Mode :=
  match m.toNat with
  | 0b10000 => some .user
  | 0b10001 => some .fiq
  | 0b10010 => some .irq
  | 0b10011 => some .supervisor
  | 0b10111 => some .abort
  | 0b11011 => some .undefined
  | 0b11111 => some .system
  | _ => none

/-- R31: M[4:0] holds a legal mode. -/
def legalMode (m : BitVec 5) : Bool := (Mode.ofBits? m).isSome

/-- The column of R35 a mode reads. -/
def Mode.bank : Mode → Bank
  | .user | .system => .usr
  | .fiq => .fiq
  | .irq => .irq
  | .supervisor => .svc
  | .abort => .abt
  | .undefined => .und

/-- The bank of the current mode. An illegal mode, which no run reaches (R32), reads the User bank: log entry 11. -/
def currentBank (p : Psr) : Bank :=
  match Mode.ofBits? p.m with
  | some m => m.bank
  | none => .usr

/-- R425: every mode but User is privileged. -/
def privileged (p : Psr) : Bool := p.m != 0b10000#5

/-! ### General registers -/

def Banked.get (b : Banked) : Bank → Word
  | .usr => b.usr
  | .fiq => b.fiq
  | .irq => b.irq
  | .svc => b.svc
  | .abt => b.abt
  | .und => b.und

def Banked.set (b : Banked) (k : Bank) (v : Word) : Banked :=
  match k with
  | .usr => { b with usr := v }
  | .fiq => { b with fiq := v }
  | .irq => { b with irq := v }
  | .svc => { b with svc := v }
  | .abt => { b with abt := v }
  | .und => { b with und := v }

def RegFile.read (r : RegFile) : PhysReg → Word
  | .low n => r.low[n.val]
  | .mid n => r.mid[n.val]
  | .midFiq n => r.midFiq[n.val]
  | .r13 k => r.r13.get k
  | .r14 k => r.r14.get k

def RegFile.write (r : RegFile) (p : PhysReg) (v : Word) : RegFile :=
  match p with
  | .low n => { r with low := r.low.set n.val v }
  | .mid n => { r with mid := r.mid.set n.val v }
  | .midFiq n => { r with midFiq := r.midFiq.set n.val v }
  | .r13 k => { r with r13 := r.r13.set k v }
  | .r14 k => { r with r14 := r.r14.set k v }

/-- The bank map of R35: the physical register that r0 to r14 means in a bank; none for r15, the PC. -/
def bankReg (k : Bank) (n : RegNum) : Option PhysReg :=
  if h : n.val < 8 then some (.low ⟨n.val, h⟩)
  else if h : n.val < 13 then
    (if k = .fiq then some (.midFiq ⟨n.val - 8, by omega⟩) else some (.mid ⟨n.val - 8, by omega⟩))
  else if n.val = 13 then some (.r13 k)
  else if n.val = 14 then some (.r14 k)
  else none

/-- Reading a register of a bank as an operand; r15 reads as pc + 8 (R164). -/
def readRegIn (k : Bank) (n : RegNum) (s : State) : Word :=
  match bankReg k n with
  | some p => s.regs.read p
  | none => s.pc + Config.pcReadOffset

/-- Writing r0 to r14 of a bank. The PC is not written here: see `writePC`, `loadWritePC`, `branchTo` (R11, R167). -/
def writeRegIn (k : Bank) (n : RegNum) (v : Word) (s : State) : State :=
  match bankReg k n with
  | some p => { s with regs := s.regs.write p v }
  | none => s

/-- `x[n]` of R11. -/
def readReg (n : RegNum) (s : State) : Word := readRegIn (currentBank s.cpsr) n s

/-- `x[n] <- v` of R11, n in 0..14. -/
def writeReg (n : RegNum) (v : Word) (s : State) : State := writeRegIn (currentBank s.cpsr) n v s

/-- The value a store of a register stores: for r15, pc + 12 (R164 a, R264, R303, R381). -/
def storedRegIn (k : Bank) (n : RegNum) (s : State) : Word :=
  if n = 15 then s.pc + Config.pcStoreOffset else readRegIn k n s

def storedReg (n : RegNum) (s : State) : Word := storedRegIn (currentBank s.cpsr) n s

/-- R463: whether register n is banked in the mode that reads bank k. -/
def isBanked (k : Bank) (n : RegNum) : Bool :=
  match k with
  | .usr => false
  | .fiq => decide (8 ≤ n.val) && decide (n.val ≤ 14)
  | _ => decide (13 ≤ n.val) && decide (n.val ≤ 14)

/-! ### Status registers -/

/-- The word MRS reads: bits 27:8 are zero (R42, R51). -/
def Psr.toWord (p : Psr) : Word :=
  BitVec.ofBool p.n ++ BitVec.ofBool p.z ++ BitVec.ofBool p.c ++ BitVec.ofBool p.v ++ 0#20 ++
    BitVec.ofBool p.i ++ BitVec.ofBool p.f ++ BitVec.ofBool p.t ++ p.m

/-- The status register a word describes; its bits 27:8 are dropped (R42, R51). -/
def Psr.ofWord (w : Word) : Psr where
  n := w.getLsbD 31
  z := w.getLsbD 30
  c := w.getLsbD 29
  v := w.getLsbD 28
  i := w.getLsbD 7
  f := w.getLsbD 6
  t := w.getLsbD 5
  m := w.extractLsb' 0 5

/-- N, Z, C, V from bits 31:28 of a word (R351 field f, R382). -/
def Psr.withFlags (p : Psr) (w : Word) : Psr :=
  { p with n := w.getLsbD 31, z := w.getLsbD 30, c := w.getLsbD 29, v := w.getLsbD 28 }

/-- I, F, T, M from bits 7:0 of a word (R351 field c). -/
def Psr.withControl (p : Psr) (w : Word) : Psr :=
  { p with i := w.getLsbD 7, f := w.getLsbD 6, t := w.getLsbD 5, m := w.extractLsb' 0 5 }

/-- The SPSR of a bank; the User bank has none (R40, R41). -/
def SpsrFile.get (f : SpsrFile) : Bank → Option Psr
  | .usr => none
  | .fiq => some f.fiq
  | .irq => some f.irq
  | .svc => some f.svc
  | .abt => some f.abt
  | .und => some f.und

def SpsrFile.set (f : SpsrFile) (k : Bank) (p : Psr) : SpsrFile :=
  match k with
  | .usr => f
  | .fiq => { f with fiq := p }
  | .irq => { f with irq := p }
  | .svc => { f with svc := p }
  | .abt => { f with abt := p }
  | .und => { f with und := p }

/-- `SPSR` of R41: the saved status register of the current mode, if it has one. -/
def currentSpsr (s : State) : Option Psr := s.spsrs.get (currentBank s.cpsr)

def writeSpsr (k : Bank) (p : Psr) (s : State) : State := { s with spsrs := s.spsrs.set k p }

/-! ### The program counter (R39, R167) -/

/-- R39: `pc <- pc + 4`. -/
def advance (s : State) : State := { s with pc := s.pc + 4#32 }

/-- R167: the mask a write of the PC applies, by the T bit it leaves. -/
def maskPC (t : Bool) (v : Word) : Word := if t then v &&& 0xFFFFFFFE#32 else v &&& 0xFFFFFFFC#32

/-- WritePC of R167, after its refusal (`writePCRule` of Machine/Gate.lean) has passed. -/
def writePC (v : Word) (s : State) : State := { s with pc := maskPC s.cpsr.t v }

/-- LoadWritePC of R167. -/
def loadWritePC (v : Word) (s : State) : State := { s with pc := v &&& 0xFFFFFFFC#32 }

/-- BranchTo of R167. -/
def branchTo (v : Word) (s : State) : State := { s with pc := v }

/-! ### Exceptions (60_exceptions.md) -/

/-- The exceptions of R400 that R410 enters; Reset is `performReset` (R415). -/
inductive Exc where
  | undefinedInstruction
  | softwareInterrupt
  | prefetchAbort
  | dataAbort
  | irq
  | fiq
  deriving DecidableEq, Repr

/-- The mode each exception enters (R400). -/
def Exc.mode : Exc → Mode
  | .undefinedInstruction => .undefined
  | .softwareInterrupt => .supervisor
  | .prefetchAbort => .abort
  | .dataAbort => .abort
  | .irq => .irq
  | .fiq => .fiq

/-- The vector table of R402. -/
def Exc.vector : Exc → Word
  | .undefinedInstruction => Config.vectorBase + 0x04#32
  | .softwareInterrupt => Config.vectorBase + 0x08#32
  | .prefetchAbort => Config.vectorBase + 0x0C#32
  | .dataAbort => Config.vectorBase + 0x10#32
  | .irq => Config.vectorBase + 0x18#32
  | .fiq => Config.vectorBase + 0x1C#32

/-- The link value is pc plus this (R411 to R414, R416, R417). -/
def Exc.linkOffset : Exc → Word
  | .dataAbort => 8#32
  | _ => 4#32

/-- R410: F is set by the FIQ entry (and by Reset), unchanged otherwise. -/
def Exc.masksFiq : Exc → Bool
  | .fiq => true
  | _ => false

/-- Taking an exception: the atomic entry of R410. The old CPSR goes to the new mode's SPSR and the link to its
r14; M, T, I and F change; the PC goes to the vector; the hazard tracker is cleared (R463). -/
def takeException (e : Exc) (s : State) : State :=
  { s with
    regs := s.regs.write (.r14 e.mode.bank) (s.pc + e.linkOffset)
    spsrs := s.spsrs.set e.mode.bank s.cpsr
    cpsr := { s.cpsr with m := e.mode.bits, t := false, i := true, f := s.cpsr.f || e.masksFiq }
    pc := e.vector
    lastUserBankTransfer := false }

/-- Returning from an exception (R203, R310, R420): the CPSR from the SPSR of the current mode and the PC by the
restored T bit. A mode without an SPSR has nothing to restore (R41). -/
def exceptionReturn (v : Word) (s : State) : Result :=
  match currentSpsr s with
  | none => .refused (.unpredictable .r41)
  | some p => .next { s with cpsr := p, pc := maskPC p.t v }

/-- The data abort of a transfer (R278, R313, R383, R417): the draw `baseUpdated` of R418 decides whether the base
write-back `(Rn, value)`, if the transfer has one, took effect; then the entry of R417. -/
def dataAbort (writeBack : Option (RegNum × Word)) (s : State) : State :=
  let s' := match writeBack with
    | none => s
    | some (rn, v) => if Config.abortBaseUpdated s.freeCount then writeReg rn v s else s
  takeException .dataAbort { s' with freeCount := s.freeCount + 1 }

/-- Reset asserted at a step boundary (R450). R14_svc and SPSR_svc are free values (R58). -/
def performReset (s : State) : State :=
  { s with
    regs := s.regs.write (.r14 .svc) (Config.resetLink s.freeCount)
    spsrs := s.spsrs.set .svc (Psr.ofWord (Config.resetSpsr s.freeCount))
    cpsr := { s.cpsr with m := Mode.supervisor.bits, i := true, f := true, t := false }
    pc := Config.vectorBase
    lastUserBankTransfer := false
    freeCount := s.freeCount + 1 }

end Sys2Proof.Machine
end

