-- ==== Sys2Proof/Machine/Flags.lean ====
section
/-! DEFINITION. The condition evaluator (R162) and every flag computation: AddWithCarry (R14), the flags of data
processing (R201) and of the multiplies (R241). -/

namespace Sys2Proof.Machine

/-- ConditionPassed of R162. -/
def conditionPassed (c : Cond) (p : Psr) : Bool :=
  match c with
  | .eq => p.z
  | .ne => !p.z
  | .cs => p.c
  | .cc => !p.c
  | .mi => p.n
  | .pl => !p.n
  | .vs => p.v
  | .vc => !p.v
  | .hi => p.c && !p.z
  | .ls => !p.c || p.z
  | .ge => p.n == p.v
  | .lt => p.n != p.v
  | .gt => p.n == p.v && !p.z
  | .le => p.n != p.v || p.z
  | .al => true
  | .nv => false

/-- A 32-bit result with the carry and overflow beside it. -/
structure AluResult where
  value : Word
  carry : Bool
  overflow : Bool
  deriving DecidableEq, Repr

/-- AddWithCarry of R14: the exact unsigned and signed sums, and how each differs from the 32-bit result. -/
def addWithCarry (a b : Word) (cin : Bool) : AluResult :=
  let usum := a.toNat + b.toNat + cin.toNat
  let ssum := a.toInt + b.toInt + cin.toNat
  { value := BitVec.ofNat 32 usum
    carry := decide (2 ^ 32 ≤ usum)
    overflow := decide (ssum < -2 ^ 31) || decide (2 ^ 31 - 1 < ssum) }

/-- R201: N, Z, C, V of a data-processing result. -/
def Psr.withResult (p : Psr) (r : AluResult) : Psr :=
  { p with n := r.value.msb, z := r.value == 0#32, c := r.carry, v := r.overflow }

/-- R241: N and Z of a 32-bit product; C and V unchanged. -/
def Psr.withProduct (p : Psr) (r : Word) : Psr := { p with n := r.msb, z := r == 0#32 }

/-- R241: N and Z of a 64-bit product; C and V unchanged. -/
def Psr.withLongProduct (p : Psr) (r : BitVec 64) : Psr := { p with n := r.msb, z := r == 0#64 }

end Sys2Proof.Machine
end

