-- ==== Sys2Proof/Machine/Operands.lean ====
section
/-! DEFINITION. Every operand form: the barrel shifter (R170 to R173), operand 2 (R174), the addresses of the single
(R260), halfword (R272), block (R300) and coprocessor (R379) transfers, and the branch offset (R131). -/

namespace Sys2Proof.Machine

/-! ### The barrel shifter -/

/-- R171, R122: the rotated immediate. -/
def rotatedImm (rotate : BitVec 4) (imm8 : BitVec 8) : Word := (imm8.setWidth 32).rotateRight (2 * rotate.toNat)

/-- R171: the carry of the rotated immediate. -/
def rotatedImmCarry (rotate : BitVec 4) (imm8 : BitVec 8) (cin : Bool) : Bool :=
  if rotate = 0#4 then cin else (rotatedImm rotate imm8).msb

/-- The word an arithmetic right shift by 32 or more gives: all copies of the sign. -/
def signFill (v : Word) : Word := if v.msb then 0xFFFFFFFF#32 else 0x00000000#32

/-- Shift with form = Imm (R172). -/
def shiftImm (v : Word) (ty : ShiftType) (amount : BitVec 5) (cin : Bool) : Word × Bool :=
  let n := amount.toNat
  match ty with
  | .lsl => if n = 0 then (v, cin) else (v <<< n, v.getLsbD (32 - n))
  | .lsr => if n = 0 then (0#32, v.msb) else (v >>> n, v.getLsbD (n - 1))
  | .asr => if n = 0 then (signFill v, v.msb) else (v.sshiftRight n, v.getLsbD (n - 1))
  | .ror =>
    if n = 0 then (BitVec.ofBool cin ++ v.extractLsb' 1 31, v.getLsbD 0) else (v.rotateRight n, v.getLsbD (n - 1))

/-- Shift with form = Reg (R173); n is the low byte of Rs. -/
def shiftReg (v : Word) (ty : ShiftType) (n : Nat) (cin : Bool) : Word × Bool :=
  if n = 0 then (v, cin)
  else
    match ty with
    | .lsl => if n < 32 then (v <<< n, v.getLsbD (32 - n)) else (0#32, n == 32 && v.getLsbD 0)
    | .lsr => if n < 32 then (v >>> n, v.getLsbD (n - 1)) else (0#32, n == 32 && v.msb)
    | .asr => if n < 32 then (v.sshiftRight n, v.getLsbD (n - 1)) else (signFill v, v.msb)
    | .ror => if n % 32 = 0 then (v, v.msb) else (v.rotateRight (n % 32), v.getLsbD (n % 32 - 1))

/-- Operand2 of R174: the shifter operand and the shifter carry. -/
def operand2 (o : Operand2) (s : State) : Word × Bool :=
  match o with
  | .imm rotate imm8 => (rotatedImm rotate imm8, rotatedImmCarry rotate imm8 s.cpsr.c)
  | .regImm rm ty amount => shiftImm (readReg rm s) ty amount s.cpsr.c
  | .regReg rm ty rs => shiftReg (readReg rm s) ty ((readReg rs s).extractLsb' 0 8).toNat s.cpsr.c

/-- The value of an MSR source (R353, R357). -/
def psrSource (src : PsrSource) (s : State) : Word :=
  match src with
  | .imm rotate imm8 => rotatedImm rotate imm8
  | .reg _ rm => readReg rm s

/-! ### Addresses -/

/-- The offset of a single data transfer (R260, R175). -/
def singleOffset (off : Offset) (s : State) : Word :=
  match off with
  | .imm offset => offset.setWidth 32
  | .reg rm ty amount => (shiftImm (readReg rm s) ty amount s.cpsr.c).1

/-- The offset of a halfword or signed transfer (R272). -/
def halfOffset (off : HalfOffset) (s : State) : Word :=
  match off with
  | .imm offset => offset.setWidth 32
  | .reg _ rm => readReg rm s

/-- `indexed` of R260, R272, R379: base plus or minus the offset, modulo 2^32 (R82). -/
def indexedBase (u : Bool) (rn : RegNum) (offset : Word) (s : State) : Word :=
  if u then readReg rn s + offset else readReg rn s - offset

/-- `addr` of R260, R272, R379: the indexed base when P = 1, the base when P = 0. -/
def transferAddress (p u : Bool) (rn : RegNum) (offset : Word) (s : State) : Word :=
  if p then indexedBase u rn offset s else readReg rn s

/-- 4 * n as a word, n = popcount(list) (R300). -/
def blockBytes (list : BitVec 16) : Word := BitVec.ofNat 32 (4 * (regList list).length)

/-- The start address of R300. -/
def blockStart (p u : Bool) (rn : RegNum) (list : BitVec 16) (s : State) : Word :=
  let base := readReg rn s
  match p, u with
  | false, true => base
  | true, true => base + 4#32
  | false, false => base - blockBytes list + 4#32
  | true, false => base - blockBytes list

/-- The final base of R300. -/
def blockFinal (u : Bool) (rn : RegNum) (list : BitVec 16) (s : State) : Word :=
  if u then readReg rn s + blockBytes list else readReg rn s - blockBytes list

/-- The place of register r in a block transfer's list: how many listed registers are lower (R301). -/
def rankIn (list : BitVec 16) (r : RegNum) : Nat := ((regList list).filter fun q => decide (q < r)).length

/-- The address of the word a block transfer moves for the listed register r: the lowest register at the start
address, each further one a word higher (R300, R301, R72). -/
def blockSlot (p u : Bool) (rn : RegNum) (list : BitVec 16) (r : RegNum) (s : State) : Word :=
  alignWord (blockStart p u rn list s + BitVec.ofNat 32 (4 * rankIn list r))

/-- The address of the i-th word of a coprocessor transfer that starts at a (R379, R72). -/
def coprocSlot (a : Word) (i : Nat) : Word := alignWord (a + BitVec.ofNat 32 (4 * i))

/-- The byte offset of LDC and STC: offset8 * 4 (R132, R379). -/
def coprocOffset (offset8 : BitVec 8) : Word := offset8.setWidth 32 * 4#32

/-- `sext_26(concat(offset24, 00))` of R131. -/
def branchOffset (offset24 : BitVec 24) : Word := (offset24 ++ 0b00#2).signExtend 32

/-- The branch target of R330, R331, modulo 2^32 (R332). -/
def branchTarget (offset24 : BitVec 24) (s : State) : Word := s.pc + Config.pcReadOffset + branchOffset offset24

/-- R75: `ROR(word, 8 * UInt(addr[1:0]))`. -/
def rotateLoaded (addr : Word) (word : Word) : Word := word.rotateRight (8 * (addr.extractLsb' 0 2).toNat)

end Sys2Proof.Machine
end

