-- ==== Sys2Proof/Machine/Cycle.lean ====
section
/-! DEFINITION. What a step does before it executes an instruction (R160): the marks, the reset and interrupt tests,
the Thumb test, the fetch and the decoding. -/

namespace Sys2Proof.Machine

/-- The start of a step: the step is over, or it goes on to run an instruction at a state. -/
inductive CycleStart where
  | over (r : Result)
  | run (i : Instr) (s : State)

/-- Nothing asserted (R404: a level input that the host does not assert). -/
def quietInputs : HostInputs where
  reset := false
  fiq := false
  irq := false

/-- What the host asserts at the coming step boundary. -/
def currentInputs (s : State) : HostInputs := s.inputs.headD quietInputs

/-- The inputs of this boundary are used up: a level input is sampled, not latched (R404). -/
def dropInputs (s : State) : State := { s with inputs := s.inputs.tail }

/-- Thumb test, fetch and decode of R160, R161, R416. -/
def fetchDecode (s : State) : CycleStart :=
  if s.cpsr.t then .over (.refused .thumbUnsupported)
  else
    match fetchWord s with
    | (none, s') => .over (.next (takeException .prefetchAbort s'))
    | (some w, s') =>
      match decodeBytes s.policy.msrGeneralMask (bytesOfWord w) with
      | .error _ => .over (.fault .decoderDefect)
      | .ok (i, _) => .run i s'

/-- R160, R405: reset, then FIQ, then IRQ, then the fetch. -/
def boundary (inp : HostInputs) (s : State) : CycleStart :=
  if inp.reset then .over (.next (performReset s))
  else if inp.fiq && !s.cpsr.f then .over (.next (takeException .fiq s))
  else if inp.irq && !s.cpsr.i then .over (.next (takeException .irq s))
  else fetchDecode s

/-- R160: a state with a mark takes no step (R451), else the boundary tests and the fetch. -/
def beginCycle (s : State) : CycleStart :=
  match s.faultMark with
  | some f => .over (.fault f)
  | none =>
    match s.refusalMark with
    | some r => .over (.refused r)
    | none => boundary (currentInputs s) (dropInputs s)

/-- The state a step has when Execute begins: its boundary's inputs used up and its fetch made; of a step that ends
before, the state it began in. -/
def atExecute (s : State) : State :=
  match beginCycle s with
  | .run _ s' => s'
  | .over _ => s

/-- The state with the collaborators that a stop kept. -/
def State.withCollaborators (s : State) (k : Collaborators) : State :=
  { s with memory := k.memory, bus := k.bus, coproc := k.coproc }

/-- What a fault in the midst of Execute kept of the collaborators. -/
def Fault.kept : Fault → Option Collaborators
  | .prefetchHazard k | .coprocessorHalt k => some k
  | .undefinedHalt | .bankedAfterUserTransfer | .decoderDefect => none

/-- What a refusal in the midst of Execute kept of the collaborators. -/
def Refusal.kept : Refusal → Option Collaborators
  | .coprocessorAbsent _ k => some k
  | _ => none

/-- The state a step that stops leaves, but for its mark: no register, flag or status register is committed; the
accesses made stay made, and the words written stay written (R166; log entry 12). -/
def stoppedState (s : State) (kept : Option Collaborators) : State :=
  kept.elim (atExecute s) (atExecute s).withCollaborators

/-- R15: the state after a step, a fault or a refusal being kept as a mark on the whole state. -/
def settle (s : State) : Result → State
  | .next s' => s'
  | .fault f => { stoppedState s f.kept with faultMark := some f }
  | .refused r => { stoppedState s r.kept with refusalMark := some r }

/-- R77: an instruction word stored where the next fetch reads it. -/
def placeFetchWord (s : State) (w : Word) : State := { s with memory := s.memory.writeWord (alignWord s.pc) w }

end Sys2Proof.Machine
end

