-- ==== Sys2Proof/Machine/Gate.lean ====
section
/-! DEFINITION. What stands between decoding and executing (R160): the whole well-formedness check WF(result, state)
of R140, the condition (R163) and the banked-register hazard (R463). Every meaning goes through `gate`. -/

namespace Sys2Proof.Machine

/-! ### The refusals that read the mode or a value (R140)

They are in the "Refused" lists of the instructions, so they stand before the condition test (log entry 9). -/

/-- The AluResult of a data-processing opcode (R201, R204 to R219): value, carry and overflow. A logical opcode takes
its carry from the shifter and leaves V. -/
def aluResult (op : AluOp) (rn : RegNum) (op2 : Operand2) (s : State) : AluResult :=
  let a := readReg rn s
  let (b, sc) := operand2 op2 s
  let logical (r : Word) : AluResult := { value := r, carry := sc, overflow := s.cpsr.v }
  match op with
  | .and => logical (a &&& b)
  | .eor => logical (a ^^^ b)
  | .sub => addWithCarry a (~~~b) true
  | .rsb => addWithCarry b (~~~a) true
  | .add => addWithCarry a b false
  | .adc => addWithCarry a b s.cpsr.c
  | .sbc => addWithCarry a (~~~b) s.cpsr.c
  | .rsc => addWithCarry b (~~~a) s.cpsr.c
  | .tst => logical (a &&& b)
  | .teq => logical (a ^^^ b)
  | .cmp => addWithCarry a (~~~b) true
  | .cmn => addWithCarry a b false
  | .orr => logical (a ||| b)
  | .mov => logical b
  | .bic => logical (a &&& ~~~b)
  | .mvn => logical (~~~b)

/-- The refusal of WritePC (R167): a misaligned value when the T bit it leaves is 0. -/
def writePCRule (t : Bool) (v : Word) : Option UnpRule :=
  firstRule [(!t && v.extractLsb' 0 2 != 0b00#2, .r167)]

/-- The refusals of a CPSR restore: no SPSR (R41), an illegal mode in it (R32). -/
def restoreRule (s : State) : Option UnpRule :=
  match currentSpsr s with
  | none => some .r41
  | some p => firstRule [(!legalMode p.m, .r32)]

/-- R202, R203: what refuses a data-processing write of r15. -/
def dataProcStateRule (op : AluOp) (sf : Bool) (rn rd : RegNum) (op2 : Operand2) (s : State) : Option UnpRule :=
  if rd = 15 then
    let v := (aluResult op rn op2 s).value
    if sf then
      match currentSpsr s with
      | none => some .r41
      | some p => if legalMode p.m then writePCRule p.t v else some .r32
    else writePCRule s.cpsr.t v
  else none

/-- R351, R355, R356: what refuses PSRWrite; `c` says that the control field is written. -/
def psrWriteRule (spsr c : Bool) (v : Word) (s : State) : Option UnpRule :=
  if spsr then firstRule [((currentSpsr s).isNone, .r356)]
  else if c && privileged s.cpsr then
    firstRule [(!legalMode (v.extractLsb' 0 5), .r32), (v.getLsbD 5 != s.cpsr.t, .r355)]
  else none

/-- R312, R310: S = 1 in User or System mode, and the restore of an illegal mode. -/
def blockStateRule (load sb : Bool) (list : BitVec 16) (s : State) : Option UnpRule :=
  if sb then
    if (currentSpsr s).isNone then some .r312
    else if load && inList list 15 then restoreRule s
    else none
  else none

/-- R333, P17 of 93_implementation_defined.md: a BX target with t[1:0] = 10. -/
def bxRule (rm : RegNum) (s : State) : Option UnpRule :=
  firstRule [((readReg rm s).extractLsb' 0 2 == 0b10#2, .r333)]

/-- R73: the refusal of an odd halfword address under HALF_MISALIGN = Refuse. -/
def halfMisalignRefusal (p u : Bool) (rn : RegNum) (off : HalfOffset) (s : State) : Option Refusal :=
  if s.policy.halfMisalign = .refuse ∧ (transferAddress p u rn (halfOffset off s) s).getLsbD 0 = true then
    some .halfMisaligned
  else none

/-- The part of WF(result, state) that reads the state. -/
def stateRefusal (i : Instr) (s : State) : Option Refusal :=
  match i with
  | .and _ sf rn rd op2 => (dataProcStateRule .and sf rn rd op2 s).map .unpredictable
  | .eor _ sf rn rd op2 => (dataProcStateRule .eor sf rn rd op2 s).map .unpredictable
  | .sub _ sf rn rd op2 => (dataProcStateRule .sub sf rn rd op2 s).map .unpredictable
  | .rsb _ sf rn rd op2 => (dataProcStateRule .rsb sf rn rd op2 s).map .unpredictable
  | .add _ sf rn rd op2 => (dataProcStateRule .add sf rn rd op2 s).map .unpredictable
  | .adc _ sf rn rd op2 => (dataProcStateRule .adc sf rn rd op2 s).map .unpredictable
  | .sbc _ sf rn rd op2 => (dataProcStateRule .sbc sf rn rd op2 s).map .unpredictable
  | .rsc _ sf rn rd op2 => (dataProcStateRule .rsc sf rn rd op2 s).map .unpredictable
  | .orr _ sf rn rd op2 => (dataProcStateRule .orr sf rn rd op2 s).map .unpredictable
  | .mov _ sf rn rd op2 => (dataProcStateRule .mov sf rn rd op2 s).map .unpredictable
  | .bic _ sf rn rd op2 => (dataProcStateRule .bic sf rn rd op2 s).map .unpredictable
  | .mvn _ sf rn rd op2 => (dataProcStateRule .mvn sf rn rd op2 s).map .unpredictable
  | .bx _ rm => (bxRule rm s).map .unpredictable
  | .mrs _ spsr _ => (firstRule [(spsr && (currentSpsr s).isNone, .r356)]).map .unpredictable
  | .msrReg _ spsr rm => (psrWriteRule spsr true (readReg rm s) s).map .unpredictable
  | .msrFlg _ spsr src => (psrWriteRule spsr false (psrSource src s) s).map .unpredictable
  | .msrGen _ spsr mask src =>
    if s.policy.msrGeneralMask then (psrWriteRule spsr (mask.getLsbD 0) (psrSource src s) s).map .unpredictable
    else some (.unpredictable .r142)
  | .ldrh _ p u _ rn _ off | .strh _ p u _ rn _ off | .ldrsh _ p u _ rn _ off => halfMisalignRefusal p u rn off s
  | .ldm _ _ _ sb _ _ list => (blockStateRule true sb list s).map .unpredictable
  | .stm _ _ _ sb _ _ list => (blockStateRule false sb list s).map .unpredictable
  | .tst .. | .teq .. | .cmp .. | .cmn .. | .mul .. | .mla .. | .umull .. | .umlal .. | .smull .. | .smlal ..
  | .swp .. | .swpb .. | .ldrsb .. | .undefStoreSigned .. | .undefHalfZero .. | .undefTrap ..
  | .ldrPre .. | .ldrPost .. | .strPre .. | .strPost .. | .ldrbPre .. | .ldrbPost .. | .strbPre .. | .strbPost ..
  | .ldrt .. | .strt .. | .ldrbt .. | .strbt .. | .b .. | .bl .. | .ldc .. | .stc .. | .swi .. | .cdp .. | .mcr ..
  | .mrc .. => none

/-- WF(result, state) of R140: the refusal of an instruction, if it is refused before its condition is tested. -/
def wfRefusal (i : Instr) (s : State) : Option Refusal :=
  match i.staticRule with
  | some r => some (.unpredictable r)
  | none => stateRefusal i s

/-- R463: a condition-passed instruction directly after a User-bank LDM that names a banked register. -/
def bankedHazard (i : Instr) (s : State) : Bool :=
  s.lastUserBankTransfer && i.namedRegs.any (isBanked (currentBank s.cpsr))

/-- R463: every step that does not fault clears the tracker. -/
def clearTracker (s : State) : State := { s with lastUserBankTransfer := false }

/-- R163: the step of an instruction whose condition fails. -/
def skip (s : State) : State := advance (clearTracker s)

/-- The order of R160 from the check of R140 to Execute; `execute` sees the hazard tracker already cleared. -/
def gate (i : Instr) (execute : State → Result) (s : State) : Result :=
  match wfRefusal i s with
  | some r => .refused r
  | none =>
    if conditionPassed i.cond s.cpsr then
      if bankedHazard i s then .fault .bankedAfterUserTransfer
      else execute (clearTracker s)
    else .next (skip s)

end Sys2Proof.Machine
end

