-- ==== Sys2Proof/Machine/SingleTransfer.lean ====
section
/-! DEFINITION. The single data transfers, the halfword and signed transfers and the swaps (43_single_transfer.md). -/

namespace Sys2Proof.Machine

/-! ### Shared operations -/

/-- The addressing of R260 and R272: the address of the access, and the base write-back it makes, if it makes one. -/
structure Addressing where
  addr : Word
  writeBack : Option (RegNum × Word)
  deriving DecidableEq, Repr

/-- R260, R272: `wb` is (P = 0) or (W = 1). -/
def addressing (p u wb : Bool) (rn : RegNum) (offset : Word) (s : State) : Addressing where
  addr := transferAddress p u rn offset s
  writeBack := if wb then some (rn, indexedBase u rn offset s) else none

/-- R261: the base write-back. -/
def applyWriteBack (wb : Option (RegNum × Word)) (s : State) : State :=
  match wb with
  | none => s
  | some (rn, v) => writeReg rn v s

/-- A load into r0 to r14, from the state after its read: the write-back, then the destination (R261: never the same
register); an abort takes the data abort (R278). -/
def finishLoad (value : Option Word) (ad : Addressing) (rd : RegNum) (s : State) : Result :=
  match value with
  | none => .next (dataAbort ad.writeBack s)
  | some t => .next (advance (writeReg rd t (applyWriteBack ad.writeBack s)))

/-- A load of a word: into r15 it is a branch by LoadWritePC (R263, R167). -/
def finishLoadWord (value : Option Word) (ad : Addressing) (rd : RegNum) (s : State) : Result :=
  match value with
  | none => .next (dataAbort ad.writeBack s)
  | some t =>
    if rd = 15 then .next (loadWritePC t (applyWriteBack ad.writeBack s))
    else .next (advance (writeReg rd t (applyWriteBack ad.writeBack s)))

/-- The end of a storing transfer: the write-back after the writes; an abort takes the data abort (R278, R313, R383),
a write into the prefetch window is the hazard of R462, which keeps what was written before it (R166). -/
def finishStore (outcome : StoreOutcome) (writeBack : Option (RegNum × Word)) : Result :=
  match outcome with
  | .hazard s => .fault (.prefetchHazard s.collaborators)
  | .abort s => .next (dataAbort writeBack s)
  | .done s => .next (advance (applyWriteBack writeBack s))

/-- R263: the rotated word. -/
def ldrBody (p u wb : Bool) (rn rd : RegNum) (off : Offset) (s : State) : Result :=
  let ad := addressing p u wb rn (singleOffset off s) s
  let (value, s') := loadWord ad.addr s
  finishLoadWord (value.map (rotateLoaded ad.addr)) ad rd s'

/-- R265: the zero-extended byte. -/
def ldrbBody (p u wb : Bool) (rn rd : RegNum) (off : Offset) (s : State) : Result :=
  let ad := addressing p u wb rn (singleOffset off s) s
  let (value, s') := loadByte ad.addr s
  finishLoad (value.map (·.setWidth 32)) ad rd s'

/-- R264: the whole register, pc + 12 for r15. -/
def strBody (p u wb : Bool) (rn rd : RegNum) (off : Offset) (s : State) : Result :=
  let ad := addressing p u wb rn (singleOffset off s) s
  finishStore (storeWord ad.addr (storedReg rd s) s) ad.writeBack

/-- R266: the low byte of the register. -/
def strbBody (p u wb : Bool) (rn rd : RegNum) (off : Offset) (s : State) : Result :=
  let ad := addressing p u wb rn (singleOffset off s) s
  finishStore (storeByte ad.addr ((readReg rd s).extractLsb' 0 8) s) ad.writeBack

/-- R273, R276: a halfword load, extended by `ext`. -/
def loadHalfBody (ext : BitVec 16 → Word) (p u w : Bool) (rn rd : RegNum) (off : HalfOffset) (s : State) : Result :=
  let ad := addressing p u (!p || w) rn (halfOffset off s) s
  let (value, s') := loadHalf ad.addr s
  finishLoad (value.map ext) ad rd s'

/-- R275: a signed byte load. -/
def ldrsbBody (p u w : Bool) (rn rd : RegNum) (off : HalfOffset) (s : State) : Result :=
  let ad := addressing p u (!p || w) rn (halfOffset off s) s
  let (value, s') := loadByte ad.addr s
  finishLoad (value.map (·.signExtend 32)) ad rd s'

/-- R274: the low halfword of the register. -/
def strhBody (p u w : Bool) (rn rd : RegNum) (off : HalfOffset) (s : State) : Result :=
  let ad := addressing p u (!p || w) rn (halfOffset off s) s
  finishStore (storeHalf ad.addr ((readReg rd s).extractLsb' 0 16) s) ad.writeBack

/-- R281, R282: the write and the commit of a swap, from the state after its read; an abort on either access leaves
Rd unwritten (R278). -/
def finishSwap (value : Option Word) (request : MemRequest) (rd : RegNum) (s : State) : Result :=
  match value with
  | none => .next (dataAbort none s)
  | some t =>
    match store request s with
    | .hazard s' => .fault (.prefetchHazard s'.collaborators)
    | .abort s' => .next (dataAbort none s')
    | .done s' => .next (advance (writeReg rd t s'))

/-- R281. -/
def swpBody (rn rd rm : RegNum) (s : State) : Result :=
  let a := readReg rn s
  let (value, s') := loadWord a s
  finishSwap (value.map (rotateLoaded a)) (.writeWord (alignWord a) (readReg rm s)) rd s'

/-- R282. -/
def swpbBody (rn rd rm : RegNum) (s : State) : Result :=
  let a := readReg rn s
  let (value, s') := loadByte a s
  finishSwap (value.map (·.setWidth 32)) (.writeByte a ((readReg rm s).extractLsb' 0 8)) rd s'

/-! ### Single data transfer -/

/-- LDR, pre-indexed (R263). -/
def execLdrPre (c : Cond) (u w : Bool) (rn rd : RegNum) (off : Offset) (s : State) : Result :=
  gate (.ldrPre c u w rn rd off) (ldrBody true u w rn rd off) s

/-- LDR, post-indexed (R263). -/
def execLdrPost (c : Cond) (u : Bool) (rn rd : RegNum) (off : Offset) (s : State) : Result :=
  gate (.ldrPost c u rn rd off) (ldrBody false u true rn rd off) s

/-- STR, pre-indexed (R264). -/
def execStrPre (c : Cond) (u w : Bool) (rn rd : RegNum) (off : Offset) (s : State) : Result :=
  gate (.strPre c u w rn rd off) (strBody true u w rn rd off) s

/-- STR, post-indexed (R264). -/
def execStrPost (c : Cond) (u : Bool) (rn rd : RegNum) (off : Offset) (s : State) : Result :=
  gate (.strPost c u rn rd off) (strBody false u true rn rd off) s

/-- LDRB, pre-indexed (R265). -/
def execLdrbPre (c : Cond) (u w : Bool) (rn rd : RegNum) (off : Offset) (s : State) : Result :=
  gate (.ldrbPre c u w rn rd off) (ldrbBody true u w rn rd off) s

/-- LDRB, post-indexed (R265). -/
def execLdrbPost (c : Cond) (u : Bool) (rn rd : RegNum) (off : Offset) (s : State) : Result :=
  gate (.ldrbPost c u rn rd off) (ldrbBody false u true rn rd off) s

/-- STRB, pre-indexed (R266). -/
def execStrbPre (c : Cond) (u w : Bool) (rn rd : RegNum) (off : Offset) (s : State) : Result :=
  gate (.strbPre c u w rn rd off) (strbBody true u w rn rd off) s

/-- STRB, post-indexed (R266). -/
def execStrbPost (c : Cond) (u : Bool) (rn rd : RegNum) (off : Offset) (s : State) : Result :=
  gate (.strbPost c u rn rd off) (strbBody false u true rn rd off) s

/-- LDRT (R267): as the post-indexed LDR (R262). -/
def execLdrt (c : Cond) (u : Bool) (rn rd : RegNum) (off : Offset) (s : State) : Result :=
  gate (.ldrt c u rn rd off) (ldrBody false u true rn rd off) s

/-- STRT (R268): as the post-indexed STR (R262). -/
def execStrt (c : Cond) (u : Bool) (rn rd : RegNum) (off : Offset) (s : State) : Result :=
  gate (.strt c u rn rd off) (strBody false u true rn rd off) s

/-- LDRBT (R269): as the post-indexed LDRB (R262). -/
def execLdrbt (c : Cond) (u : Bool) (rn rd : RegNum) (off : Offset) (s : State) : Result :=
  gate (.ldrbt c u rn rd off) (ldrbBody false u true rn rd off) s

/-- STRBT (R270): as the post-indexed STRB (R262). -/
def execStrbt (c : Cond) (u : Bool) (rn rd : RegNum) (off : Offset) (s : State) : Result :=
  gate (.strbt c u rn rd off) (strbBody false u true rn rd off) s

/-! ### Halfword and signed transfer -/

/-- LDRH (R273). -/
def execLdrh (c : Cond) (p u w : Bool) (rn rd : RegNum) (off : HalfOffset) (s : State) : Result :=
  gate (.ldrh c p u w rn rd off) (loadHalfBody (·.setWidth 32) p u w rn rd off) s

/-- STRH (R274). -/
def execStrh (c : Cond) (p u w : Bool) (rn rd : RegNum) (off : HalfOffset) (s : State) : Result :=
  gate (.strh c p u w rn rd off) (strhBody p u w rn rd off) s

/-- LDRSB (R275). -/
def execLdrsb (c : Cond) (p u w : Bool) (rn rd : RegNum) (off : HalfOffset) (s : State) : Result :=
  gate (.ldrsb c p u w rn rd off) (ldrsbBody p u w rn rd off) s

/-- LDRSH (R276). -/
def execLdrsh (c : Cond) (p u w : Bool) (rn rd : RegNum) (off : HalfOffset) (s : State) : Result :=
  gate (.ldrsh c p u w rn rd off) (loadHalfBody (·.signExtend 32) p u w rn rd off) s

/-! ### Single data swap -/

/-- SWP (R281). -/
def execSwp (c : Cond) (sbz : BitVec 2) (rn rd rm : RegNum) (s : State) : Result :=
  gate (.swp c sbz rn rd rm) (swpBody rn rd rm) s

/-- SWPB (R282). -/
def execSwpb (c : Cond) (sbz : BitVec 2) (rn rd rm : RegNum) (s : State) : Result :=
  gate (.swpb c sbz rn rd rm) (swpbBody rn rd rm) s

end Sys2Proof.Machine
end

