-- ==== Sys2Proof/Machine/BlockTransfer.lean ====
section
/-! DEFINITION. LDM and STM with their S-bit forms (44_block_transfer.md). -/

namespace Sys2Proof.Machine

/-- What the word reads of a block load leave: the registers whose read completed, with what they read, whether all of
them did, and the state after the reads made. -/
structure BlockRead where
  loaded : List (RegNum × Word)
  complete : Bool
  after : State

/-- R304: the word reads in increasing register order, each at the register's slot; none follows one that is aborted
(R313). -/
def blockLoad (slot : RegNum → Word) : List RegNum → State → BlockRead
  | [], s => { loaded := [], complete := true, after := s }
  | r :: rest, s =>
    match loadWord (slot r) s with
    | (none, s') => { loaded := [], complete := false, after := s' }
    | (some v, s') =>
      let tail := blockLoad slot rest s'
      { tail with loaded := (r, v) :: tail.loaded }

/-- The loaded values of the registers below r15 written into a bank (R304, R310, R311). -/
def commitLoaded (k : Bank) : List (RegNum × Word) → State → State
  | [], s => s
  | (r, v) :: rest, s => commitLoaded k rest (writeRegIn k r v s)

/-- The bank an LDM or STM transfers: the User bank with S = 1, but for an LDM with r15 in the list (R310, R311). -/
def blockBank (load sb : Bool) (list : BitVec 16) (s : State) : Bank :=
  if sb && !(load && inList list 15) then .usr else currentBank s.cpsr

/-- R302: the base write-back of a block transfer. -/
def blockWriteBack (u w : Bool) (rn : RegNum) (list : BitVec 16) (s : State) : Option (RegNum × Word) :=
  if w then some (rn, blockFinal u rn list s) else none

/-- R304, R310, R311, R313: LDM. -/
def ldmBody (p u sb w : Bool) (rn : RegNum) (list : BitVec 16) (s : State) : Result :=
  let wb := blockWriteBack u w rn list s
  let bank := blockBank true sb list s
  let read := blockLoad (fun r => blockSlot p u rn list r s) (regList list) s
  if read.complete then
    let s' := applyWriteBack wb (commitLoaded bank read.loaded read.after)
    if inList list 15 then
      let target := ((read.loaded.find? fun x => x.1 == 15).map (·.2)).getD 0#32
      if sb then exceptionReturn target s' else .next (loadWritePC target s')
    else .next (advance { s' with lastUserBankTransfer := sb })
  else
    let drawn := Config.abortLoaded s.freeCount
    .next (dataAbort wb
      (commitLoaded bank (read.loaded.filter fun x => drawn.getLsbD x.1.val && x.1 != 15) read.after))

/-- R305, R303, R306, R311, R313: STM. The word writes are made in increasing register order, each of the register's
value at the start of Execute. -/
def stmBody (p u sb w : Bool) (rn : RegNum) (list : BitVec 16) (s : State) : Result :=
  let bank := blockBank false sb list s
  let requests := (regList list).map fun r => MemRequest.writeWord (blockSlot p u rn list r s) (storedRegIn bank r s)
  finishStore (storeAll requests s) (blockWriteBack u w rn list s)

/-- LDM (R304, R310, R311). -/
def execLdm (c : Cond) (p u sb w : Bool) (rn : RegNum) (list : BitVec 16) (s : State) : Result :=
  gate (.ldm c p u sb w rn list) (ldmBody p u sb w rn list) s

/-- STM (R305, R311). -/
def execStm (c : Cond) (p u sb w : Bool) (rn : RegNum) (list : BitVec 16) (s : State) : Result :=
  gate (.stm c p u sb w rn list) (stmBody p u sb w rn list) s

end Sys2Proof.Machine
end

