-- ==== Sys2Proof/Machine/Branch.lean ====
section
/-! DEFINITION. B, BL and BX (45_branch.md). -/

namespace Sys2Proof.Machine

/-- R333, its target already checked (`bxRule` of Machine/Gate.lean). -/
def bxBody (rm : RegNum) (s : State) : Result :=
  let t := readReg rm s
  .next (branchTo (t &&& 0xFFFFFFFE#32) { s with cpsr := { s.cpsr with t := t.getLsbD 0 } })

/-- B (R330). -/
def execB (c : Cond) (offset24 : BitVec 24) (s : State) : Result :=
  gate (.b c offset24) (fun s => .next (branchTo (branchTarget offset24 s) s)) s

/-- BL (R331): the link is the address of the next instruction. -/
def execBl (c : Cond) (offset24 : BitVec 24) (s : State) : Result :=
  gate (.bl c offset24) (fun s => .next (branchTo (branchTarget offset24 s) (writeReg 14 (s.pc + 4#32) s))) s

/-- BX (R333). -/
def execBx (c : Cond) (rm : RegNum) (s : State) : Result :=
  gate (.bx c rm) (bxBody rm) s

end Sys2Proof.Machine
end

