-- ==== Sys2Proof/Machine/Coprocessor.lean ====
section
/-! DEFINITION. The coprocessor instructions (47_swi_coprocessor.md R375 to R384), against the COPROC collaborator
State holds as plain data. -/

namespace Sys2Proof.Machine

/-- What the coprocessor a request names answers, and its new state (R375, R378): with none registered for the number,
Absent; else the first rule for the coprocessor's own state and the request; else free values of both (log entry
8). -/
def CoprocPort.reply (p : CoprocPort) (q : CoprocRequest) : CoprocAnswer × Nat :=
  let unit := p.units[q.cp.toNat]
  let free : CoprocAnswer :=
    { present := Config.coprocPresent unit.own q, value := Config.coprocValue unit.own q,
      more := Config.coprocMore unit.own q }
  if unit.registered then
    match p.rules.find? fun r => r.own == unit.own && r.request == q with
    | some r => (r.answer, r.next)
    | none => (free, Config.coprocNext unit.own q)
  else ({ free with present := false }, unit.own)

/-- The coprocessors after a request: the one it names in its new state, and the request recorded. -/
def CoprocPort.after (p : CoprocPort) (q : CoprocRequest) : CoprocPort :=
  { p with
    units := p.units.set q.cp.toNat { p.units[q.cp.toNat] with own := (p.reply q).2 }
    requests := q :: p.requests }

/-- One call of COPROC (R375, R378). -/
def askCoproc (q : CoprocRequest) (s : State) : CoprocAnswer × State :=
  ((s.coproc.reply q).1, { s with coproc := s.coproc.after q })

/-- R377: an absent coprocessor, by COPROC_ABSENT_POLICY. -/
def coprocAbsent (cp : BitVec 4) (s : State) : Result :=
  match s.policy.coprocAbsent with
  | .refuse => .refused (.coprocessorAbsent cp s.collaborators)
  | .trapUndefined => .next (takeException .undefinedInstruction s)
  | .halt => .fault (.coprocessorHalt s.collaborators)

/-- R380. -/
def cdpBody (op1 crn crd cp : BitVec 4) (op2 : BitVec 3) (crm : BitVec 4) (s : State) : Result :=
  let (answer, s') := askCoproc (.cdp cp op1 crn crd op2 crm) s
  if answer.present then .next (advance s') else coprocAbsent cp s'

/-- R381: the value sent is pc + 12 for r15. -/
def mcrBody (op1 : BitVec 3) (crn : BitVec 4) (rd : RegNum) (cp : BitVec 4) (op2 : BitVec 3) (crm : BitVec 4)
    (s : State) : Result :=
  let (answer, s') := askCoproc (.mcr cp op1 crn crm op2 (storedReg rd s)) s
  if answer.present then .next (advance s') else coprocAbsent cp s'

/-- R382: into r15, the answer's bits 31:28 are the flags and no register is written. -/
def mrcBody (op1 : BitVec 3) (crn : BitVec 4) (rd : RegNum) (cp : BitVec 4) (op2 : BitVec 3) (crm : BitVec 4)
    (s : State) : Result :=
  let (answer, s') := askCoproc (.mrc cp op1 crn crm op2) s
  if answer.present then
    if rd = 15 then .next (advance { s' with cpsr := s'.cpsr.withFlags answer.value })
    else .next (advance (writeReg rd answer.value s'))
  else coprocAbsent cp s'

/-- The word loop of LDC (R379), over the indices of its words, from address `a`. -/
def ldcWords (cp : BitVec 4) (a : Word) : List Nat → State → StoreOutcome
  | [], s => .done s
  | i :: rest, s =>
    match loadWord (coprocSlot a i) s with
    | (none, s') => .abort s'
    | (some v, s') => ldcWords cp a rest (askCoproc (.ldcWord cp i v) s').2

/-- The word loop of STC (R379). -/
def stcWords (cp : BitVec 4) (a : Word) : List Nat → State → StoreOutcome
  | [], s => .done s
  | i :: rest, s =>
    let (answer, s') := askCoproc (.stcWord cp i) s
    match store (.writeWord (coprocSlot a i) answer.value) s' with
    | .hazard s'' => .hazard s''
    | .abort s'' => .abort s''
    | .done s'' => stcWords cp a rest s''

/-- R379, LDC; an abort is that of R383. -/
def ldcBody (p u n w : Bool) (rn : RegNum) (crd cp : BitVec 4) (offset8 : BitVec 8) (s : State) : Result :=
  let ad := addressing p u (w || !p) rn (coprocOffset offset8) s
  let (answer, s') := askCoproc (.ldcBegin cp n crd) s
  if answer.present then finishStore (ldcWords cp ad.addr (List.range (answer.more.val + 1)) s') ad.writeBack
  else coprocAbsent cp s'

/-- R379, STC. -/
def stcBody (p u n w : Bool) (rn : RegNum) (crd cp : BitVec 4) (offset8 : BitVec 8) (s : State) : Result :=
  let ad := addressing p u (w || !p) rn (coprocOffset offset8) s
  let (answer, s') := askCoproc (.stcBegin cp n crd) s
  if answer.present then finishStore (stcWords cp ad.addr (List.range (answer.more.val + 1)) s') ad.writeBack
  else coprocAbsent cp s'

/-- LDC (R379). -/
def execLdc (c : Cond) (p u n w : Bool) (rn : RegNum) (crd cp : BitVec 4) (offset8 : BitVec 8) (s : State) : Result :=
  gate (.ldc c p u n w rn crd cp offset8) (ldcBody p u n w rn crd cp offset8) s

/-- STC (R379). -/
def execStc (c : Cond) (p u n w : Bool) (rn : RegNum) (crd cp : BitVec 4) (offset8 : BitVec 8) (s : State) : Result :=
  gate (.stc c p u n w rn crd cp offset8) (stcBody p u n w rn crd cp offset8) s

/-- CDP (R380). -/
def execCdp (c : Cond) (op1 crn crd cp : BitVec 4) (op2 : BitVec 3) (crm : BitVec 4) (s : State) : Result :=
  gate (.cdp c op1 crn crd cp op2 crm) (cdpBody op1 crn crd cp op2 crm) s

/-- MCR (R381). -/
def execMcr (c : Cond) (op1 : BitVec 3) (crn : BitVec 4) (rd : RegNum) (cp : BitVec 4) (op2 : BitVec 3)
    (crm : BitVec 4) (s : State) : Result :=
  gate (.mcr c op1 crn rd cp op2 crm) (mcrBody op1 crn rd cp op2 crm) s

/-- MRC (R382). -/
def execMrc (c : Cond) (op1 : BitVec 3) (crn : BitVec 4) (rd : RegNum) (cp : BitVec 4) (op2 : BitVec 3)
    (crm : BitVec 4) (s : State) : Result :=
  gate (.mrc c op1 crn rd cp op2 crm) (mrcBody op1 crn rd cp op2 crm) s

end Sys2Proof.Machine
end

