-- ==== Sys2Proof/Machine/DataProcessing.lean ====
section
/-! DEFINITION. The sixteen data-processing instructions (41_data_processing.md). -/

namespace Sys2Proof.Machine

/-- R200: the opcodes that write Rd. -/
def writesRd : AluOp → Bool
  | .tst | .teq | .cmp | .cmn => false
  | _ => true

/-- R200 to R203: execution of a data-processing instruction. -/
def dataProc (op : AluOp) (sf : Bool) (rn rd : RegNum) (op2 : Operand2) (s : State) : Result :=
  let r := aluResult op rn op2 s
  let flagged : State := if sf then { s with cpsr := s.cpsr.withResult r } else s
  if writesRd op then
    if rd = 15 then (if sf then exceptionReturn r.value s else .next (writePC r.value s))
    else .next (advance (writeReg rd r.value flagged))
  else .next (advance flagged)

/-- AND (R204). -/
def execAnd (c : Cond) (sf : Bool) (rn rd : RegNum) (op2 : Operand2) (s : State) : Result :=
  gate (.and c sf rn rd op2) (dataProc .and sf rn rd op2) s

/-- EOR (R205). -/
def execEor (c : Cond) (sf : Bool) (rn rd : RegNum) (op2 : Operand2) (s : State) : Result :=
  gate (.eor c sf rn rd op2) (dataProc .eor sf rn rd op2) s

/-- SUB (R206). -/
def execSub (c : Cond) (sf : Bool) (rn rd : RegNum) (op2 : Operand2) (s : State) : Result :=
  gate (.sub c sf rn rd op2) (dataProc .sub sf rn rd op2) s

/-- RSB (R207). -/
def execRsb (c : Cond) (sf : Bool) (rn rd : RegNum) (op2 : Operand2) (s : State) : Result :=
  gate (.rsb c sf rn rd op2) (dataProc .rsb sf rn rd op2) s

/-- ADD (R208). -/
def execAdd (c : Cond) (sf : Bool) (rn rd : RegNum) (op2 : Operand2) (s : State) : Result :=
  gate (.add c sf rn rd op2) (dataProc .add sf rn rd op2) s

/-- ADC (R209). -/
def execAdc (c : Cond) (sf : Bool) (rn rd : RegNum) (op2 : Operand2) (s : State) : Result :=
  gate (.adc c sf rn rd op2) (dataProc .adc sf rn rd op2) s

/-- SBC (R210). -/
def execSbc (c : Cond) (sf : Bool) (rn rd : RegNum) (op2 : Operand2) (s : State) : Result :=
  gate (.sbc c sf rn rd op2) (dataProc .sbc sf rn rd op2) s

/-- RSC (R211). -/
def execRsc (c : Cond) (sf : Bool) (rn rd : RegNum) (op2 : Operand2) (s : State) : Result :=
  gate (.rsc c sf rn rd op2) (dataProc .rsc sf rn rd op2) s

/-- TST (R212). -/
def execTst (c : Cond) (sf : Bool) (rn rd : RegNum) (op2 : Operand2) (s : State) : Result :=
  gate (.tst c sf rn rd op2) (dataProc .tst sf rn rd op2) s

/-- TEQ (R213). -/
def execTeq (c : Cond) (sf : Bool) (rn rd : RegNum) (op2 : Operand2) (s : State) : Result :=
  gate (.teq c sf rn rd op2) (dataProc .teq sf rn rd op2) s

/-- CMP (R214). -/
def execCmp (c : Cond) (sf : Bool) (rn rd : RegNum) (op2 : Operand2) (s : State) : Result :=
  gate (.cmp c sf rn rd op2) (dataProc .cmp sf rn rd op2) s

/-- CMN (R215). -/
def execCmn (c : Cond) (sf : Bool) (rn rd : RegNum) (op2 : Operand2) (s : State) : Result :=
  gate (.cmn c sf rn rd op2) (dataProc .cmn sf rn rd op2) s

/-- ORR (R216). -/
def execOrr (c : Cond) (sf : Bool) (rn rd : RegNum) (op2 : Operand2) (s : State) : Result :=
  gate (.orr c sf rn rd op2) (dataProc .orr sf rn rd op2) s

/-- MOV (R217). -/
def execMov (c : Cond) (sf : Bool) (rn rd : RegNum) (op2 : Operand2) (s : State) : Result :=
  gate (.mov c sf rn rd op2) (dataProc .mov sf rn rd op2) s

/-- BIC (R218). -/
def execBic (c : Cond) (sf : Bool) (rn rd : RegNum) (op2 : Operand2) (s : State) : Result :=
  gate (.bic c sf rn rd op2) (dataProc .bic sf rn rd op2) s

/-- MVN (R219). -/
def execMvn (c : Cond) (sf : Bool) (rn rd : RegNum) (op2 : Operand2) (s : State) : Result :=
  gate (.mvn c sf rn rd op2) (dataProc .mvn sf rn rd op2) s

end Sys2Proof.Machine
end

