-- ==== Sys2Proof/Machine/Multiply.lean ====
section
/-! DEFINITION. The multiplies (42_multiply.md). -/

namespace Sys2Proof.Machine

/-- R242, R243: `UInt(x[Rm]) * UInt(x[Rs]) + acc` modulo 2^32. -/
def product32 (rs rm : RegNum) (acc : Word) (s : State) : Word :=
  BitVec.ofNat 32 ((readReg rm s).toNat * (readReg rs s).toNat + acc.toNat)

/-- `concat(x[RdHi], x[RdLo])` of R245, R247. -/
def accumulator64 (rdHi rdLo : RegNum) (s : State) : BitVec 64 := readReg rdHi s ++ readReg rdLo s

/-- R244, R245: the unsigned product plus the accumulator modulo 2^64. -/
def unsignedProduct64 (rs rm : RegNum) (acc : BitVec 64) (s : State) : BitVec 64 :=
  BitVec.ofNat 64 ((readReg rm s).toNat * (readReg rs s).toNat + acc.toNat)

/-- R246, R247: the signed product plus the accumulator modulo 2^64. -/
def signedProduct64 (rs rm : RegNum) (acc : BitVec 64) (s : State) : BitVec 64 :=
  BitVec.ofInt 64 ((readReg rm s).toInt * (readReg rs s).toInt + acc.toNat)

/-- The commit of MUL and MLA with the flags of R241. -/
def commitProduct (sf : Bool) (rd : RegNum) (r : Word) (s : State) : Result :=
  .next (advance (writeReg rd r (if sf then { s with cpsr := s.cpsr.withProduct r } else s)))

/-- The commit of the long multiplies (R244 to R247) with the flags of R241. -/
def commitLongProduct (sf : Bool) (rdHi rdLo : RegNum) (p : BitVec 64) (s : State) : Result :=
  .next (advance (writeReg rdHi (p.extractLsb' 32 32) (writeReg rdLo (p.extractLsb' 0 32)
    (if sf then { s with cpsr := s.cpsr.withLongProduct p } else s))))

/-- MUL (R242). -/
def execMul (c : Cond) (sf : Bool) (rd rn rs rm : RegNum) (s : State) : Result :=
  gate (.mul c sf rd rn rs rm) (fun s => commitProduct sf rd (product32 rs rm 0#32 s) s) s

/-- MLA (R243). -/
def execMla (c : Cond) (sf : Bool) (rd rn rs rm : RegNum) (s : State) : Result :=
  gate (.mla c sf rd rn rs rm) (fun s => commitProduct sf rd (product32 rs rm (readReg rn s) s) s) s

/-- UMULL (R244). -/
def execUmull (c : Cond) (sf : Bool) (rdHi rdLo rs rm : RegNum) (s : State) : Result :=
  gate (.umull c sf rdHi rdLo rs rm)
    (fun s => commitLongProduct sf rdHi rdLo (unsignedProduct64 rs rm 0#64 s) s) s

/-- UMLAL (R245). -/
def execUmlal (c : Cond) (sf : Bool) (rdHi rdLo rs rm : RegNum) (s : State) : Result :=
  gate (.umlal c sf rdHi rdLo rs rm)
    (fun s => commitLongProduct sf rdHi rdLo (unsignedProduct64 rs rm (accumulator64 rdHi rdLo s) s) s) s

/-- SMULL (R246). -/
def execSmull (c : Cond) (sf : Bool) (rdHi rdLo rs rm : RegNum) (s : State) : Result :=
  gate (.smull c sf rdHi rdLo rs rm)
    (fun s => commitLongProduct sf rdHi rdLo (signedProduct64 rs rm 0#64 s) s) s

/-- SMLAL (R247). -/
def execSmlal (c : Cond) (sf : Bool) (rdHi rdLo rs rm : RegNum) (s : State) : Result :=
  gate (.smlal c sf rdHi rdLo rs rm)
    (fun s => commitLongProduct sf rdHi rdLo (signedProduct64 rs rm (accumulator64 rdHi rdLo s) s) s) s

end Sys2Proof.Machine
end

