-- ==== Sys2Proof/Machine/PsrTransfer.lean ====
section
/-! DEFINITION. MRS and MSR (46_psr_transfer.md). -/

namespace Sys2Proof.Machine

/-- R351: the fields f and c of a word written into a status register. -/
def Psr.writeFields (p : Psr) (f c : Bool) (v : Word) : Psr :=
  let p' := if f then p.withFlags v else p
  if c then p'.withControl v else p'

/-- PSRWrite of R351. In User mode the c field of the CPSR is not written (R52). -/
def psrWrite (spsr f c : Bool) (v : Word) (s : State) : Result :=
  if spsr then
    match currentSpsr s with
    | none => .refused (.unpredictable .r356)
    | some p => .next (advance (writeSpsr (currentBank s.cpsr) (p.writeFields f c v) s))
  else .next (advance { s with cpsr := s.cpsr.writeFields f (c && privileged s.cpsr) v })

/-- R350: the word MRS reads. -/
def mrsBody (spsr : Bool) (rd : RegNum) (s : State) : Result :=
  if spsr then
    match currentSpsr s with
    | none => .refused (.unpredictable .r356)
    | some p => .next (advance (writeReg rd p.toWord s))
  else .next (advance (writeReg rd s.cpsr.toWord s))

/-- MRS (R350). -/
def execMrs (c : Cond) (spsr : Bool) (rd : RegNum) (s : State) : Result :=
  gate (.mrs c spsr rd) (mrsBody spsr rd) s

/-- MSR_reg (R352): the fields f and c. -/
def execMsrReg (c : Cond) (spsr : Bool) (rm : RegNum) (s : State) : Result :=
  gate (.msrReg c spsr rm) (fun s => psrWrite spsr true true (readReg rm s) s) s

/-- MSR_flg (R353): the field f. -/
def execMsrFlg (c : Cond) (spsr : Bool) (src : PsrSource) (s : State) : Result :=
  gate (.msrFlg c spsr src) (fun s => psrWrite spsr true false (psrSource src s) s) s

/-- MSR_gen (R357): f when mask[3] = 1, c when mask[0] = 1. -/
def execMsrGen (c : Cond) (spsr : Bool) (mask : BitVec 4) (src : PsrSource) (s : State) : Result :=
  gate (.msrGen c spsr mask src)
    (fun s => psrWrite spsr (mask.getLsbD 3) (mask.getLsbD 0) (psrSource src s) s) s

end Sys2Proof.Machine
end

