-- ==== Sys2Proof/Machine/System.lean ====
section
/-! DEFINITION. SWI and the undefined encodings (47_swi_coprocessor.md R370, R385). -/

namespace Sys2Proof.Machine

/-- R385: a condition-passed `Undefined` word, by UNDEF_POLICY. -/
def undefinedBody (s : State) : Result :=
  match s.policy.undef with
  | .trap => .next (takeException .undefinedInstruction s)
  | .halt => .fault .undefinedHalt

/-- SWI (R370): the comment field is not read by the core. -/
def execSwi (c : Cond) (comment : BitVec 24) (s : State) : Result :=
  gate (.swi c comment) (fun s => .next (takeException .softwareInterrupt s)) s

/-- A store-signed halfword word (R107, R141 b). -/
def execUndefStoreSigned (c : Cond) (hi : BitVec 4) (mid : BitVec 12) (h : Bool) (lo : BitVec 4) (s : State) :
    Result :=
  gate (.undefStoreSigned c hi mid h lo) undefinedBody s

/-- A halfword-class word with S = H = 0 (R107, R141 c). -/
def execUndefHalfZero (c : Cond) (hi : BitVec 5) (mid : BitVec 12) (lo : BitVec 4) (s : State) : Result :=
  gate (.undefHalfZero c hi mid lo) undefinedBody s

/-- The undefined trap shape (R108, R136, R141 a). -/
def execUndefTrap (c : Cond) (hi : BitVec 20) (lo : BitVec 4) (s : State) : Result :=
  gate (.undefTrap c hi lo) undefinedBody s

end Sys2Proof.Machine
end

