-- ==== Sys2Proof/Machine/Dispatch.lean ====
section
/-! DEFINITION. exec: one arm per constructor of Instr, each one call of its meaning. -/

namespace Sys2Proof.Machine

def exec (i : Instr) (s : State) : Host.Outcome State Fault Refusal :=
  match i with
  | .and c sf rn rd op2 => Sys2Proof.Machine.execAnd c sf rn rd op2 s
  | .eor c sf rn rd op2 => Sys2Proof.Machine.execEor c sf rn rd op2 s
  | .sub c sf rn rd op2 => Sys2Proof.Machine.execSub c sf rn rd op2 s
  | .rsb c sf rn rd op2 => Sys2Proof.Machine.execRsb c sf rn rd op2 s
  | .add c sf rn rd op2 => Sys2Proof.Machine.execAdd c sf rn rd op2 s
  | .adc c sf rn rd op2 => Sys2Proof.Machine.execAdc c sf rn rd op2 s
  | .sbc c sf rn rd op2 => Sys2Proof.Machine.execSbc c sf rn rd op2 s
  | .rsc c sf rn rd op2 => Sys2Proof.Machine.execRsc c sf rn rd op2 s
  | .tst c sf rn rd op2 => Sys2Proof.Machine.execTst c sf rn rd op2 s
  | .teq c sf rn rd op2 => Sys2Proof.Machine.execTeq c sf rn rd op2 s
  | .cmp c sf rn rd op2 => Sys2Proof.Machine.execCmp c sf rn rd op2 s
  | .cmn c sf rn rd op2 => Sys2Proof.Machine.execCmn c sf rn rd op2 s
  | .orr c sf rn rd op2 => Sys2Proof.Machine.execOrr c sf rn rd op2 s
  | .mov c sf rn rd op2 => Sys2Proof.Machine.execMov c sf rn rd op2 s
  | .bic c sf rn rd op2 => Sys2Proof.Machine.execBic c sf rn rd op2 s
  | .mvn c sf rn rd op2 => Sys2Proof.Machine.execMvn c sf rn rd op2 s
  | .mrs c spsr rd => Sys2Proof.Machine.execMrs c spsr rd s
  | .msrReg c spsr rm => Sys2Proof.Machine.execMsrReg c spsr rm s
  | .msrFlg c spsr src => Sys2Proof.Machine.execMsrFlg c spsr src s
  | .msrGen c spsr mask src => Sys2Proof.Machine.execMsrGen c spsr mask src s
  | .mul c sf rd rn rs rm => Sys2Proof.Machine.execMul c sf rd rn rs rm s
  | .mla c sf rd rn rs rm => Sys2Proof.Machine.execMla c sf rd rn rs rm s
  | .umull c sf rdHi rdLo rs rm => Sys2Proof.Machine.execUmull c sf rdHi rdLo rs rm s
  | .umlal c sf rdHi rdLo rs rm => Sys2Proof.Machine.execUmlal c sf rdHi rdLo rs rm s
  | .smull c sf rdHi rdLo rs rm => Sys2Proof.Machine.execSmull c sf rdHi rdLo rs rm s
  | .smlal c sf rdHi rdLo rs rm => Sys2Proof.Machine.execSmlal c sf rdHi rdLo rs rm s
  | .swp c sbz rn rd rm => Sys2Proof.Machine.execSwp c sbz rn rd rm s
  | .swpb c sbz rn rd rm => Sys2Proof.Machine.execSwpb c sbz rn rd rm s
  | .bx c rm => Sys2Proof.Machine.execBx c rm s
  | .ldrh c p u w rn rd off => Sys2Proof.Machine.execLdrh c p u w rn rd off s
  | .strh c p u w rn rd off => Sys2Proof.Machine.execStrh c p u w rn rd off s
  | .ldrsb c p u w rn rd off => Sys2Proof.Machine.execLdrsb c p u w rn rd off s
  | .ldrsh c p u w rn rd off => Sys2Proof.Machine.execLdrsh c p u w rn rd off s
  | .undefStoreSigned c hi mid h lo => Sys2Proof.Machine.execUndefStoreSigned c hi mid h lo s
  | .undefHalfZero c hi mid lo => Sys2Proof.Machine.execUndefHalfZero c hi mid lo s
  | .undefTrap c hi lo => Sys2Proof.Machine.execUndefTrap c hi lo s
  | .ldrPre c u w rn rd off => Sys2Proof.Machine.execLdrPre c u w rn rd off s
  | .ldrPost c u rn rd off => Sys2Proof.Machine.execLdrPost c u rn rd off s
  | .strPre c u w rn rd off => Sys2Proof.Machine.execStrPre c u w rn rd off s
  | .strPost c u rn rd off => Sys2Proof.Machine.execStrPost c u rn rd off s
  | .ldrbPre c u w rn rd off => Sys2Proof.Machine.execLdrbPre c u w rn rd off s
  | .ldrbPost c u rn rd off => Sys2Proof.Machine.execLdrbPost c u rn rd off s
  | .strbPre c u w rn rd off => Sys2Proof.Machine.execStrbPre c u w rn rd off s
  | .strbPost c u rn rd off => Sys2Proof.Machine.execStrbPost c u rn rd off s
  | .ldrt c u rn rd off => Sys2Proof.Machine.execLdrt c u rn rd off s
  | .strt c u rn rd off => Sys2Proof.Machine.execStrt c u rn rd off s
  | .ldrbt c u rn rd off => Sys2Proof.Machine.execLdrbt c u rn rd off s
  | .strbt c u rn rd off => Sys2Proof.Machine.execStrbt c u rn rd off s
  | .ldm c p u sb w rn list => Sys2Proof.Machine.execLdm c p u sb w rn list s
  | .stm c p u sb w rn list => Sys2Proof.Machine.execStm c p u sb w rn list s
  | .b c offset24 => Sys2Proof.Machine.execB c offset24 s
  | .bl c offset24 => Sys2Proof.Machine.execBl c offset24 s
  | .ldc c p u n w rn crd cp offset8 => Sys2Proof.Machine.execLdc c p u n w rn crd cp offset8 s
  | .stc c p u n w rn crd cp offset8 => Sys2Proof.Machine.execStc c p u n w rn crd cp offset8 s
  | .swi c comment => Sys2Proof.Machine.execSwi c comment s
  | .cdp c op1 crn crd cp op2 crm => Sys2Proof.Machine.execCdp c op1 crn crd cp op2 crm s
  | .mcr c op1 crn rd cp op2 crm => Sys2Proof.Machine.execMcr c op1 crn rd cp op2 crm s
  | .mrc c op1 crn rd cp op2 crm => Sys2Proof.Machine.execMrc c op1 crn rd cp op2 crm s

end Sys2Proof.Machine
end

