-- ==== Sys2Proof/Machine/Step.lean ====
section
/-! DEFINITION. One step of the machine (R160). -/

namespace Sys2Proof.Machine

/-- The rest of a step once it has begun: nothing, or the decoded instruction (R160). -/
def CycleStart.finish : CycleStart → Result
  | .over r => r
  | .run i s => exec i s

/-- One step of the core (R160), with the three outcomes of R15. -/
def step (s : State) : Host.Outcome State Fault Refusal := (beginCycle s).finish

/-- The state with an instruction word, numbered as the opcode table numbers it, where step fetches next. -/
def State.withFetchWord (s : State) (nbits w : Nat) : State :=
  placeFetchWord s (BitVec.ofNat 32 (w % 2 ^ nbits))

end Sys2Proof.Machine
end

