-- ==== Sys2Proof/Safety.lean ====
section
/-! DEFINITION. The terms claims use: the invariant of the machine, and when an instruction executes normally. -/

namespace Sys2Proof.Machine

/-- R38: in ARM state pc[1:0] is 00. In Thumb state, which no step leaves (R161), R167 and R333 clear bit 0. -/
def pcAligned (s : State) : Bool :=
  if s.cpsr.t then !(s.pc.getLsbD 0) else s.pc.extractLsb' 0 2 == 0b00#2

/-- What every step keeps: memory is canonical, the mode is legal (R31, R32), the PC is aligned (R38), and the
hazard tracker is set only in a mode that has an SPSR (R312, R463). -/
structure State.Inv (s : State) : Prop where
  memory : s.memory.wf = true
  mode : legalMode s.cpsr.m = true
  pc : pcAligned s = true
  tracker : s.lastUserBankTransfer = true → currentBank s.cpsr ≠ .usr

/-- The instruction passes WF(result, state), its condition, and the hazard test of R463: it executes (R160). -/
structure Executes (i : Instr) (s : State) : Prop where
  wellFormed : wfRefusal i s = none
  condition : conditionPassed i.cond s.cpsr = true
  noHazard : bankedHazard i s = false

/-- Everything State holds beside the general registers, the PC, the CPSR, the SPSRs, the hazard tracker and the byte
array is the same in two states. -/
structure SameEnvironment (s t : State) : Prop where
  faultMark : t.faultMark = s.faultMark
  refusalMark : t.refusalMark = s.refusalMark
  abortMap : t.abortMap = s.abortMap
  bus : t.bus = s.bus
  coproc : t.coproc = s.coproc
  inputs : t.inputs = s.inputs
  policy : t.policy = s.policy
  freeCount : t.freeCount = s.freeCount

/-- The status register's bits beside N, Z, C, V are the same (R47). -/
structure SameControl (p q : Psr) : Prop where
  i : q.i = p.i
  f : q.f = p.f
  t : q.t = p.t
  m : q.m = p.m

/-- Every physical register reads the same but for the listed ones. -/
def SameRegsBut (written : List (Option PhysReg)) (s t : State) : Prop :=
  ∀ p : PhysReg, some p ∉ written → t.regs.read p = s.regs.read p

/-- Every byte of memory reads the same. -/
def SameMemory (s t : State) : Prop := ∀ a : Word, t.memory.readByte a = s.memory.readByte a

/-- Every byte of memory outside the `n` bytes from `first` reads the same. -/
def SameMemoryBut (first : Word) (n : Nat) (s t : State) : Prop :=
  ∀ a : Word, n ≤ (a - first).toNat → t.memory.readByte a = s.memory.readByte a

/-! ### The words of the claims about instructions -/

/-- The state with N, Z, C, V set and nothing else changed. -/
def State.withFlags (s : State) (n z c v : Bool) : State := { s with cpsr := { s.cpsr with n := n, z := z, c := c, v := v } }

/-- The state after a flag-setting instruction with result r, carry c and overflow v: N, Z, C, V when S = 1 (R201). -/
def setFlags (sf : Bool) (r : Word) (c v : Bool) (s : State) : State :=
  if sf then s.withFlags r.msb (r == 0#32) c v else s

/-- An exact signed result that 32 bits do not hold (R14). -/
def signedOverflow (x : Int) : Bool := decide (x < -2 ^ 31 ∨ 2 ^ 31 - 1 < x)

/-- The byte array, not a rule or a device, answers the request (R71, R85). -/
def Plain (q : MemRequest) (s : State) : Prop := s.bus.reply q = none

/-- The write is outside the prefetch window (R462). -/
def NoHazard (q : MemRequest) (s : State) : Prop := ∀ a ∈ q.bytes, inPrefetchWindow s.pc a = false

/-- The write is outside the prefetch window (R462), and the collaborator does not abort it. -/
def StoreAllowed (q : MemRequest) (s : State) : Prop := NoHazard q s ∧ memAborts q s = false

/-- The state after one store request that is done. -/
def stored (q : MemRequest) (s : State) : State := { called q s with memory := written q s }

/-- The state after several requests, but for the bytes writes among them change (R80). -/
def callAll (qs : List MemRequest) (s : State) : State := qs.foldl (fun s q => called q s) s

/-- Of several word writes, each made in the state `before` it: the word stands in its slot where the byte array
answers the write, and every byte outside those slots is as it was (R71, R76). -/
structure WordsStored {ι : Type} (made : ι → Prop) (slot value : ι → Word) (before : ι → State) (m m' : Memory) :
    Prop where
  words : m.wf = true → ∀ i, made i → Plain (.writeWord (slot i) (value i)) (before i) → m'.readWord (slot i) = value i
  others : ∀ a : Word, (∀ i, made i → Plain (.writeWord (slot i) (value i)) (before i) → 4 ≤ (a - slot i).toNat) →
    m'.readByte a = m.readByte a

/-- The coprocessors after several requests (R378). -/
def CoprocPort.afterAll (p : CoprocPort) (qs : List CoprocRequest) : CoprocPort := qs.foldl CoprocPort.after p

/-- The state in which a block transfer makes the request for the listed register r: the requests for the lower listed
registers have been made, in register order (R304, R305). -/
def beforeSlot (request : RegNum → MemRequest) (list : BitVec 16) (r : RegNum) (s : State) : State :=
  callAll (((regList list).filter fun q => decide (q < r)).map request) s

/-- The state just after the entry of exception e (R410), reached from a state with program counter `pc` and status
`old`. -/
structure Entered (e : Exc) (pc : Word) (old : Psr) (t : State) : Prop where
  link : t.regs.read (.r14 e.mode.bank) = pc + e.linkOffset
  saved : t.spsrs.get e.mode.bank = some old
  status : t.cpsr = { old with m := e.mode.bits, t := false, i := true, f := old.f || e.masksFiq }
  vector : t.pc = e.vector
  tracker : t.lastUserBankTransfer = false

end Sys2Proof.Machine
end

