-- ==== Sys2Proof/Certificates/Slice0/Obligations.lean ====
section
/-! DEFINITION. The statements for the provers, each about every state and every operand its words name.

`Executes i s` (Sys2Proof/Safety.lean) says that instruction i passes the well-formedness check, its condition and
the hazard test at s; when it does is the subject of the refusal statements, of ConditionTable and of
BankedRegisterHazard. `clearTracker s` is s with the hazard tracker cleared, which every step does (R463). `called q s`
is s after the memory request q (R80): what that changes, and what the collaborator answers, is the subject of
MemoryCollaboratorAnswers. -/

open Sys2Proof
open Sys2Proof.Machine

/-! ### Encoding -/

/-- R153, on bytes as they stand in memory: no bit of an encoding is dropped, for every well-formed instruction.
MSR_gen decodes so only when MSR_GENERAL_MASK is true (R357). -/
def Obligations.DecodeEncodeRoundTrip : Prop :=
  ∀ (general : Bool) (i : Instr) (rest : List Byte), i.WellFormed →
    (∀ c spsr mask src, i = .msrGen c spsr mask src → general = true) →
    decodeBytes general (bytesOfWord (encode i) ++ rest) = .ok (i, rest)

/-- R116: every word decodes. That the word can be written back from what it decoded to, for every word, is the
model's choice of the fields a term keeps, log entry 13: it keeps should-be-zero fields and the free bits of `Undefined`
words, where R101 gives `Undefined` no fields and Swp no w[21:20]. -/
def Obligations.EncodeInvertsDecode : Prop :=
  ∀ (general : Bool) (w : Word), ∃ i : Instr, decodeWord general w = .ok i ∧ encode i = w

/-! ### The memory collaborator -/

/-- R70, R71, R80, R85: what the memory collaborator answers, each request being one call that is recorded; beside the
bytes of a write that is done it changes only the collaborator's own state. The byte array answers with its bytes,
little-endian, and aborts by region; a rule answers as it says; neither a rule nor a device changes a byte of the array,
and of a device's answers nothing more is said. That rules come before devices and devices before the byte array, and
that the two leave the bytes alone, is the model's form of the oracle R85 asks for, log entry 4. -/
def Obligations.MemoryCollaboratorAnswers : Prop :=
  ∀ (q : MemRequest) (p : Word) (s : State),
    let matched := fun (r : MemRule) => r.own = s.bus.own ∧ r.request = q
    let atDevice := ∃ a ∈ q.bytes, ∃ d ∈ s.bus.devices, d.base ≤ a.toNat ∧ a.toNat < d.base + d.size
    called q s = { s with bus := (called q s).bus } ∧ (called q s).bus.requests = q :: s.bus.requests ∧
    (called q s).bus.rules = s.bus.rules ∧ (called q s).bus.devices = s.bus.devices ∧
    (Plain q s ↔ (∀ r ∈ s.bus.rules, ¬ matched r) ∧ ¬ atDevice) ∧
    (Plain q s → (called q s).bus.own = s.bus.own ∧
      (memAborts q s = true ↔ ∃ a ∈ q.bytes, ∃ r ∈ s.abortMap, r.base ≤ a.toNat ∧ a.toNat < r.base + r.size ∧
        match q with
        | .readByte _ | .readHalf _ | .readWord _ => r.onRead = true
        | .writeByte _ _ | .writeHalf _ _ | .writeWord _ _ => r.onWrite = true)) ∧
    (Plain (.readByte p) s → byteAt p s = s.memory.readByte p) ∧
    (Plain (.readHalf p) s → ∀ k < 2, (halfAt p s).extractLsb' (8 * k) 8 = s.memory.readByte (p + BitVec.ofNat 32 k)) ∧
    (Plain (.readWord p) s → ∀ k < 4, (wordAt p s).extractLsb' (8 * k) 8 = s.memory.readByte (p + BitVec.ofNat 32 k)) ∧
    (Plain q s → written q s = match q with
      | .readByte _ | .readHalf _ | .readWord _ => s.memory
      | .writeByte a v => s.memory.writeByte a v
      | .writeHalf a v => s.memory.writeHalf a v
      | .writeWord a v => s.memory.writeWord a v) ∧
    (¬ Plain q s → written q s = s.memory) ∧
    (∀ (earlier : List MemRule) (r : MemRule) (later : List MemRule), s.bus.rules = earlier ++ r :: later →
      (∀ r' ∈ earlier, ¬ matched r') → matched r →
      memAborts q s = r.answer.aborts ∧ (called q s).bus.own = r.next ∧
      (q = .readByte p → byteAt p s = r.answer.value.setWidth 8) ∧
      (q = .readHalf p → halfAt p s = r.answer.value.setWidth 16) ∧ (q = .readWord p → wordAt p s = r.answer.value)) ∧
    (NoHazard q s → memAborts q s = true → store q s = .abort (called q s)) ∧
    (NoHazard q s → memAborts q s = false → store q s = .done { called q s with memory := written q s })

/-! ### Decoding -/

/-- R106, and R141 with R108: the branch-and-exchange shape is BX whatever its condition, and exactly the words of
R141 (a), (b), (c) decode as `Undefined`. -/
def Obligations.FixedShapesDecode : Prop :=
  (∀ (general : Bool) (w : Word), field w 4 24 = 0x12FFF1#24 →
    decodeWord general w = .ok (.bx (Cond.ofBits (field w 28 4)) (regField w 0))) ∧
  (∀ (general : Bool) (w : Word),
    let earlier := (field w 22 6 = 0b000000#6 ∨ field w 23 5 = 0b00001#5) ∧ field w 4 4 = 0b1001#4 ∨
      field w 23 5 = 0b00010#5 ∧ field w 4 8 = 0b00001001#8
    let halfClass := field w 25 3 = 0b000#3 ∧ bit w 7 = true ∧ bit w 4 = true ∧ ¬ earlier
    ((∃ c hi mid h lo, decodeWord general w = .ok (.undefStoreSigned c hi mid h lo)) ∨
        (∃ c hi mid lo, decodeWord general w = .ok (.undefHalfZero c hi mid lo)) ∨
        (∃ c hi lo, decodeWord general w = .ok (.undefTrap c hi lo))) ↔
      (field w 25 3 = 0b011#3 ∧ bit w 4 = true) ∨
      (halfClass ∧ bit w 20 = false ∧ bit w 6 = true) ∨
      (halfClass ∧ bit w 6 = false ∧ bit w 5 = false))

/-- Words of 95_test_vectors.md section 3.1 written out by hand from the formats, one or more of each family. -/
def Obligations.SampleWordsDecode : Prop :=
  decodeWord false 0xE0000291#32 = .ok (.mul .al false 0 0 2 1) ∧
  decodeWord false 0xE0832190#32 = .ok (.umull .al false 3 2 1 0) ∧
  decodeWord false 0xE1410092#32 = .ok (.swpb .al 0#2 1 0 2) ∧
  decodeWord false 0x012FFF1E#32 = .ok (.bx .eq 14) ∧
  decodeWord false 0xE1D100B2#32 = .ok (.ldrh .al true true false 1 0 (.imm 2#8)) ∧
  decodeWord false 0xE7F000F0#32 = .ok (.undefTrap .al 0xF8007#20 0#4) ∧
  decodeWord false 0xE4D10001#32 = .ok (.ldrbPost .al true 1 0 (.imm 1#12)) ∧
  decodeWord false 0xE92D4010#32 = .ok (.stm .al true false false true 13 0x4010#16) ∧
  decodeWord false 0xEB000001#32 = .ok (.bl .al 1#24) ∧
  decodeWord false 0xECA12101#32 = .ok (.stc .al false true false true 1 2#4 1#4 1#8) ∧
  decodeWord false 0xEF000042#32 = .ok (.swi .al 0x42#24) ∧
  decodeWord false 0xEE110112#32 = .ok (.mrc .al 0#3 1#4 0 1#4 0#3 2#4) ∧
  decodeWord false 0xE14F2000#32 = .ok (.mrs .al true 2) ∧
  decodeWord false 0xE029F001#32 = .ok (.eor .al false 9 15 (.regImm 1 .lsl 0#5)) ∧
  decodeWord true 0xE121F000#32 = .ok (.msrGen .al false 0b0001#4 (.reg 0#8 0))

/-! ### The step -/

/-- R160: with no mark and no exception due, a step is exec of the instruction that the word fetched decodes to. Around
exec the step only uses up the inputs of its boundary (R404) and makes the fetch's one memory request (R77, R80); exec
itself moves the program counter. Where the byte array answers the fetch, the word is the four bytes at the program
counter. -/
def Obligations.StepRunsDecodedInstruction : Prop :=
  ∀ (s : State) (i : Instr),
    let p := alignWord s.pc
    let fetch := MemRequest.readWord p
    (Plain fetch s → bytesOfWord (wordAt p s) = [s.memory.readByte p, s.memory.readByte (p + 1#32),
      s.memory.readByte (p + 2#32), s.memory.readByte (p + 3#32)]) ∧
    (s.faultMark = none → s.refusalMark = none → (currentInputs s).reset = false →
      ((currentInputs s).fiq = false ∨ s.cpsr.f = true) → ((currentInputs s).irq = false ∨ s.cpsr.i = true) →
      s.cpsr.t = false → memAborts fetch s = false →
      decodeBytes s.policy.msrGeneralMask (bytesOfWord (wordAt p s)) = .ok (i, []) →
      step s = exec i { s with inputs := s.inputs.tail, bus := s.bus.after fetch })

/-- The invariant of the machine is kept by every step: memory stays canonical, the mode stays one of R31, the PC
stays aligned (R38), the hazard tracker is set only in a mode with an SPSR (R312, R463). -/
def Obligations.InvariantKeptByStep : Prop :=
  ∀ s t : State, s.Inv → step s = .next t → t.Inv

/-- The machine right after reset has the invariant. -/
def Obligations.InvariantAtReset : Prop := State.reset.Inv

/-- R426: a step that leaves User mode is reset or the entry of an exception, which saves the User CPSR. -/
def Obligations.UserModeLeavesOnlyByException : Prop :=
  ∀ s t : State, s.cpsr.m = Mode.user.bits → step s = .next t → t.cpsr.m ≠ Mode.user.bits →
    ((currentInputs s).reset = true ∧ t.cpsr.m = Mode.supervisor.bits ∧ t.pc = 0x00000000#32) ∨
    ∃ e : Exc, t.cpsr.m = e.mode.bits ∧ t.pc = e.vector ∧ t.spsrs.get e.mode.bank = some s.cpsr ∧
      t.cpsr.i = true ∧ t.cpsr.t = false ∧ t.cpsr.f = (s.cpsr.f || e.masksFiq)

/-- R37, R41, R52: while the machine stays in User mode no step changes a register outside the User bank, a saved
status register, or the interrupt masks. -/
def Obligations.UserModeCannotReachOtherBanks : Prop :=
  ∀ s t : State, s.cpsr.m = Mode.user.bits → step s = .next t → t.cpsr.m = Mode.user.bits →
    (∀ q : PhysReg, (∀ n : RegNum, bankReg .usr n ≠ some q) → t.regs.read q = s.regs.read q) ∧
    t.spsrs = s.spsrs ∧ t.cpsr.i = s.cpsr.i ∧ t.cpsr.f = s.cpsr.f

/-- R57, R61: what the spec gives of the state after reset. -/
def Obligations.ResetStateValues : Prop :=
  State.reset.cpsr.m = 0b10011#5 ∧ State.reset.cpsr.i = true ∧ State.reset.cpsr.f = true ∧
  State.reset.cpsr.t = false ∧ State.reset.pc = 0x00000000#32 ∧ State.reset.lastUserBankTransfer = false ∧
  State.reset.faultMark = none ∧ State.reset.refusalMark = none

/-- R450: reset asserted at a boundary of a run. R14_svc and SPSR_svc are left unspecified, so nothing is said of
them; everything else keeps its value. -/
def Obligations.ResetDuringRun : Prop :=
  ∀ s : State, s.faultMark = none → s.refusalMark = none → (currentInputs s).reset = true →
    ∃ t : State, step s = .next t ∧
      t.cpsr = { s.cpsr with m := 0b10011#5, i := true, f := true, t := false } ∧ t.pc = 0x00000000#32 ∧
      t.lastUserBankTransfer = false ∧ SameRegsBut [some (.r14 .svc)] s t ∧
      (∀ k : Bank, k ≠ .svc → t.spsrs.get k = s.spsrs.get k) ∧ t.memory = s.memory ∧ t.bus = s.bus ∧ t.coproc = s.coproc ∧
      t.faultMark = none ∧ t.refusalMark = none ∧ t.inputs = s.inputs.tail

/-- R451, R160, R15: a state with a mark takes no step, whatever the host asserts. The clauses on `settle`, which puts
the mark on a state, are about the model's choice of that state, log entry 12: a step that faults or is refused leaves
a state with its mark, whose registers are those before the step (R166: it commits nothing) and whose memory and
collaborators are those a stop in the midst of Execute kept. -/
def Obligations.MarkedStateTakesNoStep : Prop :=
  (∀ (s : State) (f : Fault), s.faultMark = some f → step s = .fault f) ∧
  (∀ (s : State) (r : Refusal), s.faultMark = none → s.refusalMark = some r → step s = .refused r) ∧
  (∀ s t : State, t = settle s (step s) →
    let stopped := fun (kept : Option Collaborators) =>
      t.regs = s.regs ∧ t.pc = s.pc ∧ t.cpsr = s.cpsr ∧ t.spsrs = s.spsrs ∧
      ∀ k : Collaborators, kept = some k → t.memory = k.memory ∧ t.bus = k.bus ∧ t.coproc = k.coproc
    (∀ f : Fault, step s = .fault f → step t = .fault f ∧ stopped f.kept) ∧
    (∀ r : Refusal, step s = .refused r → step t = .refused r ∧ stopped r.kept))

/-- R405, R413, R414: FIQ before IRQ, each entry a step of its own with the link pc + 4; a masked input changes
nothing but that it is used up. -/
def Obligations.InterruptEntries : Prop :=
  ∀ s : State, s.faultMark = none → s.refusalMark = none → (currentInputs s).reset = false →
    ((currentInputs s).fiq = true → s.cpsr.f = false →
      ∃ t : State, step s = .next t ∧ t.regs.read (.r14 .fiq) = s.pc + 4#32 ∧ t.spsrs.fiq = s.cpsr ∧
        t.cpsr = { s.cpsr with m := 0b10001#5, t := false, i := true, f := true } ∧ t.pc = 0x0000001C#32 ∧
        SameRegsBut [some (.r14 .fiq)] s t ∧ t.memory = s.memory ∧ t.bus = s.bus) ∧
    ((currentInputs s).fiq = false ∨ s.cpsr.f = true → (currentInputs s).irq = true → s.cpsr.i = false →
      ∃ t : State, step s = .next t ∧ t.regs.read (.r14 .irq) = s.pc + 4#32 ∧ t.spsrs.irq = s.cpsr ∧
        t.cpsr = { s.cpsr with m := 0b10010#5, t := false, i := true } ∧ t.pc = 0x00000018#32 ∧
        SameRegsBut [some (.r14 .irq)] s t ∧ t.memory = s.memory ∧ t.bus = s.bus) ∧
    ((currentInputs s).fiq = false ∨ s.cpsr.f = true → (currentInputs s).irq = false ∨ s.cpsr.i = true →
      step s = step { s with inputs := quietInputs :: s.inputs.tail })

/-- R161 and R416: a fetch in Thumb state is refused; an aborted fetch takes the prefetch abort, the word's condition
notwithstanding. -/
def Obligations.ThumbRefusedAndFetchAborts : Prop :=
  ∀ s : State, s.faultMark = none → s.refusalMark = none → (currentInputs s).reset = false →
    ((currentInputs s).fiq = false ∨ s.cpsr.f = true) → ((currentInputs s).irq = false ∨ s.cpsr.i = true) →
    (s.cpsr.t = true → step s = .refused .thumbUnsupported) ∧
    (s.cpsr.t = false → memAborts (.readWord (alignWord s.pc)) s = true →
      ∃ t : State, step s = .next t ∧ t.regs.read (.r14 .abt) = s.pc + 4#32 ∧ t.spsrs.abt = s.cpsr ∧
        t.cpsr = { s.cpsr with m := 0b10111#5, t := false, i := true } ∧ t.pc = 0x0000000C#32 ∧
        SameRegsBut [some (.r14 .abt)] s t ∧ t.memory = s.memory ∧
        t.bus = s.bus.after (.readWord (alignWord s.pc)))

/-- R410 with R400, R402 and the link values of R411 to R414, R416, R417: the whole entry of each exception, and that
nothing else changes. -/
def Obligations.ExceptionEntryIsWhole : Prop :=
  ∀ (e : Exc) (s : State),
    let t := takeException e s
    let row : BitVec 5 × Bank × Word × Word × Bool := match e with
      | .undefinedInstruction => (0b11011#5, .und, 0x00000004#32, 4#32, false)
      | .softwareInterrupt => (0b10011#5, .svc, 0x00000008#32, 4#32, false)
      | .prefetchAbort => (0b10111#5, .abt, 0x0000000C#32, 4#32, false)
      | .dataAbort => (0b10111#5, .abt, 0x00000010#32, 8#32, false)
      | .irq => (0b10010#5, .irq, 0x00000018#32, 4#32, false)
      | .fiq => (0b10001#5, .fiq, 0x0000001C#32, 4#32, true)
    t.regs.read (.r14 row.2.1) = s.pc + row.2.2.2.1 ∧ t.spsrs.get row.2.1 = some s.cpsr ∧
    t.cpsr = { s.cpsr with m := row.1, t := false, i := true, f := s.cpsr.f || row.2.2.2.2 } ∧ t.pc = row.2.2.1 ∧
    SameRegsBut [some (.r14 row.2.1)] s t ∧ (∀ k : Bank, k ≠ row.2.1 → t.spsrs.get k = s.spsrs.get k) ∧
    t.memory = s.memory ∧ SameEnvironment s t ∧ t.lastUserBankTransfer = false

/-! ### Between decoding and executing -/

/-- R162, row by row, on the values of the condition field. -/
def Obligations.ConditionTable : Prop :=
  ∀ p : Psr,
    let passes := fun (v : BitVec 4) => conditionPassed (Cond.ofBits v) p = true
    (passes 0b0000#4 ↔ p.z = true) ∧ (passes 0b0001#4 ↔ p.z = false) ∧
    (passes 0b0010#4 ↔ p.c = true) ∧ (passes 0b0011#4 ↔ p.c = false) ∧
    (passes 0b0100#4 ↔ p.n = true) ∧ (passes 0b0101#4 ↔ p.n = false) ∧
    (passes 0b0110#4 ↔ p.v = true) ∧ (passes 0b0111#4 ↔ p.v = false) ∧
    (passes 0b1000#4 ↔ p.c = true ∧ p.z = false) ∧ (passes 0b1001#4 ↔ p.c = false ∨ p.z = true) ∧
    (passes 0b1010#4 ↔ p.n = p.v) ∧ (passes 0b1011#4 ↔ p.n ≠ p.v) ∧
    (passes 0b1100#4 ↔ p.n = p.v ∧ p.z = false) ∧ (passes 0b1101#4 ↔ p.n ≠ p.v ∨ p.z = true) ∧
    passes 0b1110#4 ∧ ¬ passes 0b1111#4

/-- R163: a condition-failed instruction, whichever it is, advances the program counter, clears the hazard tracker
and has no other effect. -/
def Obligations.ConditionFailedOnlyAdvances : Prop :=
  ∀ (i : Instr) (s : State), wfRefusal i s = none → conditionPassed i.cond s.cpsr = false →
    exec i s = .next { s with pc := s.pc + 4#32, lastUserBankTransfer := false }

/-- R140: what the well-formedness check refuses is refused, and a refusal that reads the instruction alone does not
look at the condition, the flags or the mode. -/
def Obligations.IllFormedIsRefused : Prop :=
  (∀ (i : Instr) (s : State) (r : Refusal), wfRefusal i s = some r → exec i s = .refused r) ∧
  (∀ (i : Instr) (r : UnpRule), i.staticRule = some r → ∀ s : State, exec i s = .refused (.unpredictable r))

/-- R463: directly after a User-bank load, a condition-passed instruction that names a banked register of the current
mode faults before it has any effect, and every other one runs as if the tracker were clear. Which registers a form
names is DEDUCED, log entry 14: the register fields it reads or writes, every register of an LDM's or STM's list whatever
S is, and r14 for BL; Rd of a compare, Rn of MOV and MVN, Rn of MUL and a coprocessor's register fields are none. -/
def Obligations.BankedRegisterHazard : Prop :=
  ∀ (i : Instr) (s : State), s.lastUserBankTransfer = true → wfRefusal i s = none →
    conditionPassed i.cond s.cpsr = true →
    let bank := currentBank s.cpsr
    let banked := fun (n : RegNum) => (bank = .fiq ∧ 8 ≤ n.val ∧ n.val ≤ 14) ∨
      ((bank = .irq ∨ bank = .svc ∨ bank = .abt ∨ bank = .und) ∧ (n.val = 13 ∨ n.val = 14))
    let inOperand2 := fun (o : Operand2) (n : RegNum) => match o with
      | .imm _ _ => False
      | .regImm rm _ _ => n = rm
      | .regReg rm _ rs => n = rm ∨ n = rs
    let inOffset := fun (o : Offset) (n : RegNum) => match o with
      | .imm _ => False
      | .reg rm _ _ => n = rm
    let inHalfOffset := fun (o : HalfOffset) (n : RegNum) => match o with
      | .imm _ => False
      | .reg _ rm => n = rm
    let inSource := fun (o : PsrSource) (n : RegNum) => match o with
      | .imm _ _ => False
      | .reg _ rm => n = rm
    let names := fun (n : RegNum) => match i with
      | .and _ _ rn rd o | .eor _ _ rn rd o | .sub _ _ rn rd o | .rsb _ _ rn rd o | .add _ _ rn rd o
      | .adc _ _ rn rd o | .sbc _ _ rn rd o | .rsc _ _ rn rd o | .orr _ _ rn rd o | .bic _ _ rn rd o =>
        n = rn ∨ n = rd ∨ inOperand2 o n
      | .tst _ _ rn _ o | .teq _ _ rn _ o | .cmp _ _ rn _ o | .cmn _ _ rn _ o => n = rn ∨ inOperand2 o n
      | .mov _ _ _ rd o | .mvn _ _ _ rd o => n = rd ∨ inOperand2 o n
      | .mrs _ _ rd => n = rd
      | .msrReg _ _ rm => n = rm
      | .msrFlg _ _ src | .msrGen _ _ _ src => inSource src n
      | .mul _ _ rd _ rs rm => n = rd ∨ n = rs ∨ n = rm
      | .mla _ _ rd rn rs rm | .umull _ _ rd rn rs rm | .umlal _ _ rd rn rs rm | .smull _ _ rd rn rs rm
      | .smlal _ _ rd rn rs rm => n = rd ∨ n = rn ∨ n = rs ∨ n = rm
      | .swp _ _ rn rd rm | .swpb _ _ rn rd rm => n = rn ∨ n = rd ∨ n = rm
      | .bx _ rm => n = rm
      | .ldrh _ _ _ _ rn rd o | .strh _ _ _ _ rn rd o | .ldrsb _ _ _ _ rn rd o | .ldrsh _ _ _ _ rn rd o =>
        n = rn ∨ n = rd ∨ inHalfOffset o n
      | .ldrPre _ _ _ rn rd o | .strPre _ _ _ rn rd o | .ldrPost _ _ rn rd o | .strPost _ _ rn rd o
      | .ldrbPre _ _ _ rn rd o | .strbPre _ _ _ rn rd o | .ldrbPost _ _ rn rd o | .strbPost _ _ rn rd o
      | .ldrt _ _ rn rd o | .strt _ _ rn rd o | .ldrbt _ _ rn rd o | .strbt _ _ rn rd o =>
        n = rn ∨ n = rd ∨ inOffset o n
      | .ldm _ _ _ _ _ rn list | .stm _ _ _ _ _ rn list => n = rn ∨ list.getLsbD n.val = true
      | .bl _ _ => n = 14
      | .mcr _ _ _ rd _ _ _ | .mrc _ _ _ rd _ _ _ => n = rd
      | .ldc _ _ _ _ _ rn _ _ _ | .stc _ _ _ _ _ rn _ _ _ => n = rn
      | .b .. | .swi .. | .cdp .. | .undefStoreSigned .. | .undefHalfZero .. | .undefTrap .. => False
    ((∃ n : RegNum, names n ∧ banked n) → exec i s = .fault .bankedAfterUserTransfer) ∧
    ((∀ n : RegNum, names n → ¬ banked n) → exec i s = exec i (clearTracker s))

/-- R463: only an LDM with S = 1 and without r15 whose condition passes leaves the tracker set. -/
def Obligations.TrackerSetOnlyByUserBankLoad : Prop :=
  ∀ (i : Instr) (s t : State), exec i s = .next t → t.lastUserBankTransfer = true →
    ∃ c p u w rn list, i = .ldm c p u true w rn list ∧ inList list 15 = false ∧
      conditionPassed c s.cpsr = true ∧ t.pc = s.pc + 4#32

/-! ### Registers, memory, operands -/

/-- R35: the bank map, the bank each mode reads, and that a write of one register of a bank is read back from exactly
the names that mean the same physical register. -/
def Obligations.RegisterBanking : Prop :=
  (∀ (p : Psr), (p.m = 0b10000#5 ∨ p.m = 0b11111#5 → currentBank p = .usr) ∧
    (p.m = 0b10001#5 → currentBank p = .fiq) ∧ (p.m = 0b10010#5 → currentBank p = .irq) ∧
    (p.m = 0b10011#5 → currentBank p = .svc) ∧ (p.m = 0b10111#5 → currentBank p = .abt) ∧
    (p.m = 0b11011#5 → currentBank p = .und)) ∧
  (∀ (n : RegNum) (v : Word) (s : State), readReg n s = readRegIn (currentBank s.cpsr) n s ∧
    writeReg n v s = writeRegIn (currentBank s.cpsr) n v s) ∧
  (∀ (k : Bank) (n : RegNum),
    (∀ h : n.val < 8, bankReg k n = some (.low ⟨n.val, h⟩)) ∧
    (∀ (_ : 8 ≤ n.val) (h' : n.val < 13),
      bankReg k n = some (if k = .fiq then .midFiq ⟨n.val - 8, by omega⟩ else .mid ⟨n.val - 8, by omega⟩)) ∧
    (n.val = 13 → bankReg k n = some (.r13 k)) ∧ (n.val = 14 → bankReg k n = some (.r14 k)) ∧
    (n.val = 15 → bankReg k n = none)) ∧
  (∀ (j k : Bank) (m n : RegNum) (v : Word) (s : State), n ≠ 15 →
    readRegIn j m (writeRegIn k n v s) = if bankReg j m = bankReg k n then v else readRegIn j m s) ∧
  (∀ (k : Bank) (s : State), readRegIn k 15 s = s.pc + 8#32 ∧ ∀ v : Word, writeRegIn k 15 v s = s)

/-- R71: little-endian; a byte of a word or halfword written reads as R71 says, the whole reads back, and no other
byte changes. -/
def Obligations.MemoryIsLittleEndian : Prop :=
  ∀ (m : Memory) (a v : Word) (h : BitVec 16), m.wf = true →
    (m.writeWord a v).wf = true ∧ (m.writeHalf a h).wf = true ∧
    (∀ k < 4, (m.writeWord a v).readByte (a + BitVec.ofNat 32 k) = v.extractLsb' (8 * k) 8) ∧
    (∀ k < 2, (m.writeHalf a h).readByte (a + BitVec.ofNat 32 k) = h.extractLsb' (8 * k) 8) ∧
    (m.writeWord a v).readWord a = v ∧ (m.writeHalf a h).readHalf a = h ∧
    (∀ b : Word, 4 ≤ (b - a).toNat → (m.writeWord a v).readByte b = m.readByte b) ∧
    (∀ b : Word, 2 ≤ (b - a).toNat → (m.writeHalf a h).readByte b = m.readByte b)

/-- R171 and R172, in arithmetic: the rotated immediate and every row of the shifts by an immediate amount. -/
def Obligations.ShiftByImmediate : Prop :=
  (∀ (rotate : BitVec 4) (imm8 : BitVec 8) (cin : Bool),
    (∀ k < 32, (rotatedImm rotate imm8).getLsbD k = imm8.getLsbD ((k + 2 * rotate.toNat) % 32)) ∧
    (rotate = 0#4 → rotatedImmCarry rotate imm8 cin = cin) ∧
    (rotate ≠ 0#4 → rotatedImmCarry rotate imm8 cin = (rotatedImm rotate imm8).getLsbD 31)) ∧
  (∀ (v : Word) (cin : Bool),
    shiftImm v .lsl 0#5 cin = (v, cin) ∧
    shiftImm v .lsr 0#5 cin = (0#32, v.getLsbD 31) ∧
    shiftImm v .asr 0#5 cin = (if v.getLsbD 31 = true then 0xFFFFFFFF#32 else 0#32, v.getLsbD 31) ∧
    (shiftImm v .ror 0#5 cin).2 = v.getLsbD 0 ∧ (shiftImm v .ror 0#5 cin).1.getLsbD 31 = cin ∧
    ∀ k < 31, (shiftImm v .ror 0#5 cin).1.getLsbD k = v.getLsbD (k + 1)) ∧
  (∀ (v : Word) (n : BitVec 5) (cin : Bool), n ≠ 0#5 →
    (shiftImm v .lsl n cin).1.toNat = v.toNat * 2 ^ n.toNat % 2 ^ 32 ∧
    (shiftImm v .lsl n cin).2 = v.getLsbD (32 - n.toNat) ∧
    (shiftImm v .lsr n cin).1.toNat = v.toNat / 2 ^ n.toNat ∧
    (shiftImm v .asr n cin).1.toInt = v.toInt / 2 ^ n.toNat ∧
    (∀ k < 32, (shiftImm v .ror n cin).1.getLsbD k = v.getLsbD ((k + n.toNat) % 32)) ∧
    ∀ ty : ShiftType, ty ≠ .lsl → (shiftImm v ty n cin).2 = v.getLsbD (n.toNat - 1))

/-- R173 and R174: every row of the shifts by the low byte of a register. -/
def Obligations.ShiftByRegister : Prop :=
  (∀ (v : Word) (ty : ShiftType) (cin : Bool), shiftReg v ty 0 cin = (v, cin)) ∧
  (∀ (v : Word) (n : Nat) (cin : Bool), 1 ≤ n → n ≤ 31 →
    (shiftReg v .lsl n cin).1.toNat = v.toNat * 2 ^ n % 2 ^ 32 ∧
    (shiftReg v .lsl n cin).2 = v.getLsbD (32 - n) ∧
    (shiftReg v .lsr n cin).1.toNat = v.toNat / 2 ^ n ∧ (shiftReg v .lsr n cin).2 = v.getLsbD (n - 1) ∧
    (shiftReg v .asr n cin).1.toInt = v.toInt / 2 ^ n ∧ (shiftReg v .asr n cin).2 = v.getLsbD (n - 1)) ∧
  (∀ (v : Word) (cin : Bool),
    shiftReg v .lsl 32 cin = (0#32, v.getLsbD 0) ∧ shiftReg v .lsr 32 cin = (0#32, v.getLsbD 31) ∧
    (∀ n : Nat, 33 ≤ n → n ≤ 255 → shiftReg v .lsl n cin = (0#32, false) ∧ shiftReg v .lsr n cin = (0#32, false)) ∧
    (∀ n : Nat, 32 ≤ n → n ≤ 255 →
      shiftReg v .asr n cin = (if v.getLsbD 31 = true then 0xFFFFFFFF#32 else 0#32, v.getLsbD 31)) ∧
    (∀ n : Nat, 1 ≤ n → n ≤ 255 → n % 32 = 0 → shiftReg v .ror n cin = (v, v.getLsbD 31)) ∧
    (∀ n : Nat, n ≤ 255 → n % 32 ≠ 0 → (shiftReg v .ror n cin).2 = v.getLsbD (n % 32 - 1) ∧
      ∀ k < 32, (shiftReg v .ror n cin).1.getLsbD k = v.getLsbD ((k + n % 32) % 32))) ∧
  (∀ (rotate : BitVec 4) (imm8 : BitVec 8) (rm rs : RegNum) (ty : ShiftType) (n : BitVec 5) (s : State),
    operand2 (.imm rotate imm8) s = (rotatedImm rotate imm8, rotatedImmCarry rotate imm8 s.cpsr.c) ∧
    operand2 (.regImm rm ty n) s = shiftImm (readReg rm s) ty n s.cpsr.c ∧
    operand2 (.regReg rm ty rs) s = shiftReg (readReg rm s) ty ((readReg rs s).toNat % 256) s.cpsr.c)

/-- R14, and the property of R208: carry iff the unsigned sum overflows; overflow iff both operands share a sign and
the result's sign differs from theirs. -/
def Obligations.AddWithCarryFlags : Prop :=
  ∀ (a b : Word) (cin : Bool),
    let r := addWithCarry a b cin
    let sum := a.toNat + b.toNat + cin.toNat
    r.value.toNat = sum % 2 ^ 32 ∧ (r.carry = true ↔ 2 ^ 32 ≤ sum) ∧
    (r.overflow = true ↔ a.toInt + b.toInt + cin.toNat < -2 ^ 31 ∨ 2 ^ 31 - 1 < a.toInt + b.toInt + cin.toNat) ∧
    (r.overflow = true ↔ a.msb = b.msb ∧ r.value.msb ≠ a.msb)

/-- R260, R272, R300, R379 with R82: the addresses of the transfers, modulo 2^32. -/
def Obligations.TransferAddresses : Prop :=
  (∀ (u : Bool) (rn : RegNum) (off : Word) (s : State),
    transferAddress true u rn off s = (if u then readReg rn s + off else readReg rn s - off) ∧
    transferAddress false u rn off s = readReg rn s) ∧
  (∀ (n12 : BitVec 12) (n8 : BitVec 8) (z : BitVec 4) (rm : RegNum) (ty : ShiftType) (n : BitVec 5) (s : State),
    (singleOffset (.imm n12) s).toNat = n12.toNat ∧
    singleOffset (.reg rm ty n) s = (shiftImm (readReg rm s) ty n s.cpsr.c).1 ∧
    (halfOffset (.imm n8) s).toNat = n8.toNat ∧ halfOffset (.reg z rm) s = readReg rm s ∧
    (coprocOffset n8).toNat = 4 * n8.toNat) ∧
  (∀ (rn : RegNum) (list : BitVec 16) (s : State),
    let n4 := BitVec.ofNat 32 (4 * ((List.range 16).countP fun k => list.getLsbD k))
    let base := readReg rn s
    blockStart false true rn list s = base ∧ blockStart true true rn list s = base + 4#32 ∧
    blockStart false false rn list s = base - n4 + 4#32 ∧ blockStart true false rn list s = base - n4 ∧
    blockFinal true rn list s = base + n4 ∧ blockFinal false rn list s = base - n4) ∧
  (∀ (p u : Bool) (rn : RegNum) (list : BitVec 16) (r : RegNum) (s : State) (a : Word) (i : Nat),
    let lower := (List.range 16).countP fun k => list.getLsbD k && decide (k < r.val)
    blockSlot p u rn list r s = (blockStart p u rn list s + BitVec.ofNat 32 (4 * lower)) &&& 0xFFFFFFFC#32 ∧
    coprocSlot a i = (a + BitVec.ofNat 32 (4 * i)) &&& 0xFFFFFFFC#32)

/-! ### Data processing and multiply -/

/-- R200, R201, R204, R205, R216 to R219: the logical opcodes with Rd below 15; C from the shifter, V unchanged. -/
def Obligations.LogicalResults : Prop :=
  ∀ (c : Cond) (sf : Bool) (rn rd : RegNum) (op2 : Operand2) (s : State), rd ≠ 15 →
    let a := readReg rn s
    let b := (operand2 op2 s).1
    let after := fun (r : Word) =>
      advance (writeReg rd r (setFlags sf r (operand2 op2 s).2 s.cpsr.v (clearTracker s)))
    (Executes (.and c sf rn rd op2) s → exec (.and c sf rn rd op2) s = .next (after (a &&& b))) ∧
    (Executes (.eor c sf rn rd op2) s → exec (.eor c sf rn rd op2) s = .next (after (a ^^^ b))) ∧
    (Executes (.orr c sf rn rd op2) s → exec (.orr c sf rn rd op2) s = .next (after (a ||| b))) ∧
    (Executes (.bic c sf rn rd op2) s → exec (.bic c sf rn rd op2) s = .next (after (a &&& ~~~b))) ∧
    (Executes (.mov c sf rn rd op2) s → exec (.mov c sf rn rd op2) s = .next (after b)) ∧
    (Executes (.mvn c sf rn rd op2) s → exec (.mvn c sf rn rd op2) s = .next (after (~~~b)))

/-- R200, R201, R206 to R211: the arithmetic opcodes with Rd below 15, in terms of sums and differences: C is the
unsigned carry of an addition and "no borrow" of a subtraction, V the signed overflow. -/
def Obligations.ArithmeticResults : Prop :=
  ∀ (c : Cond) (sf : Bool) (rn rd : RegNum) (op2 : Operand2) (s : State), rd ≠ 15 →
    let a := readReg rn s
    let b := (operand2 op2 s).1
    let k : Nat := s.cpsr.c.toNat
    let borrow : Nat := 1 - s.cpsr.c.toNat
    let after := fun (r : Word) (carry : Bool) (exact : Int) =>
      advance (writeReg rd r (setFlags sf r carry (signedOverflow exact) (clearTracker s)))
    (Executes (.add c sf rn rd op2) s → exec (.add c sf rn rd op2) s =
      .next (after (a + b) (decide (2 ^ 32 ≤ a.toNat + b.toNat)) (a.toInt + b.toInt))) ∧
    (Executes (.adc c sf rn rd op2) s → exec (.adc c sf rn rd op2) s =
      .next (after (a + b + BitVec.ofNat 32 k) (decide (2 ^ 32 ≤ a.toNat + b.toNat + k)) (a.toInt + b.toInt + k))) ∧
    (Executes (.sub c sf rn rd op2) s → exec (.sub c sf rn rd op2) s =
      .next (after (a - b) (decide (b.toNat ≤ a.toNat)) (a.toInt - b.toInt))) ∧
    (Executes (.sbc c sf rn rd op2) s → exec (.sbc c sf rn rd op2) s =
      .next (after (a - b - BitVec.ofNat 32 borrow) (decide (b.toNat + borrow ≤ a.toNat))
        (a.toInt - b.toInt - borrow))) ∧
    (Executes (.rsb c sf rn rd op2) s → exec (.rsb c sf rn rd op2) s =
      .next (after (b - a) (decide (a.toNat ≤ b.toNat)) (b.toInt - a.toInt))) ∧
    (Executes (.rsc c sf rn rd op2) s → exec (.rsc c sf rn rd op2) s =
      .next (after (b - a - BitVec.ofNat 32 borrow) (decide (a.toNat + borrow ≤ b.toNat))
        (b.toInt - a.toInt - borrow)))

/-- R200, R201, R212 to R215: the compares set the flags and write nothing else. -/
def Obligations.CompareResults : Prop :=
  ∀ (c : Cond) (sf : Bool) (rn rd : RegNum) (op2 : Operand2) (s : State),
    let a := readReg rn s
    let b := (operand2 op2 s).1
    let after := fun (r : Word) (carry overflow : Bool) => advance (setFlags true r carry overflow (clearTracker s))
    (Executes (.tst c sf rn rd op2) s → exec (.tst c sf rn rd op2) s =
      .next (after (a &&& b) (operand2 op2 s).2 s.cpsr.v)) ∧
    (Executes (.teq c sf rn rd op2) s → exec (.teq c sf rn rd op2) s =
      .next (after (a ^^^ b) (operand2 op2 s).2 s.cpsr.v)) ∧
    (Executes (.cmp c sf rn rd op2) s → exec (.cmp c sf rn rd op2) s =
      .next (after (a - b) (decide (b.toNat ≤ a.toNat)) (signedOverflow (a.toInt - b.toInt)))) ∧
    (Executes (.cmn c sf rn rd op2) s → exec (.cmn c sf rn rd op2) s =
      .next (after (a + b) (decide (2 ^ 32 ≤ a.toNat + b.toNat)) (signedOverflow (a.toInt + b.toInt))))

/-- R202, R203, R167: the data-processing opcodes that write Rd, with Rd = r15: a branch when S = 0, the return from
an exception when S = 1. -/
def Obligations.DataProcessingToPc : Prop :=
  ∀ (op : AluOp) (c : Cond) (rn : RegNum) (op2 : Operand2) (s : State), writesRd op = true →
    let v := (aluResult op rn op2 s).value
    (Executes (dataProcInstr op c false rn 15 op2) s → exec (dataProcInstr op c false rn 15 op2) s =
      .next { clearTracker s with pc := if s.cpsr.t then v &&& 0xFFFFFFFE#32 else v }) ∧
    (Executes (dataProcInstr op c true rn 15 op2) s → ∃ saved : Psr, s.spsrs.get (currentBank s.cpsr) = some saved ∧
      legalMode saved.m = true ∧ exec (dataProcInstr op c true rn 15 op2) s =
        .next { clearTracker s with cpsr := saved, pc := if saved.t then v &&& 0xFFFFFFFE#32 else v })

/-- R220 to R223, R202, R203: when a data-processing instruction is refused, and by which name. Where two of the
first four apply, the earlier one here names the refusal (log entry 9: the model's order). -/
def Obligations.DataProcessingRefusals : Prop :=
  ∀ (op : AluOp) (c : Cond) (sf : Bool) (rn rd : RegNum) (op2 : Operand2) (s : State),
    let i := dataProcInstr op c sf rn rd op2
    let v := (aluResult op rn op2 s).value
    let refuses := fun (r : UnpRule) => exec i s = .refused (.unpredictable r)
    let noS := writesRd op = false ∧ sf = false
    let badRd := writesRd op = false ∧ rd ≠ 0
    let badRn := (op = .mov ∨ op = .mvn) ∧ rn ≠ 0
    let pcShift := ∃ rm ty rs, op2 = .regReg rm ty rs ∧ (rd = 15 ∨ rn = 15 ∨ rm = 15 ∨ rs = 15)
    let misaligned := fun (t : Bool) => t = false ∧ v.extractLsb' 0 2 ≠ 0b00#2
    let toPc := writesRd op = true ∧ rd = 15
    (noS → refuses .r142) ∧ (¬ noS → badRd → refuses .r222) ∧ (badRn → refuses .r223) ∧
    (¬ noS → ¬ badRd → ¬ badRn → pcShift → refuses .r220) ∧
    (¬ badRn → ¬ pcShift → toPc → sf = false → misaligned s.cpsr.t → refuses .r167) ∧
    (¬ badRn → ¬ pcShift → toPc → sf = true → currentSpsr s = none → refuses .r41) ∧
    (∀ saved : Psr, ¬ badRn → ¬ pcShift → toPc → sf = true → currentSpsr s = some saved →
      (legalMode saved.m = false → refuses .r32) ∧
      (legalMode saved.m = true → misaligned saved.t → refuses .r167)) ∧
    (¬ noS → ¬ badRd → ¬ badRn → ¬ pcShift →
      (toPc → if sf then ∃ saved : Psr, currentSpsr s = some saved ∧ legalMode saved.m = true ∧ ¬ misaligned saved.t
        else ¬ misaligned s.cpsr.t) → wfRefusal i s = none)

/-- R240 to R247: the multiplies; N and Z from the whole product when S = 1, C and V unchanged. -/
def Obligations.MultiplyResults : Prop :=
  ∀ (c : Cond) (sf : Bool) (rd rn rs rm : RegNum) (s : State),
    let x := readReg rm s
    let y := readReg rs s
    let after32 := fun (r : Nat) =>
      let p := BitVec.ofNat 32 r
      advance (writeReg rd p (setFlags sf p s.cpsr.c s.cpsr.v (clearTracker s)))
    let after64 := fun (p : BitVec 64) =>
      let flagged := if sf then (clearTracker s).withFlags p.msb (p == 0#64) s.cpsr.c s.cpsr.v else clearTracker s
      advance (writeReg rd (p.extractLsb' 32 32) (writeReg rn (p.extractLsb' 0 32) flagged))
    let acc := readReg rd s ++ readReg rn s
    (Executes (.mul c sf rd rn rs rm) s → exec (.mul c sf rd rn rs rm) s = .next (after32 (x.toNat * y.toNat))) ∧
    (Executes (.mla c sf rd rn rs rm) s → exec (.mla c sf rd rn rs rm) s =
      .next (after32 (x.toNat * y.toNat + (readReg rn s).toNat))) ∧
    (Executes (.umull c sf rd rn rs rm) s → exec (.umull c sf rd rn rs rm) s =
      .next (after64 (BitVec.ofNat 64 (x.toNat * y.toNat)))) ∧
    (Executes (.umlal c sf rd rn rs rm) s → exec (.umlal c sf rd rn rs rm) s =
      .next (after64 (BitVec.ofNat 64 (x.toNat * y.toNat + acc.toNat)))) ∧
    (Executes (.smull c sf rd rn rs rm) s → exec (.smull c sf rd rn rs rm) s =
      .next (after64 (BitVec.ofInt 64 (x.toInt * y.toInt)))) ∧
    (Executes (.smlal c sf rd rn rs rm) s → exec (.smlal c sf rd rn rs rm) s =
      .next (after64 (BitVec.ofInt 64 (x.toInt * y.toInt + acc.toNat))))

/-- R248, R249: the operands the multiplies refuse, and that they refuse no others. -/
def Obligations.MultiplyRefusals : Prop :=
  ∀ (c : Cond) (sf : Bool) (rd rn rs rm : RegNum) (s : State),
    let refusedFor := fun (i : Instr) (r : UnpRule) (when' : Prop) =>
      (when' → exec i s = .refused (.unpredictable r)) ∧ (¬ when' → wfRefusal i s = none)
    let short := rd = rm ∨ rd = 15 ∨ rm = 15 ∨ rs = 15
    let long := rd = rn ∨ rd = rm ∨ rn = rm ∨ rd = 15 ∨ rn = 15 ∨ rm = 15 ∨ rs = 15
    refusedFor (.mul c sf rd rn rs rm) .r248 (short ∨ rn ≠ 0) ∧
    refusedFor (.mla c sf rd rn rs rm) .r248 (short ∨ rn = 15) ∧
    refusedFor (.umull c sf rd rn rs rm) .r249 long ∧ refusedFor (.umlal c sf rd rn rs rm) .r249 long ∧
    refusedFor (.smull c sf rd rn rs rm) .r249 long ∧ refusedFor (.smlal c sf rd rn rs rm) .r249 long

/-! ### Single transfers -/

/-- R263, R267 with R260 to R262, R75, R167: LDR in every form and LDRT; the aligned word rotated right by eight
times the low address bits, the write-back, and r15 as a branch. -/
def Obligations.LoadWordResults : Prop :=
  ∀ (c : Cond) (u w : Bool) (rn rd : RegNum) (off : Offset) (s : State),
    let base := readReg rn s
    let indexed := if u then base + singleOffset off s else base - singleOffset off s
    let request := fun (a : Word) => MemRequest.readWord (a &&& 0xFFFFFFFC#32)
    let after := fun (a : Word) (wb : Bool) =>
      let t := (wordAt (a &&& 0xFFFFFFFC#32) s).rotateRight (8 * (a.toNat % 4))
      let read := called (request a) (clearTracker s)
      let s' := if wb then writeReg rn indexed read else read
      if rd = 15 then { s' with pc := t &&& 0xFFFFFFFC#32 } else advance (writeReg rd t s')
    (Executes (.ldrPre c u w rn rd off) s → memAborts (request indexed) s = false →
      exec (.ldrPre c u w rn rd off) s = .next (after indexed w)) ∧
    (Executes (.ldrPost c u rn rd off) s → memAborts (request base) s = false →
      exec (.ldrPost c u rn rd off) s = .next (after base true)) ∧
    (Executes (.ldrt c u rn rd off) s → memAborts (request base) s = false →
      exec (.ldrt c u rn rd off) s = .next (after base true))

/-- R264, R268 with R260 to R262, R76, R164: STR in every form and STRT; the whole register unrotated at the aligned
address, pc + 12 for r15. -/
def Obligations.StoreWordResults : Prop :=
  ∀ (c : Cond) (u w : Bool) (rn rd : RegNum) (off : Offset) (s : State),
    let base := readReg rn s
    let indexed := if u then base + singleOffset off s else base - singleOffset off s
    let v := if rd = 15 then s.pc + 12#32 else readReg rd s
    let request := fun (a : Word) => MemRequest.writeWord (a &&& 0xFFFFFFFC#32) v
    let after := fun (a : Word) => stored (request a) (clearTracker s)
    (Executes (.strPre c u w rn rd off) s → StoreAllowed (request indexed) s →
      exec (.strPre c u w rn rd off) s =
        .next (advance (if w then writeReg rn indexed (after indexed) else after indexed))) ∧
    (Executes (.strPost c u rn rd off) s → StoreAllowed (request base) s →
      exec (.strPost c u rn rd off) s = .next (advance (writeReg rn indexed (after base)))) ∧
    (Executes (.strt c u rn rd off) s → StoreAllowed (request base) s →
      exec (.strt c u rn rd off) s = .next (advance (writeReg rn indexed (after base))))

/-- R265, R266, R269, R270 with R260 to R262, R74: LDRB, STRB and their T forms, at any byte address. -/
def Obligations.ByteTransferResults : Prop :=
  ∀ (c : Cond) (u w : Bool) (rn rd : RegNum) (off : Offset) (s : State),
    let base := readReg rn s
    let indexed := if u then base + singleOffset off s else base - singleOffset off s
    let loaded := fun (a : Word) (wb : Bool) =>
      let read := called (.readByte a) (clearTracker s)
      advance (writeReg rd ((byteAt a s).setWidth 32) (if wb then writeReg rn indexed read else read))
    let request := fun (a : Word) => MemRequest.writeByte a ((readReg rd s).extractLsb' 0 8)
    let after := fun (a : Word) => stored (request a) (clearTracker s)
    (Executes (.ldrbPre c u w rn rd off) s → memAborts (.readByte indexed) s = false →
      exec (.ldrbPre c u w rn rd off) s = .next (loaded indexed w)) ∧
    (Executes (.ldrbPost c u rn rd off) s → memAborts (.readByte base) s = false →
      exec (.ldrbPost c u rn rd off) s = .next (loaded base true)) ∧
    (Executes (.ldrbt c u rn rd off) s → memAborts (.readByte base) s = false →
      exec (.ldrbt c u rn rd off) s = .next (loaded base true)) ∧
    (Executes (.strbPre c u w rn rd off) s → StoreAllowed (request indexed) s →
      exec (.strbPre c u w rn rd off) s =
        .next (advance (if w then writeReg rn indexed (after indexed) else after indexed))) ∧
    (Executes (.strbPost c u rn rd off) s → StoreAllowed (request base) s →
      exec (.strbPost c u rn rd off) s = .next (advance (writeReg rn indexed (after base)))) ∧
    (Executes (.strbt c u rn rd off) s → StoreAllowed (request base) s →
      exec (.strbt c u rn rd off) s = .next (advance (writeReg rn indexed (after base))))

/-- R272 to R276 with R73, R74: the halfword and signed transfers. -/
def Obligations.HalfwordTransferResults : Prop :=
  ∀ (c : Cond) (p u w : Bool) (rn rd : RegNum) (off : HalfOffset) (s : State),
    let base := readReg rn s
    let indexed := if u then base + halfOffset off s else base - halfOffset off s
    let a := if p then indexed else base
    let half := a &&& 0xFFFFFFFE#32
    let wrote := fun (s' : State) => if p = false ∨ w = true then writeReg rn indexed s' else s'
    let loaded := fun (q : MemRequest) (v : Word) => advance (writeReg rd v (wrote (called q (clearTracker s))))
    let request := MemRequest.writeHalf half ((readReg rd s).extractLsb' 0 16)
    (Executes (.ldrh c p u w rn rd off) s → memAborts (.readHalf half) s = false →
      exec (.ldrh c p u w rn rd off) s = .next (loaded (.readHalf half) ((halfAt half s).setWidth 32))) ∧
    (Executes (.ldrsh c p u w rn rd off) s → memAborts (.readHalf half) s = false →
      exec (.ldrsh c p u w rn rd off) s = .next (loaded (.readHalf half) ((halfAt half s).signExtend 32))) ∧
    (Executes (.ldrsb c p u w rn rd off) s → memAborts (.readByte a) s = false →
      exec (.ldrsb c p u w rn rd off) s = .next (loaded (.readByte a) ((byteAt a s).signExtend 32))) ∧
    (Executes (.strh c p u w rn rd off) s → StoreAllowed request s →
      exec (.strh c p u w rn rd off) s = .next (advance (wrote (stored request (clearTracker s)))))

/-- R281, R282: the swaps read, then write, then commit Rd. -/
def Obligations.SwapResults : Prop :=
  ∀ (c : Cond) (z : BitVec 2) (rn rd rm : RegNum) (s : State),
    let a := readReg rn s
    let p := a &&& 0xFFFFFFFC#32
    let wordIn := MemRequest.readWord p
    let wordOut := MemRequest.writeWord p (readReg rm s)
    let byteIn := MemRequest.readByte a
    let byteOut := MemRequest.writeByte a ((readReg rm s).extractLsb' 0 8)
    (Executes (.swp c z rn rd rm) s → memAborts wordIn s = false → StoreAllowed wordOut (called wordIn s) →
      exec (.swp c z rn rd rm) s = .next (advance (writeReg rd ((wordAt p s).rotateRight (8 * (a.toNat % 4)))
        (stored wordOut (called wordIn (clearTracker s)))))) ∧
    (Executes (.swpb c z rn rd rm) s → memAborts byteIn s = false → StoreAllowed byteOut (called byteIn s) →
      exec (.swpb c z rn rd rm) s = .next (advance (writeReg rd ((byteAt a s).setWidth 32)
        (stored byteOut (called byteIn (clearTracker s))))))

/-- R271, R277, R283, R73: the operands the single transfers and the swaps refuse, and that they refuse no others. That
R277 names the refusal where HalfMisaligned applies too, and that HalfMisaligned does not look at the condition, is the
model's choice of an order, log entry 9. -/
def Obligations.SingleTransferRefusals : Prop :=
  ∀ (c : Cond) (p u w : Bool) (rn rd rm : RegNum) (off : Offset) (hoff : HalfOffset) (z : BitVec 2) (s : State),
    let refusedFor := fun (i : Instr) (r : UnpRule) (when' : Prop) =>
      (when' → exec i s = .refused (.unpredictable r)) ∧ (¬ when' → wfRefusal i s = none)
    let single := fun (byte wb : Bool) => (byte = true ∧ rd = 15) ∨ (wb = true ∧ (rn = 15 ∨ rn = rd)) ∨
      ∃ m ty n, off = .reg m ty n ∧ (m = 15 ∨ (wb = true ∧ m = rn))
    let wbH := p = false ∨ w = true
    let half := rd = 15 ∨ (wbH ∧ (rn = 15 ∨ rn = rd)) ∨ (p = false ∧ w = true) ∨
      ∃ y m, hoff = .reg y m ∧ (m = 15 ∨ y ≠ 0#4 ∨ (wbH ∧ m = rn))
    let a := if p then (if u then readReg rn s + halfOffset hoff s else readReg rn s - halfOffset hoff s)
      else readReg rn s
    let odd := s.policy.halfMisalign = .refuse ∧ a.getLsbD 0 = true
    let halfRefused := fun (i : Instr) => (half → exec i s = .refused (.unpredictable .r277)) ∧
      (¬ half → odd → exec i s = .refused .halfMisaligned) ∧ (¬ half → ¬ odd → wfRefusal i s = none)
    let swap := z ≠ 0#2 ∨ rd = 15 ∨ rn = 15 ∨ rm = 15 ∨ rn = rm ∨ rn = rd
    refusedFor (.ldrPre c u w rn rd off) .r271 (single false w) ∧
    refusedFor (.strPre c u w rn rd off) .r271 (single false w) ∧
    refusedFor (.ldrPost c u rn rd off) .r271 (single false true) ∧
    refusedFor (.strPost c u rn rd off) .r271 (single false true) ∧
    refusedFor (.ldrt c u rn rd off) .r271 (single false true) ∧
    refusedFor (.strt c u rn rd off) .r271 (single false true) ∧
    refusedFor (.ldrbPre c u w rn rd off) .r271 (single true w) ∧
    refusedFor (.strbPre c u w rn rd off) .r271 (single true w) ∧
    refusedFor (.ldrbPost c u rn rd off) .r271 (single true true) ∧
    refusedFor (.strbPost c u rn rd off) .r271 (single true true) ∧
    refusedFor (.ldrbt c u rn rd off) .r271 (single true true) ∧
    refusedFor (.strbt c u rn rd off) .r271 (single true true) ∧
    halfRefused (.ldrh c p u w rn rd hoff) ∧ halfRefused (.strh c p u w rn rd hoff) ∧
    halfRefused (.ldrsh c p u w rn rd hoff) ∧ refusedFor (.ldrsb c p u w rn rd hoff) .r277 half ∧
    refusedFor (.swp c z rn rd rm) .r283 swap ∧ refusedFor (.swpb c z rn rd rm) .r283 swap

/-- R278, R417, R418: an aborted single transfer enters the data abort with the link pc + 8; memory and the
destination keep their values, and the base holds either its old value or the written-back one. -/
def Obligations.SingleTransferAborts : Prop :=
  ∀ (c : Cond) (p u w : Bool) (rn rd rm : RegNum) (off : Offset) (hoff : HalfOffset) (z : BitVec 2) (s : State),
    let base := readReg rn s
    let indexed := if u then base + singleOffset off s else base - singleOffset off s
    let indexedH := if u then base + halfOffset hoff s else base - halfOffset hoff s
    let aH := if p then indexedH else base
    let stored32 := if rd = 15 then s.pc + 12#32 else readReg rd s
    let aborted := fun (i : Instr) (called : Bus) (wb : Bool) (final : Word) =>
      ∃ t : State, exec i s = .next t ∧ Entered .dataAbort s.pc s.cpsr t ∧ t.memory = s.memory ∧ t.bus = called ∧
        t.abortMap = s.abortMap ∧ t.coproc = s.coproc ∧ t.inputs = s.inputs ∧ t.policy = s.policy ∧
        (∀ k : Bank, k ≠ .abt → t.spsrs.get k = s.spsrs.get k) ∧
        (∀ q : PhysReg, q ≠ .r14 .abt →
          t.regs.read q = s.regs.read q ∨
            (wb = true ∧ bankReg (currentBank s.cpsr) rn = some q ∧ t.regs.read q = final))
    let readAborts := fun (i : Instr) (q : MemRequest) (wb : Bool) (final : Word) =>
      Executes i s → memAborts q s = true → aborted i (s.bus.after q) wb final
    let writeAborts := fun (i : Instr) (q : MemRequest) (wb : Bool) (final : Word) =>
      Executes i s → NoHazard q s → memAborts q s = true → aborted i (s.bus.after q) wb final
    let swapAborts := fun (i : Instr) (read write : MemRequest) => Executes i s → memAborts read s = false →
      NoHazard write s → memAborts write (called read s) = true → aborted i ((s.bus.after read).after write) false base
    readAborts (.ldrPre c u w rn rd off) (.readWord (alignWord indexed)) w indexed ∧
    readAborts (.ldrPost c u rn rd off) (.readWord (alignWord base)) true indexed ∧
    readAborts (.ldrt c u rn rd off) (.readWord (alignWord base)) true indexed ∧
    readAborts (.ldrbPre c u w rn rd off) (.readByte indexed) w indexed ∧
    readAborts (.ldrbPost c u rn rd off) (.readByte base) true indexed ∧
    readAborts (.ldrbt c u rn rd off) (.readByte base) true indexed ∧
    writeAborts (.strPre c u w rn rd off) (.writeWord (alignWord indexed) stored32) w indexed ∧
    writeAborts (.strPost c u rn rd off) (.writeWord (alignWord base) stored32) true indexed ∧
    writeAborts (.strt c u rn rd off) (.writeWord (alignWord base) stored32) true indexed ∧
    writeAborts (.strbPre c u w rn rd off) (.writeByte indexed ((readReg rd s).extractLsb' 0 8)) w indexed ∧
    writeAborts (.strbPost c u rn rd off) (.writeByte base ((readReg rd s).extractLsb' 0 8)) true indexed ∧
    writeAborts (.strbt c u rn rd off) (.writeByte base ((readReg rd s).extractLsb' 0 8)) true indexed ∧
    readAborts (.ldrh c p u w rn rd hoff) (.readHalf (alignHalf aH)) (!p || w) indexedH ∧
    readAborts (.ldrsh c p u w rn rd hoff) (.readHalf (alignHalf aH)) (!p || w) indexedH ∧
    readAborts (.ldrsb c p u w rn rd hoff) (.readByte aH) (!p || w) indexedH ∧
    writeAborts (.strh c p u w rn rd hoff) (.writeHalf (alignHalf aH) ((readReg rd s).extractLsb' 0 16)) (!p || w)
      indexedH ∧
    readAborts (.swp c z rn rd rm) (.readWord (alignWord base)) false base ∧
    readAborts (.swpb c z rn rd rm) (.readByte base) false base ∧
    swapAborts (.swp c z rn rd rm) (.readWord (alignWord base)) (.writeWord (alignWord base) (readReg rm s)) ∧
    swapAborts (.swpb c z rn rd rm) (.readByte base) (.writeByte base ((readReg rm s).extractLsb' 0 8))

/-- R462: a data write to a byte of pc + 4 to pc + 11 faults before the write, in every storing form of a single transfer
and a swap, and inside a block store and a coprocessor store, whose earlier words stay written (R166). That it faults
also where the collaborator would abort the same write is the model's choice, log entry 15. The fault carries memory and
the collaborators as the writes before it left them (log entry 12). -/
def Obligations.StorePrefetchHazard : Prop :=
  ∀ (c : Cond) (p u sb w : Bool) (rn rd rm : RegNum) (off : Offset) (hoff : HalfOffset) (z : BitVec 2)
    (list : BitVec 16) (crd cp : BitVec 4) (offset8 : BitVec 8) (s : State),
    let base := readReg rn s
    let indexed := if u then base + singleOffset off s else base - singleOffset off s
    let aH := if p then (if u then base + halfOffset hoff s else base - halfOffset hoff s) else base
    let hits := fun (n : Nat) (a : Word) => ∃ k < n, ∃ j : Nat, 4 ≤ j ∧ j ≤ 11 ∧
      a + BitVec.ofNat 32 k = s.pc + BitVec.ofNat 32 j
    let faults := fun (i : Instr) (b : Bus) =>
      exec i s = .fault (.prefetchHazard { memory := s.memory, bus := b, coproc := s.coproc })
    (Executes (.strPre c u w rn rd off) s → hits 4 (alignWord indexed) → faults (.strPre c u w rn rd off) s.bus) ∧
    (Executes (.strPost c u rn rd off) s → hits 4 (alignWord base) → faults (.strPost c u rn rd off) s.bus) ∧
    (Executes (.strt c u rn rd off) s → hits 4 (alignWord base) → faults (.strt c u rn rd off) s.bus) ∧
    (Executes (.strbPre c u w rn rd off) s → hits 1 indexed → faults (.strbPre c u w rn rd off) s.bus) ∧
    (Executes (.strbPost c u rn rd off) s → hits 1 base → faults (.strbPost c u rn rd off) s.bus) ∧
    (Executes (.strbt c u rn rd off) s → hits 1 base → faults (.strbt c u rn rd off) s.bus) ∧
    (Executes (.strh c p u w rn rd hoff) s → hits 2 (alignHalf aH) → faults (.strh c p u w rn rd hoff) s.bus) ∧
    (Executes (.swp c z rn rd rm) s → memAborts (.readWord (alignWord base)) s = false → hits 4 (alignWord base) →
      faults (.swp c z rn rd rm) (s.bus.after (.readWord (alignWord base)))) ∧
    (Executes (.swpb c z rn rd rm) s → memAborts (.readByte base) s = false → hits 1 base →
      faults (.swpb c z rn rd rm) (s.bus.after (.readByte base))) ∧
    (∀ r : RegNum,
      let slot := fun (q : RegNum) => blockSlot p u rn list q s
      let value := fun (q : RegNum) =>
        if q = 15 then s.pc + 12#32 else readRegIn (if sb then .usr else currentBank s.cpsr) q s
      let request := fun (q : RegNum) => MemRequest.writeWord (slot q) (value q)
      let before := fun (q : RegNum) => beforeSlot request list q s
      Executes (.stm c p u sb w rn list) s → inList list r = true → hits 4 (slot r) →
      (∀ q : RegNum, inList list q = true → q < r → StoreAllowed (request q) (before q)) →
      ∃ m : Memory, exec (.stm c p u sb w rn list) s =
          .fault (.prefetchHazard { memory := m, bus := (before r).bus, coproc := s.coproc }) ∧
        WordsStored (fun q => inList list q = true ∧ q < r) slot value before s.memory m) ∧
    (∀ i : Nat,
      let offset := BitVec.ofNat 32 (4 * offset8.toNat)
      let slot := coprocSlot (if p then (if u then base + offset else base - offset) else base)
      let begins := CoprocRequest.stcBegin cp sb crd
      let asked := fun (k : Nat) => s.coproc.afterAll (begins :: (List.range k).map fun j => .stcWord cp j)
      let value := fun (k : Nat) => ((asked k).reply (.stcWord cp k)).1.value
      let request := fun (k : Nat) => MemRequest.writeWord (slot k) (value k)
      let before := fun (k : Nat) => callAll ((List.range k).map request) s
      (s.coproc.reply begins).1.present = true → i ≤ (s.coproc.reply begins).1.more.val →
      Executes (.stc c p u sb w rn crd cp offset8) s → hits 4 (slot i) →
      (∀ j < i, StoreAllowed (request j) (before j)) →
      ∃ m : Memory, exec (.stc c p u sb w rn crd cp offset8) s =
          .fault (.prefetchHazard { memory := m, bus := (before i).bus, coproc := asked (i + 1) }) ∧
        WordsStored (· < i) slot value before s.memory m)

/-! ### Block transfers -/

/-- R304, R300 to R302: LDM with S = 0. Every listed register takes the word of its slot, read in register order, the
lowest register at the lowest address; the base is written back when W = 1; r15 in the list is a branch; nothing else
changes. -/
def Obligations.BlockLoadResults : Prop :=
  ∀ (c : Cond) (p u w : Bool) (rn : RegNum) (list : BitVec 16) (s : State),
    let request := fun (r : RegNum) => MemRequest.readWord (blockSlot p u rn list r s)
    let before := fun (r : RegNum) => beforeSlot request list r s
    let word := fun (r : RegNum) => wordAt (blockSlot p u rn list r s) (before r)
    Executes (.ldm c p u false w rn list) s →
    (∀ r : RegNum, inList list r = true → memAborts (request r) (before r) = false) →
    ∃ t : State, exec (.ldm c p u false w rn list) s = .next t ∧
      (∀ r : RegNum, inList list r = true → r ≠ 15 → readReg r t = word r) ∧
      (w = true → readReg rn t = blockFinal u rn list s) ∧
      SameRegsBut (((if w then [rn] else []) ++ regList list).map (bankReg (currentBank s.cpsr))) s t ∧
      t.pc = (if inList list 15 then word 15 &&& 0xFFFFFFFC#32 else s.pc + 4#32) ∧
      t.cpsr = s.cpsr ∧ t.spsrs = s.spsrs ∧ t.memory = s.memory ∧
      SameEnvironment (callAll ((regList list).map request) s) t ∧ t.lastUserBankTransfer = false

/-- R305, R303, R306, R311: STM. Every listed register's value at the start (of the User bank when S = 1, pc + 12 for
r15) is written to its slot, in register order; every other byte is unchanged; the base is written back when W = 1. -/
def Obligations.BlockStoreResults : Prop :=
  ∀ (c : Cond) (p u sb w : Bool) (rn : RegNum) (list : BitVec 16) (s : State),
    let bank := if sb then .usr else currentBank s.cpsr
    let slot := fun (r : RegNum) => blockSlot p u rn list r s
    let value := fun (r : RegNum) => if r = 15 then s.pc + 12#32 else readRegIn bank r s
    let request := fun (r : RegNum) => MemRequest.writeWord (slot r) (value r)
    let before := fun (r : RegNum) => beforeSlot request list r s
    Executes (.stm c p u sb w rn list) s →
    (∀ r : RegNum, inList list r = true → StoreAllowed (request r) (before r)) →
    ∃ t : State, exec (.stm c p u sb w rn list) s = .next t ∧
      WordsStored (fun r => inList list r = true) slot value before s.memory t.memory ∧
      (w = true → readReg rn t = blockFinal u rn list s) ∧
      SameRegsBut (if w then [bankReg (currentBank s.cpsr) rn] else []) s t ∧
      t.pc = s.pc + 4#32 ∧ t.cpsr = s.cpsr ∧ t.spsrs = s.spsrs ∧
      SameEnvironment (callAll ((regList list).map request) s) t ∧ t.lastUserBankTransfer = false

/-- R311 and R463: LDM with S = 1 and without r15 loads the User bank, leaves the current mode's banked registers
alone and sets the hazard tracker. -/
def Obligations.UserBankLoadResults : Prop :=
  ∀ (c : Cond) (p u w : Bool) (rn : RegNum) (list : BitVec 16) (s : State), inList list 15 = false →
    let request := fun (r : RegNum) => MemRequest.readWord (blockSlot p u rn list r s)
    let before := fun (r : RegNum) => beforeSlot request list r s
    Executes (.ldm c p u true w rn list) s →
    (∀ r : RegNum, inList list r = true → memAborts (request r) (before r) = false) →
    ∃ t : State, exec (.ldm c p u true w rn list) s = .next t ∧
      (∀ r : RegNum, inList list r = true →
        readRegIn .usr r t = wordAt (blockSlot p u rn list r s) (before r)) ∧
      SameRegsBut ((regList list).map (bankReg .usr)) s t ∧
      t.pc = s.pc + 4#32 ∧ t.cpsr = s.cpsr ∧ t.spsrs = s.spsrs ∧ t.memory = s.memory ∧
      SameEnvironment (callAll ((regList list).map request) s) t ∧ t.lastUserBankTransfer = true

/-- R310: LDM with S = 1 and r15 returns from an exception: the registers and the base in the bank the instruction
started in, the CPSR from that mode's SPSR, the PC by the restored T bit. -/
def Obligations.BlockLoadExceptionReturn : Prop :=
  ∀ (c : Cond) (p u w : Bool) (rn : RegNum) (list : BitVec 16) (s : State), inList list 15 = true →
    let request := fun (r : RegNum) => MemRequest.readWord (blockSlot p u rn list r s)
    let before := fun (r : RegNum) => beforeSlot request list r s
    let word := fun (r : RegNum) => wordAt (blockSlot p u rn list r s) (before r)
    let bank := currentBank s.cpsr
    Executes (.ldm c p u true w rn list) s →
    (∀ r : RegNum, inList list r = true → memAborts (request r) (before r) = false) →
    ∃ (saved : Psr) (t : State), s.spsrs.get bank = some saved ∧ exec (.ldm c p u true w rn list) s = .next t ∧
      (∀ r : RegNum, inList list r = true → r ≠ 15 → readRegIn bank r t = word r) ∧
      (w = true → readRegIn bank rn t = blockFinal u rn list s) ∧
      SameRegsBut (((if w then [rn] else []) ++ regList list).map (bankReg bank)) s t ∧
      t.cpsr = saved ∧ t.pc = (if saved.t then word 15 &&& 0xFFFFFFFE#32 else word 15 &&& 0xFFFFFFFC#32) ∧
      t.spsrs = s.spsrs ∧ t.memory = s.memory ∧ SameEnvironment (callAll ((regList list).map request) s) t ∧
      t.lastUserBankTransfer = false

/-- R312, R306, R307, R310: the block transfers that are refused, and that no others are. -/
def Obligations.BlockTransferRefusals : Prop :=
  ∀ (c : Cond) (p u sb w : Bool) (rn : RegNum) (list : BitVec 16) (s : State),
    let noSpsr := s.spsrs.get (currentBank s.cpsr) = none
    let pc := inList list 15 = true
    let common := rn = 15 ∨ list = 0#16
    let notLowest := ∃ q : RegNum, q < rn ∧ inList list q = true
    let ldm := Instr.ldm c p u sb w rn list
    let stm := Instr.stm c p u sb w rn list
    let refuses := fun (i : Instr) (r : UnpRule) => exec i s = .refused (.unpredictable r)
    let ldm312 := common ∨ (sb = true ∧ w = true ∧ ¬ pc)
    let stm312 := common ∨ (sb = true ∧ w = true)
    let stm306 := w = true ∧ inList list rn = true ∧ notLowest
    let ldm307 := w = true ∧ inList list rn = true
    let badRestore := sb = true ∧ pc ∧ ∃ saved, s.spsrs.get (currentBank s.cpsr) = some saved ∧ legalMode saved.m = false
    (ldm312 → refuses ldm .r312) ∧ (¬ ldm312 → ldm307 → refuses ldm .r307) ∧
    (¬ ldm312 → ¬ ldm307 → sb = true → noSpsr → refuses ldm .r312) ∧
    (¬ ldm312 → ¬ ldm307 → badRestore → refuses ldm .r32) ∧
    (¬ ldm312 → ¬ ldm307 → ¬ (sb = true ∧ noSpsr) → ¬ badRestore → wfRefusal ldm s = none) ∧
    (stm312 → refuses stm .r312) ∧ (¬ stm312 → stm306 → refuses stm .r306) ∧
    (¬ stm312 → ¬ stm306 → sb = true → noSpsr → refuses stm .r312) ∧
    (¬ stm312 → ¬ stm306 → ¬ (sb = true ∧ noSpsr) → wfRefusal stm s = none)

/-- R313, R417, R418: a block transfer aborted at the slot of register r, no access before it being stopped. The words
an STM stored before the aborting slot stay and no other byte changes; a listed register of an LDM holds its old value,
or its loaded word if its read and every read before it was answered; the base holds its old value or the final one; the
PC and the CPSR are those of the data-abort entry; no access is made after the aborted one. -/
def Obligations.BlockTransferAborts : Prop :=
  ∀ (c : Cond) (p u sb w : Bool) (rn : RegNum) (list : BitVec 16) (r : RegNum) (s : State),
    let slot := fun (q : RegNum) => blockSlot p u rn list q s
    let current := currentBank s.cpsr
    let read := fun (q : RegNum) => MemRequest.readWord (slot q)
    let beforeRead := fun (q : RegNum) => beforeSlot read list q s
    let answered := fun (q : RegNum) => memAborts (read q) (beforeRead q) = false
    let value := fun (q : RegNum) => if q = 15 then s.pc + 12#32 else readRegIn (if sb then .usr else current) q s
    let write := fun (q : RegNum) => MemRequest.writeWord (slot q) (value q)
    let beforeWrite := fun (q : RegNum) => beforeSlot write list q s
    inList list r = true →
    (Executes (.ldm c p u sb w rn list) s → (∀ q : RegNum, inList list q = true → q < r → answered q) → ¬ answered r →
      ∃ t : State, exec (.ldm c p u sb w rn list) s = .next t ∧ Entered .dataAbort s.pc s.cpsr t ∧
        t.memory = s.memory ∧ t.bus = (beforeRead r).bus.after (read r) ∧ t.coproc = s.coproc ∧
        (∀ k : Bank, k ≠ .abt → t.spsrs.get k = s.spsrs.get k) ∧
        ∀ q : PhysReg, q ≠ .r14 .abt → t.regs.read q = s.regs.read q ∨
          (∃ n : RegNum, inList list n = true ∧ n ≠ 15 ∧ (∀ m : RegNum, inList list m = true → m ≤ n → answered m) ∧
            bankReg (if sb && !(inList list 15) then .usr else current) n = some q ∧
            t.regs.read q = wordAt (slot n) (beforeRead n)) ∨
          (w = true ∧ bankReg current rn = some q ∧ t.regs.read q = blockFinal u rn list s)) ∧
    (Executes (.stm c p u sb w rn list) s →
      (∀ q : RegNum, inList list q = true → q < r → StoreAllowed (write q) (beforeWrite q)) →
      NoHazard (write r) s → memAborts (write r) (beforeWrite r) = true →
      ∃ t : State, exec (.stm c p u sb w rn list) s = .next t ∧ Entered .dataAbort s.pc s.cpsr t ∧
        t.bus = (beforeWrite r).bus.after (write r) ∧ t.coproc = s.coproc ∧
        (∀ k : Bank, k ≠ .abt → t.spsrs.get k = s.spsrs.get k) ∧
        WordsStored (fun q => inList list q = true ∧ q < r) slot value beforeWrite s.memory t.memory ∧
        ∀ q : PhysReg, q ≠ .r14 .abt → t.regs.read q = s.regs.read q ∨
          (w = true ∧ bankReg current rn = some q ∧ t.regs.read q = blockFinal u rn list s))

/-! ### Branches, status transfers, traps -/

/-- R330 to R333: B, BL and BX, and the two operands BX refuses, whatever its condition (R140, P17 of
93_implementation_defined.md). -/
def Obligations.BranchResults : Prop :=
  ∀ (c : Cond) (offset24 : BitVec 24) (rm : RegNum) (s : State),
    let target := s.pc + 8#32 + BitVec.ofInt 32 (4 * offset24.toInt)
    let m := readReg rm s
    let refusedTarget := rm = 15 ∨ (m.getLsbD 1 = true ∧ m.getLsbD 0 = false)
    (Executes (.b c offset24) s → exec (.b c offset24) s = .next { clearTracker s with pc := target }) ∧
    (Executes (.bl c offset24) s → exec (.bl c offset24) s =
      .next { writeReg 14 (s.pc + 4#32) (clearTracker s) with pc := target }) ∧
    (refusedTarget → exec (.bx c rm) s = .refused (.unpredictable .r333)) ∧
    (¬ refusedTarget → wfRefusal (.bx c rm) s = none) ∧
    (Executes (.bx c rm) s → exec (.bx c rm) s =
      .next { clearTracker s with cpsr := { s.cpsr with t := m.getLsbD 0 }, pc := m &&& 0xFFFFFFFE#32 }) ∧
    wfRefusal (.b c offset24) s = none ∧ wfRefusal (.bl c offset24) s = none

/-- R350, R351 (the CPSR and the SPSR of the current mode), R42, R51: MRS and the word it reads. -/
def Obligations.StatusReadResults : Prop :=
  (∀ (c : Cond) (rd : RegNum) (s : State), Executes (.mrs c false rd) s →
    exec (.mrs c false rd) s = .next (advance (writeReg rd s.cpsr.toWord (clearTracker s)))) ∧
  (∀ (c : Cond) (rd : RegNum) (s : State), Executes (.mrs c true rd) s →
    ∃ saved : Psr, s.spsrs.get (currentBank s.cpsr) = some saved ∧
      exec (.mrs c true rd) s = .next (advance (writeReg rd saved.toWord (clearTracker s)))) ∧
  (∀ p : Psr, p.toWord.getLsbD 31 = p.n ∧ p.toWord.getLsbD 30 = p.z ∧ p.toWord.getLsbD 29 = p.c ∧
    p.toWord.getLsbD 28 = p.v ∧ p.toWord.extractLsb' 8 20 = 0#20 ∧ p.toWord.getLsbD 7 = p.i ∧
    p.toWord.getLsbD 6 = p.f ∧ p.toWord.getLsbD 5 = p.t ∧ p.toWord.extractLsb' 0 5 = p.m ∧
    Psr.ofWord p.toWord = p)

/-- R351 to R354, R357, R52: MSR_reg, MSR_flg and MSR_gen: which fields of which status register change, the control
field of the CPSR only in a privileged mode. -/
def Obligations.StatusWriteResults : Prop :=
  ∀ (c : Cond) (spsr : Bool) (rm : RegNum) (mask : BitVec 4) (src : PsrSource) (s : State),
    let written := fun (p : Psr) (f ctl : Bool) (v : Word) =>
      Psr.mk (if f then v.getLsbD 31 else p.n) (if f then v.getLsbD 30 else p.z) (if f then v.getLsbD 29 else p.c)
        (if f then v.getLsbD 28 else p.v) (if ctl then v.getLsbD 7 else p.i) (if ctl then v.getLsbD 6 else p.f)
        (if ctl then v.getLsbD 5 else p.t) (if ctl then v.extractLsb' 0 5 else p.m)
    let bank := currentBank s.cpsr
    let writes := fun (i : Instr) (f ctl : Bool) (v : Word) =>
      if spsr then ∃ saved : Psr, s.spsrs.get bank = some saved ∧ exec i s =
        .next (advance { clearTracker s with spsrs := s.spsrs.set bank (written saved f ctl v) })
      else exec i s = .next (advance
        { clearTracker s with cpsr := written s.cpsr f (ctl && s.cpsr.m != 0b10000#5) v })
    let value := match src with
      | .imm rotate imm8 => rotatedImm rotate imm8
      | .reg _ m => readReg m s
    (Executes (.msrReg c spsr rm) s → writes (.msrReg c spsr rm) true true (readReg rm s)) ∧
    (Executes (.msrFlg c spsr src) s → writes (.msrFlg c spsr src) true false value) ∧
    (Executes (.msrGen c spsr mask src) s →
      writes (.msrGen c spsr mask src) (mask.getLsbD 3) (mask.getLsbD 0) value)

/-- R356, R355, R32, R142: when the status transfers are refused, and by which name. -/
def Obligations.StatusTransferRefusals : Prop :=
  ∀ (c : Cond) (spsr : Bool) (rd rm : RegNum) (mask : BitVec 4) (src : PsrSource) (s : State),
    let noSpsr := spsr = true ∧ s.spsrs.get (currentBank s.cpsr) = none
    let badSrc := ∃ z m, src = .reg z m ∧ (m = 15 ∨ z ≠ 0#8)
    let value := psrSource src s
    let ctl := fun (on : Prop) => on ∧ spsr = false ∧ s.cpsr.m ≠ 0b10000#5
    let badMode := fun (on : Prop) (v : Word) => ctl on ∧ legalMode (v.extractLsb' 0 5) = false
    let badT := fun (on : Prop) (v : Word) => ctl on ∧ v.getLsbD 5 ≠ s.cpsr.t
    let refuses := fun (i : Instr) (r : UnpRule) => exec i s = .refused (.unpredictable r)
    let checked := fun (i : Instr) (bad : Prop) (on : Prop) (v : Word) =>
      (bad ∨ noSpsr → refuses i .r356) ∧ (¬ bad → badMode on v → refuses i .r32) ∧
      (¬ bad → ¬ badMode on v → badT on v → refuses i .r355) ∧
      (¬ bad → ¬ noSpsr → ¬ badMode on v → ¬ badT on v → wfRefusal i s = none)
    (rd = 15 ∨ noSpsr → refuses (.mrs c spsr rd) .r356) ∧
    (rd ≠ 15 → ¬ noSpsr → wfRefusal (.mrs c spsr rd) s = none) ∧
    checked (.msrReg c spsr rm) (rm = 15) True (readReg rm s) ∧
    checked (.msrFlg c spsr src) badSrc False value ∧
    (s.policy.msrGeneralMask = true → checked (.msrGen c spsr mask src) badSrc (mask.getLsbD 0 = true) value)

/-- R370, R412, R385, R411: SWI, and the undefined encodings under each UNDEF_POLICY; with a failed condition they only
advance. -/
def Obligations.SoftwareTraps : Prop :=
  ∀ (c : Cond) (comment : BitVec 24) (hi4 : BitVec 4) (hi5 : BitVec 5) (mid : BitVec 12) (h : Bool) (lo : BitVec 4)
    (hi20 : BitVec 20) (s : State),
    let undefs := [Instr.undefStoreSigned c hi4 mid h lo, Instr.undefHalfZero c hi5 mid lo, Instr.undefTrap c hi20 lo]
    wfRefusal (.swi c comment) s = none ∧ (∀ i ∈ undefs, wfRefusal i s = none) ∧
    (conditionPassed c s.cpsr = false → ∀ i ∈ Instr.swi c comment :: undefs,
      exec i s = .next { s with pc := s.pc + 4#32, lastUserBankTransfer := false }) ∧
    (Executes (.swi c comment) s → ∃ t : State, exec (.swi c comment) s = .next t ∧
      t.regs.read (.r14 .svc) = s.pc + 4#32 ∧ t.spsrs.svc = s.cpsr ∧
      t.cpsr = { s.cpsr with m := 0b10011#5, t := false, i := true } ∧ t.pc = 0x00000008#32 ∧
      SameRegsBut [some (.r14 .svc)] s t ∧ t.memory = s.memory ∧ SameEnvironment s t) ∧
    (∀ i ∈ undefs, Executes i s →
      (s.policy.undef = .trap → ∃ t : State, exec i s = .next t ∧
        t.regs.read (.r14 .und) = s.pc + 4#32 ∧ t.spsrs.und = s.cpsr ∧
        t.cpsr = { s.cpsr with m := 0b11011#5, t := false, i := true } ∧ t.pc = 0x00000004#32 ∧
        SameRegsBut [some (.r14 .und)] s t ∧ t.memory = s.memory ∧ SameEnvironment s t) ∧
      (s.policy.undef = .halt → exec i s = .fault .undefinedHalt))

/-! ### Coprocessor instructions -/

/-- R375, R378, R380 to R382: CDP, MCR and MRC with a coprocessor that answers Ok: the one request it receives, and the
register or the flags it writes. -/
def Obligations.CoprocessorRegisterResults : Prop :=
  ∀ (c : Cond) (op4 : BitVec 4) (op3 : BitVec 3) (crn crd cp crm : BitVec 4) (op2 : BitVec 3) (rd : RegNum) (s : State),
    let asked := fun (q : CoprocRequest) => { clearTracker s with coproc := s.coproc.after q }
    let ok := fun (q : CoprocRequest) => (s.coproc.reply q).1.present = true
    let sent := if rd = 15 then s.pc + 12#32 else readReg rd s
    let cdp := CoprocRequest.cdp cp op4 crn crd op2 crm
    let mcr := CoprocRequest.mcr cp op3 crn crm op2 sent
    let mrc := CoprocRequest.mrc cp op3 crn crm op2
    let v := (s.coproc.reply mrc).1.value
    (Executes (.cdp c op4 crn crd cp op2 crm) s → ok cdp → exec (.cdp c op4 crn crd cp op2 crm) s =
      .next (advance (asked cdp))) ∧
    (Executes (.mcr c op3 crn rd cp op2 crm) s → ok mcr → exec (.mcr c op3 crn rd cp op2 crm) s =
      .next (advance (asked mcr))) ∧
    (Executes (.mrc c op3 crn rd cp op2 crm) s → ok mrc → rd ≠ 15 → exec (.mrc c op3 crn rd cp op2 crm) s =
      .next (advance (writeReg rd v (asked mrc)))) ∧
    (Executes (.mrc c op3 crn rd cp op2 crm) s → ok mrc → rd = 15 → exec (.mrc c op3 crn rd cp op2 crm) s =
      .next (advance ((asked mrc).withFlags (v.getLsbD 31) (v.getLsbD 30) (v.getLsbD 29) (v.getLsbD 28))))

/-- R379, R378: LDC and STC with a coprocessor that answers a count: the words handed over or stored, in increasing
address order, the requests made of both collaborators, and the write-back of the indexed base. -/
def Obligations.CoprocessorTransferResults : Prop :=
  ∀ (c : Cond) (p u n w : Bool) (rn : RegNum) (crd cp : BitVec 4) (offset8 : BitVec 8) (s : State),
    let base := readReg rn s
    let offset := BitVec.ofNat 32 (4 * offset8.toNat)
    let indexed := if u then base + offset else base - offset
    let slot := coprocSlot (if p then indexed else base)
    let finalBase := fun (t : State) => (p = false ∨ w = true → readReg rn t = indexed) ∧
      SameRegsBut (if p = false ∨ w = true then [bankReg (currentBank s.cpsr) rn] else []) s t ∧
      t.pc = s.pc + 4#32 ∧ t.cpsr = s.cpsr ∧ t.spsrs = s.spsrs
    (let begins := CoprocRequest.ldcBegin cp n crd
      let count := (s.coproc.reply begins).1.more.val + 1
      let request := fun (k : Nat) => MemRequest.readWord (slot k)
      let before := fun (k : Nat) => callAll ((List.range k).map request) s
      let asked := s.coproc.afterAll
        (begins :: (List.range count).map fun k => .ldcWord cp k (wordAt (slot k) (before k)))
      Executes (.ldc c p u n w rn crd cp offset8) s → (s.coproc.reply begins).1.present = true →
      (∀ k < count, memAborts (request k) (before k) = false) →
      ∃ t : State, exec (.ldc c p u n w rn crd cp offset8) s = .next t ∧ finalBase t ∧ t.memory = s.memory ∧
        SameEnvironment { before count with coproc := asked } t) ∧
    (let begins := CoprocRequest.stcBegin cp n crd
      let count := (s.coproc.reply begins).1.more.val + 1
      let asked := fun (k : Nat) => s.coproc.afterAll (begins :: (List.range k).map fun j => .stcWord cp j)
      let value := fun (k : Nat) => ((asked k).reply (.stcWord cp k)).1.value
      let request := fun (k : Nat) => MemRequest.writeWord (slot k) (value k)
      let before := fun (k : Nat) => callAll ((List.range k).map request) s
      Executes (.stc c p u n w rn crd cp offset8) s → (s.coproc.reply begins).1.present = true →
      (∀ k < count, StoreAllowed (request k) (before k)) →
      ∃ t : State, exec (.stc c p u n w rn crd cp offset8) s = .next t ∧ finalBase t ∧
        WordsStored (· < count) slot value before s.memory t.memory ∧
        SameEnvironment { before count with coproc := asked count } t)

/-- R383, R417, R418: LDC and STC whose k-th word aborts, no access before it being stopped. The words transferred before
it stay transferred, no other byte changes, the coprocessor gets no further request, and the base holds its old value or
the indexed one. What the two collaborators have been asked is told in the model's form of them, log entries 4 and
8. -/
def Obligations.CoprocessorTransferAborts : Prop :=
  ∀ (c : Cond) (p u n w : Bool) (rn : RegNum) (crd cp : BitVec 4) (offset8 : BitVec 8) (s : State) (k : Nat),
    let base := readReg rn s
    let offset := BitVec.ofNat 32 (4 * offset8.toNat)
    let indexed := if u then base + offset else base - offset
    let slot := coprocSlot (if p then indexed else base)
    let aborted := fun (t : State) => Entered .dataAbort s.pc s.cpsr t ∧
      (∀ b : Bank, b ≠ .abt → t.spsrs.get b = s.spsrs.get b) ∧
      ∀ q : PhysReg, q ≠ .r14 .abt → t.regs.read q = s.regs.read q ∨
        ((p = false ∨ w = true) ∧ bankReg (currentBank s.cpsr) rn = some q ∧ t.regs.read q = indexed)
    (let begins := CoprocRequest.ldcBegin cp n crd
      let request := fun (j : Nat) => MemRequest.readWord (slot j)
      let before := fun (j : Nat) => callAll ((List.range j).map request) s
      Executes (.ldc c p u n w rn crd cp offset8) s → (s.coproc.reply begins).1.present = true →
      k ≤ (s.coproc.reply begins).1.more.val → (∀ j < k, memAborts (request j) (before j) = false) →
      memAborts (request k) (before k) = true →
      ∃ t : State, exec (.ldc c p u n w rn crd cp offset8) s = .next t ∧ aborted t ∧ t.memory = s.memory ∧
        t.bus = (before k).bus.after (request k) ∧
        t.coproc = s.coproc.afterAll
          (begins :: (List.range k).map fun j => .ldcWord cp j (wordAt (slot j) (before j)))) ∧
    (let begins := CoprocRequest.stcBegin cp n crd
      let asked := fun (j : Nat) => s.coproc.afterAll (begins :: (List.range j).map fun l => .stcWord cp l)
      let value := fun (j : Nat) => ((asked j).reply (.stcWord cp j)).1.value
      let request := fun (j : Nat) => MemRequest.writeWord (slot j) (value j)
      let before := fun (j : Nat) => callAll ((List.range j).map request) s
      Executes (.stc c p u n w rn crd cp offset8) s → (s.coproc.reply begins).1.present = true →
      k ≤ (s.coproc.reply begins).1.more.val → (∀ j < k, StoreAllowed (request j) (before j)) →
      NoHazard (request k) s → memAborts (request k) (before k) = true →
      ∃ t : State, exec (.stc c p u n w rn crd cp offset8) s = .next t ∧ aborted t ∧
        t.bus = (before k).bus.after (request k) ∧ t.coproc = asked (k + 1) ∧
        WordsStored (· < k) slot value before s.memory t.memory)

/-- R375, R377, R378, R384: a request goes to the coprocessor of its number and changes no other; with none registered
for the number the answer is Absent, else a rule of the coprocessor answers by its own state and the request. An answer
Absent under each COPROC_ABSENT_POLICY, and the LDC and STC forms that are refused. A rule, and what the refusal and the
fault carry, are the model's form, log entries 8 and 12. -/
def Obligations.CoprocessorAbsentOrRefused : Prop :=
  (∀ (port : CoprocPort) (q : CoprocRequest),
    let unit := port.units[q.cp.toNat]
    let matched := fun (r : CoprocRule) => r.own = unit.own ∧ r.request = q
    (unit.registered = false → (port.reply q).1.present = false ∧ (port.after q).units = port.units) ∧
    (∀ (earlier : List CoprocRule) (r : CoprocRule) (later : List CoprocRule), unit.registered = true →
      port.rules = earlier ++ r :: later → (∀ r' ∈ earlier, ¬ matched r') → matched r →
      port.reply q = (r.answer, r.next) ∧ (port.after q).units[q.cp.toNat] = { registered := true, own := r.next }) ∧
    (∀ (k : Nat) (h : k < 16), k ≠ q.cp.toNat → (port.after q).units[k] = port.units[k]) ∧
    (port.after q).units[q.cp.toNat].registered = unit.registered ∧
    (port.after q).rules = port.rules ∧ (port.after q).requests = q :: port.requests) ∧
  (∀ (c : Cond) (p u n w : Bool) (rn rd : RegNum) (op4 crn crd cp crm : BitVec 4) (op3 op2 : BitVec 3)
    (offset8 : BitVec 8) (s : State),
    let bad := ((w = true ∨ p = false) ∧ rn = 15) ∨ (p = false ∧ w = false)
    let sent := if rd = 15 then s.pc + 12#32 else readReg rd s
    let kept := fun (q : CoprocRequest) => Collaborators.mk s.memory s.bus (s.coproc.after q)
    (∀ i ∈ [Instr.ldc c p u n w rn crd cp offset8, Instr.stc c p u n w rn crd cp offset8],
      (bad → exec i s = .refused (.unpredictable .r384)) ∧ (¬ bad → wfRefusal i s = none)) ∧
    (∀ i ∈ [Instr.cdp c op4 crn crd cp op2 crm, Instr.mcr c op3 crn rd cp op2 crm, Instr.mrc c op3 crn rd cp op2 crm],
      wfRefusal i s = none) ∧
    (∀ x ∈ [(Instr.ldc c p u n w rn crd cp offset8, CoprocRequest.ldcBegin cp n crd),
        (Instr.stc c p u n w rn crd cp offset8, CoprocRequest.stcBegin cp n crd),
        (Instr.cdp c op4 crn crd cp op2 crm, CoprocRequest.cdp cp op4 crn crd op2 crm),
        (Instr.mcr c op3 crn rd cp op2 crm, CoprocRequest.mcr cp op3 crn crm op2 sent),
        (Instr.mrc c op3 crn rd cp op2 crm, CoprocRequest.mrc cp op3 crn crm op2)],
      (s.coproc.reply x.2).1.present = false → Executes x.1 s →
      (s.policy.coprocAbsent = .refuse → exec x.1 s = .refused (.coprocessorAbsent cp (kept x.2))) ∧
      (s.policy.coprocAbsent = .halt → exec x.1 s = .fault (.coprocessorHalt (kept x.2))) ∧
      (s.policy.coprocAbsent = .trapUndefined → ∃ t : State, exec x.1 s = .next t ∧
        Entered .undefinedInstruction s.pc s.cpsr t ∧ SameRegsBut [some (.r14 .und)] s t ∧
        (∀ k : Bank, k ≠ .und → t.spsrs.get k = s.spsrs.get k) ∧ t.memory = s.memory ∧ t.bus = s.bus ∧
        t.coproc = s.coproc.after x.2)))

/-! ### Frames -/

/-- R201, R241, R47, R333, R351: what the instructions that reach no memory leave unchanged. Memory, the marks, the
coprocessor and the host's inputs always; every register but the destinations; every flag but those the rules
name; the saved status registers but the one an MSR of the SPSR writes. -/
def Obligations.RegisterInstructionFrame : Prop :=
  (∀ (op : AluOp) (c : Cond) (sf : Bool) (rn rd : RegNum) (op2 : Operand2) (s t : State),
    exec (dataProcInstr op c sf rn rd op2) s = .next t →
    SameMemory s t ∧ SameEnvironment s t ∧ t.spsrs = s.spsrs ∧
    SameRegsBut (if writesRd op then [bankReg (currentBank s.cpsr) rd] else []) s t ∧
    (sf = false → t.cpsr = s.cpsr) ∧
    (¬ (writesRd op = true ∧ rd = 15) → SameControl s.cpsr t.cpsr ∧
      (op ∈ [AluOp.and, .eor, .tst, .teq, .orr, .mov, .bic, .mvn] → t.cpsr.v = s.cpsr.v))) ∧
  (∀ (c : Cond) (sf : Bool) (rd rn rs rm : RegNum) (s t : State) (i : Instr),
    i ∈ [Instr.mul c sf rd rn rs rm, .mla c sf rd rn rs rm, .umull c sf rd rn rs rm, .umlal c sf rd rn rs rm,
      .smull c sf rd rn rs rm, .smlal c sf rd rn rs rm] → exec i s = .next t →
    SameMemory s t ∧ SameEnvironment s t ∧ t.spsrs = s.spsrs ∧
    SameRegsBut (bankReg (currentBank s.cpsr) rd ::
      if i = .mul c sf rd rn rs rm ∨ i = .mla c sf rd rn rs rm then [] else [bankReg (currentBank s.cpsr) rn]) s t ∧
    SameControl s.cpsr t.cpsr ∧ t.cpsr.c = s.cpsr.c ∧ t.cpsr.v = s.cpsr.v ∧ (sf = false → t.cpsr = s.cpsr)) ∧
  (∀ (c : Cond) (spsr : Bool) (rd rm : RegNum) (mask : BitVec 4) (src : PsrSource) (s t : State),
    (exec (.mrs c spsr rd) s = .next t → SameMemory s t ∧ SameEnvironment s t ∧ t.spsrs = s.spsrs ∧
      t.cpsr = s.cpsr ∧ SameRegsBut [bankReg (currentBank s.cpsr) rd] s t) ∧
    (∀ i ∈ [Instr.msrReg c spsr rm, .msrFlg c spsr src, .msrGen c spsr mask src], exec i s = .next t →
      SameMemory s t ∧ SameEnvironment s t ∧ t.regs = s.regs ∧
      (spsr = true → t.cpsr = s.cpsr ∧ ∀ k : Bank, k ≠ currentBank s.cpsr → t.spsrs.get k = s.spsrs.get k) ∧
      (spsr = false → t.spsrs = s.spsrs) ∧
      (i = .msrFlg c spsr src ∨ s.cpsr.m = 0b10000#5 → SameControl s.cpsr t.cpsr))) ∧
  (∀ (c : Cond) (offset24 : BitVec 24) (rm : RegNum) (s t : State) (i : Instr),
    i ∈ [Instr.b c offset24, .bl c offset24, .bx c rm] → exec i s = .next t →
    SameMemory s t ∧ SameEnvironment s t ∧ t.spsrs = s.spsrs ∧
    SameRegsBut (if i = .bl c offset24 then [bankReg (currentBank s.cpsr) 14] else []) s t ∧
    t.cpsr.n = s.cpsr.n ∧ t.cpsr.z = s.cpsr.z ∧ t.cpsr.c = s.cpsr.c ∧ t.cpsr.v = s.cpsr.v ∧
    t.cpsr.i = s.cpsr.i ∧ t.cpsr.f = s.cpsr.f ∧ t.cpsr.m = s.cpsr.m ∧ (i ≠ .bx c rm → t.cpsr = s.cpsr))

/-- R47, R261, R80: what the single loads that do not abort leave unchanged: all of memory, every status register, and
every register but the destination and a base that is written back; they make one access, and none when the condition
fails. -/
def Obligations.LoadFrame : Prop :=
  ∀ (c : Cond) (p u w : Bool) (rn rd : RegNum) (off : Offset) (hoff : HalfOffset) (s t : State),
    let frame := fun (q : MemRequest) (wb : Bool) =>
      SameMemory s t ∧ SameEnvironment { s with bus := if conditionPassed c s.cpsr then s.bus.after q else s.bus } t ∧
      t.spsrs = s.spsrs ∧ t.cpsr = s.cpsr ∧
      SameRegsBut (bankReg (currentBank s.cpsr) rd :: if wb then [bankReg (currentBank s.cpsr) rn] else []) s t
    let a := transferAddress true u rn (singleOffset off s) s
    let aH := transferAddress p u rn (halfOffset hoff s) s
    let base := readReg rn s
    (∀ (i : Instr) (q : MemRequest) (wb : Bool), (i, q, wb) ∈
      [(Instr.ldrPre c u w rn rd off, .readWord (alignWord a), w),
        (.ldrPost c u rn rd off, .readWord (alignWord base), true),
        (.ldrt c u rn rd off, .readWord (alignWord base), true), (.ldrbPre c u w rn rd off, .readByte a, w),
        (.ldrbPost c u rn rd off, .readByte base, true), (.ldrbt c u rn rd off, .readByte base, true),
        (.ldrh c p u w rn rd hoff, .readHalf (alignHalf aH), !p || w),
        (.ldrsh c p u w rn rd hoff, .readHalf (alignHalf aH), !p || w),
        (.ldrsb c p u w rn rd hoff, .readByte aH, !p || w)] →
      memAborts q s = false → exec i s = .next t → frame q wb)

/-- R76, R261, R281, R282, R80: what the single stores and the swaps that do not abort leave unchanged: every byte outside
the ones stored at the computed address, every status register, and every register but a base that is written
back (and the destination of a swap); a store makes one access and a swap two, and none when the condition fails. -/
def Obligations.StoreFrame : Prop :=
  ∀ (c : Cond) (p u w : Bool) (rn rd rm : RegNum) (off : Offset) (hoff : HalfOffset) (z : BitVec 2) (s t : State),
    let a := transferAddress true u rn (singleOffset off s) s
    let aH := transferAddress p u rn (halfOffset hoff s) s
    let base := readReg rn s
    let bank := currentBank s.cpsr
    let word := storedReg rd s
    let byte := (readReg rd s).extractLsb' 0 8
    let wbReg := fun (wb : Bool) => if wb then [bankReg bank rn] else []
    (∀ (i : Instr) (reads : List MemRequest) (q : MemRequest) (changed : List (Option PhysReg)), (i, reads, q, changed) ∈
      [(Instr.strPre c u w rn rd off, [], .writeWord (alignWord a) word, wbReg w),
        (.strPost c u rn rd off, [], .writeWord (alignWord base) word, wbReg true),
        (.strt c u rn rd off, [], .writeWord (alignWord base) word, wbReg true),
        (.strbPre c u w rn rd off, [], .writeByte a byte, wbReg w),
        (.strbPost c u rn rd off, [], .writeByte base byte, wbReg true),
        (.strbt c u rn rd off, [], .writeByte base byte, wbReg true),
        (.strh c p u w rn rd hoff, [], .writeHalf (alignHalf aH) ((readReg rd s).extractLsb' 0 16), wbReg (!p || w)),
        (.swp c z rn rd rm, [.readWord (alignWord base)], .writeWord (alignWord base) (readReg rm s),
          [bankReg bank rd]),
        (.swpb c z rn rd rm, [.readByte base], .writeByte base ((readReg rm s).extractLsb' 0 8), [bankReg bank rd])] →
      (∀ r ∈ reads, memAborts r s = false) → memAborts q (callAll reads s) = false → exec i s = .next t →
      (∀ b : Word, b ∉ q.bytes → t.memory.readByte b = s.memory.readByte b) ∧
      SameEnvironment { s with bus := if conditionPassed c s.cpsr then (callAll (reads ++ [q]) s).bus else s.bus } t ∧
      t.spsrs = s.spsrs ∧ t.cpsr = s.cpsr ∧ SameRegsBut changed s t)
end

