-- ==== Sys2Proof/Laws/State.lean ====
section
/-! SUPPORT. One lemma per field per update of the state: what each named operation leaves alone, and what it puts
into the fields it writes, so that no later proof unfolds a record update. -/

namespace Sys2Proof.Machine

/-! ### advance -/

@[simp] theorem advance_regs (s : State) : (advance s).regs = s.regs := rfl

@[simp] theorem advance_pc (s : State) : (advance s).pc = s.pc + 4#32 := rfl

@[simp] theorem advance_cpsr (s : State) : (advance s).cpsr = s.cpsr := rfl

@[simp] theorem advance_spsrs (s : State) : (advance s).spsrs = s.spsrs := rfl

@[simp] theorem advance_lastUserBankTransfer (s : State) : (advance s).lastUserBankTransfer = s.lastUserBankTransfer := rfl

@[simp] theorem advance_faultMark (s : State) : (advance s).faultMark = s.faultMark := rfl

@[simp] theorem advance_refusalMark (s : State) : (advance s).refusalMark = s.refusalMark := rfl

@[simp] theorem advance_memory (s : State) : (advance s).memory = s.memory := rfl

@[simp] theorem advance_abortMap (s : State) : (advance s).abortMap = s.abortMap := rfl

@[simp] theorem advance_bus (s : State) : (advance s).bus = s.bus := rfl

@[simp] theorem advance_coproc (s : State) : (advance s).coproc = s.coproc := rfl

@[simp] theorem advance_inputs (s : State) : (advance s).inputs = s.inputs := rfl

@[simp] theorem advance_policy (s : State) : (advance s).policy = s.policy := rfl

@[simp] theorem advance_freeCount (s : State) : (advance s).freeCount = s.freeCount := rfl

/-! ### writePC -/

@[simp] theorem writePC_regs (v : Word) (s : State) : (writePC v s).regs = s.regs := rfl

@[simp] theorem writePC_pc (v : Word) (s : State) : (writePC v s).pc = maskPC s.cpsr.t v := rfl

@[simp] theorem writePC_cpsr (v : Word) (s : State) : (writePC v s).cpsr = s.cpsr := rfl

@[simp] theorem writePC_spsrs (v : Word) (s : State) : (writePC v s).spsrs = s.spsrs := rfl

@[simp] theorem writePC_lastUserBankTransfer (v : Word) (s : State) : (writePC v s).lastUserBankTransfer = s.lastUserBankTransfer := rfl

@[simp] theorem writePC_faultMark (v : Word) (s : State) : (writePC v s).faultMark = s.faultMark := rfl

@[simp] theorem writePC_refusalMark (v : Word) (s : State) : (writePC v s).refusalMark = s.refusalMark := rfl

@[simp] theorem writePC_memory (v : Word) (s : State) : (writePC v s).memory = s.memory := rfl

@[simp] theorem writePC_abortMap (v : Word) (s : State) : (writePC v s).abortMap = s.abortMap := rfl

@[simp] theorem writePC_bus (v : Word) (s : State) : (writePC v s).bus = s.bus := rfl

@[simp] theorem writePC_coproc (v : Word) (s : State) : (writePC v s).coproc = s.coproc := rfl

@[simp] theorem writePC_inputs (v : Word) (s : State) : (writePC v s).inputs = s.inputs := rfl

@[simp] theorem writePC_policy (v : Word) (s : State) : (writePC v s).policy = s.policy := rfl

@[simp] theorem writePC_freeCount (v : Word) (s : State) : (writePC v s).freeCount = s.freeCount := rfl

/-! ### loadWritePC -/

@[simp] theorem loadWritePC_regs (v : Word) (s : State) : (loadWritePC v s).regs = s.regs := rfl

@[simp] theorem loadWritePC_pc (v : Word) (s : State) : (loadWritePC v s).pc = v &&& 0xFFFFFFFC#32 := rfl

@[simp] theorem loadWritePC_cpsr (v : Word) (s : State) : (loadWritePC v s).cpsr = s.cpsr := rfl

@[simp] theorem loadWritePC_spsrs (v : Word) (s : State) : (loadWritePC v s).spsrs = s.spsrs := rfl

@[simp] theorem loadWritePC_lastUserBankTransfer (v : Word) (s : State) : (loadWritePC v s).lastUserBankTransfer = s.lastUserBankTransfer := rfl

@[simp] theorem loadWritePC_faultMark (v : Word) (s : State) : (loadWritePC v s).faultMark = s.faultMark := rfl

@[simp] theorem loadWritePC_refusalMark (v : Word) (s : State) : (loadWritePC v s).refusalMark = s.refusalMark := rfl

@[simp] theorem loadWritePC_memory (v : Word) (s : State) : (loadWritePC v s).memory = s.memory := rfl

@[simp] theorem loadWritePC_abortMap (v : Word) (s : State) : (loadWritePC v s).abortMap = s.abortMap := rfl

@[simp] theorem loadWritePC_bus (v : Word) (s : State) : (loadWritePC v s).bus = s.bus := rfl

@[simp] theorem loadWritePC_coproc (v : Word) (s : State) : (loadWritePC v s).coproc = s.coproc := rfl

@[simp] theorem loadWritePC_inputs (v : Word) (s : State) : (loadWritePC v s).inputs = s.inputs := rfl

@[simp] theorem loadWritePC_policy (v : Word) (s : State) : (loadWritePC v s).policy = s.policy := rfl

@[simp] theorem loadWritePC_freeCount (v : Word) (s : State) : (loadWritePC v s).freeCount = s.freeCount := rfl

/-! ### branchTo -/

@[simp] theorem branchTo_regs (v : Word) (s : State) : (branchTo v s).regs = s.regs := rfl

@[simp] theorem branchTo_pc (v : Word) (s : State) : (branchTo v s).pc = v := rfl

@[simp] theorem branchTo_cpsr (v : Word) (s : State) : (branchTo v s).cpsr = s.cpsr := rfl

@[simp] theorem branchTo_spsrs (v : Word) (s : State) : (branchTo v s).spsrs = s.spsrs := rfl

@[simp] theorem branchTo_lastUserBankTransfer (v : Word) (s : State) : (branchTo v s).lastUserBankTransfer = s.lastUserBankTransfer := rfl

@[simp] theorem branchTo_faultMark (v : Word) (s : State) : (branchTo v s).faultMark = s.faultMark := rfl

@[simp] theorem branchTo_refusalMark (v : Word) (s : State) : (branchTo v s).refusalMark = s.refusalMark := rfl

@[simp] theorem branchTo_memory (v : Word) (s : State) : (branchTo v s).memory = s.memory := rfl

@[simp] theorem branchTo_abortMap (v : Word) (s : State) : (branchTo v s).abortMap = s.abortMap := rfl

@[simp] theorem branchTo_bus (v : Word) (s : State) : (branchTo v s).bus = s.bus := rfl

@[simp] theorem branchTo_coproc (v : Word) (s : State) : (branchTo v s).coproc = s.coproc := rfl

@[simp] theorem branchTo_inputs (v : Word) (s : State) : (branchTo v s).inputs = s.inputs := rfl

@[simp] theorem branchTo_policy (v : Word) (s : State) : (branchTo v s).policy = s.policy := rfl

@[simp] theorem branchTo_freeCount (v : Word) (s : State) : (branchTo v s).freeCount = s.freeCount := rfl

/-! ### writeRegIn -/

@[simp] theorem writeRegIn_pc (k : Bank) (n : RegNum) (v : Word) (s : State) : (writeRegIn k n v s).pc = s.pc := by
  unfold writeRegIn; split <;> rfl

@[simp] theorem writeRegIn_cpsr (k : Bank) (n : RegNum) (v : Word) (s : State) : (writeRegIn k n v s).cpsr = s.cpsr := by
  unfold writeRegIn; split <;> rfl

@[simp] theorem writeRegIn_spsrs (k : Bank) (n : RegNum) (v : Word) (s : State) : (writeRegIn k n v s).spsrs = s.spsrs := by
  unfold writeRegIn; split <;> rfl

@[simp] theorem writeRegIn_lastUserBankTransfer (k : Bank) (n : RegNum) (v : Word) (s : State) : (writeRegIn k n v s).lastUserBankTransfer = s.lastUserBankTransfer := by
  unfold writeRegIn; split <;> rfl

@[simp] theorem writeRegIn_faultMark (k : Bank) (n : RegNum) (v : Word) (s : State) : (writeRegIn k n v s).faultMark = s.faultMark := by
  unfold writeRegIn; split <;> rfl

@[simp] theorem writeRegIn_refusalMark (k : Bank) (n : RegNum) (v : Word) (s : State) : (writeRegIn k n v s).refusalMark = s.refusalMark := by
  unfold writeRegIn; split <;> rfl

@[simp] theorem writeRegIn_memory (k : Bank) (n : RegNum) (v : Word) (s : State) : (writeRegIn k n v s).memory = s.memory := by
  unfold writeRegIn; split <;> rfl

@[simp] theorem writeRegIn_abortMap (k : Bank) (n : RegNum) (v : Word) (s : State) : (writeRegIn k n v s).abortMap = s.abortMap := by
  unfold writeRegIn; split <;> rfl

@[simp] theorem writeRegIn_bus (k : Bank) (n : RegNum) (v : Word) (s : State) : (writeRegIn k n v s).bus = s.bus := by
  unfold writeRegIn; split <;> rfl

@[simp] theorem writeRegIn_coproc (k : Bank) (n : RegNum) (v : Word) (s : State) : (writeRegIn k n v s).coproc = s.coproc := by
  unfold writeRegIn; split <;> rfl

@[simp] theorem writeRegIn_inputs (k : Bank) (n : RegNum) (v : Word) (s : State) : (writeRegIn k n v s).inputs = s.inputs := by
  unfold writeRegIn; split <;> rfl

@[simp] theorem writeRegIn_policy (k : Bank) (n : RegNum) (v : Word) (s : State) : (writeRegIn k n v s).policy = s.policy := by
  unfold writeRegIn; split <;> rfl

@[simp] theorem writeRegIn_freeCount (k : Bank) (n : RegNum) (v : Word) (s : State) : (writeRegIn k n v s).freeCount = s.freeCount := by
  unfold writeRegIn; split <;> rfl

/-! ### writeReg -/

@[simp] theorem writeReg_pc (n : RegNum) (v : Word) (s : State) : (writeReg n v s).pc = s.pc := by
  unfold writeReg; simp

@[simp] theorem writeReg_cpsr (n : RegNum) (v : Word) (s : State) : (writeReg n v s).cpsr = s.cpsr := by
  unfold writeReg; simp

@[simp] theorem writeReg_spsrs (n : RegNum) (v : Word) (s : State) : (writeReg n v s).spsrs = s.spsrs := by
  unfold writeReg; simp

@[simp] theorem writeReg_lastUserBankTransfer (n : RegNum) (v : Word) (s : State) : (writeReg n v s).lastUserBankTransfer = s.lastUserBankTransfer := by
  unfold writeReg; simp

@[simp] theorem writeReg_faultMark (n : RegNum) (v : Word) (s : State) : (writeReg n v s).faultMark = s.faultMark := by
  unfold writeReg; simp

@[simp] theorem writeReg_refusalMark (n : RegNum) (v : Word) (s : State) : (writeReg n v s).refusalMark = s.refusalMark := by
  unfold writeReg; simp

@[simp] theorem writeReg_memory (n : RegNum) (v : Word) (s : State) : (writeReg n v s).memory = s.memory := by
  unfold writeReg; simp

@[simp] theorem writeReg_abortMap (n : RegNum) (v : Word) (s : State) : (writeReg n v s).abortMap = s.abortMap := by
  unfold writeReg; simp

@[simp] theorem writeReg_bus (n : RegNum) (v : Word) (s : State) : (writeReg n v s).bus = s.bus := by
  unfold writeReg; simp

@[simp] theorem writeReg_coproc (n : RegNum) (v : Word) (s : State) : (writeReg n v s).coproc = s.coproc := by
  unfold writeReg; simp

@[simp] theorem writeReg_inputs (n : RegNum) (v : Word) (s : State) : (writeReg n v s).inputs = s.inputs := by
  unfold writeReg; simp

@[simp] theorem writeReg_policy (n : RegNum) (v : Word) (s : State) : (writeReg n v s).policy = s.policy := by
  unfold writeReg; simp

@[simp] theorem writeReg_freeCount (n : RegNum) (v : Word) (s : State) : (writeReg n v s).freeCount = s.freeCount := by
  unfold writeReg; simp

/-! ### writeSpsr -/

@[simp] theorem writeSpsr_regs (k : Bank) (p : Psr) (s : State) : (writeSpsr k p s).regs = s.regs := rfl

@[simp] theorem writeSpsr_pc (k : Bank) (p : Psr) (s : State) : (writeSpsr k p s).pc = s.pc := rfl

@[simp] theorem writeSpsr_cpsr (k : Bank) (p : Psr) (s : State) : (writeSpsr k p s).cpsr = s.cpsr := rfl

@[simp] theorem writeSpsr_spsrs (k : Bank) (p : Psr) (s : State) : (writeSpsr k p s).spsrs = s.spsrs.set k p := rfl

@[simp] theorem writeSpsr_lastUserBankTransfer (k : Bank) (p : Psr) (s : State) : (writeSpsr k p s).lastUserBankTransfer = s.lastUserBankTransfer := rfl

@[simp] theorem writeSpsr_faultMark (k : Bank) (p : Psr) (s : State) : (writeSpsr k p s).faultMark = s.faultMark := rfl

@[simp] theorem writeSpsr_refusalMark (k : Bank) (p : Psr) (s : State) : (writeSpsr k p s).refusalMark = s.refusalMark := rfl

@[simp] theorem writeSpsr_memory (k : Bank) (p : Psr) (s : State) : (writeSpsr k p s).memory = s.memory := rfl

@[simp] theorem writeSpsr_abortMap (k : Bank) (p : Psr) (s : State) : (writeSpsr k p s).abortMap = s.abortMap := rfl

@[simp] theorem writeSpsr_bus (k : Bank) (p : Psr) (s : State) : (writeSpsr k p s).bus = s.bus := rfl

@[simp] theorem writeSpsr_coproc (k : Bank) (p : Psr) (s : State) : (writeSpsr k p s).coproc = s.coproc := rfl

@[simp] theorem writeSpsr_inputs (k : Bank) (p : Psr) (s : State) : (writeSpsr k p s).inputs = s.inputs := rfl

@[simp] theorem writeSpsr_policy (k : Bank) (p : Psr) (s : State) : (writeSpsr k p s).policy = s.policy := rfl

@[simp] theorem writeSpsr_freeCount (k : Bank) (p : Psr) (s : State) : (writeSpsr k p s).freeCount = s.freeCount := rfl

/-! ### takeException -/

@[simp] theorem takeException_regs (e : Exc) (s : State) : (takeException e s).regs = s.regs.write (.r14 e.mode.bank) (s.pc + e.linkOffset) := rfl

@[simp] theorem takeException_pc (e : Exc) (s : State) : (takeException e s).pc = e.vector := rfl

@[simp] theorem takeException_cpsr (e : Exc) (s : State) : (takeException e s).cpsr = { s.cpsr with m := e.mode.bits, t := false, i := true, f := s.cpsr.f || e.masksFiq } := rfl

@[simp] theorem takeException_spsrs (e : Exc) (s : State) : (takeException e s).spsrs = s.spsrs.set e.mode.bank s.cpsr := rfl

@[simp] theorem takeException_lastUserBankTransfer (e : Exc) (s : State) : (takeException e s).lastUserBankTransfer = false := rfl

@[simp] theorem takeException_faultMark (e : Exc) (s : State) : (takeException e s).faultMark = s.faultMark := rfl

@[simp] theorem takeException_refusalMark (e : Exc) (s : State) : (takeException e s).refusalMark = s.refusalMark := rfl

@[simp] theorem takeException_memory (e : Exc) (s : State) : (takeException e s).memory = s.memory := rfl

@[simp] theorem takeException_abortMap (e : Exc) (s : State) : (takeException e s).abortMap = s.abortMap := rfl

@[simp] theorem takeException_bus (e : Exc) (s : State) : (takeException e s).bus = s.bus := rfl

@[simp] theorem takeException_coproc (e : Exc) (s : State) : (takeException e s).coproc = s.coproc := rfl

@[simp] theorem takeException_inputs (e : Exc) (s : State) : (takeException e s).inputs = s.inputs := rfl

@[simp] theorem takeException_policy (e : Exc) (s : State) : (takeException e s).policy = s.policy := rfl

@[simp] theorem takeException_freeCount (e : Exc) (s : State) : (takeException e s).freeCount = s.freeCount := rfl

/-! ### performReset -/

@[simp] theorem performReset_regs (s : State) : (performReset s).regs = s.regs.write (.r14 .svc) (Config.resetLink s.freeCount) := rfl

@[simp] theorem performReset_pc (s : State) : (performReset s).pc = 0x00000000#32 := rfl

@[simp] theorem performReset_cpsr (s : State) : (performReset s).cpsr = { s.cpsr with m := Mode.supervisor.bits, i := true, f := true, t := false } := rfl

@[simp] theorem performReset_spsrs (s : State) : (performReset s).spsrs = s.spsrs.set .svc (Psr.ofWord (Config.resetSpsr s.freeCount)) := rfl

@[simp] theorem performReset_lastUserBankTransfer (s : State) : (performReset s).lastUserBankTransfer = false := rfl

@[simp] theorem performReset_faultMark (s : State) : (performReset s).faultMark = s.faultMark := rfl

@[simp] theorem performReset_refusalMark (s : State) : (performReset s).refusalMark = s.refusalMark := rfl

@[simp] theorem performReset_memory (s : State) : (performReset s).memory = s.memory := rfl

@[simp] theorem performReset_abortMap (s : State) : (performReset s).abortMap = s.abortMap := rfl

@[simp] theorem performReset_bus (s : State) : (performReset s).bus = s.bus := rfl

@[simp] theorem performReset_coproc (s : State) : (performReset s).coproc = s.coproc := rfl

@[simp] theorem performReset_inputs (s : State) : (performReset s).inputs = s.inputs := rfl

@[simp] theorem performReset_policy (s : State) : (performReset s).policy = s.policy := rfl

@[simp] theorem performReset_freeCount (s : State) : (performReset s).freeCount = s.freeCount + 1 := rfl

/-! ### clearTracker -/

@[simp] theorem clearTracker_regs (s : State) : (clearTracker s).regs = s.regs := rfl

@[simp] theorem clearTracker_pc (s : State) : (clearTracker s).pc = s.pc := rfl

@[simp] theorem clearTracker_cpsr (s : State) : (clearTracker s).cpsr = s.cpsr := rfl

@[simp] theorem clearTracker_spsrs (s : State) : (clearTracker s).spsrs = s.spsrs := rfl

@[simp] theorem clearTracker_lastUserBankTransfer (s : State) : (clearTracker s).lastUserBankTransfer = false := rfl

@[simp] theorem clearTracker_faultMark (s : State) : (clearTracker s).faultMark = s.faultMark := rfl

@[simp] theorem clearTracker_refusalMark (s : State) : (clearTracker s).refusalMark = s.refusalMark := rfl

@[simp] theorem clearTracker_memory (s : State) : (clearTracker s).memory = s.memory := rfl

@[simp] theorem clearTracker_abortMap (s : State) : (clearTracker s).abortMap = s.abortMap := rfl

@[simp] theorem clearTracker_bus (s : State) : (clearTracker s).bus = s.bus := rfl

@[simp] theorem clearTracker_coproc (s : State) : (clearTracker s).coproc = s.coproc := rfl

@[simp] theorem clearTracker_inputs (s : State) : (clearTracker s).inputs = s.inputs := rfl

@[simp] theorem clearTracker_policy (s : State) : (clearTracker s).policy = s.policy := rfl

@[simp] theorem clearTracker_freeCount (s : State) : (clearTracker s).freeCount = s.freeCount := rfl

/-! ### skip -/

@[simp] theorem skip_regs (s : State) : (skip s).regs = s.regs := rfl

@[simp] theorem skip_pc (s : State) : (skip s).pc = s.pc + 4#32 := rfl

@[simp] theorem skip_cpsr (s : State) : (skip s).cpsr = s.cpsr := rfl

@[simp] theorem skip_spsrs (s : State) : (skip s).spsrs = s.spsrs := rfl

@[simp] theorem skip_lastUserBankTransfer (s : State) : (skip s).lastUserBankTransfer = false := rfl

@[simp] theorem skip_faultMark (s : State) : (skip s).faultMark = s.faultMark := rfl

@[simp] theorem skip_refusalMark (s : State) : (skip s).refusalMark = s.refusalMark := rfl

@[simp] theorem skip_memory (s : State) : (skip s).memory = s.memory := rfl

@[simp] theorem skip_abortMap (s : State) : (skip s).abortMap = s.abortMap := rfl

@[simp] theorem skip_bus (s : State) : (skip s).bus = s.bus := rfl

@[simp] theorem skip_coproc (s : State) : (skip s).coproc = s.coproc := rfl

@[simp] theorem skip_inputs (s : State) : (skip s).inputs = s.inputs := rfl

@[simp] theorem skip_policy (s : State) : (skip s).policy = s.policy := rfl

@[simp] theorem skip_freeCount (s : State) : (skip s).freeCount = s.freeCount := rfl

/-! ### dropInputs -/

@[simp] theorem dropInputs_regs (s : State) : (dropInputs s).regs = s.regs := rfl

@[simp] theorem dropInputs_pc (s : State) : (dropInputs s).pc = s.pc := rfl

@[simp] theorem dropInputs_cpsr (s : State) : (dropInputs s).cpsr = s.cpsr := rfl

@[simp] theorem dropInputs_spsrs (s : State) : (dropInputs s).spsrs = s.spsrs := rfl

@[simp] theorem dropInputs_lastUserBankTransfer (s : State) : (dropInputs s).lastUserBankTransfer = s.lastUserBankTransfer := rfl

@[simp] theorem dropInputs_faultMark (s : State) : (dropInputs s).faultMark = s.faultMark := rfl

@[simp] theorem dropInputs_refusalMark (s : State) : (dropInputs s).refusalMark = s.refusalMark := rfl

@[simp] theorem dropInputs_memory (s : State) : (dropInputs s).memory = s.memory := rfl

@[simp] theorem dropInputs_abortMap (s : State) : (dropInputs s).abortMap = s.abortMap := rfl

@[simp] theorem dropInputs_bus (s : State) : (dropInputs s).bus = s.bus := rfl

@[simp] theorem dropInputs_coproc (s : State) : (dropInputs s).coproc = s.coproc := rfl

@[simp] theorem dropInputs_inputs (s : State) : (dropInputs s).inputs = s.inputs.tail := rfl

@[simp] theorem dropInputs_policy (s : State) : (dropInputs s).policy = s.policy := rfl

@[simp] theorem dropInputs_freeCount (s : State) : (dropInputs s).freeCount = s.freeCount := rfl

/-! ### applyWriteBack -/

@[simp] theorem applyWriteBack_pc (wb : Option (RegNum × Word)) (s : State) : (applyWriteBack wb s).pc = s.pc := by
  unfold applyWriteBack; split <;> simp

@[simp] theorem applyWriteBack_cpsr (wb : Option (RegNum × Word)) (s : State) : (applyWriteBack wb s).cpsr = s.cpsr := by
  unfold applyWriteBack; split <;> simp

@[simp] theorem applyWriteBack_spsrs (wb : Option (RegNum × Word)) (s : State) : (applyWriteBack wb s).spsrs = s.spsrs := by
  unfold applyWriteBack; split <;> simp

@[simp] theorem applyWriteBack_lastUserBankTransfer (wb : Option (RegNum × Word)) (s : State) : (applyWriteBack wb s).lastUserBankTransfer = s.lastUserBankTransfer := by
  unfold applyWriteBack; split <;> simp

@[simp] theorem applyWriteBack_faultMark (wb : Option (RegNum × Word)) (s : State) : (applyWriteBack wb s).faultMark = s.faultMark := by
  unfold applyWriteBack; split <;> simp

@[simp] theorem applyWriteBack_refusalMark (wb : Option (RegNum × Word)) (s : State) : (applyWriteBack wb s).refusalMark = s.refusalMark := by
  unfold applyWriteBack; split <;> simp

@[simp] theorem applyWriteBack_memory (wb : Option (RegNum × Word)) (s : State) : (applyWriteBack wb s).memory = s.memory := by
  unfold applyWriteBack; split <;> simp

@[simp] theorem applyWriteBack_abortMap (wb : Option (RegNum × Word)) (s : State) : (applyWriteBack wb s).abortMap = s.abortMap := by
  unfold applyWriteBack; split <;> simp

@[simp] theorem applyWriteBack_bus (wb : Option (RegNum × Word)) (s : State) : (applyWriteBack wb s).bus = s.bus := by
  unfold applyWriteBack; split <;> simp

@[simp] theorem applyWriteBack_coproc (wb : Option (RegNum × Word)) (s : State) : (applyWriteBack wb s).coproc = s.coproc := by
  unfold applyWriteBack; split <;> simp

@[simp] theorem applyWriteBack_inputs (wb : Option (RegNum × Word)) (s : State) : (applyWriteBack wb s).inputs = s.inputs := by
  unfold applyWriteBack; split <;> simp

@[simp] theorem applyWriteBack_policy (wb : Option (RegNum × Word)) (s : State) : (applyWriteBack wb s).policy = s.policy := by
  unfold applyWriteBack; split <;> simp

@[simp] theorem applyWriteBack_freeCount (wb : Option (RegNum × Word)) (s : State) : (applyWriteBack wb s).freeCount = s.freeCount := by
  unfold applyWriteBack; split <;> simp

/-! ### commitLoaded -/

@[simp] theorem commitLoaded_pc (k : Bank) (l : List (RegNum × Word)) (s : State) : (commitLoaded k l s).pc = s.pc := by
  induction l generalizing s with
  | nil => rfl
  | cons x rest ih => simp [commitLoaded, ih]

@[simp] theorem commitLoaded_cpsr (k : Bank) (l : List (RegNum × Word)) (s : State) : (commitLoaded k l s).cpsr = s.cpsr := by
  induction l generalizing s with
  | nil => rfl
  | cons x rest ih => simp [commitLoaded, ih]

@[simp] theorem commitLoaded_spsrs (k : Bank) (l : List (RegNum × Word)) (s : State) : (commitLoaded k l s).spsrs = s.spsrs := by
  induction l generalizing s with
  | nil => rfl
  | cons x rest ih => simp [commitLoaded, ih]

@[simp] theorem commitLoaded_lastUserBankTransfer (k : Bank) (l : List (RegNum × Word)) (s : State) : (commitLoaded k l s).lastUserBankTransfer = s.lastUserBankTransfer := by
  induction l generalizing s with
  | nil => rfl
  | cons x rest ih => simp [commitLoaded, ih]

@[simp] theorem commitLoaded_faultMark (k : Bank) (l : List (RegNum × Word)) (s : State) : (commitLoaded k l s).faultMark = s.faultMark := by
  induction l generalizing s with
  | nil => rfl
  | cons x rest ih => simp [commitLoaded, ih]

@[simp] theorem commitLoaded_refusalMark (k : Bank) (l : List (RegNum × Word)) (s : State) : (commitLoaded k l s).refusalMark = s.refusalMark := by
  induction l generalizing s with
  | nil => rfl
  | cons x rest ih => simp [commitLoaded, ih]

@[simp] theorem commitLoaded_memory (k : Bank) (l : List (RegNum × Word)) (s : State) : (commitLoaded k l s).memory = s.memory := by
  induction l generalizing s with
  | nil => rfl
  | cons x rest ih => simp [commitLoaded, ih]

@[simp] theorem commitLoaded_abortMap (k : Bank) (l : List (RegNum × Word)) (s : State) : (commitLoaded k l s).abortMap = s.abortMap := by
  induction l generalizing s with
  | nil => rfl
  | cons x rest ih => simp [commitLoaded, ih]

@[simp] theorem commitLoaded_bus (k : Bank) (l : List (RegNum × Word)) (s : State) : (commitLoaded k l s).bus = s.bus := by
  induction l generalizing s with
  | nil => rfl
  | cons x rest ih => simp [commitLoaded, ih]

@[simp] theorem commitLoaded_coproc (k : Bank) (l : List (RegNum × Word)) (s : State) : (commitLoaded k l s).coproc = s.coproc := by
  induction l generalizing s with
  | nil => rfl
  | cons x rest ih => simp [commitLoaded, ih]

@[simp] theorem commitLoaded_inputs (k : Bank) (l : List (RegNum × Word)) (s : State) : (commitLoaded k l s).inputs = s.inputs := by
  induction l generalizing s with
  | nil => rfl
  | cons x rest ih => simp [commitLoaded, ih]

@[simp] theorem commitLoaded_policy (k : Bank) (l : List (RegNum × Word)) (s : State) : (commitLoaded k l s).policy = s.policy := by
  induction l generalizing s with
  | nil => rfl
  | cons x rest ih => simp [commitLoaded, ih]

@[simp] theorem commitLoaded_freeCount (k : Bank) (l : List (RegNum × Word)) (s : State) : (commitLoaded k l s).freeCount = s.freeCount := by
  induction l generalizing s with
  | nil => rfl
  | cons x rest ih => simp [commitLoaded, ih]

/-! ### called -/

@[simp] theorem called_regs (q : MemRequest) (s : State) : (called q s).regs = s.regs := rfl

@[simp] theorem called_pc (q : MemRequest) (s : State) : (called q s).pc = s.pc := rfl

@[simp] theorem called_cpsr (q : MemRequest) (s : State) : (called q s).cpsr = s.cpsr := rfl

@[simp] theorem called_spsrs (q : MemRequest) (s : State) : (called q s).spsrs = s.spsrs := rfl

@[simp] theorem called_lastUserBankTransfer (q : MemRequest) (s : State) : (called q s).lastUserBankTransfer = s.lastUserBankTransfer := rfl

@[simp] theorem called_faultMark (q : MemRequest) (s : State) : (called q s).faultMark = s.faultMark := rfl

@[simp] theorem called_refusalMark (q : MemRequest) (s : State) : (called q s).refusalMark = s.refusalMark := rfl

@[simp] theorem called_memory (q : MemRequest) (s : State) : (called q s).memory = s.memory := rfl

@[simp] theorem called_abortMap (q : MemRequest) (s : State) : (called q s).abortMap = s.abortMap := rfl

@[simp] theorem called_bus (q : MemRequest) (s : State) : (called q s).bus = s.bus.after q := rfl

@[simp] theorem called_coproc (q : MemRequest) (s : State) : (called q s).coproc = s.coproc := rfl

@[simp] theorem called_inputs (q : MemRequest) (s : State) : (called q s).inputs = s.inputs := rfl

@[simp] theorem called_policy (q : MemRequest) (s : State) : (called q s).policy = s.policy := rfl

@[simp] theorem called_freeCount (q : MemRequest) (s : State) : (called q s).freeCount = s.freeCount := rfl

/-! ### stored -/

@[simp] theorem stored_regs (q : MemRequest) (s : State) : (stored q s).regs = s.regs := rfl

@[simp] theorem stored_pc (q : MemRequest) (s : State) : (stored q s).pc = s.pc := rfl

@[simp] theorem stored_cpsr (q : MemRequest) (s : State) : (stored q s).cpsr = s.cpsr := rfl

@[simp] theorem stored_spsrs (q : MemRequest) (s : State) : (stored q s).spsrs = s.spsrs := rfl

@[simp] theorem stored_lastUserBankTransfer (q : MemRequest) (s : State) : (stored q s).lastUserBankTransfer = s.lastUserBankTransfer := rfl

@[simp] theorem stored_faultMark (q : MemRequest) (s : State) : (stored q s).faultMark = s.faultMark := rfl

@[simp] theorem stored_refusalMark (q : MemRequest) (s : State) : (stored q s).refusalMark = s.refusalMark := rfl

@[simp] theorem stored_memory (q : MemRequest) (s : State) : (stored q s).memory = written q s := rfl

@[simp] theorem stored_abortMap (q : MemRequest) (s : State) : (stored q s).abortMap = s.abortMap := rfl

@[simp] theorem stored_bus (q : MemRequest) (s : State) : (stored q s).bus = s.bus.after q := rfl

@[simp] theorem stored_coproc (q : MemRequest) (s : State) : (stored q s).coproc = s.coproc := rfl

@[simp] theorem stored_inputs (q : MemRequest) (s : State) : (stored q s).inputs = s.inputs := rfl

@[simp] theorem stored_policy (q : MemRequest) (s : State) : (stored q s).policy = s.policy := rfl

@[simp] theorem stored_freeCount (q : MemRequest) (s : State) : (stored q s).freeCount = s.freeCount := rfl

/-! ### askCoproc -/

@[simp] theorem askCoproc_regs (q : CoprocRequest) (s : State) : (askCoproc q s).2.regs = s.regs := rfl

@[simp] theorem askCoproc_pc (q : CoprocRequest) (s : State) : (askCoproc q s).2.pc = s.pc := rfl

@[simp] theorem askCoproc_cpsr (q : CoprocRequest) (s : State) : (askCoproc q s).2.cpsr = s.cpsr := rfl

@[simp] theorem askCoproc_spsrs (q : CoprocRequest) (s : State) : (askCoproc q s).2.spsrs = s.spsrs := rfl

@[simp] theorem askCoproc_lastUserBankTransfer (q : CoprocRequest) (s : State) : (askCoproc q s).2.lastUserBankTransfer = s.lastUserBankTransfer := rfl

@[simp] theorem askCoproc_faultMark (q : CoprocRequest) (s : State) : (askCoproc q s).2.faultMark = s.faultMark := rfl

@[simp] theorem askCoproc_refusalMark (q : CoprocRequest) (s : State) : (askCoproc q s).2.refusalMark = s.refusalMark := rfl

@[simp] theorem askCoproc_memory (q : CoprocRequest) (s : State) : (askCoproc q s).2.memory = s.memory := rfl

@[simp] theorem askCoproc_abortMap (q : CoprocRequest) (s : State) : (askCoproc q s).2.abortMap = s.abortMap := rfl

@[simp] theorem askCoproc_bus (q : CoprocRequest) (s : State) : (askCoproc q s).2.bus = s.bus := rfl

@[simp] theorem askCoproc_coproc (q : CoprocRequest) (s : State) : (askCoproc q s).2.coproc = s.coproc.after q := rfl

@[simp] theorem askCoproc_inputs (q : CoprocRequest) (s : State) : (askCoproc q s).2.inputs = s.inputs := rfl

@[simp] theorem askCoproc_policy (q : CoprocRequest) (s : State) : (askCoproc q s).2.policy = s.policy := rfl

@[simp] theorem askCoproc_freeCount (q : CoprocRequest) (s : State) : (askCoproc q s).2.freeCount = s.freeCount := rfl

@[simp] theorem askCoproc_answer (q : CoprocRequest) (s : State) : (askCoproc q s).1 = (s.coproc.reply q).1 := rfl

/-! ### callAll: several requests -/

@[simp] theorem callAll_nil (s : State) : callAll [] s = s := rfl

@[simp] theorem callAll_cons (q : MemRequest) (qs : List MemRequest) (s : State) : callAll (q :: qs) s = callAll qs (called q s) := rfl

theorem callAll_append (qs rs : List MemRequest) (s : State) : callAll (qs ++ rs) s = callAll rs (callAll qs s) :=
  List.foldl_append ..

@[simp] theorem callAll_regs (qs : List MemRequest) (s : State) : (callAll qs s).regs = s.regs := by
  induction qs generalizing s with
  | nil => rfl
  | cons q rest ih => exact ih _

@[simp] theorem callAll_pc (qs : List MemRequest) (s : State) : (callAll qs s).pc = s.pc := by
  induction qs generalizing s with
  | nil => rfl
  | cons q rest ih => exact ih _

@[simp] theorem callAll_cpsr (qs : List MemRequest) (s : State) : (callAll qs s).cpsr = s.cpsr := by
  induction qs generalizing s with
  | nil => rfl
  | cons q rest ih => exact ih _

@[simp] theorem callAll_spsrs (qs : List MemRequest) (s : State) : (callAll qs s).spsrs = s.spsrs := by
  induction qs generalizing s with
  | nil => rfl
  | cons q rest ih => exact ih _

@[simp] theorem callAll_lastUserBankTransfer (qs : List MemRequest) (s : State) : (callAll qs s).lastUserBankTransfer = s.lastUserBankTransfer := by
  induction qs generalizing s with
  | nil => rfl
  | cons q rest ih => exact ih _

@[simp] theorem callAll_faultMark (qs : List MemRequest) (s : State) : (callAll qs s).faultMark = s.faultMark := by
  induction qs generalizing s with
  | nil => rfl
  | cons q rest ih => exact ih _

@[simp] theorem callAll_refusalMark (qs : List MemRequest) (s : State) : (callAll qs s).refusalMark = s.refusalMark := by
  induction qs generalizing s with
  | nil => rfl
  | cons q rest ih => exact ih _

@[simp] theorem callAll_memory (qs : List MemRequest) (s : State) : (callAll qs s).memory = s.memory := by
  induction qs generalizing s with
  | nil => rfl
  | cons q rest ih => exact ih _

@[simp] theorem callAll_abortMap (qs : List MemRequest) (s : State) : (callAll qs s).abortMap = s.abortMap := by
  induction qs generalizing s with
  | nil => rfl
  | cons q rest ih => exact ih _

@[simp] theorem callAll_coproc (qs : List MemRequest) (s : State) : (callAll qs s).coproc = s.coproc := by
  induction qs generalizing s with
  | nil => rfl
  | cons q rest ih => exact ih _

@[simp] theorem callAll_inputs (qs : List MemRequest) (s : State) : (callAll qs s).inputs = s.inputs := by
  induction qs generalizing s with
  | nil => rfl
  | cons q rest ih => exact ih _

@[simp] theorem callAll_policy (qs : List MemRequest) (s : State) : (callAll qs s).policy = s.policy := by
  induction qs generalizing s with
  | nil => rfl
  | cons q rest ih => exact ih _

@[simp] theorem callAll_freeCount (qs : List MemRequest) (s : State) : (callAll qs s).freeCount = s.freeCount := by
  induction qs generalizing s with
  | nil => rfl
  | cons q rest ih => exact ih _

/-! ### placeFetchWord -/

@[simp] theorem placeFetchWord_regs (s : State) (w : Word) : (placeFetchWord s w).regs = s.regs := rfl

@[simp] theorem placeFetchWord_pc (s : State) (w : Word) : (placeFetchWord s w).pc = s.pc := rfl

@[simp] theorem placeFetchWord_cpsr (s : State) (w : Word) : (placeFetchWord s w).cpsr = s.cpsr := rfl

@[simp] theorem placeFetchWord_spsrs (s : State) (w : Word) : (placeFetchWord s w).spsrs = s.spsrs := rfl

@[simp] theorem placeFetchWord_lastUserBankTransfer (s : State) (w : Word) : (placeFetchWord s w).lastUserBankTransfer = s.lastUserBankTransfer := rfl

@[simp] theorem placeFetchWord_faultMark (s : State) (w : Word) : (placeFetchWord s w).faultMark = s.faultMark := rfl

@[simp] theorem placeFetchWord_refusalMark (s : State) (w : Word) : (placeFetchWord s w).refusalMark = s.refusalMark := rfl

@[simp] theorem placeFetchWord_memory (s : State) (w : Word) : (placeFetchWord s w).memory = s.memory.writeWord (alignWord s.pc) w := rfl

@[simp] theorem placeFetchWord_abortMap (s : State) (w : Word) : (placeFetchWord s w).abortMap = s.abortMap := rfl

@[simp] theorem placeFetchWord_bus (s : State) (w : Word) : (placeFetchWord s w).bus = s.bus := rfl

@[simp] theorem placeFetchWord_coproc (s : State) (w : Word) : (placeFetchWord s w).coproc = s.coproc := rfl

@[simp] theorem placeFetchWord_inputs (s : State) (w : Word) : (placeFetchWord s w).inputs = s.inputs := rfl

@[simp] theorem placeFetchWord_policy (s : State) (w : Word) : (placeFetchWord s w).policy = s.policy := rfl

@[simp] theorem placeFetchWord_freeCount (s : State) (w : Word) : (placeFetchWord s w).freeCount = s.freeCount := rfl

end Sys2Proof.Machine
end

