-- ==== Sys2Proof/Laws/Registers.lean ====
section
/-! SUPPORT. Reading and writing the general and the saved status registers. -/

namespace Sys2Proof.Machine

@[simp] theorem Banked.get_set_same (b : Banked) (k : Bank) (v : Word) : (b.set k v).get k = v := by
  cases k <;> rfl

theorem Banked.get_set_ne (b : Banked) {j k : Bank} (v : Word) (h : j ≠ k) : (b.set k v).get j = b.get j := by
  cases j <;> cases k <;> first | rfl | exact absurd rfl h

@[simp] theorem RegFile.read_write_same (r : RegFile) (p : PhysReg) (v : Word) : (r.write p v).read p = v := by
  cases p <;> simp [RegFile.read, RegFile.write]

theorem RegFile.read_write_ne (r : RegFile) {p q : PhysReg} (v : Word) (h : q ≠ p) :
    (r.write p v).read q = r.read q := by
  cases p <;> cases q <;> simp only [RegFile.read, RegFile.write]
  case low.low n m => exact Vector.getElem_set_ne _ _ (fun e => h (by rw [Fin.ext e]))
  case mid.mid n m => exact Vector.getElem_set_ne _ _ (fun e => h (by rw [Fin.ext e]))
  case midFiq.midFiq n m => exact Vector.getElem_set_ne _ _ (fun e => h (by rw [Fin.ext e]))
  case r13.r13 j k => exact Banked.get_set_ne _ _ (fun e => h (by rw [e]))
  case r14.r14 j k => exact Banked.get_set_ne _ _ (fun e => h (by rw [e]))

/-- Register files that read the same are the same. -/
theorem RegFile.ext_read {r r' : RegFile} (h : ∀ p, r.read p = r'.read p) : r = r' := by
  have hl : r.low = r'.low := Vector.ext fun i hi => by simpa [RegFile.read] using h (.low ⟨i, hi⟩)
  have hm : r.mid = r'.mid := Vector.ext fun i hi => by simpa [RegFile.read] using h (.mid ⟨i, hi⟩)
  have hf : r.midFiq = r'.midFiq := Vector.ext fun i hi => by simpa [RegFile.read] using h (.midFiq ⟨i, hi⟩)
  have h13 : r.r13 = r'.r13 := by
    have := fun k => h (.r13 k)
    simp only [RegFile.read] at this
    have a := this .usr; have b := this .fiq; have c := this .irq
    have d := this .svc; have e := this .abt; have f := this .und
    simp only [Banked.get] at a b c d e f
    cases hr : r.r13; cases hr' : r'.r13; simp_all
  have h14 : r.r14 = r'.r14 := by
    have := fun k => h (.r14 k)
    simp only [RegFile.read] at this
    have a := this .usr; have b := this .fiq; have c := this .irq
    have d := this .svc; have e := this .abt; have f := this .und
    simp only [Banked.get] at a b c d e f
    cases hr : r.r14; cases hr' : r'.r14; simp_all
  cases r; cases r'; simp_all

/-- The bank map names r15 nothing (R35). -/
@[simp] theorem bankReg_pc (k : Bank) : bankReg k 15 = none := by cases k <;> rfl

theorem bankReg_isSome (k : Bank) (n : RegNum) (h : n ≠ 15) : ∃ p, bankReg k n = some p := by
  have : n.val ≠ 15 := fun e => h (Fin.ext e)
  unfold bankReg
  repeat' split
  all_goals first | exact ⟨_, rfl⟩ | omega

/-- Two registers of one bank are one physical register only if they are the same (R35). -/
theorem bankReg_injective (k : Bank) {m n : RegNum} (hn : n ≠ 15) (h : bankReg k m = bankReg k n) : m = n := by
  have : n.val ≠ 15 := fun e => hn (Fin.ext e)
  apply Fin.ext
  unfold bankReg at h
  split at h <;> split at h <;> (repeat' split at h) <;> first | omega | (simp at h; try omega)

@[simp] theorem readRegIn_pc (k : Bank) (s : State) : readRegIn k 15 s = s.pc + 8#32 := by
  simp [readRegIn, Config.pcReadOffset]

@[simp] theorem readReg_pc (s : State) : readReg 15 s = s.pc + 8#32 := by simp [readReg]

/-- What a register write does to the register file. -/
theorem writeRegIn_regs {k : Bank} {n : RegNum} {p : PhysReg} (h : bankReg k n = some p) (v : Word) (s : State) :
    (writeRegIn k n v s).regs = s.regs.write p v := by
  simp [writeRegIn, h]

theorem readRegIn_writeRegIn_same (k : Bank) (n : RegNum) (hn : n ≠ 15) (v : Word) (s : State) :
    readRegIn k n (writeRegIn k n v s) = v := by
  obtain ⟨p, hp⟩ := bankReg_isSome k n hn
  simp [readRegIn, writeRegIn, hp]

theorem readRegIn_writeRegIn_ne (k : Bank) {m n : RegNum} (h : m ≠ n) (v : Word) (s : State) :
    readRegIn k m (writeRegIn k n v s) = readRegIn k m s := by
  by_cases hn : n = 15
  · subst hn; simp [writeRegIn]
  · obtain ⟨p, hp⟩ := bankReg_isSome k n hn
    cases hm : bankReg k m with
    | none => simp [readRegIn, hm]
    | some q =>
      have hq : q ≠ p := fun e => h (bankReg_injective k hn (by rw [hm, hp, e]))
      simp [readRegIn, writeRegIn, hm, hp, RegFile.read_write_ne _ _ hq]

/-- A write of a register changes that physical register alone. -/
theorem writeRegIn_other (k : Bank) (n : RegNum) (v : Word) (s : State) (q : PhysReg) (h : bankReg k n ≠ some q) :
    (writeRegIn k n v s).regs.read q = s.regs.read q := by
  unfold writeRegIn
  cases hp : bankReg k n with
  | none => rfl
  | some p => exact RegFile.read_write_ne _ _ (fun e => h (by rw [hp, e]))

theorem readReg_writeReg_same (n : RegNum) (hn : n ≠ 15) (v : Word) (s : State) :
    readReg n (writeReg n v s) = v := by
  simp [readReg]; exact readRegIn_writeRegIn_same _ n hn v s

theorem readReg_writeReg_ne {m n : RegNum} (h : m ≠ n) (v : Word) (s : State) :
    readReg m (writeReg n v s) = readReg m s := by
  simp [readReg]; exact readRegIn_writeRegIn_ne _ h v s

theorem writeReg_other (n : RegNum) (v : Word) (s : State) (q : PhysReg)
    (h : bankReg (currentBank s.cpsr) n ≠ some q) : (writeReg n v s).regs.read q = s.regs.read q :=
  writeRegIn_other _ n v s q h

/-! ### Saved status registers -/

@[simp] theorem SpsrFile.get_usr (f : SpsrFile) : f.get .usr = none := rfl

theorem SpsrFile.get_set_same (f : SpsrFile) {k : Bank} (h : k ≠ .usr) (p : Psr) : (f.set k p).get k = some p := by
  cases k <;> first | rfl | exact absurd rfl h

theorem SpsrFile.get_set_ne (f : SpsrFile) {j k : Bank} (h : j ≠ k) (p : Psr) : (f.set k p).get j = f.get j := by
  cases j <;> cases k <;> first | rfl | exact absurd rfl h

/-- A bank has an SPSR unless it is the User bank (R40). -/
theorem SpsrFile.get_isNone_iff (f : SpsrFile) (k : Bank) : (f.get k).isNone = true ↔ k = .usr := by
  cases k <;> simp [SpsrFile.get]

theorem currentSpsr_isNone_iff (s : State) : (currentSpsr s).isNone = true ↔ currentBank s.cpsr = .usr :=
  SpsrFile.get_isNone_iff _ _

/-! ### Modes -/

@[simp] theorem Mode.ofBits?_bits (m : Mode) : Mode.ofBits? m.bits = some m := by cases m <;> rfl

@[simp] theorem legalMode_bits (m : Mode) : legalMode m.bits = true := by cases m <;> rfl

/-- Exception entry reaches a mode with an SPSR of its own (R400). -/
theorem Exc.bank_ne_usr (e : Exc) : e.mode.bank ≠ .usr := by cases e <;> decide

theorem currentBank_of_bits (p : Psr) (m : Mode) (h : p.m = m.bits) : currentBank p = m.bank := by
  simp [currentBank, h]

/-- Changing flags and masks does not change the bank. -/
theorem currentBank_congr {p q : Psr} (h : q.m = p.m) : currentBank q = currentBank p := by simp [currentBank, h]

/-! ### Status words (R42, R51) -/

theorem Psr.ofWord_toWord (p : Psr) : Psr.ofWord p.toWord = p := by
  have hm : p.toWord.extractLsb' 0 5 = p.m := by
    apply BitVec.eq_of_getLsbD_eq
    intro i hi
    simp only [Psr.toWord, BitVec.getLsbD_extractLsb', BitVec.getLsbD_append, hi, decide_true, Nat.zero_add, if_true,
      Bool.true_and]
  simp only [Psr.ofWord, hm]
  simp only [Psr.toWord, BitVec.getLsbD_append, BitVec.getLsbD_ofBool]
  simp

end Sys2Proof.Machine
end

