-- ==== Sys2Proof/Laws/Gate.lean ====
section
/-! SUPPORT. exec through the gate: every instruction is its body behind the one check of Machine/Gate.lean, and the
four ways through it. -/

namespace Sys2Proof.Machine

/-! ### What an instruction reads is not the hazard tracker -/

@[simp] theorem readRegIn_clearTracker (k : Bank) (n : RegNum) (s : State) :
    readRegIn k n (clearTracker s) = readRegIn k n s := rfl

@[simp] theorem readReg_clearTracker (n : RegNum) (s : State) : readReg n (clearTracker s) = readReg n s := rfl

@[simp] theorem storedRegIn_clearTracker (k : Bank) (n : RegNum) (s : State) :
    storedRegIn k n (clearTracker s) = storedRegIn k n s := rfl

@[simp] theorem storedReg_clearTracker (n : RegNum) (s : State) : storedReg n (clearTracker s) = storedReg n s := rfl

@[simp] theorem currentSpsr_clearTracker (s : State) : currentSpsr (clearTracker s) = currentSpsr s := rfl

@[simp] theorem operand2_clearTracker (o : Operand2) (s : State) : operand2 o (clearTracker s) = operand2 o s := by
  cases o <;> rfl

@[simp] theorem psrSource_clearTracker (o : PsrSource) (s : State) : psrSource o (clearTracker s) = psrSource o s := by
  cases o <;> rfl

@[simp] theorem singleOffset_clearTracker (o : Offset) (s : State) :
    singleOffset o (clearTracker s) = singleOffset o s := by
  cases o <;> rfl

@[simp] theorem halfOffset_clearTracker (o : HalfOffset) (s : State) :
    halfOffset o (clearTracker s) = halfOffset o s := by
  cases o <;> rfl

@[simp] theorem aluResult_clearTracker (op : AluOp) (rn : RegNum) (o : Operand2) (s : State) :
    aluResult op rn o (clearTracker s) = aluResult op rn o s := by
  simp [aluResult]

@[simp] theorem indexedBase_clearTracker (u : Bool) (rn : RegNum) (off : Word) (s : State) :
    indexedBase u rn off (clearTracker s) = indexedBase u rn off s := rfl

@[simp] theorem transferAddress_clearTracker (p u : Bool) (rn : RegNum) (off : Word) (s : State) :
    transferAddress p u rn off (clearTracker s) = transferAddress p u rn off s := rfl

@[simp] theorem blockStart_clearTracker (p u : Bool) (rn : RegNum) (list : BitVec 16) (s : State) :
    blockStart p u rn list (clearTracker s) = blockStart p u rn list s := rfl

@[simp] theorem blockFinal_clearTracker (u : Bool) (rn : RegNum) (list : BitVec 16) (s : State) :
    blockFinal u rn list (clearTracker s) = blockFinal u rn list s := rfl

@[simp] theorem byteAborts_clearTracker (s : State) (k : AccessKind) (a : Word) :
    byteAborts (clearTracker s) k a = byteAborts s k a := rfl

@[simp] theorem memAborts_clearTracker (q : MemRequest) (s : State) : memAborts q (clearTracker s) = memAborts q s := rfl

@[simp] theorem byteAt_clearTracker (a : Word) (s : State) : byteAt a (clearTracker s) = byteAt a s := rfl

@[simp] theorem halfAt_clearTracker (a : Word) (s : State) : halfAt a (clearTracker s) = halfAt a s := rfl

@[simp] theorem wordAt_clearTracker (a : Word) (s : State) : wordAt a (clearTracker s) = wordAt a s := rfl

@[simp] theorem written_clearTracker (q : MemRequest) (s : State) : written q (clearTracker s) = written q s := rfl

@[simp] theorem blockSlot_clearTracker (p u : Bool) (rn : RegNum) (list : BitVec 16) (r : RegNum) (s : State) :
    blockSlot p u rn list r (clearTracker s) = blockSlot p u rn list r s := rfl

theorem callAll_clearTracker (qs : List MemRequest) (s : State) :
    callAll qs (clearTracker s) = clearTracker (callAll qs s) := by
  induction qs generalizing s with
  | nil => rfl
  | cons q rest ih => exact ih (called q s)

/-! ### The refusals do not read it either -/

theorem stateRefusal_clearTracker (i : Instr) (s : State) : stateRefusal i (clearTracker s) = stateRefusal i s := by
  cases i <;> simp [stateRefusal, dataProcStateRule, psrWriteRule, blockStateRule, restoreRule, halfMisalignRefusal,
    bxRule]

theorem wfRefusal_clearTracker (i : Instr) (s : State) : wfRefusal i (clearTracker s) = wfRefusal i s := by
  simp [wfRefusal, stateRefusal_clearTracker]

/-! ### The body of each instruction -/

/-- What each instruction does once it executes. -/
def execBody : Instr → State → Result
  | .and _ sf rn rd op2 => dataProc .and sf rn rd op2
  | .eor _ sf rn rd op2 => dataProc .eor sf rn rd op2
  | .sub _ sf rn rd op2 => dataProc .sub sf rn rd op2
  | .rsb _ sf rn rd op2 => dataProc .rsb sf rn rd op2
  | .add _ sf rn rd op2 => dataProc .add sf rn rd op2
  | .adc _ sf rn rd op2 => dataProc .adc sf rn rd op2
  | .sbc _ sf rn rd op2 => dataProc .sbc sf rn rd op2
  | .rsc _ sf rn rd op2 => dataProc .rsc sf rn rd op2
  | .tst _ sf rn rd op2 => dataProc .tst sf rn rd op2
  | .teq _ sf rn rd op2 => dataProc .teq sf rn rd op2
  | .cmp _ sf rn rd op2 => dataProc .cmp sf rn rd op2
  | .cmn _ sf rn rd op2 => dataProc .cmn sf rn rd op2
  | .orr _ sf rn rd op2 => dataProc .orr sf rn rd op2
  | .mov _ sf rn rd op2 => dataProc .mov sf rn rd op2
  | .bic _ sf rn rd op2 => dataProc .bic sf rn rd op2
  | .mvn _ sf rn rd op2 => dataProc .mvn sf rn rd op2
  | .mrs _ ps rd => mrsBody ps rd
  | .msrReg _ pd rm => fun s => psrWrite pd true true (readReg rm s) s
  | .msrFlg _ pd src => fun s => psrWrite pd true false (psrSource src s) s
  | .msrGen _ pd mask src => fun s => psrWrite pd (mask.getLsbD 3) (mask.getLsbD 0) (psrSource src s) s
  | .mul _ sf rd _ rs rm => fun s => commitProduct sf rd (product32 rs rm 0#32 s) s
  | .mla _ sf rd rn rs rm => fun s => commitProduct sf rd (product32 rs rm (readReg rn s) s) s
  | .umull _ sf hi lo rs rm => fun s => commitLongProduct sf hi lo (unsignedProduct64 rs rm 0#64 s) s
  | .umlal _ sf hi lo rs rm => fun s => commitLongProduct sf hi lo (unsignedProduct64 rs rm (accumulator64 hi lo s) s) s
  | .smull _ sf hi lo rs rm => fun s => commitLongProduct sf hi lo (signedProduct64 rs rm 0#64 s) s
  | .smlal _ sf hi lo rs rm => fun s => commitLongProduct sf hi lo (signedProduct64 rs rm (accumulator64 hi lo s) s) s
  | .swp _ _ rn rd rm => swpBody rn rd rm
  | .swpb _ _ rn rd rm => swpbBody rn rd rm
  | .bx _ rm => bxBody rm
  | .ldrh _ p u w rn rd off => loadHalfBody (·.setWidth 32) p u w rn rd off
  | .strh _ p u w rn rd off => strhBody p u w rn rd off
  | .ldrsb _ p u w rn rd off => ldrsbBody p u w rn rd off
  | .ldrsh _ p u w rn rd off => loadHalfBody (·.signExtend 32) p u w rn rd off
  | .undefStoreSigned .. | .undefHalfZero .. | .undefTrap .. => undefinedBody
  | .ldrPre _ u w rn rd off => ldrBody true u w rn rd off
  | .ldrPost _ u rn rd off | .ldrt _ u rn rd off => ldrBody false u true rn rd off
  | .strPre _ u w rn rd off => strBody true u w rn rd off
  | .strPost _ u rn rd off | .strt _ u rn rd off => strBody false u true rn rd off
  | .ldrbPre _ u w rn rd off => ldrbBody true u w rn rd off
  | .ldrbPost _ u rn rd off | .ldrbt _ u rn rd off => ldrbBody false u true rn rd off
  | .strbPre _ u w rn rd off => strbBody true u w rn rd off
  | .strbPost _ u rn rd off | .strbt _ u rn rd off => strbBody false u true rn rd off
  | .ldm _ p u sb w rn list => ldmBody p u sb w rn list
  | .stm _ p u sb w rn list => stmBody p u sb w rn list
  | .b _ offset24 => fun s => .next (branchTo (branchTarget offset24 s) s)
  | .bl _ offset24 => fun s => .next (branchTo (branchTarget offset24 s) (writeReg 14 (s.pc + 4#32) s))
  | .ldc _ p u n w rn crd cp offset8 => ldcBody p u n w rn crd cp offset8
  | .stc _ p u n w rn crd cp offset8 => stcBody p u n w rn crd cp offset8
  | .swi _ _ => fun s => .next (takeException .softwareInterrupt s)
  | .cdp _ op1 crn crd cp op2 crm => cdpBody op1 crn crd cp op2 crm
  | .mcr _ op1 crn rd cp op2 crm => mcrBody op1 crn rd cp op2 crm
  | .mrc _ op1 crn rd cp op2 crm => mrcBody op1 crn rd cp op2 crm

/-- exec is the gate before the body, for every instruction. -/
theorem exec_eq_gate (i : Instr) (s : State) : exec i s = gate i (execBody i) s := by cases i <;> rfl

/-! ### The ways through the gate -/

theorem gate_executes {i : Instr} {s : State} (h : Executes i s) (f : State → Result) :
    gate i f s = f (clearTracker s) := by
  simp [gate, h.wellFormed, h.condition, h.noHazard]

theorem gate_refuses {i : Instr} {s : State} {r : Refusal} (h : wfRefusal i s = some r) (f : State → Result) :
    gate i f s = .refused r := by
  simp [gate, h]

theorem gate_skips {i : Instr} {s : State} (hw : wfRefusal i s = none)
    (hc : conditionPassed i.cond s.cpsr = false) (f : State → Result) : gate i f s = .next (skip s) := by
  simp [gate, hw, hc]

theorem gate_hazard {i : Instr} {s : State} (hw : wfRefusal i s = none)
    (hc : conditionPassed i.cond s.cpsr = true) (hb : bankedHazard i s = true) (f : State → Result) :
    gate i f s = .fault .bankedAfterUserTransfer := by
  simp [gate, hw, hc, hb]

/-- A next state comes from a failed condition or from the body. -/
theorem gate_next {i : Instr} {f : State → Result} {s t : State} (h : gate i f s = .next t) :
    (wfRefusal i s = none ∧ conditionPassed i.cond s.cpsr = false ∧ t = skip s) ∨
      (Executes i s ∧ f (clearTracker s) = .next t) := by
  unfold gate at h
  split at h
  · cases h
  · rename_i hw
    split at h
    · rename_i hc
      split at h
      · cases h
      · rename_i hb
        exact .inr ⟨⟨hw, hc, by simpa using hb⟩, h⟩
    · rename_i hc
      injection h with h
      exact .inl ⟨hw, by simpa using hc, h.symm⟩

theorem exec_executes {i : Instr} {s : State} (h : Executes i s) : exec i s = execBody i (clearTracker s) := by
  rw [exec_eq_gate, gate_executes h]

theorem exec_next {i : Instr} {s t : State} (h : exec i s = .next t) :
    (wfRefusal i s = none ∧ conditionPassed i.cond s.cpsr = false ∧ t = skip s) ∨
      (Executes i s ∧ execBody i (clearTracker s) = .next t) :=
  gate_next (exec_eq_gate i s ▸ h)

end Sys2Proof.Machine
end

