-- ==== Sys2Proof/Laws/Checks.lean ====
section
/-! SUPPORT. The well-formedness check as conditions, and the register list of the block transfers. -/

namespace Sys2Proof

@[simp] theorem firstRule_nil : firstRule [] = none := rfl

@[simp] theorem firstRule_cons (b : Bool) (r : UnpRule) (rest : List (Bool × UnpRule)) :
    firstRule ((b, r) :: rest) = if b then some r else firstRule rest := by cases b <;> rfl

/-- Conditions that all name one rule: that rule when one of them holds, no refusal when none does. -/
theorem firstRule_one {r : UnpRule} : ∀ (l : List (Bool × UnpRule)), (∀ x ∈ l, x.2 = r) →
    (firstRule l = some r ↔ ∃ x ∈ l, x.1 = true) ∧ (firstRule l = none ↔ ∀ x ∈ l, x.1 = false)
  | [], _ => by simp
  | (b, q) :: rest, h => by
    have hq : q = r := h (b, q) (List.mem_cons_self ..)
    have ih := firstRule_one rest fun x hx => h x (List.mem_cons_of_mem _ hx)
    subst hq
    cases b
    · simpa only [firstRule, List.exists_mem_cons_iff, List.forall_mem_cons, Bool.false_eq_true, false_or, true_and]
        using ih
    · simp [firstRule]

/-- R271 as one condition. -/
theorem singleRule_iff (byte wb : Bool) (rn rd : RegNum) (off : Offset) :
    let bad := (byte = true ∧ rd = 15) ∨ (wb = true ∧ (rn = 15 ∨ rn = rd)) ∨
      ∃ m ty n, off = .reg m ty n ∧ (m = 15 ∨ (wb = true ∧ m = rn))
    (bad → singleRule byte wb rn rd off = some .r271) ∧ (¬ bad → singleRule byte wb rn rd off = none) := by
  intro bad
  cases off with
  | imm offset =>
    have h := firstRule_one (r := .r271) [(byte && rd == 15, .r271), (wb && (rn == 15 || rn == rd), .r271)] (by simp)
    exact ⟨fun hb => h.1.2 (by simpa [bad] using hb), fun hb => h.2.2 (by simp [bad] at hb; simp; tauto)⟩
  | reg rm ty amount =>
    have h := firstRule_one (r := .r271) [(byte && rd == 15, .r271), (wb && (rn == 15 || rn == rd), .r271),
      (rm == 15, .r271), (wb && rm == rn, .r271)] (by simp)
    exact ⟨fun hb => h.1.2 (by simp [bad] at hb; simp; tauto), fun hb => h.2.2 (by simp [bad] at hb; simp; tauto)⟩

/-- R277 as one condition. -/
theorem halfRule_iff (p w : Bool) (rn rd : RegNum) (off : HalfOffset) :
    let wb := p = false ∨ w = true
    let bad := rd = 15 ∨ (wb ∧ (rn = 15 ∨ rn = rd)) ∨ (p = false ∧ w = true) ∨
      ∃ y m, off = .reg y m ∧ (m = 15 ∨ y ≠ 0#4 ∨ (wb ∧ m = rn))
    (bad → halfRule p w rn rd off = some .r277) ∧ (¬ bad → halfRule p w rn rd off = none) := by
  intro wb bad
  cases off with
  | imm offset =>
    have h := firstRule_one (r := .r277) [(rd == 15, .r277), ((!p || w) && (rn == 15 || rn == rd), .r277),
      (!p && w, .r277)] (by simp)
    exact ⟨fun hb => h.1.2 (by simp [bad, wb] at hb; simp; tauto),
      fun hb => h.2.2 (by simp [bad, wb] at hb; simp; tauto)⟩
  | reg sbz rm =>
    have h := firstRule_one (r := .r277) [(rd == 15, .r277), ((!p || w) && (rn == 15 || rn == rd), .r277),
      (!p && w, .r277), (rm == 15, .r277), (sbz != 0, .r277), ((!p || w) && rm == rn, .r277)] (by simp)
    exact ⟨fun hb => h.1.2 (by simp [bad, wb] at hb; simp; tauto),
      fun hb => h.2.2 (by simp [bad, wb] at hb; simp; tauto)⟩

/-! ### The register list -/

theorem mem_allRegs (n : RegNum) : n ∈ allRegs := by revert n; decide

theorem mem_regList (list : BitVec 16) (n : RegNum) : n ∈ regList list ↔ inList list n = true := by
  simp [regList, mem_allRegs]

/-- The register list rises strictly (R301). -/
theorem regList_sorted (list : BitVec 16) : (regList list).Pairwise (· < ·) :=
  List.Pairwise.sublist List.filter_sublist (by decide : allRegs.Pairwise (· < ·))

theorem regList_nodup (list : BitVec 16) : (regList list).Nodup :=
  (regList_sorted list).imp fun h => ne_of_lt h

theorem below_bit (n i : RegNum) : ((1#16 <<< n.val) - 1#16).getLsbD i.val = decide (i < n) := by
  revert n i; decide

theorem listedBelow_iff (list : BitVec 16) (n : RegNum) :
    listedBelow list n = true ↔ ∃ q : RegNum, q < n ∧ inList list q = true := by
  unfold listedBelow inList
  rw [bne_iff_ne]
  constructor
  · intro h
    by_contra hn
    refine h (BitVec.eq_of_getLsbD_eq fun i hi => ?_)
    have hb := below_bit n ⟨i, hi⟩
    have hq := not_exists.1 hn ⟨i, hi⟩
    simp only [BitVec.getLsbD_and, BitVec.getLsbD_zero, Bool.and_eq_false_iff]
    by_cases hlt : (⟨i, hi⟩ : RegNum) < n
    · exact .inl (by simpa [hlt] using hq)
    · exact .inr (by simpa [hlt] using hb)
  · rintro ⟨q, hq, hl⟩ h
    have := congrArg (fun v => v.getLsbD q.val) h
    simp only [BitVec.getLsbD_and, hl, below_bit, hq, decide_true, Bool.and_self, BitVec.getLsbD_zero] at this
    cases this

end Sys2Proof

namespace Sys2Proof.Machine

theorem wfRefusal_static {i : Instr} {r : UnpRule} (h : i.staticRule = some r) (s : State) :
    wfRefusal i s = some (.unpredictable r) := by simp [wfRefusal, h]

theorem wfRefusal_state {i : Instr} (h : i.staticRule = none) (s : State) : wfRefusal i s = stateRefusal i s := by
  simp [wfRefusal, h]

theorem exec_refused {i : Instr} {s : State} {r : Refusal} (h : wfRefusal i s = some r) : exec i s = .refused r := by
  rw [exec_eq_gate, gate_refuses h]

/-- What a well-formedness check that ends in no refusal says of the two parts. -/
theorem wfRefusal_eq_none {i : Instr} {s : State} :
    wfRefusal i s = none ↔ i.staticRule = none ∧ stateRefusal i s = none := by
  unfold wfRefusal
  split <;> simp_all

end Sys2Proof.Machine
end

