-- ==== Sys2Proof/Laws/Memory.lean ====
section
/-! SUPPORT. Memory: the canonical form is kept, a read after a write to the same place gives the value written, and
a write leaves every other place alone. -/

namespace Sys2Proof.Machine

/-! ### The list of bytes -/

theorem readCells_writeCells_ne (l : List Host.Cell) {a b : Nat} (v : Byte) (h : b ≠ a) :
    readCells (writeCells l a v) b = readCells l b := by
  induction l with
  | nil => by_cases hv : v = Config.unlistedByte <;> simp [writeCells, readCells, hv, Ne.symm h]
  | cons x rest ih =>
    obtain ⟨k, u⟩ := x
    simp only [writeCells]
    split
    · split <;> simp [readCells, Ne.symm h]
    · split
      · subst_vars; split <;> simp [readCells, Ne.symm h]
      · simp [readCells, ih]

theorem cellsWf_mono {lo lo' : Nat} (h : lo' ≤ lo) (l : List Host.Cell) (hl : cellsWf lo l = true) :
    cellsWf lo' l = true := by
  cases l with
  | nil => rfl
  | cons x rest =>
    obtain ⟨k, u⟩ := x
    simp only [cellsWf, Bool.and_eq_true, decide_eq_true_eq] at hl ⊢
    exact ⟨⟨⟨by omega, hl.1.1.2⟩, hl.1.2⟩, hl.2⟩

/-- Below the first listed address of a canonical list every byte is an unlisted one. -/
theorem readCells_below {lo : Nat} (l : List Host.Cell) (hl : cellsWf lo l = true) {a : Nat} (h : a < lo) :
    readCells l a = Config.unlistedByte := by
  induction l generalizing lo with
  | nil => rfl
  | cons x rest ih =>
    obtain ⟨k, u⟩ := x
    simp only [cellsWf, Bool.and_eq_true, decide_eq_true_eq] at hl
    have hk : k ≠ a := by omega
    simp only [readCells, hk, if_false]
    exact ih hl.2 (by omega)

theorem readCells_writeCells_same {lo : Nat} (l : List Host.Cell) (hl : cellsWf lo l = true) (a : Nat) (v : Byte) :
    readCells (writeCells l a v) a = v := by
  induction l generalizing lo with
  | nil => by_cases hv : v = Config.unlistedByte <;> simp [writeCells, readCells, hv]
  | cons x rest ih =>
    obtain ⟨k, u⟩ := x
    have hl' := hl
    simp only [cellsWf, Bool.and_eq_true, decide_eq_true_eq] at hl
    simp only [writeCells]
    split
    · rename_i hak
      split
      · rename_i hv
        rw [hv]
        refine readCells_below (lo := k) _ ?_ hak
        simp only [cellsWf, Bool.and_eq_true, decide_eq_true_eq]
        exact ⟨⟨⟨le_refl _, hl.1.1.2⟩, hl.1.2⟩, hl.2⟩
      · simp [readCells]
    · split
      · rename_i hak
        split
        · rename_i hv
          rw [hv, hak]
          exact readCells_below rest hl.2 (by omega)
        · simp [readCells]
      · rename_i hne
        simp only [readCells, Ne.symm hne, if_false]
        exact ih hl.2

theorem writeCells_wf {lo : Nat} (l : List Host.Cell) (hl : cellsWf lo l = true) {a : Nat} (ha : a < 2 ^ 32)
    (hlo : lo ≤ a) (v : Byte) : cellsWf lo (writeCells l a v) = true := by
  induction l generalizing lo with
  | nil =>
    by_cases hv : v = Config.unlistedByte
    · simp [writeCells, hv, cellsWf]
    · simp [writeCells, hv, cellsWf, hlo]; omega
  | cons x rest ih =>
    obtain ⟨k, u⟩ := x
    have hl' := hl
    simp only [cellsWf, Bool.and_eq_true, decide_eq_true_eq] at hl
    simp only [writeCells]
    split
    · split
      · exact hl'
      · rename_i hak hv
        simp only [cellsWf, Bool.and_eq_true, decide_eq_true_eq]
        exact ⟨⟨⟨hlo, ha⟩, by simpa using hv⟩, ⟨⟨by omega, hl.1.1.2⟩, hl.1.2⟩, hl.2⟩
    · split
      · rename_i hak
        split
        · exact cellsWf_mono (by omega) rest hl.2
        · rename_i hv
          simp only [cellsWf, Bool.and_eq_true, decide_eq_true_eq]
          exact ⟨⟨⟨hlo, ha⟩, by simpa using hv⟩, by rw [hak]; exact hl.2⟩
      · simp only [cellsWf, Bool.and_eq_true, decide_eq_true_eq]
        exact ⟨hl.1, ih hl.2 (by omega)⟩

/-! ### Bytes -/

theorem Memory.writeByte_wf {m : Memory} (h : m.wf = true) (a : Word) (v : Byte) : (m.writeByte a v).wf = true :=
  writeCells_wf _ h a.isLt (Nat.zero_le _) v

theorem Memory.readByte_writeByte_same {m : Memory} (h : m.wf = true) (a : Word) (v : Byte) :
    (m.writeByte a v).readByte a = v :=
  readCells_writeCells_same _ h _ v

theorem Memory.readByte_writeByte_ne (m : Memory) {a b : Word} (h : b ≠ a) (v : Byte) :
    (m.writeByte a v).readByte b = m.readByte b :=
  readCells_writeCells_ne _ _ (fun e => h (BitVec.eq_of_toNat_eq e))

/-! ### Halfwords and words -/

theorem Memory.writeHalf_wf {m : Memory} (h : m.wf = true) (a : Word) (v : BitVec 16) :
    (m.writeHalf a v).wf = true :=
  Memory.writeByte_wf (Memory.writeByte_wf h _ _) _ _

theorem Memory.writeWord_wf {m : Memory} (h : m.wf = true) (a : Word) (v : Word) : (m.writeWord a v).wf = true :=
  Memory.writeByte_wf (Memory.writeByte_wf (Memory.writeByte_wf (Memory.writeByte_wf h _ _) _ _) _ _) _ _

/-- A byte outside the two of a halfword write is unchanged. -/
theorem Memory.readByte_writeHalf_other (m : Memory) (a b : Word) (v : BitVec 16) (h : 2 ≤ (b - a).toNat) :
    (m.writeHalf a v).readByte b = m.readByte b := by
  have h0 : b ≠ a := by rintro rfl; simp at h
  have h1 : b ≠ a + 1#32 := by rintro rfl; simp [add_sub_cancel_left] at h
  simp only [Memory.writeHalf]
  rw [Memory.readByte_writeByte_ne _ h1, Memory.readByte_writeByte_ne _ h0]

/-- A byte outside the four of a word write is unchanged. -/
theorem Memory.readByte_writeWord_other (m : Memory) (a b : Word) (v : Word) (h : 4 ≤ (b - a).toNat) :
    (m.writeWord a v).readByte b = m.readByte b := by
  have h0 : b ≠ a := by rintro rfl; simp at h
  have h1 : b ≠ a + 1#32 := by rintro rfl; simp [add_sub_cancel_left] at h
  have h2 : b ≠ a + 2#32 := by rintro rfl; simp [add_sub_cancel_left] at h
  have h3 : b ≠ a + 3#32 := by rintro rfl; simp [add_sub_cancel_left] at h
  simp only [Memory.writeWord]
  rw [Memory.readByte_writeByte_ne _ h3, Memory.readByte_writeByte_ne _ h2, Memory.readByte_writeByte_ne _ h1,
    Memory.readByte_writeByte_ne _ h0]

theorem add_const_ne (a : Word) {i j : Word} (h : i ≠ j) : a + i ≠ a + j := fun e => h (by
  have := congrArg (· - a) e; simpa [add_sub_cancel_left] using this)

/-- The bytes a word write stores (R71). -/
theorem Memory.readByte_writeWord {m : Memory} (h : m.wf = true) (a v : Word) :
    (m.writeWord a v).readByte a = v.extractLsb' 0 8 ∧
    (m.writeWord a v).readByte (a + 1#32) = v.extractLsb' 8 8 ∧
    (m.writeWord a v).readByte (a + 2#32) = v.extractLsb' 16 8 ∧
    (m.writeWord a v).readByte (a + 3#32) = v.extractLsb' 24 8 := by
  have w0 := Memory.writeByte_wf h a (v.extractLsb' 0 8)
  have w1 := Memory.writeByte_wf w0 (a + 1#32) (v.extractLsb' 8 8)
  have w2 := Memory.writeByte_wf w1 (a + 2#32) (v.extractLsb' 16 8)
  have z : ∀ i : Word, i ≠ 0#32 → a ≠ a + i := fun i hi => by simpa using add_const_ne a (Ne.symm hi)
  simp only [Memory.writeWord]
  refine ⟨?_, ?_, ?_, ?_⟩
  · rw [readByte_writeByte_ne _ (z _ (by decide)), readByte_writeByte_ne _ (z _ (by decide)),
      readByte_writeByte_ne _ (z _ (by decide)), readByte_writeByte_same h]
  · rw [readByte_writeByte_ne _ (add_const_ne a (by decide)), readByte_writeByte_ne _ (add_const_ne a (by decide)),
      readByte_writeByte_same w0]
  · rw [readByte_writeByte_ne _ (add_const_ne a (by decide)), readByte_writeByte_same w1]
  · rw [readByte_writeByte_same w2]

theorem bytes_of_word (v : Word) :
    v.extractLsb' 24 8 ++ v.extractLsb' 16 8 ++ v.extractLsb' 8 8 ++ v.extractLsb' 0 8 = v := by
  apply BitVec.eq_of_getLsbD_eq
  intro i hi
  simp only [BitVec.getLsbD_append, BitVec.getLsbD_extractLsb']
  split
  · simp; omega
  · split
    · have : i - 8 < 8 := by omega
      simp [this, show 8 + (i - 8) = i by omega]
    · split
      · have : i - 8 - 8 < 8 := by omega
        simp [this, show 16 + (i - 8 - 8) = i by omega]
      · have : i - 8 - 8 - 8 < 8 := by omega
        simp [this, show 24 + (i - 8 - 8 - 8) = i by omega]

/-- R71: a word read gives the word last written there. -/
theorem Memory.readWord_writeWord {m : Memory} (h : m.wf = true) (a v : Word) :
    (m.writeWord a v).readWord a = v := by
  obtain ⟨h0, h1, h2, h3⟩ := Memory.readByte_writeWord h a v
  simp only [Memory.readWord, h0, h1, h2, h3, bytes_of_word]

/-- The bytes a halfword write stores (R71). -/
theorem Memory.readByte_writeHalf {m : Memory} (h : m.wf = true) (a : Word) (v : BitVec 16) :
    (m.writeHalf a v).readByte a = v.extractLsb' 0 8 ∧
    (m.writeHalf a v).readByte (a + 1#32) = v.extractLsb' 8 8 := by
  have w0 := Memory.writeByte_wf h a (v.extractLsb' 0 8)
  have z : a ≠ a + 1#32 := by simp
  simp only [Memory.writeHalf]
  exact ⟨by rw [readByte_writeByte_ne _ z, readByte_writeByte_same h], by rw [readByte_writeByte_same w0]⟩

/-- R71: a halfword read gives the halfword last written there. -/
theorem Memory.readHalf_writeHalf {m : Memory} (h : m.wf = true) (a : Word) (v : BitVec 16) :
    (m.writeHalf a v).readHalf a = v := by
  obtain ⟨h0, h1⟩ := Memory.readByte_writeHalf h a v
  simp only [Memory.readHalf, h0, h1]
  apply BitVec.eq_of_getLsbD_eq
  intro i hi
  simp only [BitVec.getLsbD_append, BitVec.getLsbD_extractLsb']
  split
  · simp; omega
  · have : i - 8 < 8 := by omega
    simp [this, show 8 + (i - 8) = i by omega]

/-! ### Writes: everything a store can do -/

theorem Memory.apply_wf {m : Memory} (h : m.wf = true) (q : MemRequest) : (m.apply q).wf = true := by
  cases q with
  | readByte | readHalf | readWord => exact h
  | writeByte a v => exact Memory.writeByte_wf h a v
  | writeHalf a v => exact Memory.writeHalf_wf h a v
  | writeWord a v => exact Memory.writeWord_wf h a v

theorem written_wf {s : State} (h : s.memory.wf = true) (q : MemRequest) : (written q s).wf = true := by
  unfold written
  split
  · exact h
  · exact Memory.apply_wf h q

theorem written_plain {q : MemRequest} {s : State} (h : Plain q s) : written q s = s.memory.apply q := by
  have h : s.bus.reply q = none := h
  simp [written, h]

theorem written_answered {q : MemRequest} {s : State} (h : ¬ Plain q s) : written q s = s.memory := by
  unfold written
  split
  · rfl
  · rename_i hn; exact absurd hn h

/-- Bytes outside a request keep their values. -/
theorem readByte_written_other {q : MemRequest} {s : State} {b : Word} (h : b ∉ q.bytes) :
    (written q s).readByte b = s.memory.readByte b := by
  by_cases hp : Plain q s
  · rw [written_plain hp]
    cases q <;> simp only [MemRequest.bytes, List.mem_cons, List.not_mem_nil, or_false, not_or] at h
    · rfl
    · rfl
    · rfl
    · exact Memory.readByte_writeByte_ne _ h _
    · simp only [Memory.apply, Memory.writeHalf]
      rw [Memory.readByte_writeByte_ne _ h.2, Memory.readByte_writeByte_ne _ h.1]
    · simp only [Memory.apply, Memory.writeWord]
      rw [Memory.readByte_writeByte_ne _ h.2.2.2, Memory.readByte_writeByte_ne _ h.2.2.1,
        Memory.readByte_writeByte_ne _ h.2.1, Memory.readByte_writeByte_ne _ h.1]
  · rw [written_answered hp]

theorem store_hazard {q : MemRequest} {s : State} (h : ∃ a ∈ q.bytes, inPrefetchWindow s.pc a = true) :
    store q s = .hazard s := by
  have h : (q.bytes.any (inPrefetchWindow s.pc)) = true := List.any_eq_true.2 h
  simp only [store, h, if_true]

theorem no_hazard_iff {q : MemRequest} {s : State} : NoHazard q s ↔ (q.bytes.any (inPrefetchWindow s.pc)) = false := by
  simp [NoHazard, List.any_eq_false]

theorem store_aborts {q : MemRequest} {s : State} (h : NoHazard q s) (ha : memAborts q s = true) :
    store q s = .abort (called q s) := by
  simp only [store, no_hazard_iff.1 h, ha, Bool.false_eq_true, if_false, if_true]

theorem store_allowed {q : MemRequest} {s : State} (h : StoreAllowed q s) : store q s = .done (stored q s) := by
  simp only [store, no_hazard_iff.1 h.1, h.2, Bool.false_eq_true, if_false]
  rfl

/-- Everything one write can do. -/
theorem store_cases (q : MemRequest) (s : State) :
    ((∃ a ∈ q.bytes, inPrefetchWindow s.pc a = true) ∧ store q s = .hazard s) ∨
      (NoHazard q s ∧ memAborts q s = true ∧ store q s = .abort (called q s)) ∨
      (StoreAllowed q s ∧ store q s = .done (stored q s)) := by
  by_cases h : NoHazard q s
  · cases ha : memAborts q s with
    | true => exact .inr (.inl ⟨h, rfl, store_aborts h ha⟩)
    | false => exact .inr (.inr ⟨⟨h, ha⟩, store_allowed ⟨h, ha⟩⟩)
  · have h : ∃ a ∈ q.bytes, inPrefetchWindow s.pc a = true := by simpa [NoHazard] using h
    exact .inl ⟨h, store_hazard h⟩

theorem store_done {q : MemRequest} {s t : State} (h : store q s = .done t) : t = stored q s := by
  rcases store_cases q s with ⟨-, e⟩ | ⟨-, -, e⟩ | ⟨-, e⟩ <;> rw [e] at h <;> cases h
  rfl

theorem store_abort {q : MemRequest} {s t : State} (h : store q s = .abort t) : t = called q s := by
  rcases store_cases q s with ⟨-, e⟩ | ⟨-, -, e⟩ | ⟨-, e⟩ <;> rw [e] at h <;> cases h
  rfl

theorem reset_memory_wf : State.reset.memory.wf = true := rfl

end Sys2Proof.Machine
end

