-- ==== Sys2Proof/Laws/Step.lean ====
section
/-! SUPPORT. Everything a step can do before and beside exec (R160). -/

namespace Sys2Proof.Machine

theorem finish_over (r : Result) : (CycleStart.over r).finish = r := rfl

theorem finish_run (i : Instr) (s : State) : (CycleStart.run i s).finish = exec i s := rfl

/-- A step of an unmarked state is its boundary tests, then exec. -/
theorem step_unmarked {s : State} (hf : s.faultMark = none) (hr : s.refusalMark = none) :
    step s = (boundary (currentInputs s) (dropInputs s)).finish := by
  simp [step, beginCycle, hf, hr]

/-- With reset not asserted and no enabled interrupt, the boundary is the fetch. -/
theorem boundary_quiet {inp : HostInputs} {s : State} (hr : inp.reset = false)
    (hf : inp.fiq = false ∨ s.cpsr.f = true) (hi : inp.irq = false ∨ s.cpsr.i = true) :
    boundary inp s = fetchDecode s := by
  unfold boundary
  rcases hf with hf | hf <;> rcases hi with hi | hi <;> simp [hr, hf, hi]

/-- A step of an unmarked state at which no exception is due is the fetch and what follows it. -/
theorem step_quiet {s : State} (hf : s.faultMark = none) (hr : s.refusalMark = none)
    (h0 : (currentInputs s).reset = false) (h1 : (currentInputs s).fiq = false ∨ s.cpsr.f = true)
    (h2 : (currentInputs s).irq = false ∨ s.cpsr.i = true) : step s = (fetchDecode (dropInputs s)).finish := by
  rw [step_unmarked hf hr, boundary_quiet (s := dropInputs s) h0 h1 h2]

/-- The fetch's request (R77). -/
def fetchRequest (s : State) : MemRequest := .readWord (alignWord s.pc)

/-- The ways a step ends in a next state. -/
theorem step_next {s t : State} (h : step s = .next t) :
    s.faultMark = none ∧ s.refusalMark = none ∧
      (((currentInputs s).reset = true ∧ t = performReset (dropInputs s)) ∨
        ((currentInputs s).fiq = true ∧ s.cpsr.f = false ∧ t = takeException .fiq (dropInputs s)) ∨
        ((currentInputs s).irq = true ∧ s.cpsr.i = false ∧ t = takeException .irq (dropInputs s)) ∨
        (s.cpsr.t = false ∧ memAborts (fetchRequest s) s = true ∧
          t = takeException .prefetchAbort (called (fetchRequest s) (dropInputs s))) ∨
        (s.cpsr.t = false ∧ ∃ i, exec i (called (fetchRequest s) (dropInputs s)) = .next t)) := by
  have hf : s.faultMark = none := by
    cases hf : s.faultMark with
    | none => rfl
    | some f => simp [step, CycleStart.finish, beginCycle, hf] at h
  have hr : s.refusalMark = none := by
    cases hr : s.refusalMark with
    | none => rfl
    | some f => simp [step, CycleStart.finish, beginCycle, hf, hr] at h
  refine ⟨hf, hr, ?_⟩
  rw [step_unmarked hf hr] at h
  unfold boundary at h
  split at h
  · rename_i h1
    injection h with h
    exact .inl ⟨h1, h.symm⟩
  · split at h
    · rename_i h2
      injection h with h
      simp only [Bool.and_eq_true, Bool.not_eq_true', dropInputs_cpsr] at h2
      exact .inr (.inl ⟨h2.1, h2.2, h.symm⟩)
    · split at h
      · rename_i h3
        injection h with h
        simp only [Bool.and_eq_true, Bool.not_eq_true', dropInputs_cpsr] at h3
        exact .inr (.inr (.inl ⟨h3.1, h3.2, h.symm⟩))
      · unfold fetchDecode at h
        split at h
        · cases h
        · rename_i h4
          have h4' : s.cpsr.t = false := by simpa using h4
          cases ha : memAborts (fetchRequest s) s with
          | true =>
            have e : fetchWord (dropInputs s) = (none, called (fetchRequest s) (dropInputs s)) := by
              have : memAborts (.readWord (alignWord s.pc)) (dropInputs s) = true := ha
              simp [fetchWord, loadWord, this, fetchRequest]
            rw [e] at h
            injection h with h
            exact .inr (.inr (.inr (.inl ⟨h4', rfl, h.symm⟩)))
          | false =>
            have e : fetchWord (dropInputs s) =
                (some (wordAt (alignWord s.pc) (dropInputs s)), called (fetchRequest s) (dropInputs s)) := by
              have : memAborts (.readWord (alignWord s.pc)) (dropInputs s) = false := ha
              simp [fetchWord, loadWord, this, fetchRequest]
            rw [e] at h
            simp only at h
            split at h
            · cases h
            · exact .inr (.inr (.inr (.inr ⟨h4', _, h⟩)))

/-! ### The word fetched is the bytes at the program counter (R71, R77) -/

/-- The bytes of four bytes put together are those bytes (R71). -/
theorem bytesOfWord_wordOfBytes (b0 b1 b2 b3 : Byte) : bytesOfWord (wordOfBytes b0 b1 b2 b3) = [b0, b1, b2, b3] := by
  have e : ∀ (x : Byte) (y : Byte), x = y → x = y := fun _ _ h => h
  simp only [bytesOfWord, wordOfBytes, field, List.cons.injEq, and_true]
  refine ⟨?_, ?_, ?_, ?_⟩ <;> apply BitVec.eq_of_getLsbD_eq <;> intro i hi <;>
    simp only [BitVec.getLsbD_extractLsb', BitVec.getLsbD_append, hi, decide_true, Bool.true_and]
  · simp [hi]
  · have h1 : ¬ 8 + i < 8 := by omega
    simp [h1, hi]
  · have h1 : ¬ 16 + i < 8 := by omega
    have h2 : ¬ 16 + i - 8 < 8 := by omega
    have h3 : 16 + i - 8 - 8 = i := by omega
    simp [h1, h2, h3, hi]
  · have h1 : ¬ 24 + i < 8 := by omega
    have h2 : ¬ 24 + i - 8 < 8 := by omega
    have h3 : ¬ 24 + i - 8 - 8 < 8 := by omega
    have h4 : 24 + i - 8 - 8 - 8 = i := by omega
    simp [h1, h2, h3, h4]

end Sys2Proof.Machine
end

