-- ==== Sys2Proof/Laws/Transfers.lean ====
section
/-! SUPPORT. Everything a transfer can do: the data abort, the ends of a single load, store and swap, and the word
loops of the block transfers. -/

namespace Sys2Proof.Machine

/-! ### Alignment -/

theorem alignWord_toNat (a : Word) : (alignWord a).toNat = a.toNat / 4 * 4 := by
  have h : alignWord a = (a >>> 2) <<< 2 := by
    unfold alignWord
    apply BitVec.eq_of_getLsbD_eq
    intro i hi
    have key : (0xFFFFFFFC#32).getLsbD i = !decide (i < 2) := by
      have : ∀ j : Fin 32, (0xFFFFFFFC#32).getLsbD j.val = !decide (j.val < 2) := by decide
      exact this ⟨i, hi⟩
    simp only [BitVec.getLsbD_and, key, BitVec.getLsbD_shiftLeft, BitVec.getLsbD_ushiftRight]
    by_cases h2 : i < 2
    · simp [h2]
    · simp [h2, hi, show 2 + (i - 2) = i by omega]
  rw [h]
  have := a.isLt
  simp [Nat.shiftRight_eq_div_pow, Nat.shiftLeft_eq]
  omega

@[simp] theorem alignWord_idem (a : Word) : alignWord (alignWord a) = alignWord a := by
  simp [alignWord, BitVec.and_assoc]

@[simp] theorem alignHalf_idem (a : Word) : alignHalf (alignHalf a) = alignHalf a := by
  simp [alignHalf, BitVec.and_assoc]

theorem alignWord_add (a : Word) (n : Nat) :
    alignWord (a + BitVec.ofNat 32 (4 * n)) = alignWord a + BitVec.ofNat 32 (4 * n) := by
  apply BitVec.eq_of_toNat_eq
  have := a.isLt
  simp only [alignWord_toNat, BitVec.toNat_add, BitVec.toNat_ofNat]
  omega

theorem alignWord_add_four (a : Word) : alignWord (a + 4#32) = alignWord a + 4#32 := alignWord_add a 1

/-! ### Reads: everything a load can do -/

theorem loadByte_answered {a : Word} {s : State} (h : memAborts (.readByte a) s = false) :
    loadByte a s = (some (byteAt a s), called (.readByte a) s) := by simp [loadByte, h]

theorem loadHalf_answered {a : Word} {s : State} (h : memAborts (.readHalf (alignHalf a)) s = false) :
    loadHalf a s = (some (halfAt (alignHalf a) s), called (.readHalf (alignHalf a)) s) := by simp [loadHalf, h]

theorem loadWord_answered {a : Word} {s : State} (h : memAborts (.readWord (alignWord a)) s = false) :
    loadWord a s = (some (wordAt (alignWord a) s), called (.readWord (alignWord a)) s) := by simp [loadWord, h]

theorem loadByte_aborts {a : Word} {s : State} (h : memAborts (.readByte a) s = true) :
    loadByte a s = (none, called (.readByte a) s) := by simp [loadByte, h]

theorem loadHalf_aborts {a : Word} {s : State} (h : memAborts (.readHalf (alignHalf a)) s = true) :
    loadHalf a s = (none, called (.readHalf (alignHalf a)) s) := by simp [loadHalf, h]

theorem loadWord_aborts {a : Word} {s : State} (h : memAborts (.readWord (alignWord a)) s = true) :
    loadWord a s = (none, called (.readWord (alignWord a)) s) := by simp [loadWord, h]

@[simp] theorem loadByte_state (a : Word) (s : State) : (loadByte a s).2 = called (.readByte a) s := rfl

@[simp] theorem loadHalf_state (a : Word) (s : State) : (loadHalf a s).2 = called (.readHalf (alignHalf a)) s := rfl

@[simp] theorem loadWord_state (a : Word) (s : State) : (loadWord a s).2 = called (.readWord (alignWord a)) s := rfl

/-! ### The prefetch window -/

/-- R462, as the addresses pc + 4 to pc + 11. -/
theorem inPrefetchWindow_iff (pc a : Word) :
    inPrefetchWindow pc a = true ↔ ∃ j : Nat, 4 ≤ j ∧ j ≤ 11 ∧ a = pc + BitVec.ofNat 32 j := by
  simp only [inPrefetchWindow, decide_eq_true_eq]
  constructor
  · intro h
    refine ⟨(a - (pc + 4#32)).toNat + 4, by omega, by omega, ?_⟩
    apply BitVec.eq_of_toNat_eq
    have := a.isLt; have := pc.isLt
    simp only [BitVec.toNat_sub, BitVec.toNat_add, BitVec.toNat_ofNat] at *
    omega
  · rintro ⟨j, h4, h11, rfl⟩
    have := pc.isLt
    simp only [BitVec.toNat_sub, BitVec.toNat_add, BitVec.toNat_ofNat]
    omega

/-! ### What an answer depends on -/

theorem memAborts_congr {s t : State} (q : MemRequest) (hb : t.bus = s.bus) (ha : t.abortMap = s.abortMap) :
    memAborts q t = memAborts q s := by
  have : byteAborts t = byteAborts s := by funext k a; simp only [byteAborts, ha]
  simp only [memAborts, hb, this]

theorem wordAt_congr {s t : State} (a : Word) (hb : t.bus = s.bus) (hm : t.memory = s.memory) :
    wordAt a t = wordAt a s := by simp only [wordAt, hb, hm]

theorem storeAllowed_congr {s t : State} {q : MemRequest} (hp : t.pc = s.pc) (hb : t.bus = s.bus)
    (ha : t.abortMap = s.abortMap) : StoreAllowed q t ↔ StoreAllowed q s := by
  simp only [StoreAllowed, NoHazard, hp, memAborts_congr q hb ha]

theorem callAll_congr_bus {s t : State} (qs : List MemRequest) (hb : t.bus = s.bus) :
    (callAll qs t).bus = (callAll qs s).bus := by
  induction qs generalizing s t with
  | nil => exact hb
  | cons q rest ih => exact ih (by simp [hb])

/-! ### Several writes -/

/-- The state after several writes that are done. -/
def storedAll (qs : List MemRequest) (s : State) : State := qs.foldl (fun s q => stored q s) s

theorem storedAll_append (qs rs : List MemRequest) (s : State) : storedAll (qs ++ rs) s = storedAll rs (storedAll qs s) :=
  List.foldl_append ..

theorem callAll_eq (qs : List MemRequest) (s : State) : callAll qs s = { s with bus := (callAll qs s).bus } := by
  induction qs generalizing s with
  | nil => rfl
  | cons q rest ih => exact ih (called q s)

/-- Several writes change the byte array and call the collaborator, and do nothing else. -/
theorem storedAll_eq (qs : List MemRequest) (s : State) :
    storedAll qs s = { s with memory := (storedAll qs s).memory, bus := (callAll qs s).bus } := by
  induction qs generalizing s with
  | nil => rfl
  | cons q rest ih =>
    have h := ih (stored q s)
    rw [callAll_congr_bus (t := stored q s) (s := called q s) rest rfl] at h
    exact h

theorem storedAll_bus (qs : List MemRequest) (s : State) : (storedAll qs s).bus = (callAll qs s).bus := by
  rw [storedAll_eq]

/-- What several writes leave in the byte array depends on nothing but it and the collaborator. -/
theorem storedAll_congr {s t : State} (qs : List MemRequest) (hb : t.bus = s.bus) (hm : t.memory = s.memory) :
    (storedAll qs t).memory = (storedAll qs s).memory := by
  induction qs generalizing s t with
  | nil => exact hm
  | cons q rest ih => exact ih (by simp [hb]) (by simp [written, hb, hm])

/-- What each of several writes is allowed for makes them all (R305). -/
theorem storeAll_done : ∀ (qs : List MemRequest) (s : State),
    (∀ pre q post, qs = pre ++ q :: post → StoreAllowed q (callAll pre s)) → storeAll qs s = .done (storedAll qs s)
  | [], _, _ => rfl
  | q :: rest, s, h => by
    have h0 : StoreAllowed q s := h [] q rest rfl
    simp only [storeAll, store_allowed h0]
    exact storeAll_done rest (stored q s) fun pre q' post e =>
      (storeAllowed_congr (t := callAll pre (stored q s)) (s := callAll pre (called q s)) (by simp) (callAll_congr_bus pre rfl) (by simp)).2
        (h (q :: pre) q' post (by rw [e]; rfl))

/-- Several writes cut in two. -/
theorem storeAll_append (qs rs : List MemRequest) (s : State) : storeAll (qs ++ rs) s =
    match storeAll qs s with
    | .done s' => storeAll rs s'
    | .abort s' => .abort s'
    | .hazard s' => .hazard s' := by
  induction qs generalizing s with
  | nil => rfl
  | cons q rest ih =>
    simp only [List.cons_append, storeAll]
    cases store q s with
    | done s' => exact ih s'
    | abort => rfl
    | hazard => rfl

/-- Where several writes stop, or end, they have changed the byte array and called the collaborator alone, and keep
the byte array canonical. -/
theorem storeAll_frame : ∀ (qs : List MemRequest) (s t : State),
    (storeAll qs s = .done t ∨ storeAll qs s = .abort t) →
      ∃ (m : Memory) (b : Bus), t = { s with memory := m, bus := b } ∧ (s.memory.wf = true → m.wf = true)
  | [], s, t, h => by
    rcases h with h | h
    · cases h; exact ⟨s.memory, s.bus, rfl, id⟩
    · cases h
  | q :: rest, s, t, h => by
    simp only [storeAll] at h
    rcases store_cases q s with ⟨-, e⟩ | ⟨-, -, e⟩ | ⟨-, e⟩ <;> rw [e] at h
    · rcases h with h | h <;> cases h
    · rcases h with h | h
      · cases h
      · cases h; exact ⟨s.memory, _, rfl, id⟩
    · obtain ⟨m, b, rfl, hm⟩ := storeAll_frame rest _ t h
      exact ⟨m, b, rfl, fun hw => hm (written_wf hw q)⟩

/-- Two words of a run of fewer than 2^30 lie apart. -/
theorem slot_apart {p : Word} {i j : Nat} (hi : i < 2 ^ 30) (hj : j < 2 ^ 30) (h : i ≠ j) {k : Nat} (hk : k < 4) :
    4 ≤ (p + BitVec.ofNat 32 (4 * i) + BitVec.ofNat 32 k - (p + BitVec.ofNat 32 (4 * j))).toNat := by
  have := p.isLt
  simp only [BitVec.toNat_sub, BitVec.toNat_add, BitVec.toNat_ofNat]
  omega

theorem Memory.readWord_writeWord_other (m : Memory) (a b v : Word)
    (h : ∀ k < 4, 4 ≤ (b + BitVec.ofNat 32 k - a).toNat) : (m.writeWord a v).readWord b = m.readWord b := by
  have h0 := h 0 (by decide); have h1 := h 1 (by decide); have h2 := h 2 (by decide); have h3 := h 3 (by decide)
  simp only [BitVec.add_zero] at h0
  simp only [Memory.readWord, Memory.readByte_writeWord_other _ _ _ _ h0, Memory.readByte_writeWord_other _ _ _ _ h1,
    Memory.readByte_writeWord_other _ _ _ _ h2, Memory.readByte_writeWord_other _ _ _ _ h3]

/-- Two words lie apart: no byte of the first is one of the second's. -/
def Apart (a b : Word) : Prop := ∀ k < 4, 4 ≤ (a + BitVec.ofNat 32 k - b).toNat

/-- What word writes at slots apart leave in the byte array (R71, R305). -/
theorem storedAll_words {ι : Type} (slot value : ι → Word) (before : ι → State) (s : State) (l : List ι)
    (hp : l.Pairwise fun i j => Apart (slot i) (slot j))
    (hb : ∀ pre i post, l = pre ++ i :: post →
      before i = callAll (pre.map fun i => .writeWord (slot i) (value i)) s) :
    WordsStored (· ∈ l) slot value before s.memory
        (storedAll (l.map fun i => .writeWord (slot i) (value i)) s).memory ∧
      (s.memory.wf = true → (storedAll (l.map fun i => .writeWord (slot i) (value i)) s).memory.wf = true) := by
  induction l using List.reverseRecOn with
  | nil => exact ⟨⟨fun _ _ h => by simp at h, fun _ _ => rfl⟩, id⟩
  | append_singleton l i ih =>
    rw [List.pairwise_append] at hp
    obtain ⟨⟨ih1, ih2⟩, ih3⟩ := ih hp.1 fun pre j post e => hb pre j (post ++ [i]) (by rw [e]; simp)
    have hi := hb l i [] rfl
    rw [List.map_append, List.map_singleton, storedAll_append]
    generalize hs' : storedAll (l.map fun i => .writeWord (slot i) (value i)) s = s' at *
    have hplain : Plain (.writeWord (slot i) (value i)) s' ↔ Plain (.writeWord (slot i) (value i)) (before i) := by
      have : s'.bus = (before i).bus := by rw [← hs', hi]; exact storedAll_bus _ _
      simp only [Plain, this]
    have hm : (storedAll [.writeWord (slot i) (value i)] s').memory = written (.writeWord (slot i) (value i)) s' := rfl
    rw [hm]
    refine ⟨⟨fun hw j hj hjp => ?_, fun a ha => ?_⟩, fun hw => written_wf (ih3 hw) _⟩
    · by_cases hip : Plain (.writeWord (slot i) (value i)) s'
      · rw [written_plain hip]
        rcases List.mem_append.1 hj with hj | hj
        · rw [Memory.apply, Memory.readWord_writeWord_other _ _ _ _ (hp.2.2 j hj i (by simp))]
          exact ih1 hw j hj hjp
        · obtain rfl : j = i := by simpa using hj
          exact Memory.readWord_writeWord (ih3 hw) _ _
      · rw [written_answered hip]
        rcases List.mem_append.1 hj with hj | hj
        · exact ih1 hw j hj hjp
        · obtain rfl : j = i := by simpa using hj
          exact absurd (hplain.2 hjp) hip
    · have ihb := ih2 a fun j hj => ha j (List.mem_append_left _ hj)
      by_cases hip : Plain (.writeWord (slot i) (value i)) s'
      · rw [written_plain hip, ← ihb]
        exact Memory.readByte_writeWord_other _ _ _ _ (ha i (by simp) (hplain.1 hip))
      · rw [written_answered hip, ihb]

/-! ### The base write-back -/

theorem applyWriteBack_other (wb : Option (RegNum × Word)) (s : State) (q : PhysReg)
    (h : ∀ rn v, wb = some (rn, v) → bankReg (currentBank s.cpsr) rn ≠ some q) :
    (applyWriteBack wb s).regs.read q = s.regs.read q := by
  match wb with
  | none => rfl
  | some (rn, v) => exact writeReg_other rn v s q (h rn v rfl)

/-! ### The data abort (R417, R418) -/

/-- Everything a data abort does: the entry of R417 from a state whose registers are the old ones, or the ones with
the base written back. -/
theorem dataAbort_cases (wb : Option (RegNum × Word)) (s : State) :
    ∃ s' : State, (s' = s ∨ ∃ rn v, wb = some (rn, v) ∧ s' = writeReg rn v s) ∧
      dataAbort wb s = takeException .dataAbort { s' with freeCount := s.freeCount + 1 } := by
  match wb with
  | none => exact ⟨s, .inl rfl, rfl⟩
  | some (rn, v) =>
    by_cases h : Config.abortBaseUpdated s.freeCount = true
    · exact ⟨writeReg rn v s, .inr ⟨rn, v, rfl, rfl⟩, by simp [dataAbort, h]⟩
    · exact ⟨s, .inl rfl, by simp [dataAbort, h]⟩

theorem dataAbort_entered (wb : Option (RegNum × Word)) (s : State) :
    Entered .dataAbort s.pc s.cpsr (dataAbort wb s) := by
  obtain ⟨s', hs, h⟩ := dataAbort_cases wb s
  have hpc : s'.pc = s.pc := by rcases hs with rfl | ⟨rn, v, -, rfl⟩ <;> simp
  have hc : s'.cpsr = s.cpsr := by rcases hs with rfl | ⟨rn, v, -, rfl⟩ <;> simp
  rw [h]
  constructor
  · simp [hpc]
  · simp [hc, SpsrFile.get_set_same _ (Exc.bank_ne_usr .dataAbort)]
  · simp [hc]
  · simp
  · simp

/-- What a data abort keeps. -/
theorem dataAbort_keeps (wb : Option (RegNum × Word)) (s : State) :
    (dataAbort wb s).memory = s.memory ∧ (dataAbort wb s).abortMap = s.abortMap ∧
      (dataAbort wb s).bus = s.bus ∧ (dataAbort wb s).coproc = s.coproc ∧ (dataAbort wb s).inputs = s.inputs ∧
      (dataAbort wb s).policy = s.policy ∧ (dataAbort wb s).faultMark = s.faultMark ∧
      (dataAbort wb s).refusalMark = s.refusalMark ∧
      ∀ k : Bank, k ≠ .abt → (dataAbort wb s).spsrs.get k = s.spsrs.get k := by
  obtain ⟨s', hs, h⟩ := dataAbort_cases wb s
  rw [h]
  rcases hs with rfl | ⟨rn, v, -, rfl⟩ <;> refine ⟨?_, ?_, ?_, ?_, ?_, ?_, ?_, ?_, ?_⟩ <;> try simp
  all_goals
    intro k hk
    exact SpsrFile.get_set_ne _ hk _

/-- Every register but R14_abt holds its old value, or is the base and holds the written-back one. -/
theorem dataAbort_regs (wb : Option (RegNum × Word)) (s : State) (q : PhysReg) (hq : q ≠ .r14 .abt) :
    (dataAbort wb s).regs.read q = s.regs.read q ∨
      ∃ rn v, wb = some (rn, v) ∧ bankReg (currentBank s.cpsr) rn = some q ∧ (dataAbort wb s).regs.read q = v := by
  obtain ⟨s', hs, h⟩ := dataAbort_cases wb s
  have e : (dataAbort wb s).regs.read q = s'.regs.read q := by
    rw [h]; simp only [takeException_regs]; exact RegFile.read_write_ne _ _ hq
  rw [e]
  rcases hs with rfl | ⟨rn, v, hw, rfl⟩
  · exact .inl rfl
  · by_cases hb : bankReg (currentBank s.cpsr) rn = some q
    · refine .inr ⟨rn, v, hw, hb, ?_⟩
      rw [writeReg, writeRegIn_regs hb, RegFile.read_write_same]
    · exact .inl (writeReg_other rn v s q hb)

/-! ### The ends of a load, a store and a swap -/

theorem finishLoad_next {value : Option Word} {ad : Addressing} {rd : RegNum} {s t : State}
    (h : finishLoad value ad rd s = .next t) :
    (value = none ∧ t = dataAbort ad.writeBack s) ∨
      ∃ v, value = some v ∧ t = advance (writeReg rd v (applyWriteBack ad.writeBack s)) := by
  cases value with
  | none => exact .inl ⟨rfl, by simpa [finishLoad] using h.symm⟩
  | some v => exact .inr ⟨v, rfl, by simpa [finishLoad] using h.symm⟩

theorem finishLoadWord_next {value : Option Word} {ad : Addressing} {rd : RegNum} {s t : State}
    (h : finishLoadWord value ad rd s = .next t) :
    (value = none ∧ t = dataAbort ad.writeBack s) ∨
      (rd = 15 ∧ ∃ v, value = some v ∧ t = loadWritePC v (applyWriteBack ad.writeBack s)) ∨
      (rd ≠ 15 ∧ ∃ v, value = some v ∧ t = advance (writeReg rd v (applyWriteBack ad.writeBack s))) := by
  cases value with
  | none => exact .inl ⟨rfl, by simpa [finishLoadWord] using h.symm⟩
  | some v =>
    by_cases hd : rd = 15
    · exact .inr (.inl ⟨hd, v, rfl, by simpa [finishLoadWord, hd] using h.symm⟩)
    · exact .inr (.inr ⟨hd, v, rfl, by simpa [finishLoadWord, hd] using h.symm⟩)

theorem finishStore_next {outcome : StoreOutcome} {wb : Option (RegNum × Word)} {t : State}
    (h : finishStore outcome wb = .next t) :
    (∃ s', outcome = .abort s' ∧ t = dataAbort wb s') ∨
      ∃ s', outcome = .done s' ∧ t = advance (applyWriteBack wb s') := by
  cases outcome with
  | done s' => exact .inr ⟨s', rfl, by simpa [finishStore] using h.symm⟩
  | abort s' => exact .inl ⟨s', rfl, by simpa [finishStore] using h.symm⟩
  | hazard => simp [finishStore] at h

theorem finishSwap_next {value : Option Word} {q : MemRequest} {rd : RegNum} {s t : State}
    (h : finishSwap value q rd s = .next t) :
    (value = none ∧ t = dataAbort none s) ∨ (memAborts q s = true ∧ t = dataAbort none (called q s)) ∨
      ∃ v, value = some v ∧ StoreAllowed q s ∧ t = advance (writeReg rd v (stored q s)) := by
  cases value with
  | none => exact .inl ⟨rfl, by simpa [finishSwap] using h.symm⟩
  | some v =>
    rcases store_cases q s with ⟨-, e⟩ | ⟨-, ha, e⟩ | ⟨hs, e⟩ <;> simp only [finishSwap, e] at h <;> cases h
    · exact .inr (.inl ⟨ha, rfl⟩)
    · exact .inr (.inr ⟨v, rfl, hs, rfl⟩)

/-! ### The reads of a block load -/

/-- R304: every read is answered. -/
theorem blockLoad_all (slot : RegNum → Word) (before : RegNum → State) : ∀ (rs : List RegNum) (s : State),
    (∀ pre r post, rs = pre ++ r :: post → before r = callAll (pre.map fun q => .readWord (alignWord (slot q))) s) →
    (∀ r ∈ rs, memAborts (.readWord (alignWord (slot r))) (before r) = false) →
    blockLoad slot rs s =
      { loaded := rs.map fun r => (r, wordAt (alignWord (slot r)) (before r))
        complete := true
        after := callAll (rs.map fun q => .readWord (alignWord (slot q))) s }
  | [], s, _, _ => rfl
  | r :: rest, s, hb, ha => by
    have h0 : before r = s := hb [] r rest rfl
    have ha0 := ha r (List.mem_cons_self ..)
    rw [h0] at ha0
    have ih := blockLoad_all slot before rest (called (.readWord (alignWord (slot r))) s)
      (fun pre q post e => hb (r :: pre) q post (by rw [e]; rfl)) fun q hq => ha q (List.mem_cons_of_mem _ hq)
    simp only [blockLoad, loadWord_answered ha0, ih, List.map_cons, h0, callAll_cons]

/-- The reads of a block load call the collaborator and change nothing else (R80). -/
theorem blockLoad_after (slot : RegNum → Word) : ∀ (rs : List RegNum) (s : State),
    ∃ b : Bus, (blockLoad slot rs s).after = { s with bus := b }
  | [], s => ⟨s.bus, rfl⟩
  | r :: rest, s => by
    have e : loadWord (slot r) s = ((loadWord (slot r) s).1, called (.readWord (alignWord (slot r))) s) := rfl
    obtain ⟨b, hb⟩ := blockLoad_after slot rest (called (.readWord (alignWord (slot r))) s)
    simp only [blockLoad]
    rw [e]
    cases (loadWord (slot r) s).1 with
    | none => exact ⟨_, rfl⟩
    | some v => exact ⟨b, hb⟩

/-- R304, R313: what was read is the word of a register's slot, whose read and every read before it was answered; and
a read that is aborted leaves the load incomplete. -/
theorem blockLoad_cases (slot : RegNum → Word) (before : RegNum → State) : ∀ (rs : List RegNum) (s : State),
    (∀ pre r post, rs = pre ++ r :: post → before r = callAll (pre.map fun q => .readWord (alignWord (slot q))) s) →
    (∀ x ∈ (blockLoad slot rs s).loaded, ∃ pre post, rs = pre ++ x.1 :: post ∧
      x.2 = wordAt (alignWord (slot x.1)) (before x.1) ∧
      ∀ q, (q ∈ pre ∨ q = x.1) → memAborts (.readWord (alignWord (slot q))) (before q) = false) ∧
    ((∃ r ∈ rs, memAborts (.readWord (alignWord (slot r))) (before r) = true) → (blockLoad slot rs s).complete = false)
  | [], s, _ => ⟨by simp [blockLoad], by simp⟩
  | r :: rest, s, hb => by
    have h0 : before r = s := hb [] r rest rfl
    obtain ⟨ih1, ih2⟩ := blockLoad_cases slot before rest (called (.readWord (alignWord (slot r))) s)
      (fun pre q post e => hb (r :: pre) q post (by rw [e]; rfl))
    cases ha : memAborts (.readWord (alignWord (slot r))) s with
    | true => simp only [blockLoad, loadWord_aborts ha]; exact ⟨by simp, fun _ => by trivial⟩
    | false =>
      simp only [blockLoad, loadWord_answered ha]
      refine ⟨fun x hx => ?_, fun ⟨q, hq, hqa⟩ => ?_⟩
      · rcases List.mem_cons.1 hx with rfl | hx
        · refine ⟨[], rest, rfl, by rw [h0], fun q hq => ?_⟩
          obtain rfl : q = r := by simpa using hq
          rw [h0]; exact ha
        · obtain ⟨pre, post, e, h1, h2⟩ := ih1 x hx
          refine ⟨r :: pre, post, by rw [e]; rfl, h1, fun q hq => ?_⟩
          rcases hq with hq | hq
          · rcases List.mem_cons.1 hq with rfl | hq
            · rw [h0]; exact ha
            · exact h2 q (.inl hq)
          · exact h2 q (.inr hq)
      · rcases List.mem_cons.1 hq with rfl | hq
        · rw [h0, ha] at hqa; cases hqa
        · exact ih2 ⟨q, hq, hqa⟩

/-- R304, R313: the reads up to one that is aborted. -/
theorem blockLoad_stopped (slot : RegNum → Word) (before : RegNum → State) (r : RegNum) (post : List RegNum) :
    ∀ (rs : List RegNum) (s : State),
    (∀ pre q rest, rs ++ r :: post = pre ++ q :: rest →
      before q = callAll (pre.map fun q => .readWord (alignWord (slot q))) s) →
    (∀ q ∈ rs, memAborts (.readWord (alignWord (slot q))) (before q) = false) →
    memAborts (.readWord (alignWord (slot r))) (before r) = true →
    blockLoad slot (rs ++ r :: post) s =
      { loaded := rs.map fun q => (q, wordAt (alignWord (slot q)) (before q))
        complete := false
        after := called (.readWord (alignWord (slot r))) (before r) }
  | [], s, hb, _, ha => by
    have h0 : before r = s := hb [] r post rfl
    rw [h0] at ha ⊢
    simp [blockLoad, loadWord_aborts ha]
  | q :: rest, s, hb, hq, ha => by
    have h0 : before q = s := hb [] q (rest ++ r :: post) rfl
    have hq0 := hq q (List.mem_cons_self ..)
    rw [h0] at hq0
    have ih := blockLoad_stopped slot before r post rest (called (.readWord (alignWord (slot q))) s)
      (fun pre x more e => hb (q :: pre) x more (by rw [List.cons_append, e]; rfl))
      (fun x hx => hq x (List.mem_cons_of_mem _ hx)) ha
    simp only [List.cons_append, blockLoad, loadWord_answered hq0, ih, List.map_cons, h0]

/-- A register that none of the loaded ones means keeps its value. -/
theorem commitLoaded_other (k : Bank) (q : PhysReg) :
    ∀ (l : List (RegNum × Word)) (s : State), (∀ x ∈ l, bankReg k x.1 ≠ some q) →
      (commitLoaded k l s).regs.read q = s.regs.read q
  | [], _, _ => rfl
  | (r, v) :: rest, s, h => by
    have ih := commitLoaded_other k q rest (writeRegIn k r v s) fun x hx => h x (List.mem_cons_of_mem _ hx)
    rw [commitLoaded, ih]
    exact writeRegIn_other k r v s q (h (r, v) (List.mem_cons_self ..))

/-- Every register holds its old value or one that was loaded into it. -/
theorem commitLoaded_cases (k : Bank) (q : PhysReg) :
    ∀ (l : List (RegNum × Word)) (s : State), (commitLoaded k l s).regs.read q = s.regs.read q ∨
      ∃ x ∈ l, bankReg k x.1 = some q ∧ (commitLoaded k l s).regs.read q = x.2
  | [], _ => .inl rfl
  | (r, v) :: rest, s => by
    rw [commitLoaded]
    rcases commitLoaded_cases k q rest (writeRegIn k r v s) with h | ⟨x, hx, h1, h2⟩
    · by_cases hb : bankReg k r = some q
      · refine .inr ⟨(r, v), List.mem_cons_self .., hb, ?_⟩
        rw [h, writeRegIn_regs hb, RegFile.read_write_same]
      · exact .inl (h.trans (writeRegIn_other k r v s q hb))
    · exact .inr ⟨x, List.mem_cons_of_mem _ hx, h1, h2⟩

/-- A loaded register holds the value loaded. -/
theorem commitLoaded_mem (k : Bank) {r : RegNum} {v : Word} (hr : r ≠ 15) :
    ∀ (l : List (RegNum × Word)) (s : State), (l.map (·.1)).Nodup → (r, v) ∈ l →
      readRegIn k r (commitLoaded k l s) = v
  | [], _, _, h => by cases h
  | (q, w) :: rest, s, hn, h => by
    rw [commitLoaded]
    simp only [List.map_cons, List.nodup_cons] at hn
    rcases List.mem_cons.1 h with h | h
    · cases h
      obtain ⟨p, hp⟩ := bankReg_isSome k r hr
      have hother := commitLoaded_other k p rest (writeRegIn k r v s) fun x hx hb => by
        have := bankReg_injective k hr (hb.trans hp.symm)
        exact hn.1 (List.mem_map.2 ⟨x, hx, this⟩)
      simp [readRegIn, hp, hother, writeRegIn_regs hp]
    · exact commitLoaded_mem k hr rest _ hn.2 h

/-! ### The slots of a block transfer (R300, R301) -/

/-- The elements of a rising list below its i-th are its first i. -/
theorem filter_lt_getElem (l : List RegNum) (hs : l.Pairwise (· < ·)) (i : Nat) (h : i < l.length) (x : RegNum)
    (hx : x = l[i]) : l.filter (fun q => decide (q < x)) = l.take i := by
  conv_lhs => rw [← List.take_append_drop i l]
  rw [List.filter_append]
  have h1 : (List.take i l).filter (fun q => decide (q < x)) = List.take i l := by
    apply List.filter_eq_self.2
    intro q hq
    obtain ⟨j, hj, rfl⟩ := List.mem_iff_getElem.1 hq
    simp only [List.length_take] at hj
    simp only [List.getElem_take, decide_eq_true_eq, hx]
    exact List.pairwise_iff_getElem.1 hs _ _ _ _ (by omega)
  have h2 : (List.drop i l).filter (fun q => decide (q < x)) = [] := by
    apply List.filter_eq_nil_iff.2
    intro q hq
    obtain ⟨j, hj, rfl⟩ := List.mem_iff_getElem.1 hq
    simp only [List.length_drop] at hj
    simp only [List.getElem_drop, decide_eq_true_eq, not_lt, hx]
    rcases Nat.eq_zero_or_pos j with rfl | hp
    · simp
    · exact le_of_lt (List.pairwise_iff_getElem.1 hs _ _ _ _ (by omega))
  rw [h1, h2, List.append_nil]

/-- The elements of a rising list below one of them are those before it. -/
theorem filter_lt_split {l pre post : List RegNum} {r : RegNum} (hs : l.Pairwise (· < ·)) (e : l = pre ++ r :: post) :
    l.filter (fun q => decide (q < r)) = pre := by
  rw [filter_lt_getElem l hs pre.length (by simp [e]) r (by simp [e]), e, List.take_left]

/-- The place of a listed register is its index in the list. -/
theorem rankIn_getElem (list : BitVec 16) (i : Nat) (h : i < (regList list).length) :
    rankIn list (regList list)[i] = i := by
  rw [rankIn, filter_lt_getElem _ (regList_sorted list) i h _ rfl, List.length_take]; omega

theorem length_regList_le (list : BitVec 16) : (regList list).length ≤ 16 := List.length_filter_le _ allRegs

theorem blockSlot_eq (p u : Bool) (rn : RegNum) (list : BitVec 16) (s : State) (r : RegNum) :
    blockSlot p u rn list r s = alignWord (blockStart p u rn list s) + BitVec.ofNat 32 (4 * rankIn list r) :=
  alignWord_add _ _

@[simp] theorem alignWord_blockSlot (p u : Bool) (rn : RegNum) (list : BitVec 16) (s : State) (r : RegNum) :
    alignWord (blockSlot p u rn list r s) = blockSlot p u rn list r s := alignWord_idem _

theorem coprocSlot_eq (a : Word) (i : Nat) : coprocSlot a i = alignWord a + BitVec.ofNat 32 (4 * i) := alignWord_add _ _

@[simp] theorem alignWord_coprocSlot (a : Word) (i : Nat) : alignWord (coprocSlot a i) = coprocSlot a i := alignWord_idem _

/-- The slots of a block transfer lie apart. -/
theorem blockSlot_apart (p u : Bool) (rn : RegNum) (list : BitVec 16) (s : State) :
    (regList list).Pairwise fun q r => Apart (blockSlot p u rn list q s) (blockSlot p u rn list r s) := by
  rw [List.pairwise_iff_getElem]
  intro i j hi hj hij k hk
  have := length_regList_le list
  rw [blockSlot_eq, blockSlot_eq, rankIn_getElem, rankIn_getElem]
  exact slot_apart (by omega) (by omega) (by omega) hk

/-- The slots of a coprocessor transfer lie apart. -/
theorem coprocSlot_apart (a : Word) {n : Nat} (hn : n < 2 ^ 30) :
    (List.range n).Pairwise fun i j => Apart (coprocSlot a i) (coprocSlot a j) := by
  rw [List.pairwise_iff_getElem]
  intro i j hi hj hij k hk
  simp only [List.length_range] at hi hj
  simp only [List.getElem_range, coprocSlot_eq]
  exact slot_apart (by omega) (by omega) (by omega) hk

end Sys2Proof.Machine
end

