-- ==== Sys2Proof/Laws/BlockTransfer.lean ====
section
/-! SUPPORT. LDM and STM as a whole: what the loads commit, which words a store has written when it ends, aborts or
runs into the prefetch window. -/

namespace Sys2Proof.Machine

/-! ### LDM -/

/-- The requests made before a listed register's are those of the lower listed ones. -/
theorem beforeSlot_split (request : RegNum → MemRequest) (list : BitVec 16) (s : State) :
    ∀ pre r post, regList list = pre ++ r :: post → beforeSlot request list r s = callAll (pre.map request) s := by
  intro pre r post e
  rw [beforeSlot, filter_lt_split (regList_sorted list) e]

theorem beforeSlot_clearTracker (request : RegNum → MemRequest) (list : BitVec 16) (r : RegNum) (s : State) :
    beforeSlot request list r (clearTracker s) = clearTracker (beforeSlot request list r s) := callAll_clearTracker _ s

theorem mem_before {list : BitVec 16} {pre post : List RegNum} {r q : RegNum} (e : regList list = pre ++ r :: post) :
    q ∈ pre ↔ inList list q = true ∧ q < r := by
  rw [← filter_lt_split (regList_sorted list) e]
  simp [mem_regList]

theorem find_loaded (f : RegNum → Word) : ∀ (l : List RegNum), (15 : RegNum) ∈ l →
    (((l.map fun r => (r, f r)).find? fun x => x.1 == 15).map (·.2)).getD 0#32 = f 15
  | [], h => by cases h
  | a :: l, h => by
    by_cases ha : a = 15
    · subst ha; simp
    · rcases List.mem_cons.1 h with h | h
      · exact absurd h.symm ha
      · simp only [List.map_cons, List.find?_cons, show (a == 15) = false by simpa using ha]
        exact find_loaded f l h

/-- LDM every read of which is answered (R304, R310, R311). -/
theorem ldmBody_loaded {p u sb w : Bool} {rn : RegNum} {list : BitVec 16} {s : State}
    (ha : ∀ r : RegNum, inList list r = true →
      memAborts (.readWord (blockSlot p u rn list r s))
        (beforeSlot (fun q => .readWord (blockSlot p u rn list q s)) list r s) = false) :
    ldmBody p u sb w rn list s =
      let word := fun r => wordAt (blockSlot p u rn list r s)
        (beforeSlot (fun q => .readWord (blockSlot p u rn list q s)) list r s)
      let read := callAll ((regList list).map fun q => .readWord (blockSlot p u rn list q s)) s
      let s' := applyWriteBack (blockWriteBack u w rn list s)
        (commitLoaded (blockBank true sb list s) ((regList list).map fun r => (r, word r)) read)
      if inList list 15 then
        if sb then exceptionReturn (word 15) s' else .next (loadWritePC (word 15) s')
      else .next (advance { s' with lastUserBankTransfer := sb }) := by
  have hb := blockLoad_all (fun r => blockSlot p u rn list r s)
    (fun r => beforeSlot (fun q => .readWord (blockSlot p u rn list q s)) list r s) (regList list) s
    (by simpa using beforeSlot_split (fun q => .readWord (blockSlot p u rn list q s)) list s)
    (fun r hr => by simpa using ha r ((mem_regList list r).1 hr))
  simp only [alignWord_blockSlot] at hb
  simp only [ldmBody, hb, if_true]
  split
  · rename_i h15
    rw [find_loaded (fun r => wordAt (blockSlot p u rn list r s)
      (beforeSlot (fun q => .readWord (blockSlot p u rn list q s)) list r s)) _ ((mem_regList list 15).2 h15)]
  · rfl

/-- A listed register holds the word loaded into it. -/
theorem commitLoaded_listed (k : Bank) {list : BitVec 16} (f : RegNum → Word) (s : State) {r : RegNum}
    (hr : inList list r = true) (h15 : r ≠ 15) :
    readRegIn k r (commitLoaded k ((regList list).map fun r => (r, f r)) s) = f r := by
  apply commitLoaded_mem k h15
  · simpa [List.map_map, Function.comp_def] using regList_nodup list
  · exact List.mem_map.2 ⟨r, (mem_regList list r).2 hr, rfl⟩

/-- A register that is not listed keeps its value. -/
theorem commitLoaded_unlisted (k : Bank) {list : BitVec 16} (f : RegNum → Word) (s : State) {q : PhysReg}
    (h : some q ∉ (regList list).map (bankReg k)) :
    (commitLoaded k ((regList list).map fun r => (r, f r)) s).regs.read q = s.regs.read q := by
  apply commitLoaded_other
  intro x hx
  obtain ⟨r, hr, rfl⟩ := List.mem_map.1 hx
  intro hb; exact h (List.mem_map.2 ⟨r, hr, hb⟩)

/-- R307, R312: an LDM that writes its base back has a base below r15 that is not listed. -/
theorem ldm_base {c : Cond} {p u sb w : Bool} {rn : RegNum} {list : BitVec 16} {s : State}
    (h : wfRefusal (.ldm c p u sb w rn list) s = none) (hw : w = true) : rn ≠ 15 ∧ inList list rn = false := by
  have := (wfRefusal_eq_none.1 h).1
  simp [Instr.staticRule, blockRule, hw] at this
  by_cases h1 : rn = 15 <;> by_cases h2 : list = 0#16 <;> by_cases h3 : (sb = true ∧ inList list 15 = false) <;>
    by_cases h4 : inList list rn = true <;> simp_all

/-! ### STM -/

theorem WordsStored.congr {ι : Type} {P Q : ι → Prop} {slot value : ι → Word} {before : ι → State} {m m' : Memory}
    (h : ∀ i, P i ↔ Q i) (w : WordsStored P slot value before m m') : WordsStored Q slot value before m m' :=
  ⟨fun hw i hi => w.words hw i ((h i).2 hi), fun a ha => w.others a fun i hi => ha i ((h i).1 hi)⟩

/-- The writes of a block store up to a listed register's, every one of them allowed (R305). -/
theorem storeAll_prefix {p u : Bool} {rn : RegNum} {list : BitVec 16} {s : State} (value : RegNum → Word)
    {pre post : List RegNum} (e : regList list = pre ++ post) :
    let request := fun r => MemRequest.writeWord (blockSlot p u rn list r s) (value r)
    (∀ r ∈ pre, StoreAllowed (request r) (beforeSlot request list r s)) →
    storeAll (pre.map request) s = .done (storedAll (pre.map request) s) ∧
      WordsStored (· ∈ pre) (fun r => blockSlot p u rn list r s) value (fun r => beforeSlot request list r s) s.memory
        (storedAll (pre.map request) s).memory := by
  intro request ha
  have hb : ∀ pre' r post', pre = pre' ++ r :: post' → beforeSlot request list r s = callAll (pre'.map request) s :=
    fun pre' r post' e' => beforeSlot_split request list s pre' r (post' ++ post) (by rw [e, e']; simp)
  refine ⟨storeAll_done _ _ fun pre' q post' e' => ?_, (storedAll_words _ value _ s pre ?_ hb).1⟩
  · obtain ⟨l1, l2, rfl, h1, h2⟩ := List.map_eq_append_iff.1 e'
    obtain ⟨r, l3, rfl, rfl, -⟩ := List.map_eq_cons_iff.1 h2
    rw [← h1, ← hb l1 r l3 rfl]
    exact ha r (by simp)
  · have := blockSlot_apart p u rn list s
    rw [e, List.pairwise_append] at this
    exact this.1

/-- A block store up to the word of register r, whose write decides the rest (R305, R313, R462). -/
theorem storeAll_at {p u : Bool} {rn : RegNum} {list : BitVec 16} {s : State} (value : RegNum → Word) {r : RegNum}
    (hr : inList list r = true) :
    let request := fun r => MemRequest.writeWord (blockSlot p u rn list r s) (value r)
    (∀ q, inList list q = true → q < r → StoreAllowed (request q) (beforeSlot request list q s)) →
    ∃ (m : Memory) (rest : List MemRequest), storeAll ((regList list).map request) s =
        storeAll (request r :: rest) { beforeSlot request list r s with memory := m } ∧
      WordsStored (fun q => inList list q = true ∧ q < r) (fun q => blockSlot p u rn list q s) value
        (fun q => beforeSlot request list q s) s.memory m := by
  intro request ha
  obtain ⟨pre, post, e⟩ := List.append_of_mem ((mem_regList list r).2 hr)
  obtain ⟨h1, h2⟩ := storeAll_prefix (p := p) (u := u) (rn := rn) (s := s) value e
    fun q hq => ha q ((mem_before e).1 hq).1 ((mem_before e).1 hq).2
  refine ⟨(storedAll (pre.map request) s).memory, post.map request, ?_, h2.congr fun q => mem_before e⟩
  rw [e, List.map_append, storeAll_append, h1, beforeSlot_split request list s pre r post e, List.map_cons]
  simp only
  rw [storedAll_eq (pre.map request) s]
  conv_rhs => rw [callAll_eq]

end Sys2Proof.Machine
end

