-- ==== Sys2Proof/Laws/Outcome.lean ====
section
/-! SUPPORT. Everything an instruction can do, said once: what each body leaves alone when it answers a next state. A
next state is an ordinary one, or the entry of an exception from an ordinary one, or it comes of one of the three
things only a mode with an SPSR or a privileged mode can do. -/

namespace Sys2Proof.Machine

/-- From s to t only registers the current mode can name, the PC, the flags, T, memory and its collaborator, the
coprocessors, the hazard tracker and the count of free values have changed. -/
structure Ordinary (s t : State) : Prop where
  spsrs : t.spsrs = s.spsrs
  m : t.cpsr.m = s.cpsr.m
  i : t.cpsr.i = s.cpsr.i
  f : t.cpsr.f = s.cpsr.f
  regs : ∀ q : PhysReg, (∀ n : RegNum, bankReg (currentBank s.cpsr) n ≠ some q) → t.regs.read q = s.regs.read q
  memory : s.memory.wf = true → t.memory.wf = true
  faultMark : t.faultMark = s.faultMark
  refusalMark : t.refusalMark = s.refusalMark
  abortMap : t.abortMap = s.abortMap
  inputs : t.inputs = s.inputs
  policy : t.policy = s.policy

theorem Ordinary.refl (s : State) : Ordinary s s :=
  ⟨rfl, rfl, rfl, rfl, fun _ _ => rfl, id, rfl, rfl, rfl, rfl, rfl⟩

theorem Ordinary.trans {s t u : State} (a : Ordinary s t) (b : Ordinary t u) : Ordinary s u where
  spsrs := b.spsrs.trans a.spsrs
  m := b.m.trans a.m
  i := b.i.trans a.i
  f := b.f.trans a.f
  regs q h := (b.regs q (by rw [currentBank_congr a.m]; exact h)).trans (a.regs q h)
  memory h := b.memory (a.memory h)
  faultMark := b.faultMark.trans a.faultMark
  refusalMark := b.refusalMark.trans a.refusalMark
  abortMap := b.abortMap.trans a.abortMap
  inputs := b.inputs.trans a.inputs
  policy := b.policy.trans a.policy

theorem Ordinary.writeReg (n : RegNum) (v : Word) (s : State) : Ordinary s (writeReg n v s) := by
  constructor <;> try simp
  exact fun q h => writeReg_other n v s q (h n)

theorem Ordinary.applyWriteBack (wb : Option (RegNum × Word)) (s : State) : Ordinary s (applyWriteBack wb s) := by
  match wb with
  | none => exact .refl s
  | some (rn, v) => exact .writeReg rn v s

theorem Ordinary.pc (s : State) (v : Word) : Ordinary s { s with pc := v } :=
  ⟨rfl, rfl, rfl, rfl, fun _ _ => rfl, id, rfl, rfl, rfl, rfl, rfl⟩

theorem Ordinary.advance (s : State) : Ordinary s (advance s) := .pc s _

theorem Ordinary.tracker (s : State) (b : Bool) : Ordinary s { s with lastUserBankTransfer := b } :=
  ⟨rfl, rfl, rfl, rfl, fun _ _ => rfl, id, rfl, rfl, rfl, rfl, rfl⟩

theorem Ordinary.flags (s : State) {p : Psr} (hm : p.m = s.cpsr.m) (hi : p.i = s.cpsr.i) (hf : p.f = s.cpsr.f) :
    Ordinary s { s with cpsr := p } :=
  ⟨rfl, hm, hi, hf, fun _ _ => rfl, id, rfl, rfl, rfl, rfl, rfl⟩

theorem Ordinary.setMemory (s : State) {m : Memory} (h : s.memory.wf = true → m.wf = true) :
    Ordinary s { s with memory := m } :=
  ⟨rfl, rfl, rfl, rfl, fun _ _ => rfl, h, rfl, rfl, rfl, rfl, rfl⟩

theorem Ordinary.setCoproc (s : State) (c : CoprocPort) (n : Nat) : Ordinary s { s with coproc := c, freeCount := n } :=
  ⟨rfl, rfl, rfl, rfl, fun _ _ => rfl, id, rfl, rfl, rfl, rfl, rfl⟩

theorem Ordinary.askCoproc (q : CoprocRequest) (s : State) : Ordinary s (askCoproc q s).2 := .setCoproc s _ _

theorem Ordinary.setBus (s : State) (b : Bus) : Ordinary s { s with bus := b } :=
  ⟨rfl, rfl, rfl, rfl, fun _ _ => rfl, id, rfl, rfl, rfl, rfl, rfl⟩

theorem Ordinary.called (q : MemRequest) (s : State) : Ordinary s (called q s) := .setBus s _

theorem Ordinary.stored (q : MemRequest) (s : State) : Ordinary s (stored q s) :=
  (Ordinary.setMemory s fun h => written_wf h q).trans (.setBus _ _)

theorem Ordinary.commitLoaded {k : Bank} : ∀ (l : List (RegNum × Word)) (s : State), k = currentBank s.cpsr →
    Ordinary s (commitLoaded k l s)
  | [], s, _ => .refl s
  | (r, v) :: rest, s, hk => by
    subst hk
    exact (Ordinary.writeReg r v s).trans (Ordinary.commitLoaded rest _ (by simp))

/-- From s to t only memory and the collaborators have changed, and memory stays canonical. -/
structure Called (s t : State) : Prop where
  ordinary : Ordinary s t
  cpsr : t.cpsr = s.cpsr
  pc : t.pc = s.pc
  regs : t.regs = s.regs
  tracker : t.lastUserBankTransfer = s.lastUserBankTransfer
  freeCount : t.freeCount = s.freeCount

theorem Called.refl (s : State) : Called s s := ⟨.refl s, rfl, rfl, rfl, rfl, rfl⟩

theorem Called.trans {s t u : State} (a : Called s t) (b : Called t u) : Called s u :=
  ⟨a.ordinary.trans b.ordinary, b.cpsr.trans a.cpsr, b.pc.trans a.pc, b.regs.trans a.regs, b.tracker.trans a.tracker,
    b.freeCount.trans a.freeCount⟩

theorem Called.called (q : MemRequest) (s : State) : Called s (called q s) := ⟨.called q s, rfl, rfl, rfl, rfl, rfl⟩

theorem Called.stored (q : MemRequest) (s : State) : Called s (stored q s) := ⟨.stored q s, rfl, rfl, rfl, rfl, rfl⟩

theorem Called.askCoproc (q : CoprocRequest) (s : State) : Called s (askCoproc q s).2 :=
  ⟨.askCoproc q s, rfl, rfl, rfl, rfl, rfl⟩

/-- Where one write ends or aborts. -/
theorem Called.store {q : MemRequest} {s t : State} (h : store q s = .done t ∨ store q s = .abort t) : Called s t := by
  rcases h with h | h
  · rw [store_done h]; exact .stored q s
  · rw [store_abort h]; exact .called q s

theorem Called.storeAll {qs : List MemRequest} {s t : State} (h : storeAll qs s = .done t ∨ storeAll qs s = .abort t) :
    Called s t := by
  obtain ⟨m, b, rfl, hm⟩ := storeAll_frame qs s t h
  exact ⟨(Ordinary.setMemory s hm).trans (.setBus _ b), rfl, rfl, rfl, rfl, rfl⟩

/-- The word loop of LDC, whether it ends or is aborted (R379, R383). -/
theorem Called.ldcWords {cp : BitVec 4} {a : Word} : ∀ {is : List Nat} {s t : State},
    (ldcWords cp a is s = .done t ∨ ldcWords cp a is s = .abort t) → Called s t
  | [], s, t, h => by
    rcases h with h | h
    · cases h; exact .refl s
    · cases h
  | i :: rest, s, t, h => by
    have e : loadWord (coprocSlot a i) s = ((loadWord (coprocSlot a i) s).1, _) := rfl
    simp only [Sys2Proof.Machine.ldcWords] at h
    rw [e] at h
    cases hv : (loadWord (coprocSlot a i) s).1 with
    | none =>
      simp only [hv] at h
      rcases h with h | h
      · cases h
      · cases h; exact .called _ s
    | some v =>
      simp only [hv] at h
      exact ((Called.called _ s).trans (.askCoproc _ _)).trans (Called.ldcWords h)

/-- The word loop of STC, whether it ends or is aborted (R379, R383). -/
theorem Called.stcWords {cp : BitVec 4} {a : Word} : ∀ {is : List Nat} {s t : State},
    (stcWords cp a is s = .done t ∨ stcWords cp a is s = .abort t) → Called s t
  | [], s, t, h => by
    rcases h with h | h
    · cases h; exact .refl s
    · cases h
  | i :: rest, s, t, h => by
    have hq := Called.askCoproc (.stcWord cp i) s
    simp only [Sys2Proof.Machine.stcWords] at h
    split at h
    · rcases h with h | h <;> cases h
    · rename_i s' hs
      rcases h with h | h
      · cases h
      · cases h; exact hq.trans (.store (.inr hs))
    · rename_i s' hs
      exact (hq.trans (.store (.inl hs))).trans (Called.stcWords h)

/-! ### What a body answers -/

/-- The ways from s to a next state t of an instruction. -/
inductive Reaches (s t : State) : Prop where
  /-- An ordinary next state. -/
  | ordinary (h : Ordinary s t)
  /-- The entry of an exception. -/
  | entry (e : Exc) (s' : State) (h : Ordinary s s') (hc : s'.cpsr = s.cpsr) (hp : s'.pc = s.pc)
      (ht : t = takeException e s')
  /-- A return from an exception (R203, R310), into a legal mode (R32). -/
  | exceptionReturn (saved : Psr) (v : Word) (s' : State) (h : Ordinary s s') (hc : s'.cpsr = s.cpsr)
      (hs : currentSpsr s = some saved) (hl : legalMode saved.m = true) (ht : t = { s' with cpsr := saved, pc := maskPC saved.t v })
  /-- A write of an SPSR by MSR (R351). -/
  | savedStatus (p q : Psr) (hs : currentSpsr s = some p)
      (ht : t = Machine.advance (writeSpsr (currentBank s.cpsr) q s))
  /-- A write of the control field of the CPSR by MSR in a privileged mode (R351, R52), to a legal mode (R32) and the
  same T (R355). -/
  | control (f : Bool) (v : Word) (hp : privileged s.cpsr = true) (hl : legalMode (v.extractLsb' 0 5) = true)
      (hb : v.getLsbD 5 = s.cpsr.t) (ht : t = Machine.advance { s with cpsr := s.cpsr.writeFields f true v })
  /-- The registers of the User bank loaded by LDM with S = 1 (R311), and the data abort of such an LDM. -/
  | userBank (l : List (RegNum × Word)) (b : Bus) (hs : t = Machine.advance
      { commitLoaded .usr l { s with bus := b } with lastUserBankTransfer := true })
  | userBankAbort (l : List (RegNum × Word)) (wb : Option (RegNum × Word)) (b : Bus)
      (ht : t = dataAbort wb (commitLoaded .usr l { s with bus := b }))

theorem reaches_dataAbort (wb : Option (RegNum × Word)) {s s' : State} (h : Ordinary s s') (hc : s'.cpsr = s.cpsr)
    (hp : s'.pc = s.pc) : Reaches s (dataAbort wb s') := by
  obtain ⟨s'', hs, e⟩ := dataAbort_cases wb s'
  refine .entry .dataAbort { s'' with freeCount := s'.freeCount + 1 } (Ordinary.trans (t := s'') ?_ ?_) ?_ ?_ e
  · rcases hs with rfl | ⟨rn, v, -, rfl⟩
    · exact h
    · exact h.trans (.writeReg rn v s')
  · exact .setCoproc s'' s''.coproc _
  · rcases hs with rfl | ⟨rn, v, -, rfl⟩ <;> simp [hc]
  · rcases hs with rfl | ⟨rn, v, -, rfl⟩ <;> simp [hp]

theorem reaches_exceptionReturn {v : Word} {s s' t : State} (h : Ordinary s s') (hc : s'.cpsr = s.cpsr)
    (hl : ∀ p, currentSpsr s = some p → legalMode p.m = true) (he : exceptionReturn v s' = .next t) :
    Reaches s t := by
  unfold Machine.exceptionReturn at he
  split at he
  · cases he
  · rename_i p hp
    cases he
    have : currentSpsr s = some p := by rw [← hp]; simp [currentSpsr, hc, h.spsrs]
    exact .exceptionReturn p v s' h hc this (hl p this) rfl

theorem dataProc_reaches {op : AluOp} {sf : Bool} {rn rd : RegNum} {op2 : Operand2} {s t : State}
    (hr : writesRd op = true → dataProcStateRule op sf rn rd op2 s = none)
    (h : dataProc op sf rn rd op2 s = .next t) : Reaches s t := by
  have hf : ∀ r, Ordinary s (if sf then { s with cpsr := s.cpsr.withResult r } else s) := by
    intro r; cases sf
    · exact .refl s
    · exact .flags s rfl rfl rfl
  unfold dataProc at h
  simp only at h
  split at h
  · rename_i hw
    split at h
    · rename_i hd
      split at h
      · rename_i hs
        refine reaches_exceptionReturn (.refl s) rfl (fun p hp => ?_) h
        have := hr hw
        simp only [dataProcStateRule, hd, hs, if_true, hp] at this
        split at this
        · assumption
        · cases this
      · cases h; exact .ordinary (.pc s _)
    · cases h; exact .ordinary (((hf _).trans (.writeReg rd _ _)).trans (.advance _))
  · cases h; exact .ordinary ((hf _).trans (.advance _))

theorem psrWrite_reaches {spsr f c : Bool} {v : Word} {s t : State} (hr : psrWriteRule spsr c v s = none)
    (h : psrWrite spsr f c v s = .next t) : Reaches s t := by
  unfold psrWrite at h
  split at h
  · split at h
    · cases h
    · rename_i p hp
      cases h
      exact .savedStatus p _ hp rfl
  · rename_i hs
    cases h
    by_cases hc : (c && privileged s.cpsr) = true
    · rw [hc]
      simp only [psrWriteRule, if_neg hs, hc, if_true, firstRule_cons] at hr
      split at hr
      · cases hr
      · rename_i hl
        split at hr
        · cases hr
        · rename_i hb
          rw [bne_iff_ne, not_not] at hb
          exact .control f v (by simp at hc; exact hc.2) (by simpa using hl) hb rfl
    · have hc : (c && privileged s.cpsr) = false := by simpa using hc
      rw [hc]
      refine .ordinary ((Ordinary.flags s ?_ ?_ ?_).trans (.advance _)) <;> cases f <;> rfl

theorem mrsBody_reaches {spsr : Bool} {rd : RegNum} {s t : State} (h : mrsBody spsr rd s = .next t) : Reaches s t := by
  unfold mrsBody at h
  split at h
  · split at h <;> cases h
    exact .ordinary ((Ordinary.writeReg rd _ s).trans (.advance _))
  · cases h
    exact .ordinary ((Ordinary.writeReg rd _ s).trans (.advance _))

theorem commitProduct_reaches {sf : Bool} {rd : RegNum} {r : Word} {s t : State}
    (h : commitProduct sf rd r s = .next t) : Reaches s t := by
  cases h
  cases sf
  · exact .ordinary ((Ordinary.writeReg rd r s).trans (.advance _))
  · exact .ordinary (((Ordinary.flags s (p := s.cpsr.withProduct r) rfl rfl rfl).trans (.writeReg rd r _)).trans (.advance _))

theorem commitLongProduct_reaches {sf : Bool} {rdHi rdLo : RegNum} {p : BitVec 64} {s t : State}
    (h : commitLongProduct sf rdHi rdLo p s = .next t) : Reaches s t := by
  cases h
  cases sf
  · exact .ordinary (((Ordinary.writeReg rdLo _ s).trans (.writeReg rdHi _ _)).trans (.advance _))
  · exact .ordinary ((((Ordinary.flags s (p := s.cpsr.withLongProduct p) rfl rfl rfl).trans (.writeReg rdLo _ _)).trans
      (.writeReg rdHi _ _)).trans (.advance _))

theorem finishLoad_reaches {value : Option Word} {ad : Addressing} {rd : RegNum} {s s' t : State} (hc : Called s s')
    (h : finishLoad value ad rd s' = .next t) : Reaches s t := by
  rcases finishLoad_next h with ⟨-, rfl⟩ | ⟨v, -, rfl⟩
  · exact reaches_dataAbort _ hc.ordinary hc.cpsr hc.pc
  · exact .ordinary (((hc.ordinary.trans (.applyWriteBack _ _)).trans (.writeReg rd v _)).trans (.advance _))

theorem finishLoadWord_reaches {value : Option Word} {ad : Addressing} {rd : RegNum} {s s' t : State}
    (hc : Called s s') (h : finishLoadWord value ad rd s' = .next t) : Reaches s t := by
  rcases finishLoadWord_next h with ⟨-, rfl⟩ | ⟨-, v, -, rfl⟩ | ⟨-, v, -, rfl⟩
  · exact reaches_dataAbort _ hc.ordinary hc.cpsr hc.pc
  · exact .ordinary ((hc.ordinary.trans (.applyWriteBack _ _)).trans (.pc _ _))
  · exact .ordinary (((hc.ordinary.trans (.applyWriteBack _ _)).trans (.writeReg rd v _)).trans (.advance _))

theorem finishStore_reaches {outcome : StoreOutcome} {wb : Option (RegNum × Word)} {s t : State}
    (ho : ∀ s', (outcome = .done s' ∨ outcome = .abort s') → Called s s') (h : finishStore outcome wb = .next t) :
    Reaches s t := by
  rcases finishStore_next h with ⟨s', hs, rfl⟩ | ⟨s', hs, rfl⟩
  · have := ho s' (.inr hs)
    exact reaches_dataAbort _ this.ordinary this.cpsr this.pc
  · exact .ordinary (((ho s' (.inl hs)).ordinary.trans (.applyWriteBack _ _)).trans (.advance _))

theorem finishSwap_reaches {value : Option Word} {q : MemRequest} {rd : RegNum} {s s' t : State} (hc : Called s s')
    (h : finishSwap value q rd s' = .next t) : Reaches s t := by
  rcases finishSwap_next h with ⟨-, rfl⟩ | ⟨-, rfl⟩ | ⟨v, -, -, rfl⟩
  · exact reaches_dataAbort _ hc.ordinary hc.cpsr hc.pc
  · have := hc.trans (.called q s')
    exact reaches_dataAbort _ this.ordinary this.cpsr this.pc
  · exact .ordinary (((hc.ordinary.trans (.stored q _)).trans (.writeReg rd v _)).trans (.advance _))

theorem ldmBody_reaches {p u sb w : Bool} {rn : RegNum} {list : BitVec 16} {s t : State}
    (hsb : sb = true → inList list 15 = false → w = false) (hr : blockStateRule true sb list s = none)
    (h : ldmBody p u sb w rn list s = .next t) :
    Reaches s t := by
  unfold ldmBody at h
  simp only at h
  obtain ⟨b, hb⟩ := blockLoad_after (fun r => blockSlot p u rn list r s) (regList list) s
  rw [hb] at h
  by_cases hu : sb = true ∧ inList list 15 = false
  · have hbank : blockBank true sb list s = .usr := by simp [blockBank, hu.1, hu.2]
    have hw := hsb hu.1 hu.2
    rw [hbank] at h
    split at h
    · rw [if_neg (by simp [hu.2])] at h
      cases h
      refine .userBank (blockLoad (fun r => blockSlot p u rn list r s) (regList list) s).loaded b ?_
      rw [hw, hu.1]; rfl
    · cases h
      exact .userBankAbort _ _ b rfl
  · have hbank : blockBank true sb list s = currentBank s.cpsr := by
      cases sb <;> simp_all [blockBank]
    rw [hbank] at h
    have hm : ∀ l, Ordinary s (commitLoaded (currentBank s.cpsr) l { s with bus := b }) := fun l =>
      (Ordinary.setBus s b).trans (.commitLoaded l _ rfl)
    have ho : ∀ l, Ordinary s (applyWriteBack (blockWriteBack u w rn list s)
        (commitLoaded (currentBank s.cpsr) l { s with bus := b })) := fun l => (hm l).trans (.applyWriteBack _ _)
    split at h
    · split at h
      · rename_i h15
        split at h
        · rename_i hs
          refine reaches_exceptionReturn (ho _) (by simp) (fun p hp => ?_) h
          simp only [blockStateRule, hs, if_true, hp, Option.isNone_some, Bool.false_eq_true, if_false, h15,
            Bool.and_self, restoreRule, firstRule_cons] at hr
          split at hr
          · cases hr
          · rename_i hl; simpa using hl
        · cases h; exact .ordinary ((ho _).trans (.pc _ _))
      · cases h; exact .ordinary (((ho _).trans (.tracker _ _)).trans (.advance _))
    · cases h
      exact reaches_dataAbort _ (hm _) (by simp) (by simp)

theorem coprocAbsent_reaches {cp : BitVec 4} {s s' t : State} (ho : Ordinary s s') (hc : s'.cpsr = s.cpsr)
    (hp : s'.pc = s.pc) (h : coprocAbsent cp s' = .next t) : Reaches s t := by
  unfold coprocAbsent at h
  split at h <;> cases h
  exact .entry _ s' ho hc hp rfl

/-- Every way an instruction that passes its check reaches a next state. -/
theorem execBody_reaches {i : Instr} {s t : State} (hwf : wfRefusal i s = none) (h : execBody i s = .next t) :
    Reaches s t := by
  obtain ⟨hw, hst⟩ := wfRefusal_eq_none.1 hwf
  cases i with
  | ldm c p u sb w rn list =>
    refine ldmBody_reaches (fun h1 h2 => ?_) (by simpa [stateRefusal] using hst) h
    simp [Instr.staticRule, blockRule, h1, h2] at hw
    cases w <;> simp_all
  | stm => exact finishStore_reaches (fun _ hs => .storeAll hs) h
  | mrs => exact mrsBody_reaches h
  | msrReg | msrFlg => exact psrWrite_reaches (by simpa [stateRefusal] using hst) h
  | msrGen c spsr mask src =>
    simp only [stateRefusal] at hst
    split at hst
    · exact psrWrite_reaches (by simpa using hst) h
    · cases hst
  | mul | mla => exact commitProduct_reaches h
  | umull | umlal | smull | smlal => exact commitLongProduct_reaches h
  | swp | swpb => exact finishSwap_reaches (.called _ s) h
  | bx c rm =>
    cases h
    exact .ordinary ((Ordinary.flags s (p := { s.cpsr with t := (readReg rm s).getLsbD 0 }) rfl rfl rfl).trans (.pc _ _))
  | ldrh | ldrsh | ldrsb => exact finishLoad_reaches (.called _ s) h
  | strh => exact finishStore_reaches (fun _ hs => .store hs) h
  | undefStoreSigned | undefHalfZero | undefTrap =>
    simp only [execBody, undefinedBody] at h
    split at h <;> cases h
    exact .entry _ s (.refl s) rfl rfl rfl
  | ldrPre | ldrPost | ldrt => exact finishLoadWord_reaches (.called _ s) h
  | ldrbPre | ldrbPost | ldrbt => exact finishLoad_reaches (.called _ s) h
  | strPre | strPost | strt => exact finishStore_reaches (fun _ hs => .store hs) h
  | strbPre | strbPost | strbt => exact finishStore_reaches (fun _ hs => .store hs) h
  | b => cases h; exact .ordinary (.pc s _)
  | bl => cases h; exact .ordinary ((Ordinary.writeReg 14 _ s).trans (.pc _ _))
  | swi => cases h; exact .entry _ s (.refl s) rfl rfl rfl
  | ldc c p u n w rn crd cp offset8 =>
    have hq := Called.askCoproc (.ldcBegin cp n crd) s
    simp only [execBody, ldcBody] at h
    split at h
    · exact finishStore_reaches (fun _ hs => hq.trans (.ldcWords hs)) h
    · exact coprocAbsent_reaches hq.ordinary hq.cpsr hq.pc h
  | stc c p u n w rn crd cp offset8 =>
    have hq := Called.askCoproc (.stcBegin cp n crd) s
    simp only [execBody, stcBody] at h
    split at h
    · exact finishStore_reaches (fun _ hs => hq.trans (.stcWords hs)) h
    · exact coprocAbsent_reaches hq.ordinary hq.cpsr hq.pc h
  | cdp c op1 crn crd cp op2 crm =>
    simp only [execBody, cdpBody] at h
    have hq := Called.askCoproc (.cdp cp op1 crn crd op2 crm) s
    split at h
    · cases h; exact .ordinary ((Ordinary.askCoproc _ s).trans (.advance _))
    · exact coprocAbsent_reaches hq.ordinary hq.cpsr hq.pc h
  | mcr c op1 crn rd cp op2 crm =>
    simp only [execBody, mcrBody] at h
    have hq := Called.askCoproc (.mcr cp op1 crn crm op2 (storedReg rd s)) s
    split at h
    · cases h; exact .ordinary ((Ordinary.askCoproc _ s).trans (.advance _))
    · exact coprocAbsent_reaches hq.ordinary hq.cpsr hq.pc h
  | mrc c op1 crn rd cp op2 crm =>
    simp only [execBody, mrcBody] at h
    have hq := Called.askCoproc (.mrc cp op1 crn crm op2) s
    split at h
    · split at h <;> cases h
      · exact .ordinary (((Ordinary.askCoproc (.mrc cp op1 crn crm op2) s).trans (.flags _
          (p := (askCoproc (.mrc cp op1 crn crm op2) s).2.cpsr.withFlags
            (askCoproc (.mrc cp op1 crn crm op2) s).1.value) rfl rfl rfl)).trans (.advance _))
      · exact .ordinary (((Ordinary.askCoproc _ s).trans (.writeReg rd _ _)).trans (.advance _))
    · exact coprocAbsent_reaches hq.ordinary hq.cpsr hq.pc h
  | _ =>
    simp only [execBody] at h
    exact dataProc_reaches (by simpa [stateRefusal, writesRd] using hst) h

end Sys2Proof.Machine
end

