-- ==== Sys2Proof/Laws/Coprocessor.lean ====
section
/-! SUPPORT. The word loops of LDC and STC: the loops no word of which is stopped, and the loop cut in two. -/

namespace Sys2Proof.Machine

@[simp] theorem afterAll_nil (p : CoprocPort) : p.afterAll [] = p := rfl

@[simp] theorem afterAll_cons (p : CoprocPort) (q : CoprocRequest) (qs : List CoprocRequest) :
    p.afterAll (q :: qs) = (p.after q).afterAll qs := rfl

theorem afterAll_append (p : CoprocPort) (qs rs : List CoprocRequest) :
    p.afterAll (qs ++ rs) = (p.afterAll qs).afterAll rs := List.foldl_append ..

theorem range_split {n i : Nat} {pre post : List Nat} (e : List.range n = pre ++ i :: post) : pre = List.range i := by
  have hi : pre.length < n := by
    have := congrArg List.length e; simp at this; omega
  have h1 : i = pre.length := by
    have h := congrArg (fun l => l[pre.length]?) e
    simp [List.getElem?_range hi] at h; omega
  have h2 := congrArg (List.take pre.length) e
  rw [List.take_left, List.take_range, Nat.min_eq_left (le_of_lt hi)] at h2
  rw [← h2, ← h1]

theorem range_cut {n k : Nat} (h : k < n) :
    List.range n = List.range k ++ k :: (List.range (n - k - 1)).map (· + (k + 1)) := by
  rw [show n = k + ((n - k - 1) + 1) by omega, List.range_add, List.range_succ_eq_map]
  simp [Function.comp_def, Nat.add_comm, Nat.add_left_comm]

/-! ### Calls of the one collaborator leave the other alone -/

theorem callAll_setCoproc (qs : List MemRequest) (s : State) (c : CoprocPort) :
    callAll qs { s with coproc := c } = { callAll qs s with coproc := c } := by
  induction qs generalizing s with
  | nil => rfl
  | cons q rest ih => exact ih (called q s)

theorem storedAll_setCoproc (qs : List MemRequest) (s : State) (c : CoprocPort) :
    storedAll qs { s with coproc := c } = { storedAll qs s with coproc := c } := by
  induction qs generalizing s with
  | nil => rfl
  | cons q rest ih => exact ih (stored q s)

/-! ### LDC -/

/-- The loop of LDC over two runs of words. -/
theorem ldcWords_append (cp : BitVec 4) (a : Word) : ∀ (is js : List Nat) (s : State), ldcWords cp a (is ++ js) s =
    match ldcWords cp a is s with
    | .done s' => ldcWords cp a js s'
    | .abort s' => .abort s'
    | .hazard s' => .hazard s'
  | [], js, s => rfl
  | i :: is, js, s => by
    simp only [List.cons_append, ldcWords]
    split
    · rfl
    · exact ldcWords_append cp a is js _

/-- The loop of LDC every read of which is answered (R379). -/
theorem ldcWords_done (cp : BitVec 4) (a : Word) (before : Nat → State) : ∀ (is : List Nat) (s : State),
    (∀ pre i post, is = pre ++ i :: post →
      before i = callAll (pre.map fun j => .readWord (coprocSlot a j)) s) →
    (∀ i ∈ is, memAborts (.readWord (coprocSlot a i)) (before i) = false) →
    ldcWords cp a is s = .done { callAll (is.map fun j => .readWord (coprocSlot a j)) s with
      coproc := s.coproc.afterAll (is.map fun i => .ldcWord cp i (wordAt (coprocSlot a i) (before i))) }
  | [], s, _, _ => rfl
  | i :: rest, s, hb, ha => by
    have h0 : before i = s := hb [] i rest rfl
    have ha0 := ha i (List.mem_cons_self ..)
    rw [h0] at ha0
    have hl := loadWord_answered (a := coprocSlot a i) (s := s) (by simpa using ha0)
    simp only [alignWord_coprocSlot] at hl
    simp only [ldcWords, hl]
    let c := s.coproc.after (.ldcWord cp i (wordAt (coprocSlot a i) s))
    let s1 := called (.readWord (coprocSlot a i)) s
    have ih := ldcWords_done cp a (fun j => { before j with coproc := c }) rest { s1 with coproc := c }
      (fun pre j post e => by
        rw [callAll_setCoproc, hb (i :: pre) j post (by rw [e]; rfl)]; rfl)
      (fun j hj => (memAborts_congr _ rfl rfl).trans (ha j (List.mem_cons_of_mem _ hj)))
    refine ih.trans ?_
    rw [callAll_setCoproc]
    simp only [List.map_cons, callAll_cons, afterAll_cons, h0]
    rfl

/-! ### STC -/

/-- The loop of STC over two runs of words. -/
theorem stcWords_append (cp : BitVec 4) (a : Word) : ∀ (is js : List Nat) (s : State), stcWords cp a (is ++ js) s =
    match stcWords cp a is s with
    | .done s' => stcWords cp a js s'
    | .abort s' => .abort s'
    | .hazard s' => .hazard s'
  | [], js, s => rfl
  | i :: is, js, s => by
    simp only [List.cons_append, stcWords]
    split
    · rfl
    · rfl
    · exact stcWords_append cp a is js _

/-- The loop of STC no write of which is stopped (R379): the words are the ones the coprocessor supplies in turn. -/
theorem stcWords_done (cp : BitVec 4) (a : Word) (value : Nat → Word) : ∀ (is : List Nat) (s : State),
    (∀ pre i post, is = pre ++ i :: post →
      value i = ((s.coproc.afterAll (pre.map fun j => .stcWord cp j)).reply (.stcWord cp i)).1.value ∧
      StoreAllowed (.writeWord (coprocSlot a i) (value i))
        (callAll (pre.map fun j => .writeWord (coprocSlot a j) (value j)) s)) →
    stcWords cp a is s = .done { storedAll (is.map fun j => .writeWord (coprocSlot a j) (value j)) s with
      coproc := s.coproc.afterAll (is.map fun j => .stcWord cp j) }
  | [], s, _ => rfl
  | i :: rest, s, h => by
    obtain ⟨hv, h0⟩ := h [] i rest rfl
    simp only [List.map_nil, afterAll_nil, callAll_nil] at hv h0
    let c := s.coproc.after (.stcWord cp i)
    let q := MemRequest.writeWord (coprocSlot a i) (value i)
    have hs : store q { s with coproc := c } = .done (stored q { s with coproc := c }) :=
      store_allowed ((storeAllowed_congr rfl rfl rfl).2 h0)
    have e : askCoproc (.stcWord cp i) s = ((s.coproc.reply (.stcWord cp i)).1, { s with coproc := c }) := rfl
    simp only [stcWords, e, ← hv, q] at hs ⊢
    simp only [hs]
    refine (stcWords_done cp a value rest _ fun pre j post e => ?_).trans ?_
    · obtain ⟨h1, h2⟩ := h (i :: pre) j post (by rw [e]; rfl)
      refine ⟨h1, (storeAllowed_congr (by simp) ?_ (by simp)).2 h2⟩
      exact callAll_congr_bus _ rfl
    · have : stored (.writeWord (coprocSlot a i) (value i)) { s with coproc := c } =
          { stored (.writeWord (coprocSlot a i) (value i)) s with coproc := c } := rfl
      rw [this, storedAll_setCoproc]
      rfl

end Sys2Proof.Machine
end

