-- ==== Sys2Proof/Laws/DataProcessing.lean ====
section
/-! SUPPORT. Data processing: the sum of R14 as sums and differences, the three ends of `dataProc` (R200 to R203), and
its syntax, check and body for all sixteen opcodes at once. -/

namespace Sys2Proof.Machine

/-! ### AddWithCarry (R14) -/

theorem addWithCarry_eq {a b r : Word} {cin c o : Bool} (hr : r.toNat = (a.toNat + b.toNat + cin.toNat) % 2 ^ 32)
    (hc : c = decide (2 ^ 32 ≤ a.toNat + b.toNat + cin.toNat))
    (ho : o = signedOverflow (a.toInt + b.toInt + cin.toNat)) : addWithCarry a b cin = ⟨r, c, o⟩ := by
  have : r = BitVec.ofNat 32 (a.toNat + b.toNat + cin.toNat) := BitVec.eq_of_toNat_eq (by simp [hr])
  simp [addWithCarry, hc, ho, this, signedOverflow]

theorem toInt_not_word (b : Word) : (~~~b).toInt = -b.toInt - 1 := by
  have := b.isLt
  rw [BitVec.toInt_eq_toNat_cond, BitVec.toInt_eq_toNat_cond, BitVec.toNat_not]
  split <;> split <;> omega

/-- The sum with carry in. -/
theorem addWithCarry_plain (a b : Word) (cin : Bool) : addWithCarry a b cin =
    ⟨a + b + BitVec.ofNat 32 cin.toNat, decide (2 ^ 32 ≤ a.toNat + b.toNat + cin.toNat),
      signedOverflow (a.toInt + b.toInt + cin.toNat)⟩ := by
  apply addWithCarry_eq <;> cases cin <;> simp

/-- The sum with a complement is the difference with borrow in, its carry "no borrow". -/
theorem addWithCarry_not (a b : Word) (cin : Bool) : addWithCarry a (~~~b) cin =
    ⟨a - b - BitVec.ofNat 32 (1 - cin.toNat), decide (b.toNat + (1 - cin.toNat) ≤ a.toNat),
      signedOverflow (a.toInt - b.toInt - (1 - cin.toNat : Nat))⟩ := by
  have := b.isLt; have := a.isLt
  apply addWithCarry_eq
  · rw [BitVec.toNat_not]; cases cin <;> simp [BitVec.toNat_sub] <;> omega
  · rw [BitVec.toNat_not]; cases cin <;> simp <;> omega
  · rw [toInt_not_word]; congr 1; cases cin <;> simp <;> omega

/-! ### The sixteen opcodes at once -/

theorem staticRule_dataProcInstr (op : AluOp) (c : Cond) (sf : Bool) (rn rd : RegNum) (op2 : Operand2) :
    (dataProcInstr op c sf rn rd op2).staticRule =
      if writesRd op then (if op = .mov ∨ op = .mvn then moveRule rn rd op2 else dataProcRule rn rd op2)
      else compareRule sf rn rd op2 := by
  cases op <;> simp [dataProcInstr, writesRd, Instr.staticRule]

theorem stateRefusal_dataProcInstr (op : AluOp) (c : Cond) (sf : Bool) (rn rd : RegNum) (op2 : Operand2) (s : State) :
    stateRefusal (dataProcInstr op c sf rn rd op2) s =
      if writesRd op then (dataProcStateRule op sf rn rd op2 s).map .unpredictable else none := by
  cases op <;> simp [dataProcInstr, writesRd, stateRefusal]

theorem execBody_dataProcInstr (op : AluOp) (c : Cond) (sf : Bool) (rn rd : RegNum) (op2 : Operand2) :
    execBody (dataProcInstr op c sf rn rd op2) = dataProc op sf rn rd op2 := by
  cases op <;> rfl

/-! ### The ends of `dataProc` -/

theorem dataProc_writes {op : AluOp} (hw : writesRd op = true) {rd : RegNum} (hd : rd ≠ 15) (sf : Bool) (rn : RegNum)
    (op2 : Operand2) (s : State) : dataProc op sf rn rd op2 s =
      .next (advance (writeReg rd (aluResult op rn op2 s).value (setFlags sf (aluResult op rn op2 s).value
        (aluResult op rn op2 s).carry (aluResult op rn op2 s).overflow s))) := by
  cases sf <;> simp [dataProc, hw, hd, setFlags, State.withFlags, Psr.withResult]

theorem dataProc_compare {op : AluOp} (hw : writesRd op = false) (sf : Bool) (rn rd : RegNum) (op2 : Operand2)
    (s : State) : dataProc op sf rn rd op2 s = .next (advance (setFlags sf (aluResult op rn op2 s).value
      (aluResult op rn op2 s).carry (aluResult op rn op2 s).overflow s)) := by
  cases sf <;> simp [dataProc, hw, setFlags, State.withFlags, Psr.withResult]

/-- A write of the PC that the check of R167 let pass clears no set bit but bit 0 in Thumb state. -/
theorem maskPC_aligned {t : Bool} {v : Word} (h : writePCRule t v = none) :
    maskPC t v = if t then v &&& 0xFFFFFFFE#32 else v := by
  cases t
  · simp [writePCRule] at h
    simp only [maskPC, if_neg (by decide : ¬ (false = true))]
    have h0 : v.getLsbD 0 = false ∧ v.getLsbD 1 = false := by
      have a := congrArg (fun x => x.getLsbD 0) h
      have b := congrArg (fun x => x.getLsbD 1) h
      simpa using And.intro a b
    apply BitVec.eq_of_getLsbD_eq
    intro i hi
    have key : (0xFFFFFFFC#32).getLsbD i = (decide (i < 32) && !decide (i < 2)) := by
      have : ∀ j : Fin 32, (0xFFFFFFFC#32).getLsbD j.val = (decide (j.val < 32) && !decide (j.val < 2)) := by decide
      exact this ⟨i, hi⟩
    simp only [BitVec.getLsbD_and, key, hi, decide_true, Bool.true_and]
    by_cases h2 : i < 2
    · have : i = 0 ∨ i = 1 := by omega
      rcases this with rfl | rfl
      · rw [h0.1]; rfl
      · rw [h0.2]; rfl
    · simp [h2]
  · simp [maskPC]

end Sys2Proof.Machine
end

