-- ==== Sys2Proof/Laws/Decode.lean ====
section
/-! SUPPORT. The code tables of the decoder and the encoder undo each other, and so do the bytes of a word and the
word of its bytes. -/

namespace Sys2Proof

@[simp] theorem Cond.bits_ofBits (v : BitVec 4) : (Cond.ofBits v).bits = v := by revert v; decide

@[simp] theorem Cond.ofBits_bits (c : Cond) : Cond.ofBits c.bits = c := by cases c <;> rfl

@[simp] theorem AluOp.bits_ofBits (v : BitVec 4) : (AluOp.ofBits v).bits = v := by revert v; decide

@[simp] theorem AluOp.ofBits_bits (op : AluOp) : AluOp.ofBits op.bits = op := by cases op <;> rfl

@[simp] theorem ShiftType.bits_ofBits (v : BitVec 2) : (ShiftType.ofBits v).bits = v := by revert v; decide

@[simp] theorem ShiftType.ofBits_bits (t : ShiftType) : ShiftType.ofBits t.bits = t := by cases t <;> rfl

@[simp] theorem regBits_regField (w : Word) (lo : Nat) : regBits (regField w lo) = field w lo 4 := rfl

theorem regField_eq {w : Word} {lo : Nat} {n : RegNum} (h : field w lo 4 = regBits n) : regField w lo = n := by
  simp only [regField, h, regBits]

/-- The data-processing constructors share one format (R118). -/
theorem encode_dataProcInstr (op : AluOp) (c : Cond) (sf : Bool) (rn rd : RegNum) (op2 : Operand2) :
    encode (dataProcInstr op c sf rn rd op2) = encodeDataProc op c sf rn rd op2 := by cases op <;> rfl

/-- The word of the bytes of a word is that word (R71). -/
theorem wordOfBytes_bytesOfWord (w : Word) :
    wordOfBytes (field w 0 8) (field w 8 8) (field w 16 8) (field w 24 8) = w := by
  apply BitVec.eq_of_getLsbD_eq
  intro i hi
  simp only [wordOfBytes, BitVec.getLsbD_append, BitVec.getLsbD_extractLsb']
  by_cases h0 : i < 8
  · simp [h0]
  · by_cases h1 : i < 16
    · simp [h0, show i - 8 < 8 by omega, show 8 + (i - 8) = i by omega]
    · by_cases h2 : i < 24
      · simp [h0, show ¬ i - 8 < 8 by omega, show i - 8 - 8 < 8 by omega, show 16 + (i - 8 - 8) = i by omega]
      · simp [h0, show ¬ i - 8 < 8 by omega, show ¬ i - 8 - 8 < 8 by omega, show i - 8 - 8 - 8 < 8 by omega,
          show 24 + (i - 8 - 8 - 8) = i by omega]

/-- Decoding the bytes of a word is decoding the word (R71, R100). -/
theorem decodeBytes_bytesOfWord (general : Bool) (w : Word) (rest : List Byte) :
    decodeBytes general (bytesOfWord w ++ rest) =
      match decodeWord general w with
      | .ok i => .ok (i, rest)
      | .error e => .error e := by
  cases h : decodeWord general w <;>
    simp only [bytesOfWord, List.cons_append, List.nil_append, decodeBytes, wordOfBytes_bytesOfWord, h]

/-! ### Fields of a format -/

theorem field_append_low {n m : Nat} (x : BitVec n) (y : BitVec m) (lo len : Nat) (h : lo + len ≤ m) :
    (x ++ y).extractLsb' lo len = y.extractLsb' lo len := by
  apply BitVec.eq_of_getLsbD_eq
  intro i hi
  simp only [BitVec.getLsbD_extractLsb', BitVec.getLsbD_append, show lo + i < m by omega, if_true]

theorem field_append_high {n m : Nat} (x : BitVec n) (y : BitVec m) (lo len : Nat) (h : m ≤ lo) :
    (x ++ y).extractLsb' lo len = x.extractLsb' (lo - m) len := by
  apply BitVec.eq_of_getLsbD_eq
  intro i hi
  have h1 : ¬ lo + i < m := by omega
  simp only [BitVec.getLsbD_extractLsb', BitVec.getLsbD_append, h1, if_false, show lo + i - m = lo - m + i by omega]

theorem field_append_exact {n m : Nat} (x : BitVec n) (y : BitVec m) : (x ++ y).extractLsb' 0 m = y := by
  apply BitVec.eq_of_getLsbD_eq
  intro i hi
  simp [BitVec.getLsbD_append, hi]

/-! ### The steps of R102 one by one -/

/-- The tests of the thirteen steps (R103 to R115). -/
def isMul (w : Word) : Bool := field w 22 6 == 0b000000#6 && field w 4 4 == 0b1001#4
def isMulLong (w : Word) : Bool := field w 23 5 == 0b00001#5 && field w 4 4 == 0b1001#4
def isSwap (w : Word) : Bool := field w 23 5 == 0b00010#5 && field w 4 8 == 0b00001001#8
def isBx (w : Word) : Bool := field w 4 24 == 0x12FFF1#24
def isHalf (w : Word) : Bool := field w 25 3 == 0b000#3 && bit w 7 && bit w 4
def isTrap (w : Word) : Bool := field w 25 3 == 0b011#3 && bit w 4
def isSingle (w : Word) : Bool := field w 26 2 == 0b01#2
def isBlock (w : Word) : Bool := field w 25 3 == 0b100#3
def isBranch (w : Word) : Bool := field w 25 3 == 0b101#3
def isCoprocTransfer (w : Word) : Bool := field w 25 3 == 0b110#3
def isSwi (w : Word) : Bool := field w 24 4 == 0b1111#4
def isCoproc (w : Word) : Bool := field w 24 4 == 0b1110#4
def isDataProc (w : Word) : Bool := field w 26 2 == 0b00#2

/-- The top bits of a word fall under one of the last seven steps (R116). -/
theorem last_steps_cover (w : Word) : isSingle w || isBlock w || isBranch w || isCoprocTransfer w || isSwi w ||
    isCoproc w || isDataProc w := by
  have e1 : field w 26 2 = (field w 24 4).extractLsb' 2 2 := by
    apply BitVec.eq_of_getLsbD_eq; intro i hi
    simp [field, hi, show 2 + i < 4 by omega, show 24 + (2 + i) = 26 + i by omega]
  have e2 : field w 25 3 = (field w 24 4).extractLsb' 1 3 := by
    apply BitVec.eq_of_getLsbD_eq; intro i hi
    simp [field, hi, show 1 + i < 4 by omega, show 24 + (1 + i) = 25 + i by omega]
  simp only [isSingle, isBlock, isBranch, isCoprocTransfer, isSwi, isCoproc, isDataProc, e1, e2]
  generalize field w 24 4 = x
  revert x; decide

/-- Which step takes a word, and what it gives (R102): the way to take decodeWord apart. -/
theorem decodeWord_cases (general : Bool) (w : Word) :
    let c := Cond.ofBits (field w 28 4)
    (isMul w = true ∧ decodeWord general w = .ok (decodeMul c w)) ∨
    (isMul w = false ∧ isMulLong w = true ∧ decodeWord general w = .ok (decodeMulLong c w)) ∨
    (isMul w = false ∧ isMulLong w = false ∧ isSwap w = true ∧ decodeWord general w = .ok (decodeSwap c w)) ∨
    (isMul w = false ∧ isMulLong w = false ∧ isSwap w = false ∧ isBx w = true ∧
      decodeWord general w = .ok (.bx c (regField w 0))) ∨
    (isMul w = false ∧ isMulLong w = false ∧ isSwap w = false ∧ isBx w = false ∧ isHalf w = true ∧
      decodeWord general w = .ok (decodeHalf c w)) ∨
    (isHalf w = false ∧ isTrap w = true ∧ decodeWord general w = .ok (.undefTrap c (field w 5 20) (field w 0 4))) ∨
    (isTrap w = false ∧ isSingle w = true ∧ decodeWord general w = .ok (decodeSingle c w)) ∨
    (isBlock w = true ∧ decodeWord general w = .ok (decodeBlock c w)) ∨
    (isBranch w = true ∧
      decodeWord general w = .ok (if bit w 24 then .bl c (field w 0 24) else .b c (field w 0 24))) ∨
    (isCoprocTransfer w = true ∧ decodeWord general w = .ok (decodeCoprocTransfer c w)) ∨
    (isSwi w = true ∧ decodeWord general w = .ok (.swi c (field w 0 24))) ∨
    (isCoproc w = true ∧ decodeWord general w = .ok (decodeCoproc c w)) ∨
    (isMul w = false ∧ isMulLong w = false ∧ isSwap w = false ∧ isBx w = false ∧ isHalf w = false ∧
      isDataProc w = true ∧ decodeWord general w = .ok (decodeDataProc general c w)) := by
  intro c
  have e : decodeWord general w =
      if isMul w then .ok (decodeMul c w) else if isMulLong w then .ok (decodeMulLong c w)
      else if isSwap w then .ok (decodeSwap c w) else if isBx w then .ok (.bx c (regField w 0))
      else if isHalf w then .ok (decodeHalf c w)
      else if isTrap w then .ok (.undefTrap c (field w 5 20) (field w 0 4))
      else if isSingle w then .ok (decodeSingle c w) else if isBlock w then .ok (decodeBlock c w)
      else if isBranch w then .ok (if bit w 24 then .bl c (field w 0 24) else .b c (field w 0 24))
      else if isCoprocTransfer w then .ok (decodeCoprocTransfer c w) else if isSwi w then .ok (.swi c (field w 0 24))
      else if isCoproc w then .ok (decodeCoproc c w) else if isDataProc w then .ok (decodeDataProc general c w)
      else .error .decoderDefect := rfl
  have hl := last_steps_cover w
  rw [e]
  clear e
  cases h1 : isMul w
  case true => simp
  cases h2 : isMulLong w
  case true => simp
  cases h3 : isSwap w
  case true => simp
  cases h4 : isBx w
  case true => simp
  cases h5 : isHalf w
  case true => simp
  cases h6 : isTrap w
  case true => simp
  cases h7 : isSingle w
  case true => simp
  cases h8 : isBlock w
  case true => simp
  cases h9 : isBranch w
  case true => simp
  cases h10 : isCoprocTransfer w
  case true => simp
  cases h11 : isSwi w
  case true => simp
  cases h12 : isCoproc w
  case true => simp
  cases h13 : isDataProc w
  case true => simp
  rw [h7, h8, h9, h10, h11, h12, h13] at hl
  cases hl

end Sys2Proof
end

