-- ==== Sys2Proof/Laws/PerInstr.lean ====
section
/-! SUPPORT. Statements made per instruction. CondField: the condition stands in w[31:28] of the encoding of every
instruction (R100, R150). -/

namespace Sys2Proof.Laws.CondField

/-- w[31:28] of the encoding is the condition field. -/
def Statement (i : Instr) : Prop := field (encode i) 28 4 = i.cond.bits

/-! ### The formats -/

theorem formatDataProc (op : AluOp) (c : Cond) (sf : Bool) (rn rd : RegNum) (o : Operand2) :
    field (encodeDataProc op c sf rn rd o) 28 4 = c.bits := by
  simp only [encodeDataProc, field]
  repeat rw [field_append_high _ _ _ _ (by decide)]
  simp

theorem formatMul (a : BitVec 1) (c : Cond) (sf : Bool) (rd rn rs rm : RegNum) :
    field (encodeMul a c sf rd rn rs rm) 28 4 = c.bits := by
  simp only [encodeMul, field]
  repeat rw [field_append_high _ _ _ _ (by decide)]
  simp

theorem formatMulLong (u a : BitVec 1) (c : Cond) (sf : Bool) (hi lo rs rm : RegNum) :
    field (encodeMulLong u a c sf hi lo rs rm) 28 4 = c.bits := by
  simp only [encodeMulLong, field]
  repeat rw [field_append_high _ _ _ _ (by decide)]
  simp

theorem formatSwap (b : BitVec 1) (c : Cond) (z : BitVec 2) (rn rd rm : RegNum) :
    field (encodeSwap b c z rn rd rm) 28 4 = c.bits := by
  simp only [encodeSwap, field]
  repeat rw [field_append_high _ _ _ _ (by decide)]
  simp

theorem formatHalf (l s h : BitVec 1) (c : Cond) (p u w : Bool) (rn rd : RegNum) (off : HalfOffset) :
    field (encodeHalf l s h c p u w rn rd off) 28 4 = c.bits := by
  simp only [encodeHalf, field]
  repeat rw [field_append_high _ _ _ _ (by decide)]
  simp

theorem formatSingle (p b : BitVec 1) (w : Bool) (l : BitVec 1) (c : Cond) (u : Bool) (rn rd : RegNum) (off : Offset) :
    field (encodeSingle p b w l c u rn rd off) 28 4 = c.bits := by
  simp only [encodeSingle, field]
  repeat rw [field_append_high _ _ _ _ (by decide)]
  simp

theorem formatBlock (l : BitVec 1) (c : Cond) (p u sb w : Bool) (rn : RegNum) (list : BitVec 16) :
    field (encodeBlock l c p u sb w rn list) 28 4 = c.bits := by
  simp only [encodeBlock, field]
  repeat rw [field_append_high _ _ _ _ (by decide)]
  simp

theorem formatCoprocTransfer (l : BitVec 1) (c : Cond) (p u n w : Bool) (rn : RegNum) (crd cp : BitVec 4)
    (offset8 : BitVec 8) :
    field (encodeCoprocTransfer l c p u n w rn crd cp offset8) 28 4 = c.bits := by
  simp only [encodeCoprocTransfer, field]
  repeat rw [field_append_high _ _ _ _ (by decide)]
  simp

theorem formatCoprocReg (l : BitVec 1) (c : Cond) (op1 : BitVec 3) (crn : BitVec 4) (rd : RegNum) (cp : BitVec 4)
    (op2 : BitVec 3) (crm : BitVec 4) :
    field (encodeCoprocReg l c op1 crn rd cp op2 crm) 28 4 = c.bits := by
  simp only [encodeCoprocReg, field]
  repeat rw [field_append_high _ _ _ _ (by decide)]
  simp

/-! ### The instructions -/

theorem and (cond : Cond) (sf : Bool) (rn rd : RegNum) (op2 : Operand2) :
    Statement (.and cond sf rn rd op2) :=
  formatDataProc .and cond sf rn rd op2

theorem eor (cond : Cond) (sf : Bool) (rn rd : RegNum) (op2 : Operand2) :
    Statement (.eor cond sf rn rd op2) :=
  formatDataProc .eor cond sf rn rd op2

theorem sub (cond : Cond) (sf : Bool) (rn rd : RegNum) (op2 : Operand2) :
    Statement (.sub cond sf rn rd op2) :=
  formatDataProc .sub cond sf rn rd op2

theorem rsb (cond : Cond) (sf : Bool) (rn rd : RegNum) (op2 : Operand2) :
    Statement (.rsb cond sf rn rd op2) :=
  formatDataProc .rsb cond sf rn rd op2

theorem add (cond : Cond) (sf : Bool) (rn rd : RegNum) (op2 : Operand2) :
    Statement (.add cond sf rn rd op2) :=
  formatDataProc .add cond sf rn rd op2

theorem adc (cond : Cond) (sf : Bool) (rn rd : RegNum) (op2 : Operand2) :
    Statement (.adc cond sf rn rd op2) :=
  formatDataProc .adc cond sf rn rd op2

theorem sbc (cond : Cond) (sf : Bool) (rn rd : RegNum) (op2 : Operand2) :
    Statement (.sbc cond sf rn rd op2) :=
  formatDataProc .sbc cond sf rn rd op2

theorem rsc (cond : Cond) (sf : Bool) (rn rd : RegNum) (op2 : Operand2) :
    Statement (.rsc cond sf rn rd op2) :=
  formatDataProc .rsc cond sf rn rd op2

theorem tst (cond : Cond) (sf : Bool) (rn rd : RegNum) (op2 : Operand2) :
    Statement (.tst cond sf rn rd op2) :=
  formatDataProc .tst cond sf rn rd op2

theorem teq (cond : Cond) (sf : Bool) (rn rd : RegNum) (op2 : Operand2) :
    Statement (.teq cond sf rn rd op2) :=
  formatDataProc .teq cond sf rn rd op2

theorem cmp (cond : Cond) (sf : Bool) (rn rd : RegNum) (op2 : Operand2) :
    Statement (.cmp cond sf rn rd op2) :=
  formatDataProc .cmp cond sf rn rd op2

theorem cmn (cond : Cond) (sf : Bool) (rn rd : RegNum) (op2 : Operand2) :
    Statement (.cmn cond sf rn rd op2) :=
  formatDataProc .cmn cond sf rn rd op2

theorem orr (cond : Cond) (sf : Bool) (rn rd : RegNum) (op2 : Operand2) :
    Statement (.orr cond sf rn rd op2) :=
  formatDataProc .orr cond sf rn rd op2

theorem mov (cond : Cond) (sf : Bool) (rn rd : RegNum) (op2 : Operand2) :
    Statement (.mov cond sf rn rd op2) :=
  formatDataProc .mov cond sf rn rd op2

theorem bic (cond : Cond) (sf : Bool) (rn rd : RegNum) (op2 : Operand2) :
    Statement (.bic cond sf rn rd op2) :=
  formatDataProc .bic cond sf rn rd op2

theorem mvn (cond : Cond) (sf : Bool) (rn rd : RegNum) (op2 : Operand2) :
    Statement (.mvn cond sf rn rd op2) :=
  formatDataProc .mvn cond sf rn rd op2

theorem mrs (cond : Cond) (spsr : Bool) (rd : RegNum) :
    Statement (.mrs cond spsr rd) := by
  simp only [Statement, encode, Instr.cond, field]
  repeat rw [field_append_high _ _ _ _ (by decide)]
  simp

theorem msrReg (cond : Cond) (spsr : Bool) (rm : RegNum) :
    Statement (.msrReg cond spsr rm) := by
  simp only [Statement, encode, Instr.cond, field]
  repeat rw [field_append_high _ _ _ _ (by decide)]
  simp

theorem msrFlg (cond : Cond) (spsr : Bool) (src : PsrSource) :
    Statement (.msrFlg cond spsr src) := by
  simp only [Statement, encode, Instr.cond, field]
  repeat rw [field_append_high _ _ _ _ (by decide)]
  simp

theorem msrGen (cond : Cond) (spsr : Bool) (mask : BitVec 4) (src : PsrSource) :
    Statement (.msrGen cond spsr mask src) := by
  simp only [Statement, encode, Instr.cond, field]
  repeat rw [field_append_high _ _ _ _ (by decide)]
  simp

theorem mul (cond : Cond) (sf : Bool) (rd rn rs rm : RegNum) :
    Statement (.mul cond sf rd rn rs rm) :=
  formatMul _ cond _ _ _ _ _

theorem mla (cond : Cond) (sf : Bool) (rd rn rs rm : RegNum) :
    Statement (.mla cond sf rd rn rs rm) :=
  formatMul _ cond _ _ _ _ _

theorem umull (cond : Cond) (sf : Bool) (rdHi rdLo rs rm : RegNum) :
    Statement (.umull cond sf rdHi rdLo rs rm) :=
  formatMulLong _ _ cond _ _ _ _ _

theorem umlal (cond : Cond) (sf : Bool) (rdHi rdLo rs rm : RegNum) :
    Statement (.umlal cond sf rdHi rdLo rs rm) :=
  formatMulLong _ _ cond _ _ _ _ _

theorem smull (cond : Cond) (sf : Bool) (rdHi rdLo rs rm : RegNum) :
    Statement (.smull cond sf rdHi rdLo rs rm) :=
  formatMulLong _ _ cond _ _ _ _ _

theorem smlal (cond : Cond) (sf : Bool) (rdHi rdLo rs rm : RegNum) :
    Statement (.smlal cond sf rdHi rdLo rs rm) :=
  formatMulLong _ _ cond _ _ _ _ _

theorem swp (cond : Cond) (sbz : BitVec 2) (rn rd rm : RegNum) :
    Statement (.swp cond sbz rn rd rm) :=
  formatSwap _ cond _ _ _ _

theorem swpb (cond : Cond) (sbz : BitVec 2) (rn rd rm : RegNum) :
    Statement (.swpb cond sbz rn rd rm) :=
  formatSwap _ cond _ _ _ _

theorem bx (cond : Cond) (rm : RegNum) :
    Statement (.bx cond rm) := by
  simp only [Statement, encode, Instr.cond, field]
  repeat rw [field_append_high _ _ _ _ (by decide)]
  simp

theorem ldrh (cond : Cond) (p u w : Bool) (rn rd : RegNum) (off : HalfOffset) :
    Statement (.ldrh cond p u w rn rd off) :=
  formatHalf _ _ _ cond _ _ _ _ _ _

theorem strh (cond : Cond) (p u w : Bool) (rn rd : RegNum) (off : HalfOffset) :
    Statement (.strh cond p u w rn rd off) :=
  formatHalf _ _ _ cond _ _ _ _ _ _

theorem ldrsb (cond : Cond) (p u w : Bool) (rn rd : RegNum) (off : HalfOffset) :
    Statement (.ldrsb cond p u w rn rd off) :=
  formatHalf _ _ _ cond _ _ _ _ _ _

theorem ldrsh (cond : Cond) (p u w : Bool) (rn rd : RegNum) (off : HalfOffset) :
    Statement (.ldrsh cond p u w rn rd off) :=
  formatHalf _ _ _ cond _ _ _ _ _ _

theorem undefStoreSigned (cond : Cond) (hi : BitVec 4) (mid : BitVec 12) (h : Bool) (lo : BitVec 4) :
    Statement (.undefStoreSigned cond hi mid h lo) := by
  simp only [Statement, encode, Instr.cond, field]
  repeat rw [field_append_high _ _ _ _ (by decide)]
  simp

theorem undefHalfZero (cond : Cond) (hi : BitVec 5) (mid : BitVec 12) (lo : BitVec 4) :
    Statement (.undefHalfZero cond hi mid lo) := by
  simp only [Statement, encode, Instr.cond, field]
  repeat rw [field_append_high _ _ _ _ (by decide)]
  simp

theorem undefTrap (cond : Cond) (hi : BitVec 20) (lo : BitVec 4) :
    Statement (.undefTrap cond hi lo) := by
  simp only [Statement, encode, Instr.cond, field]
  repeat rw [field_append_high _ _ _ _ (by decide)]
  simp

theorem ldrPre (cond : Cond) (u w : Bool) (rn rd : RegNum) (off : Offset) :
    Statement (.ldrPre cond u w rn rd off) :=
  formatSingle _ _ _ _ cond _ _ _ _

theorem ldrPost (cond : Cond) (u : Bool) (rn rd : RegNum) (off : Offset) :
    Statement (.ldrPost cond u rn rd off) :=
  formatSingle _ _ _ _ cond _ _ _ _

theorem strPre (cond : Cond) (u w : Bool) (rn rd : RegNum) (off : Offset) :
    Statement (.strPre cond u w rn rd off) :=
  formatSingle _ _ _ _ cond _ _ _ _

theorem strPost (cond : Cond) (u : Bool) (rn rd : RegNum) (off : Offset) :
    Statement (.strPost cond u rn rd off) :=
  formatSingle _ _ _ _ cond _ _ _ _

theorem ldrbPre (cond : Cond) (u w : Bool) (rn rd : RegNum) (off : Offset) :
    Statement (.ldrbPre cond u w rn rd off) :=
  formatSingle _ _ _ _ cond _ _ _ _

theorem ldrbPost (cond : Cond) (u : Bool) (rn rd : RegNum) (off : Offset) :
    Statement (.ldrbPost cond u rn rd off) :=
  formatSingle _ _ _ _ cond _ _ _ _

theorem strbPre (cond : Cond) (u w : Bool) (rn rd : RegNum) (off : Offset) :
    Statement (.strbPre cond u w rn rd off) :=
  formatSingle _ _ _ _ cond _ _ _ _

theorem strbPost (cond : Cond) (u : Bool) (rn rd : RegNum) (off : Offset) :
    Statement (.strbPost cond u rn rd off) :=
  formatSingle _ _ _ _ cond _ _ _ _

theorem ldrt (cond : Cond) (u : Bool) (rn rd : RegNum) (off : Offset) :
    Statement (.ldrt cond u rn rd off) :=
  formatSingle _ _ _ _ cond _ _ _ _

theorem strt (cond : Cond) (u : Bool) (rn rd : RegNum) (off : Offset) :
    Statement (.strt cond u rn rd off) :=
  formatSingle _ _ _ _ cond _ _ _ _

theorem ldrbt (cond : Cond) (u : Bool) (rn rd : RegNum) (off : Offset) :
    Statement (.ldrbt cond u rn rd off) :=
  formatSingle _ _ _ _ cond _ _ _ _

theorem strbt (cond : Cond) (u : Bool) (rn rd : RegNum) (off : Offset) :
    Statement (.strbt cond u rn rd off) :=
  formatSingle _ _ _ _ cond _ _ _ _

theorem ldm (cond : Cond) (p u sb w : Bool) (rn : RegNum) (list : BitVec 16) :
    Statement (.ldm cond p u sb w rn list) :=
  formatBlock _ cond _ _ _ _ _ _

theorem stm (cond : Cond) (p u sb w : Bool) (rn : RegNum) (list : BitVec 16) :
    Statement (.stm cond p u sb w rn list) :=
  formatBlock _ cond _ _ _ _ _ _

theorem b (cond : Cond) (offset24 : BitVec 24) :
    Statement (.b cond offset24) := by
  simp only [Statement, encode, Instr.cond, field]
  repeat rw [field_append_high _ _ _ _ (by decide)]
  simp

theorem bl (cond : Cond) (offset24 : BitVec 24) :
    Statement (.bl cond offset24) := by
  simp only [Statement, encode, Instr.cond, field]
  repeat rw [field_append_high _ _ _ _ (by decide)]
  simp

theorem ldc (cond : Cond) (p u n w : Bool) (rn : RegNum) (crd cp : BitVec 4) (offset8 : BitVec 8) :
    Statement (.ldc cond p u n w rn crd cp offset8) :=
  formatCoprocTransfer _ cond _ _ _ _ _ _ _ _

theorem stc (cond : Cond) (p u n w : Bool) (rn : RegNum) (crd cp : BitVec 4) (offset8 : BitVec 8) :
    Statement (.stc cond p u n w rn crd cp offset8) :=
  formatCoprocTransfer _ cond _ _ _ _ _ _ _ _

theorem swi (cond : Cond) (comment : BitVec 24) :
    Statement (.swi cond comment) := by
  simp only [Statement, encode, Instr.cond, field]
  repeat rw [field_append_high _ _ _ _ (by decide)]
  simp

theorem cdp (cond : Cond) (op1 crn crd cp : BitVec 4) (op2 : BitVec 3) (crm : BitVec 4) :
    Statement (.cdp cond op1 crn crd cp op2 crm) := by
  simp only [Statement, encode, Instr.cond, field]
  repeat rw [field_append_high _ _ _ _ (by decide)]
  simp

theorem mcr (cond : Cond) (op1 : BitVec 3) (crn : BitVec 4) (rd : RegNum) (cp : BitVec 4) (op2 : BitVec 3)
    (crm : BitVec 4) :
    Statement (.mcr cond op1 crn rd cp op2 crm) :=
  formatCoprocReg _ cond _ _ _ _ _ _

theorem mrc (cond : Cond) (op1 : BitVec 3) (crn : BitVec 4) (rd : RegNum) (cp : BitVec 4) (op2 : BitVec 3)
    (crm : BitVec 4) :
    Statement (.mrc cond op1 crn rd cp op2 crm) :=
  formatCoprocReg _ cond _ _ _ _ _ _

end Sys2Proof.Laws.CondField
end

