-- ==== Sys2Proof/Machine/Inspect.lean ====
section
/-! DEFINITION. The inspection snapshot (R56, R430): the state record of R55 but for the marks. -/

namespace Sys2Proof.Machine

/-- All registers, the flags and the current mode (R56). -/
structure Snapshot where
  regs : RegFile
  pc : Word
  cpsr : Psr
  spsrs : SpsrFile
  lastUserBankTransfer : Bool
  mode : Option Mode
  deriving DecidableEq, Repr

/-- Reading the snapshot changes no state (R56, R430). -/
def snapshot (s : State) : Snapshot where
  regs := s.regs
  pc := s.pc
  cpsr := s.cpsr
  spsrs := s.spsrs
  lastUserBankTransfer := s.lastUserBankTransfer
  mode := Mode.ofBits? s.cpsr.m

end Sys2Proof.Machine
end

