-- ==== Sys2Proof/Tests/Slice0.lean ====
section
/-! SUPPORT. The model's own tests. The expected results are those of spec/95_test_vectors.md (its vector is named in
the comment of each test), or written by hand from the rule named. The words are written out field by field as the
formats of R118 to R136 lay them out. Last come the witnesses: for each statement of
Sys2Proof/Certificates/Slice0/Obligations.lean that has hypotheses, states and operands that meet them together. -/

namespace Sys2Proof.Machine.Tests

/-! ### Helpers -/

/-- The reset state with registers written (in Supervisor mode). -/
def given (regs : List (RegNum × Word)) : State := regs.foldl (fun s x => writeReg x.1 x.2 s) State.reset

/-- Words stored in memory. -/
def storing (words : List (Word × Word)) (s : State) : State :=
  { s with memory := words.foldl (fun m x => m.writeWord x.1 x.2) s.memory }

/-- The status register replaced. -/
def status (w : Word) (s : State) : State := { s with cpsr := Psr.ofWord w }

/-- The program counter replaced. -/
def atPc (a : Word) (s : State) : State := { s with pc := a }

/-- Every coprocessor is registered, and answers these requests so. -/
def answering (l : List (CoprocRequest × CoprocAnswer)) (s : State) : State :=
  { s with coproc := {
      units := Vector.replicate 16 ⟨true, 0⟩
      rules := l.map fun x => ⟨0, x.1, x.2, 0⟩
      requests := [] } }

/-- An answer Ok without a value or a count of its own. -/
def ok : CoprocAnswer := ⟨true, 0, 0⟩

/-- What the host asserts at the next boundary. -/
def asserting (reset fiq irq : Bool) (s : State) : State := { s with inputs := [⟨reset, fiq, irq⟩] }

/-- Four bytes whose accesses of the given kinds the byte array aborts. -/
def aborting (a : Nat) (r w : Bool) (s : State) : State := { s with abortMap := [⟨a, 4, r, w⟩] }

/-- What the memory collaborator answers by rule, and a device of 16 bytes from 0x1000. -/
def ruled (rules : List MemRule) (s : State) : State :=
  { s with bus := { own := 0, rules := rules, devices := [⟨0x1000, 16⟩], requests := [] } }

/-- The outcome is a next state of which `p` holds. -/
def nextIs (r : Result) (p : State → Bool) : Bool :=
  match r with
  | .next t => p t
  | _ => false

def refusedAs (r : Result) (why : Refusal) : Bool :=
  match r with
  | .refused q => q == why
  | _ => false

def faultedAs (r : Result) (why : Fault) : Bool :=
  match r with
  | .fault f => f == why
  | _ => false

/-- The hazard of R462. -/
def isHazard (r : Result) : Bool :=
  match r with
  | .fault (.prefetchHazard _) => true
  | _ => false

/-- One step on the word w, stored where the next fetch reads it. -/
def stepOn (w : Nat) (s : State) : Result := step (s.withFetchWord 32 w)

/-- One step on the word w ends in a next state of which `p` holds. -/
def after (w : Nat) (s : State) (p : State → Bool) : Bool := nextIs (stepOn w s) p

/-- The check refuses the instruction under the rule's name. -/
def illFormed (i : Instr) (r : UnpRule) : Bool := !i.isWellFormed && i.staticRule == some r

theorem eq_refused {r : Result} {why : Refusal} (h : refusedAs r why = true) : r = .refused why := by
  cases r <;> simp_all [refusedAs]

theorem eq_fault {r : Result} {why : Fault} (h : faultedAs r why = true) : r = .fault why := by
  cases r <;> simp_all [faultedAs]

theorem exists_next {r : Result} {P : State → Prop} [DecidablePred P] (h : nextIs r (fun t => decide (P t)) = true) :
    ∃ t, r = .next t ∧ P t := by
  cases r with
  | next t => exact ⟨t, rfl, of_decide_eq_true h⟩
  | fault _ => simp [nextIs] at h
  | refused _ => simp [nextIs] at h

/-- `Executes` as a Bool. -/
def executes (i : Instr) (s : State) : Bool :=
  (wfRefusal i s).isNone && conditionPassed i.cond s.cpsr && !bankedHazard i s

theorem executes_of {i : Instr} {s : State} (h : executes i s = true) : Executes i s := by
  simp only [executes, Bool.and_eq_true, Option.isNone_iff_eq_none, Bool.not_eq_true'] at h
  exact ⟨h.1.1, h.1.2, h.2⟩

theorem all_execute {l : List Instr} {s : State} (h : l.all (fun i => executes i s) = true) :
    ∀ i ∈ l, Executes i s := fun i hi => executes_of (List.all_eq_true.mp h i hi)

/-- `NoHazard` and `StoreAllowed` as Bools. -/
def clear (q : MemRequest) (s : State) : Bool := q.bytes.all fun a => !inPrefetchWindow s.pc a

def allowed (q : MemRequest) (s : State) : Bool := clear q s && !memAborts q s

theorem noHazard_of {q : MemRequest} {s : State} (h : clear q s = true) : NoHazard q s := fun a ha => by
  simpa using List.all_eq_true.mp h a ha

theorem storeAllowed_of {q : MemRequest} {s : State} (h : allowed q s = true) : StoreAllowed q s := by
  simp only [allowed, Bool.and_eq_true, Bool.not_eq_true'] at h
  exact ⟨noHazard_of h.1, h.2⟩

theorem all_allowed {l : List MemRequest} {s : State} (h : l.all (fun q => allowed q s) = true) :
    ∀ q ∈ l, StoreAllowed q s := fun q hq => storeAllowed_of (List.all_eq_true.mp h q hq)

/-! ### Well-formedness: an ill-formed term for each check, which the check refuses -/

theorem test_wf_shift_by_pc_rm :
    illFormed (.add .al false 1 2 (.regReg 15 .lsl 3)) .r220 = true := by decide
theorem test_wf_shift_by_pc_rs : illFormed (.and .al false 1 2 (.regReg 3 .lsl 15)) .r220 = true := by decide
theorem test_wf_shift_by_pc_rn : illFormed (.eor .al false 15 2 (.regReg 3 .lsl 4)) .r220 = true := by decide
theorem test_wf_shift_by_pc_rd : illFormed (.sub .al false 1 15 (.regReg 3 .lsl 4)) .r220 = true := by decide
theorem test_wf_compare_without_s : illFormed (.teq .al false 1 0 (.imm 0 0)) .r142 = true := by decide
theorem test_wf_compare_rd : illFormed (.cmp .al true 1 1 (.imm 0 0)) .r222 = true := by decide
theorem test_wf_compare_shift : illFormed (.tst .al true 1 0 (.regReg 2 .ror 15)) .r220 = true := by decide
theorem test_wf_mov_rn : illFormed (.mov .al false 2 0 (.regImm 1 .lsl 0)) .r223 = true := by decide
theorem test_wf_mvn_shift : illFormed (.mvn .al false 0 15 (.regReg 2 .ror 1)) .r220 = true := by decide
theorem test_wf_mrs_pc : illFormed (.mrs .al false 15) .r356 = true := by decide
theorem test_wf_msrReg_pc : illFormed (.msrReg .al false 15) .r356 = true := by decide
theorem test_wf_msrFlg_pc : illFormed (.msrFlg .al false (.reg 0 15)) .r356 = true := by decide
theorem test_wf_msrFlg_sbz : illFormed (.msrFlg .al false (.reg 1 0)) .r356 = true := by decide
theorem test_wf_msrGen_sbz : illFormed (.msrGen .al false 1 (.reg 0x80 0)) .r356 = true := by decide
theorem test_wf_mul_rd_rm : illFormed (.mul .al false 1 0 2 1) .r248 = true := by decide
theorem test_wf_mul_rs_pc : illFormed (.mul .al false 1 0 15 2) .r248 = true := by decide
theorem test_wf_mul_sbz : illFormed (.mul .al false 1 4 2 3) .r248 = true := by decide
theorem test_wf_mla_rn_pc : illFormed (.mla .al false 1 15 2 3) .r248 = true := by decide
theorem test_wf_mla_rd_rm : illFormed (.mla .al false 1 0 2 1) .r248 = true := by decide
theorem test_wf_mla_rd_pc : illFormed (.mla .al false 15 0 2 1) .r248 = true := by decide
theorem test_wf_umull_hi_lo : illFormed (.umull .al false 2 2 0 1) .r249 = true := by decide
theorem test_wf_smull_hi_rm : illFormed (.smull .al false 1 2 0 1) .r249 = true := by decide
theorem test_wf_umlal_lo_rm : illFormed (.umlal .al false 3 1 0 1) .r249 = true := by decide
theorem test_wf_smlal_pc : illFormed (.smlal .al false 3 2 15 1) .r249 = true := by decide
theorem test_wf_swp_sbz : illFormed (.swp .al 1 1 0 2) .r283 = true := by decide
theorem test_wf_swp_pc : illFormed (.swp .al 0 1 15 2) .r283 = true := by decide
theorem test_wf_swpb_rn_rm : illFormed (.swpb .al 0 1 0 1) .r283 = true := by decide
theorem test_wf_swpb_rn_rd : illFormed (.swpb .al 0 1 1 2) .r283 = true := by decide
theorem test_wf_bx_pc : illFormed (.bx .nv 15) .r333 = true := by decide
theorem test_wf_byte_pc : illFormed (.ldrbPre .al true false 1 15 (.imm 0)) .r271 = true := by decide
theorem test_wf_writeback_pc : illFormed (.strPre .al true true 15 0 (.imm 0)) .r271 = true := by decide
theorem test_wf_writeback_rd : illFormed (.ldrPost .al true 1 1 (.imm 4)) .r271 = true := by decide
theorem test_wf_offset_pc : illFormed (.ldrPre .al true false 1 0 (.reg 15 .lsl 0)) .r271 = true := by decide
theorem test_wf_offset_rn : illFormed (.strbt .al true 1 0 (.reg 1 .lsl 0)) .r271 = true := by decide
theorem test_wf_half_rd_pc : illFormed (.ldrh .al true true false 1 15 (.imm 0)) .r277 = true := by decide
theorem test_wf_half_writeback : illFormed (.strh .al true true true 1 1 (.imm 0)) .r277 = true := by decide
theorem test_wf_half_post_w : illFormed (.ldrsb .al false true true 1 0 (.imm 0)) .r277 = true := by decide
theorem test_wf_half_rm_pc : illFormed (.ldrsh .al true true false 1 0 (.reg 0 15)) .r277 = true := by decide
theorem test_wf_half_sbz : illFormed (.ldrh .al true true false 1 0 (.reg 8 2)) .r277 = true := by decide
theorem test_wf_half_rm_rn : illFormed (.strh .al false true false 1 0 (.reg 0 1)) .r277 = true := by decide
theorem test_wf_block_pc : illFormed (.ldm .al false true false false 15 1) .r312 = true := by decide
theorem test_wf_block_empty : illFormed (.stm .al false true false false 0 0) .r312 = true := by decide
theorem test_wf_user_ldm_writeback : illFormed (.ldm .al false true true true 0 2) .r312 = true := by decide
theorem test_wf_user_stm_writeback : illFormed (.stm .al false true true true 0 0x8000) .r312 = true := by decide
theorem test_wf_stm_base_not_lowest : illFormed (.stm .al false true false true 1 3) .r306 = true := by decide
theorem test_wf_ldm_base_listed : illFormed (.ldm .al false true false true 0 3) .r307 = true := by decide
theorem test_wf_ldc_writeback_pc : illFormed (.ldc .al true true false true 15 0 1 0) .r384 = true := by decide
theorem test_wf_stc_post_without_w : illFormed (.stc .al false true false false 1 0 1 0) .r384 = true := by decide
/-- R107: S = H = 0 with w[24:22] = 000 is a multiply, so this term stands for no word. -/
theorem test_wf_halfZero_is_multiply : (Instr.undefHalfZero .al 0b00001 0x102 1).isWellFormed = false := by decide
theorem test_wf_halfZero_is_long : (Instr.undefHalfZero .al 0b01010 0x102 1).isWellFormed = false := by decide
theorem test_wf_halfZero_is_swap : (Instr.undefHalfZero .al 0b10000 0x100 1).isWellFormed = false := by decide
/-- R357: the masks and shapes that are MSR_flg and MSR_reg. -/
theorem test_wf_msrGen_is_flg : (Instr.msrGen .al false 8 (.imm 0 0)).isWellFormed = false := by decide
theorem test_wf_msrGen_is_reg : (Instr.msrGen .al false 9 (.reg 0 1)).isWellFormed = false := by decide

/-! ### Decoding: one word of each constructor, field by field

cond, then the class bits, then the fields of the format's rule. -/

/-- R118: cond 00 I opcode S Rn Rd, then operand 2 by R121. -/
theorem test_decode_and : decodeTableWord 32 0b1110_00_0_0000_1_0001_0000_00000_00_0_0010 =
    some (.and .al true 1 0 (.regImm 2 .lsl 0)) := by decide
theorem test_decode_eor : decodeTableWord 32 0b0000_00_0_0001_0_0001_0000_00100_01_0_0010 =
    some (.eor .eq false 1 0 (.regImm 2 .lsr 4)) := by decide
theorem test_decode_sub : decodeTableWord 32 0b0001_00_1_0010_1_1110_1111_0000_00000100 =
    some (.sub .ne true 14 15 (.imm 0 4)) := by decide
theorem test_decode_rsb : decodeTableWord 32 0b0010_00_0_0011_0_0001_0000_0011_0_10_1_0010 =
    some (.rsb .cs false 1 0 (.regReg 2 .asr 3)) := by decide
theorem test_decode_add : decodeTableWord 32 0b0011_00_1_0100_0_1111_0000_1111_00000100 =
    some (.add .cc false 15 0 (.imm 15 4)) := by decide
theorem test_decode_adc : decodeTableWord 32 0b0100_00_0_0101_1_0001_0000_11111_11_0_0010 =
    some (.adc .mi true 1 0 (.regImm 2 .ror 31)) := by decide
theorem test_decode_sbc : decodeTableWord 32 0b0101_00_0_0110_0_0001_0000_00000_11_0_0010 =
    some (.sbc .pl false 1 0 (.regImm 2 .ror 0)) := by decide
theorem test_decode_rsc : decodeTableWord 32 0b0110_00_1_0111_0_1101_0100_0001_11111111 =
    some (.rsc .vs false 13 4 (.imm 1 255)) := by decide
theorem test_decode_tst : decodeTableWord 32 0b0111_00_1_1000_1_0001_0000_0001_00000010 =
    some (.tst .vc true 1 0 (.imm 1 2)) := by decide
theorem test_decode_teq : decodeTableWord 32 0b1000_00_0_1001_1_0001_0000_00000_00_0_0001 =
    some (.teq .hi true 1 0 (.regImm 1 .lsl 0)) := by decide
theorem test_decode_cmp : decodeTableWord 32 0b1001_00_0_1010_1_0010_0000_0000_0_00_1_0100 =
    some (.cmp .ls true 2 0 (.regReg 4 .lsl 0)) := by decide
theorem test_decode_cmn : decodeTableWord 32 0b1010_00_1_1011_1_0001_0000_0000_00000001 =
    some (.cmn .ge true 1 0 (.imm 0 1)) := by decide
theorem test_decode_orr : decodeTableWord 32 0b1011_00_1_1100_0_0001_0000_0000_00001111 =
    some (.orr .lt false 1 0 (.imm 0 15)) := by decide
theorem test_decode_mov : decodeTableWord 32 0b1100_00_0_1101_1_0000_1111_00000_00_0_1110 =
    some (.mov .gt true 0 15 (.regImm 14 .lsl 0)) := by decide
theorem test_decode_bic : decodeTableWord 32 0b1101_00_1_1110_0_0001_0000_0000_11111111 =
    some (.bic .le false 1 0 (.imm 0 255)) := by decide
theorem test_decode_mvn : decodeTableWord 32 0b1111_00_1_1111_1_0000_0000_0000_00000000 =
    some (.mvn .nv true 0 0 (.imm 0 0)) := by decide
/-- R119: cond 00010 Ps 001111 Rd 0. -/
theorem test_decode_mrs : decodeTableWord 32 0b1110_00010_1_001111_0010_000000000000 = some (.mrs .al true 2) := by
  decide
/-- R120: cond 00010 Pd 1010011111 00000000 Rm. -/
theorem test_decode_msrReg : decodeTableWord 32 0b1110_00010_1_1010011111_00000000_0011 =
    some (.msrReg .al true 3) := by decide
/-- R120: cond 00 I 10 Pd 1010001111, then the source. -/
theorem test_decode_msrFlg : decodeTableWord 32 0b1110_00_1_10_0_1010001111_0100_11110000 =
    some (.msrFlg .al false (.imm 4 0xF0)) := by decide
/-- R357: cond 00 I 10 Pd 10 mask 1111, then the source. -/
theorem test_decode_msrGen : decodeTableWord 32 0b1110_00_0_10_1_10_0001_1111_00000000_0101 =
    some (.msrGen .al true 1 (.reg 0 5)) := by decide
/-- R124: cond 000000 A S Rd Rn Rs 1001 Rm. -/
theorem test_decode_mul : decodeTableWord 32 0b1110_000000_0_1_0000_0000_0010_1001_0001 =
    some (.mul .al true 0 0 2 1) := by decide
theorem test_decode_mla : decodeTableWord 32 0b1110_000000_1_0_0100_0011_0010_1001_0001 =
    some (.mla .al false 4 3 2 1) := by decide
/-- R125: cond 00001 U A S RdHi RdLo Rs 1001 Rm. -/
theorem test_decode_umull : decodeTableWord 32 0b1110_00001_0_0_0_0011_0010_0001_1001_0000 =
    some (.umull .al false 3 2 1 0) := by decide
theorem test_decode_umlal : decodeTableWord 32 0b1110_00001_0_1_1_0011_0010_0001_1001_0000 =
    some (.umlal .al true 3 2 1 0) := by decide
theorem test_decode_smull : decodeTableWord 32 0b1110_00001_1_0_0_0101_0100_0001_1001_0000 =
    some (.smull .al false 5 4 1 0) := by decide
theorem test_decode_smlal : decodeTableWord 32 0b1110_00001_1_1_1_0101_0100_0001_1001_0000 =
    some (.smlal .al true 5 4 1 0) := by decide
/-- R126: cond 00010 B 00 Rn Rd 00001001 Rm. -/
theorem test_decode_swp : decodeTableWord 32 0b1110_00010_0_00_0001_0000_00001001_0010 =
    some (.swp .al 0 1 0 2) := by decide
theorem test_decode_swpb : decodeTableWord 32 0b1110_00010_1_00_0001_0000_00001001_0010 =
    some (.swpb .al 0 1 0 2) := by decide
/-- R127: cond 000100101111111111110001 Rm. -/
theorem test_decode_bx : decodeTableWord 32 0b1110_000100101111111111110001_1110 = some (.bx .al 14) := by decide
/-- R129: cond 000 P U I W L Rn Rd hi 1 S H 1 lo. -/
theorem test_decode_ldrh : decodeTableWord 32 0b1110_000_1_1_1_0_1_0001_0000_1010_1_0_1_1_0010 =
    some (.ldrh .al true true false 1 0 (.imm 0xA2)) := by decide
theorem test_decode_strh : decodeTableWord 32 0b1110_000_0_0_0_0_0_0001_0000_0000_1_0_1_1_0010 =
    some (.strh .al false false false 1 0 (.reg 0 2)) := by decide
theorem test_decode_ldrsb : decodeTableWord 32 0b1110_000_1_0_1_1_1_0001_0000_0001_1_1_0_1_0000 =
    some (.ldrsb .al true false true 1 0 (.imm 0x10)) := by decide
theorem test_decode_ldrsh : decodeTableWord 32 0b1110_000_1_1_0_1_1_0001_0000_0000_1_1_1_1_0010 =
    some (.ldrsh .al true true true 1 0 (.reg 0 2)) := by decide
/-- R107, R141 b: a signed halfword store. -/
theorem test_decode_undefStoreSigned : decodeTableWord 32 0b1110_000_1_1_1_0_0_0001_0000_0000_1_1_0_1_0000 =
    some (.undefStoreSigned .al 0b1110 0x100 false 0) := by decide
/-- R107, R141 c: S = H = 0. -/
theorem test_decode_undefHalfZero : decodeTableWord 32 0b1110_000_1_1_1_0_1_0001_0000_0000_1_0_0_1_0000 =
    some (.undefHalfZero .al 0b11101 0x100 0) := by decide
/-- R136: cond 011 any 1 any. -/
theorem test_decode_undefTrap : decodeTableWord 32 0b1110_011_11111000000000000111_1_0001 =
    some (.undefTrap .al 0b11111000000000000111 1) := by decide
/-- R128: cond 01 I P U B W L Rn Rd offset. -/
theorem test_decode_ldrPre : decodeTableWord 32 0b1110_01_1_1_1_0_0_1_0001_0000_00010_00_0_0010 =
    some (.ldrPre .al true false 1 0 (.reg 2 .lsl 2)) := by decide
theorem test_decode_strPre : decodeTableWord 32 0b1110_01_0_1_0_0_1_0_0001_0000_000000000100 =
    some (.strPre .al false true 1 0 (.imm 4)) := by decide
theorem test_decode_ldrbPre : decodeTableWord 32 0b1110_01_0_1_1_1_0_1_0001_0000_100000000001 =
    some (.ldrbPre .al true false 1 0 (.imm 0x801)) := by decide
theorem test_decode_strbPre : decodeTableWord 32 0b1110_01_1_1_0_1_1_0_0001_0000_00001_10_0_0011 =
    some (.strbPre .al false true 1 0 (.reg 3 .asr 1)) := by decide
theorem test_decode_ldrPost : decodeTableWord 32 0b1110_01_0_0_1_0_0_1_0001_0000_000000000100 =
    some (.ldrPost .al true 1 0 (.imm 4)) := by decide
theorem test_decode_strPost : decodeTableWord 32 0b1110_01_0_0_0_0_0_0_0001_0000_000000000100 =
    some (.strPost .al false 1 0 (.imm 4)) := by decide
theorem test_decode_ldrbPost : decodeTableWord 32 0b1110_01_0_0_1_1_0_1_0001_0000_000000000001 =
    some (.ldrbPost .al true 1 0 (.imm 1)) := by decide
theorem test_decode_strbPost : decodeTableWord 32 0b1110_01_0_0_1_1_0_0_0001_0000_000000000001 =
    some (.strbPost .al true 1 0 (.imm 1)) := by decide
theorem test_decode_ldrt : decodeTableWord 32 0b1110_01_0_0_1_0_1_1_0001_0000_000000000100 =
    some (.ldrt .al true 1 0 (.imm 4)) := by decide
theorem test_decode_strt : decodeTableWord 32 0b1110_01_0_0_1_0_1_0_0001_0000_000000000100 =
    some (.strt .al true 1 0 (.imm 4)) := by decide
theorem test_decode_ldrbt : decodeTableWord 32 0b1110_01_0_0_1_1_1_1_0001_0000_000000000001 =
    some (.ldrbt .al true 1 0 (.imm 1)) := by decide
theorem test_decode_strbt : decodeTableWord 32 0b1110_01_0_0_1_1_1_0_0001_0000_000000000001 =
    some (.strbt .al true 1 0 (.imm 1)) := by decide
/-- R130: cond 100 P U S W L Rn list. -/
theorem test_decode_ldm : decodeTableWord 32 0b1110_100_0_1_0_1_1_1101_1000000000010000 =
    some (.ldm .al false true false true 13 0x8010) := by decide
theorem test_decode_stm : decodeTableWord 32 0b1110_100_1_0_1_0_0_0000_0110000000000000 =
    some (.stm .al true false true false 0 0x6000) := by decide
/-- R131: cond 101 L offset24. -/
theorem test_decode_b : decodeTableWord 32 0b1110_101_0_111111111111111111111110 = some (.b .al 0xFFFFFE) := by decide
theorem test_decode_bl : decodeTableWord 32 0b1110_101_1_000000000000000000000001 = some (.bl .al 1) := by decide
/-- R132: cond 110 P U N W L Rn CRd cp offset8. -/
theorem test_decode_ldc : decodeTableWord 32 0b1110_110_1_1_1_0_1_0001_0010_0111_00000011 =
    some (.ldc .al true true true false 1 2 7 3) := by decide
theorem test_decode_stc : decodeTableWord 32 0b1110_110_0_1_0_1_0_0001_0010_0001_00000001 =
    some (.stc .al false true false true 1 2 1 1) := by decide
/-- R135: cond 1111 comment. -/
theorem test_decode_swi : decodeTableWord 32 0b1110_1111_000000000000000001000010 = some (.swi .al 0x42) := by decide
/-- R133: cond 1110 op1 CRn CRd cp op2 0 CRm. -/
theorem test_decode_cdp : decodeTableWord 32 0b1110_1110_1001_0001_0010_0011_101_0_0100 =
    some (.cdp .al 9 1 2 3 5 4) := by decide
/-- R134: cond 1110 op1 L CRn Rd cp op2 1 CRm. -/
theorem test_decode_mcr : decodeTableWord 32 0b1110_1110_101_0_0001_0010_0011_110_1_0100 =
    some (.mcr .al 5 1 2 3 6 4) := by decide
theorem test_decode_mrc : decodeTableWord 32 0b1110_1110_000_1_0001_0000_0001_000_1_0010 =
    some (.mrc .al 0 1 0 1 0 2) := by decide
/-- R357: without MSR_GENERAL_MASK the same word is TEQ with S = 0, which R221 refuses. -/
theorem test_decode_mask_off : decodeWord false 0xE121F000#32 = .ok (.teq .al false 1 15 (.regImm 0 .lsl 0)) := by rfl

/-! ### One step on a small state

Registers are written in Supervisor mode, whose status after reset is 000000D3. The comment of a test names the
vector of 95_test_vectors.md its numbers come from. -/

/-- x[1] = 0x100, and the word 0x44332211 there. -/
def atWord (regs : List (RegNum × Word)) : State := storing [(0x100, 0x44332211)] (given ((1, 0x100) :: regs))

def reg (t : State) (n : RegNum) (v : Word) : Bool := readReg n t == v

def mem (t : State) (a v : Word) : Bool := t.memory.readWord a == v

def flags (t : State) (w : Word) : Bool := t.cpsr.toWord == w

-- data processing (section 3.3, 3.4)
theorem test_ands_zero_keeps_cv : after 0xE0110002 (status 0x300000D3 (given [(1, 0xF0F0F0F0), (2, 0x0F0F0F0F)]))
    (fun t => reg t 0 0 && flags t 0x700000D3) = true := by decide
theorem test_eor_without_s_keeps_flags : after 0xE0210002
    (status 0xF00000D3 (given [(1, 0xF0F0F0F0), (2, 0xFF00FF00)]))
    (fun t => reg t 0 0x0FF00FF0 && flags t 0xF00000D3) = true := by decide
theorem test_subs_borrow : after 0xE0510002 (given [(1, 3), (2, 5)])
    (fun t => reg t 0 0xFFFFFFFE && flags t 0x800000D3) = true := by decide
theorem test_subs_overflow : after 0xE0510002 (given [(1, 0x80000000), (2, 1)])
    (fun t => reg t 0 0x7FFFFFFF && flags t 0x300000D3) = true := by decide
theorem test_rsbs_from_zero : after 0xE2710000 (given [(1, 1)])
    (fun t => reg t 0 0xFFFFFFFF && flags t 0x800000D3) = true := by decide
theorem test_adds_carry : after 0xE0910002 (given [(1, 0xFFFFFFFF), (2, 1)])
    (fun t => reg t 0 0 && flags t 0x600000D3) = true := by decide
theorem test_add_reads_pc_plus_8 : after 0xE28F0004 (atPc 0x100 (given []))
    (fun t => reg t 0 0x10C && t.pc == 0x104#32) = true := by decide
theorem test_adcs_overflow_by_carry : after 0xE2B10000 (status 0x200000D3 (given [(1, 0x7FFFFFFF)]))
    (fun t => reg t 0 0x80000000 && flags t 0x900000D3) = true := by decide
theorem test_sbcs_borrows : after 0xE0D10002 (given [(1, 5), (2, 5)])
    (fun t => reg t 0 0xFFFFFFFF && flags t 0x800000D3) = true := by decide
theorem test_rscs_with_carry : after 0xE2F10000 (status 0x200000D3 (given [(1, 1)]))
    (fun t => reg t 0 0xFFFFFFFF && flags t 0x800000D3) = true := by decide
theorem test_tst_rotated_immediate_carry : after 0xE3110102 (given [(1, 0x80000000)])
    (fun t => flags t 0xA00000D3) = true := by decide
theorem test_teq_equal : after 0xE1310001 (given [(1, 5)]) (fun t => flags t 0x400000D3) = true := by decide
theorem test_cmp_signed_overflow : after 0xE1510002 (given [(1, 0x7FFFFFFF), (2, 0xFFFFFFFF)])
    (fun t => flags t 0x900000D3) = true := by decide
theorem test_cmn_carry : after 0xE1710002 (given [(1, 0x80000000), (2, 0x80000000)])
    (fun t => flags t 0x700000D3) = true := by decide
theorem test_orr : after 0xE381000F (given [(1, 0x10)]) (fun t => reg t 0 0x1F) = true := by decide
theorem test_movs_shifter_carry : after 0xE1B000A1 (given [(1, 1)])
    (fun t => reg t 0 0 && flags t 0x600000D3) = true := by decide
/-- R203: the return from an exception. -/
theorem test_movs_pc_returns : after 0xE1B0F00E
    { atPc 0x40 (given [(14, 0x2C)]) with spsrs := { State.reset.spsrs with svc := Psr.ofWord 0x60000010 } }
    (fun t => t.pc == 0x2C#32 && flags t 0x60000010) = true := by decide
theorem test_bic : after 0xE3C100FF (given [(1, 0x12345678)]) (fun t => reg t 0 0x12345600) = true := by decide
theorem test_mvns : after 0xE3F00000 (given []) (fun t => reg t 0 0xFFFFFFFF && flags t 0x800000D3) = true := by decide
theorem test_bic_pc_misaligned : refusedAs (stepOn 0xE3C0F001 (given [(0, 0x103)])) (.unpredictable .r167) = true := by
  decide
theorem test_orrs_pc_in_user_mode : refusedAs (stepOn 0xE39EF000 (status 0x10 (given []))) (.unpredictable .r41) = true := by
  decide

-- the shifter (section 3.2): LSR #32, ASR #32, RRX; by register 32, 33, and ROR 32 and 36
theorem test_shift_immediate_zero :
    shiftImm 0x80000001 .lsr 0 false = (0, true) ∧ shiftImm 0x80000001 .asr 0 false = (0xFFFFFFFF, true) ∧
    shiftImm 0x80000001 .ror 0 true = (0xC0000000, true) ∧ shiftImm 0x80000001 .lsl 0 true = (0x80000001, true) := by
  decide
theorem test_shift_immediate : shiftImm 0x80000001 .lsl 1 false = (2, true) ∧
    shiftImm 0x80000001 .asr 4 false = (0xF8000000, false) ∧ shiftImm 0x80000001 .ror 4 false = (0x18000000, false) := by
  decide
theorem test_shift_register_wide :
    shiftReg 0x80000001 .lsl 32 false = (0, true) ∧ shiftReg 0x80000001 .lsl 33 true = (0, false) ∧
    shiftReg 0x80000001 .lsr 32 false = (0, true) ∧ shiftReg 0x80000001 .lsr 33 true = (0, false) ∧
    shiftReg 0x80000001 .asr 200 false = (0xFFFFFFFF, true) ∧ shiftReg 0x80000001 .ror 64 false = (0x80000001, true) ∧
    shiftReg 0x80000001 .ror 36 false = (0x18000000, false) := by decide

-- multiply (section 3.7)
theorem test_mul : after 0xE0000291 (given [(1, 6), (2, 7)]) (fun t => reg t 0 42) = true := by decide
theorem test_muls_wraps_to_zero : after 0xE0100291 (status 0x300000D3 (given [(1, 0x80000000), (2, 2)]))
    (fun t => reg t 0 0 && flags t 0x700000D3) = true := by decide
theorem test_mla : after 0xE0203291 (given [(1, 6), (2, 7), (3, 8)]) (fun t => reg t 0 50) = true := by decide
theorem test_umull : after 0xE0832190 (given [(0, 0xFFFFFFFF), (1, 2)])
    (fun t => reg t 2 0xFFFFFFFE && reg t 3 1) = true := by decide
theorem test_umlal : after 0xE0A32190 (given [(0, 0xFFFFFFFF), (1, 0xFFFFFFFF), (2, 1)])
    (fun t => reg t 2 2 && reg t 3 0xFFFFFFFE) = true := by decide
theorem test_smulls_negative : after 0xE0D54190 (given [(0, 0x80000000), (1, 1)])
    (fun t => reg t 4 0x80000000 && reg t 5 0xFFFFFFFF && flags t 0x800000D3) = true := by decide
theorem test_smlal : after 0xE0E54190 (given [(0, 0xFFFFFFFF), (1, 0xFFFFFFFF), (4, 2)])
    (fun t => reg t 4 3 && reg t 5 0) = true := by decide

-- single transfers (section 3.5)
theorem test_ldr_rotates : after 0xE5910000 (storing [(0x100, 0x44332211)] (given [(1, 0x101)]))
    (fun t => reg t 0 0x11443322) = true := by decide
theorem test_ldr_pc : after 0xE591F000 (storing [(0x100, 0x203)] (given [(1, 0x100)]))
    (fun t => t.pc == 0x200#32) = true := by decide
theorem test_ldr_post : after 0xE4910004 (atWord []) (fun t => reg t 0 0x44332211 && reg t 1 0x104) = true := by decide
theorem test_str_writes_back : after 0xE5210004 (given [(0, 0xCAFEF00D), (1, 0x104)])
    (fun t => reg t 1 0x100 && mem t 0x100 0xCAFEF00D) = true := by decide
theorem test_str_pc_plus_12 : after 0xE581F000 (atPc 0x200 (atWord [])) (fun t => mem t 0x100 0x20C) = true := by decide
theorem test_str_post : after 0xE4010004 (given [(0, 7), (1, 0x100)])
    (fun t => reg t 1 0xFC && mem t 0x100 7) = true := by decide
theorem test_ldrb_pre : after 0xE5D10002 (atWord []) (fun t => reg t 0 0x33 && reg t 1 0x100) = true := by decide
theorem test_ldrb_post : after 0xE4D10001 (storing [(0x100, 0x44332211)] (given [(1, 0x102)]))
    (fun t => reg t 0 0x33 && reg t 1 0x103) = true := by decide
theorem test_strb_pre : after 0xE5C10001 (atWord [(0, 0x123456AB)]) (fun t => mem t 0x100 0x4433AB11) = true := by decide
theorem test_strb_post : after 0xE4C10001 (atWord [(0, 0xFF)])
    (fun t => reg t 1 0x101 && mem t 0x100 0x443322FF) = true := by decide
theorem test_ldrt : after 0xE4B10004 (atWord []) (fun t => reg t 0 0x44332211 && reg t 1 0x104) = true := by decide
theorem test_strt : after 0xE4A10004 (atWord [(0, 9)]) (fun t => mem t 0x100 9 && reg t 1 0x104) = true := by decide
theorem test_ldrbt : after 0xE4F10001 (atWord []) (fun t => reg t 0 0x11 && reg t 1 0x101) = true := by decide
theorem test_strbt : after 0xE4E10001 (atWord [(0, 0xFF)])
    (fun t => reg t 1 0x101 && mem t 0x100 0x443322FF) = true := by decide
theorem test_ldrh : after 0xE1D100B2 (atWord []) (fun t => reg t 0 0x4433) = true := by decide
theorem test_ldrh_post_down : after 0xE01100B2 (atWord [(2, 4)])
    (fun t => reg t 0 0x2211 && reg t 1 0xFC) = true := by decide
theorem test_strh : after 0xE1C100B2 (atWord [(0, 0xFFFF8899)]) (fun t => mem t 0x100 0x88992211) = true := by decide
theorem test_ldrsb_negative : after 0xE1D100D0 (storing [(0x100, 0x80)] (given [(1, 0x100)]))
    (fun t => reg t 0 0xFFFFFF80) = true := by decide
theorem test_ldrsh_negative : after 0xE1D100F0 (storing [(0x100, 0x8001)] (given [(1, 0x100)]))
    (fun t => reg t 0 0xFFFF8001) = true := by decide
theorem test_half_misaligned_refused : refusedAs (stepOn 0xE1D100B0
    { given [(1, 0x101)] with policy := { State.reset.policy with halfMisalign := .refuse } }) .halfMisaligned = true := by
  decide
theorem test_swp_rotates : after 0xE1010092 (storing [(0x100, 0x44332211)] (given [(1, 0x101), (2, 0xAABBCCDD)]))
    (fun t => reg t 0 0x11443322 && mem t 0x100 0xAABBCCDD) = true := by decide
theorem test_swpb : after 0xE1410092 (atWord [(2, 0x22222233)])
    (fun t => reg t 0 0x11 && mem t 0x100 0x44332233) = true := by decide
/-- R417: as vector X5, for a byte. -/
theorem test_ldrb_abort : after 0xE5D10000 (aborting 0x400 true false (atPc 0x200 (status 0x13 (given [(1, 0x400)]))))
    (fun t => t.pc == 0x10#32 && flags t 0x97 && reg t 14 0x208 && reg t 0 0) = true := by decide
theorem test_strb_prefetch_hazard : isHazard (stepOn 0xE5C01000 (atPc 8 (given [(0, 0xC)]))) = true := by decide
/-- R80, R85: a rule answers a read and takes the collaborator to another state; the read is recorded after the fetch's. -/
theorem test_ldr_by_rule : after 0xE5910000 (ruled [⟨0, .readWord 0x100, ⟨false, 0xAB⟩, 1⟩] (atWord []))
    (fun t => reg t 0 0xAB && t.bus.own == 1 && t.bus.requests == [.readWord 0x100, .readWord 0]) = true := by decide
/-- R70: an abort by rule, of a write that the byte array would not abort. -/
theorem test_str_aborted_by_rule : after 0xE5810000 (ruled [⟨0, .writeWord 0x100 7, ⟨true, 0⟩, 0⟩] (atWord [(0, 7)]))
    (fun t => t.pc == 0x10#32 && mem t 0x100 0x44332211) = true := by decide

-- block transfers (section 3.6)
theorem test_stm_push : after 0xE92D4010 (given [(13, 0x100), (4, 0xAA), (14, 0xC)])
    (fun t => mem t 0xF8 0xAA && mem t 0xFC 0xC && reg t 13 0xF8) = true := by decide
/-- R166, R462: vector Z4. -/
theorem test_stm_hazard_keeps_first_word :
    (let s := (atPc 8 (given [(0, 8), (1, 0x11), (2, 0x22)])).withFetchWord 32 0xE8800006
     let t := settle s (step s)
     isHazard (step s) && mem t 8 0x11 && mem t 0xC 0 && t.regs == s.regs && isHazard (step t)) = true := by decide
theorem test_stm_user_bank : after 0xE8C06000
    (writeRegIn .usr 14 0x2000 (writeRegIn .usr 13 0x1000 (given [(0, 0x200), (13, 0x100)])))
    (fun t => mem t 0x200 0x1000 && mem t 0x204 0x2000) = true := by decide
theorem test_ldm_pop_pc : after 0xE8BD8010 (storing [(0xF8, 0xAA), (0xFC, 0xC)] (given [(13, 0xF8)]))
    (fun t => reg t 4 0xAA && reg t 13 0x100 && t.pc == 0xC#32) = true := by decide
theorem test_ldm_exception_return : after 0xE8FD8001
    { storing [(0xF8, 0x11), (0xFC, 0x2C)] (writeReg 13 0xF8 (status 0xD2 (given []))) with
      spsrs := { State.reset.spsrs with irq := Psr.ofWord 0x20000010 } }
    (fun t => reg t 0 0x11 && flags t 0x20000010 && t.pc == 0x2C#32) = true := by decide
/-- R463: as vector B15. -/
theorem test_banked_register_hazard : faultedAs (stepOn 0xE1E0000D { given [] with lastUserBankTransfer := true })
    .bankedAfterUserTransfer = true := by decide

-- branches, status transfers (sections 3.8, 3.9)
theorem test_b_to_itself : after 0xEAFFFFFE (atPc 0x100 (given [])) (fun t => t.pc == 0x100#32) = true := by decide
theorem test_bl : after 0xEB000001 (atPc 8 (given [])) (fun t => t.pc == 0x14#32 && reg t 14 0xC) = true := by decide
theorem test_bx_to_thumb : after 0xE12FFF10 (given [(0, 0x101)])
    (fun t => t.pc == 0x100#32 && flags t 0xF3) = true := by decide
theorem test_bx_misaligned : refusedAs (stepOn 0xE12FFF10 (given [(0, 0x102)])) (.unpredictable .r333) = true := by decide
/-- R140, P17 of 93_implementation_defined.md: BXEQ with Z = 0 is refused all the same. -/
theorem test_bx_misaligned_condition_failed : refusedAs (stepOn 0x012FFF10 (given [(0, 0x102)])) (.unpredictable .r333) = true := by
  decide
theorem test_mrs_spsr : after 0xE14F2000 { given [] with spsrs := { State.reset.spsrs with svc := Psr.ofWord 0x10 } }
    (fun t => reg t 2 0x10) = true := by decide
theorem test_mrs_spsr_in_user_mode : refusedAs (stepOn 0xE14F2000 (status 0x10 (given []))) (.unpredictable .r356) = true := by
  decide
theorem test_msrReg_in_user_mode : after 0xE129F000 (status 0x10 (given [(0, 0xF00000D3)]))
    (fun t => flags t 0xF0000010) = true := by decide
theorem test_msrReg_illegal_mode : refusedAs (stepOn 0xE129F000 (given [(0, 0xC5)])) (.unpredictable .r32) = true := by
  decide
theorem test_msrFlg : after 0xE328F4F0 (given []) (fun t => flags t 0xF00000D3) = true := by decide
theorem test_msrGen_control_only : after 0xE121F000 (status 0x600000D3 (given [(0, 0x1F)]))
    (fun t => flags t 0x6000001F) = true := by decide

-- traps and coprocessors (section 3.10)
theorem test_swi : after 0xEF000042 (atPc 0x28 (status 0x10 (given [])))
    (fun t => flags t 0x93 && t.pc == 8#32 && reg t 14 0x2C) = true := by decide
theorem test_undefTrap : after 0xE7F000F0 (atPc 0x40 (status 0x600000D3 (given [])))
    (fun t => flags t 0x600000DB && t.pc == 4#32 && reg t 14 0x44) = true := by decide
theorem test_undefStoreSigned : after 0xE1C100D0 (atPc 0x40 (given [])) (fun t => flags t 0xDB && t.pc == 4#32) = true := by
  decide
theorem test_undefHalfZero : after 0xE1D10090 (atPc 0x40 (given [])) (fun t => flags t 0xDB && t.pc == 4#32) = true := by
  decide
theorem test_undef_halt : faultedAs (stepOn 0xE7F000F0
    { given [] with policy := { State.reset.policy with undef := .halt } }) .undefinedHalt = true := by decide
theorem test_cdp : after 0xEE010102 (answering [(.cdp 1 0 1 0 0 2, ok)] (given [])) (fun t =>
    t.coproc.requests == [.cdp 1 0 1 0 0 2] && t.pc == 4#32) = true := by decide
theorem test_mcr : after 0xEE010112 (answering [(.mcr 1 0 1 2 0 5, ok)] (given [(0, 5)])) (fun t =>
    t.coproc.requests == [.mcr 1 0 1 2 0 5]) = true := by decide
theorem test_mrc_pc_sets_flags : after 0xEE11F112 (answering [(.mrc 1 0 1 2 0, ⟨true, 0xA0000000, 0⟩)] (given []))
    (fun t => flags t 0xA00000D3 && t.pc == 4#32) = true := by decide
theorem test_ldc : after 0xED912101
    (answering [(.ldcBegin 1 false 2, ok), (.ldcWord 1 0 0x77, ok)] (storing [(0x104, 0x77)] (given [(1, 0x100)])))
    (fun t => t.coproc.requests == [.ldcWord 1 0 0x77, .ldcBegin 1 false 2] && reg t 1 0x100) = true := by decide
theorem test_stc : after 0xECA12101 (answering [(.stcBegin 1 false 2, ok), (.stcWord 1 0, ⟨true, 0x77, 0⟩)]
    (given [(1, 0x100)]))
    (fun t => mem t 0x100 0x77 && reg t 1 0x104) = true := by decide
/-- R375, R377: with none registered for its number, and a rule that is for a registered one. -/
theorem test_absent_coprocessor : after 0xEE010102
    { atPc 0x40 (given []) with coproc := { State.reset.coproc with rules := [⟨0, .cdp 1 0 1 0 0 2, ok, 0⟩] } }
    (fun t => flags t 0xDB && t.pc == 4#32 && reg t 14 0x44) = true := by decide

-- the step (sections 2, 3.11)
theorem test_condition_fails : after 0x02610001 (given []) (fun t => reg t 0 0 && t.pc == 4#32) = true := by decide
theorem test_irq_entry : after 0 (asserting false false true (atPc 0x100 (status 0x10 (given []))))
    (fun t => flags t 0x92 && t.pc == 0x18#32 && reg t 14 0x104) = true := by decide
theorem test_fiq_before_irq : after 0 (asserting false true true (atPc 0x100 (status 0x10 (given []))))
    (fun t => flags t 0xD1 && t.pc == 0x1C#32 && reg t 14 0x104) = true := by decide
theorem test_prefetch_abort : after 0 (aborting 0x300 true false (atPc 0x300 (status 0x13 (given []))))
    (fun t => flags t 0x97 && t.pc == 0xC#32 && reg t 14 0x304) = true := by decide
theorem test_thumb_refused : refusedAs (step (status 0xF3 (given []))) .thumbUnsupported = true := by decide
theorem test_truncated_bytes : (match decodeBytes false [0, 0, 0] with | .error e => e == .truncated | .ok _ => false) = true := by
  decide

/-! ### Witnesses of the statements' hypotheses

`Executes` and the conditions on memory are witnessed for the very operands and state named. Where a statement has
one clause for each of several instructions, the witness lists them all. -/

/-- DecodeEncodeRoundTrip: a well-formed MSR_gen with MSR_GENERAL_MASK, and the extreme fields of other formats. -/
theorem witness_DecodeEncodeRoundTrip :
    ((Instr.msrGen .nv true 15 (.imm 15 255)).WellFormed ∧
      ∀ c spsr mask src, Instr.msrGen .nv true 15 (.imm 15 255) = .msrGen c spsr mask src → true = true) ∧
    ∀ i ∈ [Instr.and .eq true 15 15 (.imm 15 255), .stm .al true true true false 14 0xFFFF, .b .nv 0xFFFFFF,
      .undefTrap .nv 0xFFFFF 15, .ldrh .eq true true true 14 0 (.imm 255)],
      i.WellFormed ∧ ∀ c spsr mask src, i = .msrGen c spsr mask src → false = true := by
  refine ⟨⟨by decide, fun _ _ _ _ _ => rfl⟩, fun i hi => ⟨?_, ?_⟩⟩
  · revert i; decide
  · rintro c spsr mask src rfl; simp at hi

theorem witness_EncodeInvertsDecode :
    decodeWord false 0x00000000#32 = .ok (.and .eq false 0 0 (.regImm 0 .lsl 0)) ∧
    decodeWord true 0xFFFFFFFF#32 = .ok (.swi .nv 0xFFFFFF) := ⟨rfl, rfl⟩

/-- MemoryCollaboratorAnswers: the byte array answers at 0x100, a rule at 0x104, the device at 0x1000 and 0x100F but not
at 0x1010; the two writes that the last clauses are about. -/
def busState : State := aborting 0x200 false true (ruled [⟨0, .readByte 0x104, ⟨false, 5⟩, 2⟩] (given []))

theorem witness_MemoryCollaboratorAnswers :
    (∀ q ∈ [MemRequest.readByte 0x100, .readHalf 0xFFE, .readWord 0x1010, .writeWord 0x200 1], Plain q busState) ∧
    (∀ q ∈ [MemRequest.readByte 0x1000, .readWord 0x100F, .writeHalf 0xFFF 1, .readByte 0x104], ¬ Plain q busState) ∧
    memAborts (.writeWord 0x1FD 1) busState = true ∧ memAborts (.writeWord 0x1FC 1) busState = false ∧
    NoHazard (.writeWord 0x1FD 1) busState ∧ NoHazard (.writeWord 0x1FC 1) busState ∧
    busState.bus.rules = [] ++ ⟨0, .readByte 0x104, ⟨false, 5⟩, 2⟩ :: [] := by
  refine ⟨?_, ?_, by decide, by decide, noHazard_of (by decide), noHazard_of (by decide), rfl⟩ <;> intro q hq <;>
    simp only [List.mem_cons, List.not_mem_nil, or_false] at hq <;> rcases hq with rfl | rfl | rfl | rfl
  all_goals first | rfl | exact fun h => by cases h

theorem witness_FixedShapesDecode :
    field 0x012FFF10#32 4 24 = 0x12FFF1#24 ∧ field 0xF12FFF1F#32 4 24 = 0x12FFF1#24 ∧
    decodeWord false 0xE1C100D0#32 = .ok (.undefStoreSigned .al 0b1110 0x100 false 0) ∧
    decodeWord false 0xE1D10090#32 = .ok (.undefHalfZero .al 0b11101 0x100 0) ∧
    decodeWord false 0xF7FFFFFF#32 = .ok (.undefTrap .nv 0xFFFFF 15) := by
  refine ⟨by decide, by decide, rfl, rfl, rfl⟩

/-- StepRunsDecodedInstruction: MOV r0, #5 at address 0x100, an IRQ that I masks being asserted. -/
def stepState : State := (asserting false false true (atPc 0x100 (given []))).withFetchWord 32 0xE3A00005

theorem witness_StepRunsDecodedInstruction :
    stepState.faultMark = none ∧ stepState.refusalMark = none ∧ (currentInputs stepState).reset = false ∧
    ((currentInputs stepState).fiq = false ∨ stepState.cpsr.f = true) ∧
    ((currentInputs stepState).irq = false ∨ stepState.cpsr.i = true) ∧ stepState.cpsr.t = false ∧
    memAborts (.readWord (alignWord stepState.pc)) stepState = false ∧ Plain (.readWord (alignWord stepState.pc)) stepState ∧
    decodeBytes stepState.policy.msrGeneralMask (bytesOfWord (wordAt (alignWord stepState.pc) stepState)) =
      .ok (.mov .al false 0 0 (.imm 0 5), []) := by
  refine ⟨rfl, rfl, rfl, by decide, by decide, rfl, by decide, rfl, rfl⟩

theorem stepState_inv : stepState.Inv := ⟨by decide, by decide, by decide, by decide⟩

theorem witness_InvariantKeptByStep : stepState.Inv ∧ ∃ t, step stepState = .next t :=
  ⟨stepState_inv, let ⟨t, h, _⟩ := exists_next (P := fun _ => True) (by decide : nextIs _ _ = true); ⟨t, h⟩⟩

/-- UserModeLeavesOnlyByException: a software interrupt, and reset. -/
def userSwi : State := (atPc 0x28 (status 0x10 (given []))).withFetchWord 32 0xEF000042

theorem witness_UserModeLeavesOnlyByException :
    (userSwi.cpsr.m = Mode.user.bits ∧ ∃ t, step userSwi = .next t ∧ t.cpsr.m ≠ Mode.user.bits) ∧
    ((asserting true false false userSwi).cpsr.m = Mode.user.bits ∧
      ∃ t, step (asserting true false false userSwi) = .next t ∧ t.cpsr.m ≠ Mode.user.bits) :=
  ⟨⟨by decide, exists_next (by decide)⟩, ⟨by decide, exists_next (by decide)⟩⟩

/-- UserModeCannotReachOtherBanks: an MSR_reg that asks for Supervisor mode. -/
def userMsr : State := (status 0x10 (given [(0, 0xF00000D3)])).withFetchWord 32 0xE129F000

theorem witness_UserModeCannotReachOtherBanks :
    userMsr.cpsr.m = Mode.user.bits ∧ (∃ t, step userMsr = .next t ∧ t.cpsr.m = Mode.user.bits) ∧
    ∀ n : RegNum, bankReg .usr n ≠ some (.r14 .svc) := ⟨by decide, exists_next (by decide), by decide⟩

theorem witness_ResetDuringRun : userSwi.faultMark = none ∧ userSwi.refusalMark = none ∧
    (currentInputs (asserting true true true userSwi)).reset = true := ⟨rfl, rfl, rfl⟩

def haltSwi : State := { atPc 8 (given [(0, 0xC)]) with faultMark := some .undefinedHalt }

/-- Vector Z1. -/
def hazardState : State := (atPc 8 (given [(0, 0xC)])).withFetchWord 32 0xE5801000

theorem witness_MarkedStateTakesNoStep :
    haltSwi.faultMark = some .undefinedHalt ∧
    ({ given [] with refusalMark := some .thumbUnsupported }).faultMark = none ∧
    ({ given [] with refusalMark := some Refusal.thumbUnsupported }).refusalMark = some .thumbUnsupported ∧
    step hazardState = .fault (.prefetchHazard (called (.readWord 8) hazardState).collaborators) ∧
    step (status 0xF3 (given [])) = .refused .thumbUnsupported :=
  ⟨rfl, rfl, rfl, eq_fault (by decide), eq_refused (by decide)⟩

/-- InterruptEntries: FIQ taken; IRQ taken with no FIQ, and with a masked one; neither taken, though both asserted. -/
theorem witness_InterruptEntries :
    (let s := asserting false true true (status 0x10 (given [])); s.faultMark = none ∧ s.refusalMark = none ∧ (currentInputs s).reset = false ∧ (currentInputs s).fiq = true ∧
        s.cpsr.f = false) ∧
    (let s := asserting false false true (status 0x10 (given [])); (currentInputs s).fiq = false ∧ (currentInputs s).irq = true ∧ s.cpsr.i = false) ∧
    (let s := asserting false true true (status 0x50 (given [])); s.cpsr.f = true ∧ (currentInputs s).irq = true ∧ s.cpsr.i = false) ∧
    (let s := asserting false true true (status 0xD0 (given [])); (currentInputs s).reset = false ∧ s.cpsr.f = true ∧ s.cpsr.i = true) := by decide

/-- ThumbRefusedAndFetchAborts: T = 1; an abort of the first and of the last byte of the fetched word. -/
theorem witness_ThumbRefusedAndFetchAborts :
    (status 0xF3 (given [])).cpsr.t = true ∧ (given []).faultMark = none ∧ (given []).refusalMark = none ∧
    (currentInputs (given [])).reset = false ∧ (currentInputs (given [])).fiq = false ∧
    (currentInputs (given [])).irq = false ∧ (given []).cpsr.t = false ∧
    memAborts (.readWord (alignWord 0x100)) (aborting 0x100 true false (atPc 0x100 (given []))) = true ∧
    memAborts (.readWord (alignWord 0x100)) (aborting 0x103 true false (atPc 0x100 (given []))) = true := by decide

theorem witness_ConditionFailedOnlyAdvances :
    (wfRefusal (.add .eq true 1 0 (.imm 0 1)) (given []) = none ∧ conditionPassed .eq (given []).cpsr = false) ∧
    (wfRefusal (.swi .nv 0) (given []) = none ∧ conditionPassed .nv (given []).cpsr = false) := by decide

theorem witness_IllFormedIsRefused :
    wfRefusal (.mrs .al true 0) (status 0x10 (given [])) = some (.unpredictable .r356) ∧
    wfRefusal (.bx .nv 0) (given [(0, 0x102)]) = some (.unpredictable .r333) ∧
    (Instr.bx .nv 15).staticRule = some .r333 := by decide

/-- BankedRegisterHazard: r13 and r14 of IRQ mode and r8 and r14 of FIQ mode are banked; r12 in IRQ mode, r7 in FIQ
mode and r14 in System mode are not; BL names r14, and an STM with S = 1 its list. -/
def tracked (m : Word) : State := { status m (given []) with lastUserBankTransfer := true }

def moves (n : RegNum) : Instr := .mov .al false 0 n (.imm 0 1)

theorem witness_BankedRegisterHazard :
    (tracked 0x92).lastUserBankTransfer = true ∧
    (∀ n ∈ [13, 14, 12], wfRefusal (moves n) (tracked 0x92) = none ∧ conditionPassed .al (tracked 0x92).cpsr = true) ∧
    (∀ n ∈ [8, 14, 7], wfRefusal (moves n) (tracked 0x91) = none) ∧ wfRefusal (moves 14) (tracked 0x9F) = none ∧
    currentBank (tracked 0x92).cpsr = .irq ∧ currentBank (tracked 0x91).cpsr = .fiq ∧
    currentBank (tracked 0x9F).cpsr = .usr ∧ wfRefusal (.bl .al 0) (tracked 0x92) = none ∧
    wfRefusal (.stm .al false true true false 0 0x2001) (tracked 0x92) = none ∧
    (0x2001#16).getLsbD (13 : RegNum).val = true := by decide

/-- TrackerSetOnlyByUserBankLoad: LDM r0, {r13}^ in Supervisor mode. -/
theorem witness_TrackerSetOnlyByUserBankLoad :
    ∃ t, exec (.ldm .al false true true false 0 0x2000) (given [(0, 0x200)]) = .next t ∧
      t.lastUserBankTransfer = true := exists_next (by decide)

/-- RegisterBanking: the ends of each range of register numbers. -/
theorem witness_RegisterBanking :
    (∀ n ∈ ([0, 7] : List RegNum), n.val < 8) ∧ (∀ n ∈ ([8, 12] : List RegNum), 8 ≤ n.val ∧ n.val < 13) ∧
    (13 : RegNum).val = 13 ∧ (14 : RegNum).val = 14 ∧ (15 : RegNum).val = 15 ∧
    (∀ n ∈ ([0, 14] : List RegNum), n ≠ 15) ∧
    ∀ m ∈ [0b10000#5, 0b11111#5, 0b10001#5, 0b10010#5, 0b10011#5, 0b10111#5, 0b11011#5],
      ({ launchPsr with m := m } : Psr).m = m := by decide

/-- MemoryIsLittleEndian: reset memory and a memory with bytes at both ends; the addresses just outside a word and a
halfword that wrap around. -/
theorem witness_MemoryIsLittleEndian :
    State.reset.memory.wf = true ∧ (storing [(0xFFFFFFFE, 0x44332211)] (given [])).memory.wf = true ∧
    4 ≤ ((0xFFFFFFFE#32 + 4#32) - 0xFFFFFFFE#32).toNat ∧ 4 ≤ ((0#32 - 1#32) - 0#32).toNat ∧
    2 ≤ ((0xFFFFFFFF#32 + 2#32) - 0xFFFFFFFF#32).toNat := by decide

theorem witness_ShiftByImmediate :
    (0#4 = 0#4) ∧ (∀ r ∈ [1#4, 15#4], r ≠ 0#4) ∧ (∀ n ∈ [1#5, 31#5], n ≠ 0#5) ∧
    ∀ ty ∈ [ShiftType.lsr, .asr, .ror], ty ≠ .lsl := by decide

theorem witness_ShiftByRegister :
    (∀ n ∈ [1, 31], 1 ≤ n ∧ n ≤ 31) ∧ (∀ n ∈ [33, 255], 33 ≤ n ∧ n ≤ 255) ∧ (∀ n ∈ [32, 255], 32 ≤ n ∧ n ≤ 255) ∧
    (∀ n ∈ [32, 224], 1 ≤ n ∧ n ≤ 255 ∧ n % 32 = 0) ∧ ∀ n ∈ [1, 31, 33, 255], n ≤ 255 ∧ n % 32 ≠ 0 := by decide

/-- LogicalResults and ArithmeticResults: every opcode, S clear and set, Rd at both ends of its range. -/
theorem witness_LogicalResults :
    (∀ rd ∈ ([0, 14] : List RegNum), rd ≠ 15) ∧
    ∀ i ∈ [Instr.and .al true 1 0 (.imm 1 2), .eor .al false 15 14 (.regImm 2 .lsl 0), .orr .al true 1 0 (.regReg 2 .ror 3),
      .bic .al false 1 14 (.imm 0 255), .mov .al true 0 0 (.regImm 15 .asr 31), .mvn .al false 0 14 (.imm 0 0)],
      Executes i (given [(1, 5)]) := ⟨by decide, all_execute (by decide)⟩

theorem witness_ArithmeticResults :
    (∀ rd ∈ ([0, 14] : List RegNum), rd ≠ 15) ∧
    ∀ i ∈ [Instr.add .al true 15 0 (.imm 1 2), .adc .al false 1 14 (.regImm 2 .lsl 0), .sub .al true 1 0 (.regReg 2 .ror 3),
      .sbc .al false 1 14 (.imm 0 255), .rsb .al true 0 0 (.regImm 15 .asr 31), .rsc .al false 0 14 (.imm 0 0)],
      Executes i (given [(1, 5)]) := ⟨by decide, all_execute (by decide)⟩

theorem witness_CompareResults :
    ∀ i ∈ [Instr.tst .al true 1 0 (.imm 1 2), .teq .al true 15 0 (.regImm 2 .lsl 0), .cmp .al true 1 0 (.regReg 2 .ror 3),
      .cmn .al true 1 0 (.imm 0 255)], Executes i (given [(1, 5)]) := all_execute (by decide)

/-- DataProcessingToPc: a branch, and a return from Supervisor mode to User mode. -/
def returning : State := { given [(14, 0x2C)] with spsrs := { State.reset.spsrs with svc := Psr.ofWord 0x60000010 } }

theorem witness_DataProcessingToPc :
    writesRd .mov = true ∧ Executes (dataProcInstr .mov .al false 0 15 (.regImm 14 .lsl 0)) returning ∧
    writesRd .sub = true ∧ Executes (dataProcInstr .sub .al true 14 15 (.imm 0 4)) returning :=
  ⟨rfl, executes_of (by decide), rfl, executes_of (by decide)⟩

/-- DataProcessingRefusals: one state and operands for each clause. -/
theorem witness_DataProcessingRefusals :
    (writesRd .teq = false ∧ false = false) ∧ (writesRd .cmp = false ∧ ¬ (true = false) ∧ (1 : RegNum) ≠ 0) ∧
    ((1 : RegNum) ≠ 0) ∧
    (∃ rm ty rs, Operand2.regReg 2 .lsl 15 = .regReg rm ty rs ∧ ((1 : RegNum) = 15 ∨ (1 : RegNum) = 15 ∨ rm = 15 ∨ rs = 15)) ∧
    (writesRd .mov = true ∧ (given [(0, 0x102)]).cpsr.t = false ∧
      (aluResult .mov 0 (.regImm 0 .lsl 0) (given [(0, 0x102)])).value.extractLsb' 0 2 ≠ 0b00#2) ∧
    currentSpsr (status 0x10 (given [])) = none ∧
    (∃ saved, currentSpsr (given []) = some saved ∧ legalMode saved.m = false) ∧
    (∃ saved, currentSpsr returning = some saved ∧ legalMode saved.m = true ∧ saved.t = false ∧
      (aluResult .mov 0 (.imm 0 2) returning).value.extractLsb' 0 2 ≠ 0b00#2) ∧
    (∃ saved, currentSpsr returning = some saved ∧ legalMode saved.m = true ∧
      (aluResult .mov 0 (.regImm 14 .lsl 0) returning).value.extractLsb' 0 2 = 0b00#2) := by
  refine ⟨by decide, by decide, by decide, ⟨2, .lsl, 15, rfl, by decide⟩, by decide, rfl,
    ⟨_, rfl, by decide⟩, ⟨_, rfl, by decide⟩, ⟨_, rfl, by decide⟩⟩

theorem witness_MultiplyResults :
    ∀ i ∈ [Instr.mul .al true 0 0 2 1, .mla .al false 14 3 2 1, .umull .al true 3 2 1 0, .umlal .al false 3 2 1 0,
      .smull .al true 14 12 0 0, .smlal .al false 5 4 1 0], Executes i (given [(1, 6), (2, 7)]) := all_execute (by decide)

theorem witness_MultiplyRefusals :
    ((0 : RegNum) = 0) ∧ (15 : RegNum) = 15 ∧
    ¬ ((0 : RegNum) = 1 ∨ (0 : RegNum) = 15 ∨ (1 : RegNum) = 15 ∨ (2 : RegNum) = 15 ∨ (0 : RegNum) ≠ 0) ∧
    ¬ ((3 : RegNum) = 2 ∨ (3 : RegNum) = 0 ∨ (2 : RegNum) = 0 ∨ (3 : RegNum) = 15 ∨ (2 : RegNum) = 15 ∨ (0 : RegNum) = 15 ∨
      (1 : RegNum) = 15) := by decide

/-! The single transfers: x[1] = 0x200 in each state, and the operands of every form. -/

def loadForms : List Instr :=
  [.ldrPre .al true true 1 0 (.imm 4), .ldrPost .al true 1 15 (.imm 4), .ldrt .al true 1 0 (.imm 4),
    .ldrbPre .al false false 1 14 (.imm 4), .ldrbPost .al true 1 0 (.reg 2 .lsl 0), .ldrbt .al true 1 0 (.imm 4095),
    .ldrh .al true true false 1 0 (.imm 4), .ldrsh .al false true false 1 0 (.imm 4), .ldrsb .al true true true 1 0 (.imm 4)]

def storeForms : List Instr :=
  [.strPre .al true true 1 0 (.imm 4), .strPost .al true 1 15 (.imm 4), .strt .al true 1 0 (.imm 4),
    .strbPre .al true false 1 14 (.imm 4), .strbPost .al true 1 0 (.reg 2 .lsl 0), .strbt .al true 1 0 (.imm 4095),
    .strh .al true true false 1 0 (.imm 4)]

def swapForms : List Instr := [.swp .al 0 1 0 2, .swpb .al 0 1 0 0]

def at200 : State := given [(1, 0x200)]

theorem forms_execute : ∀ i ∈ loadForms ++ storeForms ++ swapForms, Executes i at200 := all_execute (by decide)

/-- LoadWordResults, StoreWordResults, ByteTransferResults, HalfwordTransferResults, SwapResults: the conditions on
memory, for the request of each form above. -/
theorem witness_LoadWordResults :
    Executes (.ldrPre .al true true 1 0 (.imm 4)) at200 ∧ memAborts (.readWord 0x204) at200 = false ∧
    Executes (.ldrPost .al true 1 15 (.imm 4)) at200 ∧ Executes (.ldrt .al true 1 0 (.imm 4)) at200 ∧
    memAborts (.readWord 0x200) at200 = false :=
  ⟨forms_execute _ (by decide), by decide, forms_execute _ (by decide), forms_execute _ (by decide), by decide⟩

theorem witness_StoreWordResults :
    Executes (.strPre .al true true 1 0 (.imm 4)) at200 ∧ Executes (.strPost .al true 1 15 (.imm 4)) at200 ∧
    Executes (.strt .al true 1 0 (.imm 4)) at200 ∧
    ∀ q ∈ [MemRequest.writeWord 0x204 0, .writeWord 0x200 12, .writeWord 0x200 0], StoreAllowed q at200 :=
  ⟨forms_execute _ (by decide), forms_execute _ (by decide), forms_execute _ (by decide), all_allowed (by decide)⟩

theorem witness_ByteTransferResults :
    Executes (.ldrbPre .al false false 1 14 (.imm 4)) at200 ∧ memAborts (.readByte 0x1FC) at200 = false ∧
    Executes (.ldrbPost .al true 1 0 (.reg 2 .lsl 0)) at200 ∧ Executes (.ldrbt .al true 1 0 (.imm 4095)) at200 ∧
    memAborts (.readByte 0x200) at200 = false ∧ Executes (.strbPre .al true false 1 14 (.imm 4)) at200 ∧
    Executes (.strbPost .al true 1 0 (.reg 2 .lsl 0)) at200 ∧ Executes (.strbt .al true 1 0 (.imm 4095)) at200 ∧
    ∀ q ∈ [MemRequest.writeByte 0x204 0, .writeByte 0x200 0], StoreAllowed q at200 :=
  ⟨forms_execute _ (by decide), by decide, forms_execute _ (by decide), forms_execute _ (by decide), by decide,
    forms_execute _ (by decide), forms_execute _ (by decide), forms_execute _ (by decide),
    all_allowed (by decide)⟩

theorem witness_HalfwordTransferResults :
    Executes (.ldrh .al true true false 1 0 (.imm 4)) at200 ∧ Executes (.ldrsh .al false true false 1 0 (.imm 4)) at200 ∧
    Executes (.ldrsb .al true true true 1 0 (.imm 4)) at200 ∧ Executes (.strh .al true true false 1 0 (.imm 4)) at200 ∧
    memAborts (.readHalf 0x204) at200 = false ∧ memAborts (.readHalf 0x200) at200 = false ∧
    memAborts (.readByte 0x204) at200 = false ∧ StoreAllowed (.writeHalf 0x204 0) at200 :=
  ⟨forms_execute _ (by decide), forms_execute _ (by decide), forms_execute _ (by decide),
    forms_execute _ (by decide), by decide, by decide, by decide, storeAllowed_of (by decide)⟩

theorem witness_SwapResults :
    Executes (.swp .al 0 1 0 2) at200 ∧ Executes (.swpb .al 0 1 0 0) at200 ∧ memAborts (.readWord 0x200) at200 = false ∧
    StoreAllowed (.writeWord 0x200 0) (called (.readWord 0x200) at200) ∧ memAborts (.readByte 0x200) at200 = false ∧
    StoreAllowed (.writeByte 0x200 0) (called (.readByte 0x200) at200) :=
  ⟨forms_execute _ (by decide), forms_execute _ (by decide), by decide, storeAllowed_of (by decide), by decide,
    storeAllowed_of (by decide)⟩

/-- SingleTransferRefusals: an odd halfword address under HALF_MISALIGN = Refuse. -/
def oddRefused : State := { given [(1, 0x201)] with policy := { State.reset.policy with halfMisalign := .refuse } }

theorem witness_SingleTransferRefusals :
    oddRefused.policy.halfMisalign = .refuse ∧ (readReg 1 oddRefused + halfOffset (.imm 0) oddRefused).getLsbD 0 = true ∧
    (readReg 1 oddRefused + halfOffset (.imm 1) oddRefused).getLsbD 0 = false ∧
    (∃ m ty n, Offset.reg 15 .lsl 0 = .reg m ty n ∧ (m = 15 ∨ (false = true ∧ m = 1))) ∧
    (∃ y m, HalfOffset.reg 1 2 = .reg y m ∧ (m = 15 ∨ y ≠ 0#4 ∨ (false = true ∧ m = 1))) :=
  ⟨rfl, by decide, by decide, ⟨15, .lsl, 0, rfl, by decide⟩, ⟨1, 2, rfl, by decide⟩⟩

/-- SingleTransferAborts: the bytes 0x1FC to 0x207 abort reads and writes. -/
def abortAt200 : State := { at200 with abortMap := [⟨0x1FC, 12, true, true⟩] }

/-- Only writes abort, which a swap finds after its read. -/
def writeAbortAt200 : State := { at200 with abortMap := [⟨0x200, 1, false, true⟩] }

theorem witness_SingleTransferAborts :
    (∀ i ∈ loadForms ++ storeForms ++ swapForms, Executes i abortAt200) ∧
    (∀ q ∈ [MemRequest.readWord 0x204, .readWord 0x200, .readByte 0x1FC, .readByte 0x200, .readHalf 0x204, .readHalf 0x200,
      .readByte 0x204], memAborts q abortAt200 = true) ∧
    (∀ q ∈ [MemRequest.writeWord 0x204 0, .writeWord 0x200 12, .writeWord 0x200 0, .writeByte 0x204 0, .writeByte 0x200 0,
      .writeHalf 0x204 0], NoHazard q abortAt200 ∧ memAborts q abortAt200 = true) ∧
    (∀ i ∈ swapForms, Executes i writeAbortAt200) ∧
    ∀ x ∈ [(MemRequest.readWord 0x200, MemRequest.writeWord 0x200 0), (.readByte 0x200, .writeByte 0x200 0)],
      memAborts x.1 writeAbortAt200 = false ∧ NoHazard x.2 writeAbortAt200 ∧
      memAborts x.2 (called x.1 writeAbortAt200) = true :=
  ⟨all_execute (by decide), by decide,
    fun q hq => ⟨noHazard_of (by revert q; decide), by revert q; decide⟩, all_execute (by decide),
    fun x hx => ⟨by revert x; decide, noHazard_of (by revert x; decide), by revert x; decide⟩⟩

/-- StorePrefetchHazard: pc = 0x200; the first byte of the window is pc + 4, the last one pc + 11; the block store begins
at 0x200, whose second word is in the window, and the coprocessor supplies two words from there. -/
def windowState : State :=
  answering [(.stcBegin 1 false 0, ⟨true, 0, 3⟩), (.stcWord 1 0, ok), (.stcWord 1 1, ok)]
    (atPc 0x200 (given [(1, 0x204), (3, 0x20B), (4, 0x200)]))

theorem witness_StorePrefetchHazard :
    (∀ i ∈ [Instr.strPre .al true true 1 0 (.imm 0), .strPost .al true 1 0 (.imm 4), .strt .al true 1 0 (.imm 4),
      .strbPre .al true false 3 0 (.imm 0), .strbPost .al true 3 0 (.imm 4), .strbt .al true 3 0 (.imm 4),
      .strh .al true true false 3 0 (.imm 0), .swp .al 0 1 0 2, .swpb .al 0 3 0 2, .stm .al false true false false 4 3,
      .stc .al true true false false 4 0 1 0], Executes i windowState) ∧
    (∃ k < 4, ∃ j : Nat, 4 ≤ j ∧ j ≤ 11 ∧ alignWord 0x204 + BitVec.ofNat 32 k = windowState.pc + BitVec.ofNat 32 j) ∧
    (∃ k < 1, ∃ j : Nat, 4 ≤ j ∧ j ≤ 11 ∧ 0x20B#32 + BitVec.ofNat 32 k = windowState.pc + BitVec.ofNat 32 j) ∧
    (∃ k < 2, ∃ j : Nat, 4 ≤ j ∧ j ≤ 11 ∧ alignHalf 0x20B + BitVec.ofNat 32 k = windowState.pc + BitVec.ofNat 32 j) ∧
    memAborts (.readWord 0x204) windowState = false ∧ memAborts (.readByte 0x20B) windowState = false ∧
    inList 3 1 = true ∧ blockSlot false true 4 3 1 windowState = 0x204#32 ∧ coprocSlot 0x200 1 = 0x204#32 ∧
    (∀ q : RegNum, inList 3 q = true → q < 1 → StoreAllowed (.writeWord (blockSlot false true 4 3 q windowState) 0) windowState) ∧
    (windowState.coproc.reply (.stcBegin 1 false 0)).1 = ⟨true, 0, 3⟩ ∧
    StoreAllowed (.writeWord (coprocSlot 0x200 0) 0) windowState :=
  ⟨all_execute (by decide), ⟨0, by decide, 4, by decide⟩, ⟨0, by decide, 11, by decide⟩, ⟨1, by decide, 11, by decide⟩,
    by decide, by decide, by decide, by decide, by decide, fun q hq hl => storeAllowed_of (by revert q; decide), rfl,
    storeAllowed_of (by decide)⟩

/-! The block transfers, at x[0] = 0x300. -/

def at300 : State := { given [(0, 0x300), (13, 0x400)] with spsrs := { State.reset.spsrs with svc := Psr.ofWord 0x10 } }

/-- The read of register r in a block load, in the state the earlier ones leave, is answered. -/
abbrev readAnswered (p u : Bool) (rn : RegNum) (list : BitVec 16) (s : State) (r : RegNum) : Prop :=
  memAborts (.readWord (blockSlot p u rn list r s))
    (beforeSlot (fun q => .readWord (blockSlot p u rn list q s)) list r s) = false

/-- The write of register r in a block store, and the state it is made in. -/
def blockWrite (p u sb : Bool) (rn : RegNum) (list : BitVec 16) (s : State) (r : RegNum) : MemRequest :=
  .writeWord (blockSlot p u rn list r s)
    (if r = 15 then s.pc + 12#32 else readRegIn (if sb then .usr else currentBank s.cpsr) r s)

def beforeWrite (p u sb : Bool) (rn : RegNum) (list : BitVec 16) (s : State) (r : RegNum) : State :=
  beforeSlot (blockWrite p u sb rn list s) list r s

theorem witness_BlockLoadResults :
    Executes (.ldm .al false true false true 0 0x8006) at300 ∧ (∀ r : RegNum, inList 0x8006 r = true → readAnswered false true 0 0x8006 at300 r) :=
  ⟨executes_of (by decide), by decide⟩

theorem witness_BlockStoreResults :
    Executes (.stm .al true false false true 0 0x8003) at300 ∧ Executes (.stm .al true false true false 0 0x8003) at300 ∧
    ∀ sb : Bool, ∀ r : RegNum, inList 0x8003 r = true →
      StoreAllowed (blockWrite true false sb 0 0x8003 at300 r) (beforeWrite true false sb 0 0x8003 at300 r) :=
  ⟨executes_of (by decide), executes_of (by decide), fun sb r hr => storeAllowed_of (by revert sb r; decide)⟩

theorem witness_UserBankLoadResults :
    inList 0x7FFF 15 = false ∧ Executes (.ldm .al true true true false 0 0x7FFF) at300 ∧
    (∀ r : RegNum, inList 0x7FFF r = true → readAnswered true true 0 0x7FFF at300 r) := ⟨by decide, executes_of (by decide), by decide⟩

theorem witness_BlockLoadExceptionReturn :
    inList 0xA002 15 = true ∧ Executes (.ldm .al false false true true 0 0xA002) at300 ∧
    (∀ r : RegNum, inList 0xA002 r = true → readAnswered false false 0 0xA002 at300 r) := ⟨by decide, executes_of (by decide), by decide⟩

/-- BlockTransferRefusals: no SPSR in User mode; an SPSR with an illegal mode after reset; a listed base that is not
the lowest register, at the boundary r1 over r0. -/
theorem witness_BlockTransferRefusals :
    (status 0x10 at300).spsrs.get (currentBank (status 0x10 at300).cpsr) = none ∧
    (∃ saved, (given []).spsrs.get (currentBank (given []).cpsr) = some saved ∧ legalMode saved.m = false) ∧
    inList 0x8000 15 = true ∧ inList 3 1 = true ∧ (∃ q : RegNum, q < 1 ∧ inList 3 q = true) ∧
    (∀ i ∈ [Instr.ldm .al false true false false 0 1, .stm .al false true true false 0 1], wfRefusal i at300 = none) :=
  ⟨rfl, ⟨_, rfl, by decide⟩, by decide, by decide, ⟨0, by decide⟩, by decide⟩

/-- BlockTransferAborts: the second word, at 0x304, aborts. -/
def abortAt304 : State := { at300 with abortMap := [⟨0x304, 4, true, true⟩] }

theorem witness_BlockTransferAborts :
    inList 6 2 = true ∧ Executes (.ldm .al false true false true 0 6) abortAt304 ∧
    (∀ q : RegNum, inList 6 q = true → q < 2 → readAnswered false true 0 6 abortAt304 q) ∧
    ¬ readAnswered false true 0 6 abortAt304 2 ∧
    Executes (.stm .al false true true false 0 6) abortAt304 ∧
    (∀ q : RegNum, inList 6 q = true → q < 2 →
      StoreAllowed (blockWrite false true true 0 6 abortAt304 q) (beforeWrite false true true 0 6 abortAt304 q)) ∧
    NoHazard (blockWrite false true true 0 6 abortAt304 2) abortAt304 ∧
    memAborts (blockWrite false true true 0 6 abortAt304 2) (beforeWrite false true true 0 6 abortAt304 2) = true :=
  ⟨by decide, executes_of (by decide), by decide, by decide, executes_of (by decide),
    fun q hq hl => storeAllowed_of (by revert q; decide), noHazard_of (by decide), by decide⟩

theorem witness_BranchResults :
    (∀ i ∈ [Instr.b .al 0xFFFFFE, .bl .al 0x7FFFFF], Executes i (given [(0, 0x102)])) ∧
    (readReg 0 (given [(0, 0x102)])).getLsbD 1 = true ∧ (readReg 0 (given [(0, 0x102)])).getLsbD 0 = false ∧
    (∀ i ∈ [Instr.bx .al 0], Executes i (given [(0, 0x103)])) ∧ (readReg 0 (given [(0, 0x103)])).getLsbD 0 = true ∧
    (readReg 0 (given [(0, 0x100)])).getLsbD 1 = false ∧ (15 : RegNum) = 15 ∧ (14 : RegNum) ≠ 15 :=
  ⟨all_execute (by decide), by decide, by decide, all_execute (by decide), by decide, by decide, rfl, by decide⟩

theorem witness_StatusReadResults :
    Executes (.mrs .al false 14) (status 0x10 (given [])) ∧ Executes (.mrs .al true 0) (given []) :=
  ⟨executes_of (by decide), executes_of (by decide)⟩

/-- StatusWriteResults: r0 = 0x1F, System mode; the SPSR and the CPSR, in Supervisor and User mode. -/
theorem witness_StatusWriteResults :
    (∀ i ∈ [Instr.msrReg .al false 0, .msrReg .al true 0, .msrFlg .al false (.imm 4 0xF0), .msrFlg .al true (.reg 0 0),
      .msrGen .al false 1 (.reg 0 0), .msrGen .al true 15 (.imm 0 0)], Executes i (given [(0, 0x1F)])) ∧
    ∀ i ∈ [Instr.msrReg .al false 0, .msrGen .al false 1 (.imm 0 0)], Executes i (status 0x10 (given [])) :=
  ⟨all_execute (by decide), all_execute (by decide)⟩

theorem witness_StatusTransferRefusals :
    (status 0x10 (given [])).spsrs.get (currentBank (status 0x10 (given [])).cpsr) = none ∧
    (∃ z m, PsrSource.reg 1 0 = .reg z m ∧ (m = 15 ∨ z ≠ 0#8)) ∧
    (let s := given [(0, 0xC5)]; s.cpsr.m ≠ 0b10000#5 ∧ legalMode ((readReg 0 s).extractLsb' 0 5) = false) ∧
    (let s := given [(0, 0xF3)]; s.cpsr.m ≠ 0b10000#5 ∧ legalMode ((readReg 0 s).extractLsb' 0 5) = true ∧ (readReg 0 s).getLsbD 5 ≠ s.cpsr.t) ∧
    (let s := given [(0, 0xD3)]; s.cpsr.m ≠ 0b10000#5 ∧ legalMode ((readReg 0 s).extractLsb' 0 5) = true ∧ (readReg 0 s).getLsbD 5 = s.cpsr.t) ∧
    (given []).policy.msrGeneralMask = true :=
  ⟨rfl, ⟨1, 0, rfl, by decide⟩, by decide, by decide, by decide, rfl⟩

/-- SoftwareTraps: under UNDEF_POLICY = Trap and Halt. -/
def haltPolicy : State := { given [] with policy := { State.reset.policy with undef := .halt } }

theorem witness_SoftwareTraps :
    (∀ i ∈ [Instr.swi .al 0xFFFFFF, .undefStoreSigned .al 14 0x100 false 0, .undefHalfZero .al 29 0x100 0,
      .undefTrap .al 0xF8000 0], Executes i (given [])) ∧ (given []).policy.undef = .trap ∧
    (∀ i ∈ [Instr.undefStoreSigned .al 14 0x100 false 0, .undefHalfZero .al 29 0x100 0, .undefTrap .al 0xF8000 0],
      Executes i haltPolicy) ∧ haltPolicy.policy.undef = .halt ∧ conditionPassed .eq (given []).cpsr = false :=
  ⟨all_execute (by decide), rfl, all_execute (by decide), rfl, rfl⟩

/-! The coprocessor instructions: coprocessor 2 answers with a count of 2 and takes or supplies two words; coprocessor 5
answers the register transfers. -/

def answers : List (CoprocRequest × CoprocAnswer) :=
  [(.ldcBegin 2 false 1, ⟨true, 0, 1⟩), (.ldcWord 2 0 0, ok), (.ldcWord 2 1 0, ok), (.stcBegin 2 false 1, ⟨true, 0, 1⟩),
    (.stcWord 2 0, ⟨true, 7, 0⟩), (.stcWord 2 1, ⟨true, 8, 0⟩), (.cdp 5 1 2 3 6 7, ok), (.mcr 5 1 2 7 6 12, ok),
    (.mcr 5 1 2 7 6 0x300, ok), (.mrc 5 1 2 7 6, ⟨true, 0xA0000000, 0⟩)]

def coprocState : State := answering answers at300

theorem witness_CoprocessorRegisterResults :
    (∀ q ∈ [CoprocRequest.cdp 5 1 2 3 6 7, .mcr 5 1 2 7 6 12, .mcr 5 1 2 7 6 0x300, .mrc 5 1 2 7 6],
      (coprocState.coproc.reply q).1.present = true) ∧
    ∀ i ∈ [Instr.cdp .al 1 2 3 5 6 7, .mcr .al 1 2 15 5 6 7, .mcr .al 1 2 0 5 6 7, .mrc .al 1 2 14 5 6 7,
      .mrc .al 1 2 15 5 6 7], Executes i coprocState := ⟨by decide, all_execute (by decide)⟩

/-- The reads of an LDC and the writes of an STC, from 0x300. -/
def coprocRead (k : Nat) : MemRequest := .readWord (coprocSlot 0x300 k)

def coprocWrite (k : Nat) : MemRequest := .writeWord (coprocSlot 0x300 k) (BitVec.ofNat 32 (7 + k))

def beforeWord (request : Nat → MemRequest) (k : Nat) (s : State) : State := callAll ((List.range k).map request) s

theorem witness_CoprocessorTransferResults :
    (coprocState.coproc.reply (.ldcBegin 2 false 1)).1 = ⟨true, 0, 1⟩ ∧
    (coprocState.coproc.reply (.stcBegin 2 false 1)).1 = ⟨true, 0, 1⟩ ∧
    (∀ k < 2, ((coprocState.coproc.afterAll (.stcBegin 2 false 1 :: (List.range k).map fun j => .stcWord 2 j)).reply
      (.stcWord 2 k)).1.value = BitVec.ofNat 32 (7 + k)) ∧
    (∀ i ∈ [Instr.ldc .al false true false true 0 1 2 1, .stc .al false true false true 0 1 2 1], Executes i coprocState) ∧
    (∀ k < 2, memAborts (coprocRead k) (beforeWord coprocRead k coprocState) = false) ∧
    ∀ k < 2, StoreAllowed (coprocWrite k) (beforeWord coprocWrite k coprocState) :=
  ⟨rfl, rfl, by decide, all_execute (by decide), by decide, fun k hk => storeAllowed_of (by revert k; decide)⟩

/-- CoprocessorTransferAborts: the second word, k = 1, aborts. -/
def coprocAbort : State := answering answers abortAt304

theorem witness_CoprocessorTransferAborts :
    (coprocAbort.coproc.reply (.ldcBegin 2 false 1)).1 = ⟨true, 0, 1⟩ ∧
    (coprocAbort.coproc.reply (.stcBegin 2 false 1)).1 = ⟨true, 0, 1⟩ ∧
    (∀ k < 2, ((coprocAbort.coproc.afterAll (.stcBegin 2 false 1 :: (List.range k).map fun j => .stcWord 2 j)).reply
      (.stcWord 2 k)).1.value = BitVec.ofNat 32 (7 + k)) ∧
    (∀ i ∈ [Instr.ldc .al false true false true 0 1 2 1, .stc .al false true false true 0 1 2 1], Executes i coprocAbort) ∧
    (∀ j < 1, memAborts (coprocRead j) (beforeWord coprocRead j coprocAbort) = false ∧
      StoreAllowed (coprocWrite j) (beforeWord coprocWrite j coprocAbort)) ∧
    memAborts (coprocRead 1) (beforeWord coprocRead 1 coprocAbort) = true ∧ NoHazard (coprocWrite 1) coprocAbort ∧
    memAborts (coprocWrite 1) (beforeWord coprocWrite 1 coprocAbort) = true :=
  ⟨rfl, rfl, by decide, all_execute (by decide),
    fun j hj => ⟨by revert j; decide, storeAllowed_of (by revert j; decide)⟩, by decide, noHazard_of (by decide), by decide⟩

/-- CoprocessorAbsentOrRefused: no coprocessor of the number, under each COPROC_ABSENT_POLICY; a rule of a registered
coprocessor, after one that is for another request. -/
def absentUnder (p : CoprocAbsentPolicy) : State := { at300 with policy := { State.reset.policy with coprocAbsent := p } }

theorem witness_CoprocessorAbsentOrRefused :
    (∀ i ∈ [Instr.ldc .al true true false true 0 1 2 1, .stc .al true true false true 0 1 2 1, .cdp .al 1 2 3 2 5 6,
      .mcr .al 1 2 0 2 5 6, .mrc .al 1 2 0 2 5 6], Executes i (absentUnder .refuse) ∧ Executes i (absentUnder .halt) ∧
      Executes i (absentUnder .trapUndefined)) ∧
    (absentUnder .refuse).policy.coprocAbsent = .refuse ∧ (absentUnder .halt).policy.coprocAbsent = .halt ∧
    (absentUnder .trapUndefined).policy.coprocAbsent = .trapUndefined ∧
    (∀ q ∈ [CoprocRequest.ldcBegin 2 false 1, .stcBegin 2 false 1, .cdp 2 1 2 3 5 6, .mcr 2 1 2 6 5 0x300,
      .mrc 2 1 2 6 5], ((absentUnder .refuse).coproc.reply q).1.present = false) ∧
    (absentUnder .refuse).coproc.units[2].registered = false ∧ coprocState.coproc.units[2].registered = true ∧
    (coprocState.coproc.rules[0]? = some ⟨0, .ldcBegin 2 false 1, ⟨true, 0, 1⟩, 0⟩ ∧
      coprocState.coproc.rules[1]? = some ⟨0, .ldcWord 2 0 0, ok, 0⟩) ∧ coprocState.coproc.units[2].own = 0 :=
  ⟨fun i hi => ⟨all_execute (by decide) i hi, all_execute (by decide) i hi, all_execute (by decide) i hi⟩,
    rfl, rfl, rfl, by decide, rfl, rfl, ⟨rfl, rfl⟩, rfl⟩

/-- RegisterInstructionFrame: a next state is answered for one form of each of its four parts. -/
theorem witness_RegisterInstructionFrame :
    (∃ t, exec (dataProcInstr .add .al true 1 0 (.imm 0 1)) at300 = .next t ∧ t.pc = 4#32) ∧
    (∃ t, exec (.mul .al true 4 0 2 1) at300 = .next t ∧ t.pc = 4#32) ∧
    (∃ t, exec (.mrs .al true 0) at300 = .next t ∧ t.pc = 4#32) ∧
    (∃ t, exec (.msrFlg .al false (.imm 4 0xF0)) at300 = .next t ∧ t.pc = 4#32) ∧
    (∃ t, exec (.bl .al 0) at300 = .next t ∧ t.pc = 8#32) ∧
    (∃ t, exec (.bx .al 0) at300 = .next t ∧ t.pc = 0x300#32) :=
  ⟨exists_next (by decide), exists_next (by decide), exists_next (by decide), exists_next (by decide),
    exists_next (by decide), exists_next (by decide)⟩

theorem witness_LoadFrame :
    memAborts (.readWord (alignWord 0x204)) at200 = false ∧ memAborts (.readHalf (alignHalf 0x204)) at200 = false ∧
    (∃ t, exec (.ldrPre .al true true 1 0 (.imm 4)) at200 = .next t ∧ readReg 1 t = 0x204#32) ∧
    (∃ t, exec (.ldrh .al true true false 1 0 (.imm 4)) at200 = .next t ∧ readReg 1 t = 0x200#32) :=
  ⟨by decide, by decide, exists_next (by decide), exists_next (by decide)⟩

theorem witness_StoreFrame :
    memAborts (.writeWord (alignWord 0x204) 0) (callAll [] at200) = false ∧
    memAborts (.readWord (alignWord 0x200)) at200 = false ∧
    memAborts (.writeWord (alignWord 0x200) 0) (callAll [.readWord (alignWord 0x200)] at200) = false ∧
    (∃ t, exec (.strPre .al true true 1 0 (.imm 4)) at200 = .next t ∧ readReg 1 t = 0x204#32) ∧
    (∃ t, exec (.swp .al 0 1 0 2) at200 = .next t ∧ readReg 1 t = 0x200#32) :=
  ⟨by decide, by decide, by decide, exists_next (by decide), exists_next (by decide)⟩

end Sys2Proof.Machine.Tests
end

/-! ### AddWithCarry (R14): its value and flags, and the sign form of overflow (R208). -/

namespace Sys2Proof.Machine

theorem addWithCarry_value_toNat (a b : Word) (cin : Bool) :
    (addWithCarry a b cin).value.toNat = (a.toNat + b.toNat + cin.toNat) % 2 ^ 32 :=
  BitVec.toNat_ofNat ..

theorem addWithCarry_carry_iff (a b : Word) (cin : Bool) :
    (addWithCarry a b cin).carry = true ↔ 2 ^ 32 ≤ a.toNat + b.toNat + cin.toNat :=
  decide_eq_true_iff

theorem addWithCarry_overflow_iff (a b : Word) (cin : Bool) : (addWithCarry a b cin).overflow = true ↔
    a.toInt + b.toInt + cin.toNat < -2 ^ 31 ∨ 2 ^ 31 - 1 < a.toInt + b.toInt + cin.toNat := by
  rw [addWithCarry_plain]
  exact decide_eq_true_iff

/-- The result read as signed is the signed sum, wrapped: the unsigned and the signed sum agree modulo 2^32. -/
theorem addWithCarry_value_toInt (a b : Word) (cin : Bool) :
    (addWithCarry a b cin).value.toInt = (a.toInt + b.toInt + cin.toNat).bmod (2 ^ 32) := by
  rw [addWithCarry_plain]
  cases cin <;> simp [BitVec.toInt_add]

/-- A sum of two 32-bit integers and a carry leaves the range exactly when wrapping it gives it the sign that neither
operand has: it wraps at most once, and operands of different signs stay in the range. -/
theorem sum_out_of_range_iff_sign {x y c : Int} (hx : -2 ^ 31 ≤ x ∧ x < 2 ^ 31) (hy : -2 ^ 31 ≤ y ∧ y < 2 ^ 31)
    (hc : 0 ≤ c ∧ c ≤ 1) : (x + y + c < -2 ^ 31 ∨ 2 ^ 31 - 1 < x + y + c) ↔
      (x < 0 ↔ y < 0) ∧ ¬((x + y + c).bmod (2 ^ 32) < 0 ↔ x < 0) := by
  rw [Int.bmod_def]
  omega

theorem addWithCarry_overflow_iff_msb (a b : Word) (cin : Bool) : (addWithCarry a b cin).overflow = true ↔
    a.msb = b.msb ∧ (addWithCarry a b cin).value.msb ≠ a.msb := by
  have hc : 0 ≤ (cin.toNat : Int) ∧ (cin.toNat : Int) ≤ 1 := by cases cin <;> decide
  rw [addWithCarry_overflow_iff,
    sum_out_of_range_iff_sign ⟨BitVec.le_toInt a, BitVec.toInt_lt⟩ ⟨BitVec.le_toInt b, BitVec.toInt_lt⟩ hc,
    ← addWithCarry_value_toInt]
  simp only [BitVec.msb_eq_toInt, ne_eq, decide_eq_decide]

/-- Settles O26: the unsigned, signed and sign forms of the three fields, one lemma each. -/
theorem addWithCarryFlags : Obligations.AddWithCarryFlags := fun a b cin =>
  ⟨addWithCarry_value_toNat a b cin, addWithCarry_carry_iff a b cin, addWithCarry_overflow_iff a b cin,
    addWithCarry_overflow_iff_msb a b cin⟩

end Sys2Proof.Machine

/-! ### After reset (R57, R61) -/

namespace Sys2Proof.Machine

/-- Settles O8: the four parts of the invariant, each computed at the one state after reset. -/
theorem invariantAtReset : Obligations.InvariantAtReset where
  memory := reset_memory_wf
  mode := legalMode_bits .supervisor
  pc := by decide
  tracker h := nomatch h

/-- Settles O11: each value stands in `State.reset`. -/
theorem resetStateValues : Obligations.ResetStateValues := ⟨rfl, rfl, rfl, rfl, rfl, rfl, rfl, rfl⟩

end Sys2Proof.Machine

/-! ### The bank map (R35) -/

namespace Sys2Proof.Machine

/-- The table of R35 row by row. -/
theorem bankReg_eq (k : Bank) (n : RegNum) :
    (∀ h : n.val < 8, bankReg k n = some (.low ⟨n.val, h⟩)) ∧
    (∀ (_ : 8 ≤ n.val) (h' : n.val < 13),
      bankReg k n = some (if k = .fiq then .midFiq ⟨n.val - 8, by omega⟩ else .mid ⟨n.val - 8, by omega⟩)) ∧
    (n.val = 13 → bankReg k n = some (.r13 k)) ∧ (n.val = 14 → bankReg k n = some (.r14 k)) ∧
    (n.val = 15 → bankReg k n = none) := by
  refine ⟨fun h => dif_pos h, fun h h' => ?_, fun h => ?_, fun h => ?_, fun h => ?_⟩
  · rw [bankReg, dif_neg (by omega), dif_pos h']
    split <;> rfl
  all_goals simp [bankReg, h]

/-- Writing a register of one bank and reading one of another, or of the same: R35 says which names share a physical
register. -/
theorem readRegIn_writeRegIn (j k : Bank) (m : RegNum) {n : RegNum} (hn : n ≠ 15) (v : Word) (s : State) :
    readRegIn j m (writeRegIn k n v s) = if bankReg j m = bankReg k n then v else readRegIn j m s := by
  obtain ⟨p, hp⟩ := bankReg_isSome k n hn
  cases hm : bankReg j m with
  | none => simp [readRegIn, hm, hp]
  | some q =>
    simp only [readRegIn, hm, writeRegIn_regs hp, hp, Option.some.injEq]
    split
    next h => rw [h, RegFile.read_write_same]
    next h => exact RegFile.read_write_ne _ v h

theorem writeRegIn_pc_eq (k : Bank) (v : Word) (s : State) : writeRegIn k 15 v s = s := by simp [writeRegIn]

/-- Settles O22: the column each mode reads, the table of R35, and read after write through it. -/
theorem registerBanking : Obligations.RegisterBanking := by
  refine ⟨fun p => ⟨?_, currentBank_of_bits p .fiq, currentBank_of_bits p .irq, currentBank_of_bits p .supervisor,
    currentBank_of_bits p .abort, currentBank_of_bits p .undefined⟩, fun _ _ _ => ⟨rfl, rfl⟩, bankReg_eq,
    fun j k m _ v s hn => readRegIn_writeRegIn j k m hn v s, fun k s => ⟨readRegIn_pc k s, (writeRegIn_pc_eq k · s)⟩⟩
  rintro (h | h)
  · exact currentBank_of_bits p .user h
  · exact currentBank_of_bits p .system h

end Sys2Proof.Machine

/-! ### What a step does to the mode, the masks and memory (R31, R32, R37, R41, R52) -/

namespace Sys2Proof.Machine

@[simp] theorem dataAbort_m (wb : Option (RegNum × Word)) (s : State) : (dataAbort wb s).cpsr.m = Mode.abort.bits :=
  congrArg Psr.m (dataAbort_entered wb s).status

/-- Every mode an exception enters is another than User (R400). -/
theorem Exc.bits_ne_user (e : Exc) : e.mode.bits ≠ Mode.user.bits := by cases e <;> decide

theorem currentSpsr_user {s : State} (h : s.cpsr.m = Mode.user.bits) : currentSpsr s = none := by
  rw [currentSpsr, currentBank_of_bits _ .user h]; rfl

/-- However an instruction reaches its next state, memory stays canonical. -/
theorem Reaches.memory_wf {s t : State} (h : Reaches s t) (hm : s.memory.wf = true) : t.memory.wf = true := by
  cases h with
  | ordinary h => exact h.memory hm
  | entry e s' h hc hp ht => subst ht; exact h.memory hm
  | exceptionReturn saved v s' h hc hs hl ht => subst ht; exact h.memory hm
  | savedStatus p q hs ht => subst ht; exact hm
  | control f v hp hl hb ht => subst ht; exact hm
  | userBank l b ht => subst ht; simpa using hm
  | userBankAbort l wb b ht =>
    obtain ⟨hmem, -⟩ := dataAbort_keeps wb (commitLoaded .usr l { s with bus := b })
    rw [ht, hmem]; simpa using hm

/-- However an instruction reaches its next state, the mode stays legal (R32). -/
theorem Reaches.mode_legal {s t : State} (h : Reaches s t) (hm : legalMode s.cpsr.m = true) :
    legalMode t.cpsr.m = true := by
  cases h with
  | ordinary h => rwa [h.m]
  | entry e s' h hc hp ht => subst ht; exact legalMode_bits e.mode
  | exceptionReturn saved v s' h hc hs hl ht => subst ht; exact hl
  | savedStatus p q hs ht => subst ht; exact hm
  | control f v hp hl hb ht => subst ht; exact hl
  | userBank l b ht => subst ht; simpa using hm
  | userBankAbort l wb b ht => rw [ht, dataAbort_m]; rfl

/-- From s to t nothing outside the User bank, no saved status register and neither mask has changed. -/
structure WithinUser (s t : State) : Prop where
  regs : ∀ q : PhysReg, (∀ n : RegNum, bankReg .usr n ≠ some q) → t.regs.read q = s.regs.read q
  spsrs : t.spsrs = s.spsrs
  i : t.cpsr.i = s.cpsr.i
  f : t.cpsr.f = s.cpsr.f

/-- In User mode nothing an instruction does but the entry of an exception reaches further than the User bank: there
is no SPSR to return by or to write (R41), and the control field is not written (R52). -/
theorem Reaches.withinUser {s t : State} (h : Reaches s t) (hs : s.cpsr.m = Mode.user.bits)
    (ht : t.cpsr.m = Mode.user.bits) : WithinUser s t := by
  have hbank : currentBank s.cpsr = .usr := currentBank_of_bits _ .user hs
  have hnone := currentSpsr_user hs
  cases h with
  | ordinary h => exact ⟨by simpa only [hbank] using h.regs, h.spsrs, h.i, h.f⟩
  | entry e s' h hc hp ht' => subst ht'; exact absurd ht e.bits_ne_user
  | exceptionReturn saved v s' h hc hsome => rw [hnone] at hsome; cases hsome
  | savedStatus p q hsome => rw [hnone] at hsome; cases hsome
  | control f v hp => rw [privileged, hs] at hp; cases hp
  | userBank l b ht' =>
    subst ht'
    exact ⟨fun q hq => commitLoaded_other .usr q l _ fun x _ => hq x.1, by simp, by simp, by simp⟩
  | userBankAbort l wb b ht' => rw [ht', dataAbort_m] at ht; cases ht

/-- Settles O10: of the ways a step ends, only the instruction's own leaves the machine in User mode. -/
theorem userModeCannotReachOtherBanks : Obligations.UserModeCannotReachOtherBanks := by
  intro s t hs h ht
  have hin : WithinUser s t := by
    obtain ⟨-, -, ⟨-, rfl⟩ | ⟨-, -, rfl⟩ | ⟨-, -, rfl⟩ | ⟨-, -, rfl⟩ | ⟨-, i, hi⟩⟩ := step_next h
    · cases ht
    · exact absurd ht (Exc.bits_ne_user .fiq)
    · exact absurd ht (Exc.bits_ne_user .irq)
    · exact absurd ht (Exc.bits_ne_user .prefetchAbort)
    · obtain ⟨-, -, rfl⟩ | ⟨hx, hb⟩ := exec_next hi
      · exact ⟨fun _ _ => rfl, rfl, rfl, rfl⟩
      · have hr := execBody_reaches (wfRefusal_clearTracker i _ ▸ hx.wellFormed) hb
        obtain ⟨hregs, hspsrs, hI, hF⟩ := hr.withinUser hs ht
        exact ⟨hregs, hspsrs, hI, hF⟩
  exact ⟨hin.regs, hin.spsrs, hin.i, hin.f⟩

end Sys2Proof.Machine

/-! ### What a step does to the PC and the hazard tracker (R38, R463) -/

namespace Sys2Proof.Machine

/-! #### Aligned words -/

/-- An address whose low two bits are 00 (R38). -/
def WordAligned (a : Word) : Prop := a.extractLsb' 0 2 = 0b00#2

theorem WordAligned.add {a b : Word} (ha : WordAligned a) (hb : WordAligned b) : WordAligned (a + b) := by
  unfold WordAligned at *
  rw [← BitVec.setWidth_eq_extractLsb' (by decide)] at *
  rw [BitVec.setWidth_add _ _ (by decide), ha, hb]
  rfl

theorem wordAligned_mask (v : Word) : WordAligned (v &&& 0xFFFFFFFC#32) := by
  rw [WordAligned, BitVec.extractLsb'_and]
  exact BitVec.and_zero

theorem wordAligned_branchOffset (offset24 : BitVec 24) : WordAligned (branchOffset offset24) := by
  apply BitVec.eq_of_getLsbD_eq
  intro i hi
  have h26 : i < 26 := by omega
  have h32 : i < 32 := by omega
  simp only [branchOffset, BitVec.getLsbD_extractLsb', BitVec.getLsbD_signExtend, BitVec.getLsbD_append, Nat.zero_add,
    hi, h26, h32, decide_true, Bool.true_and, if_true]

theorem wordAligned_vector (e : Exc) : WordAligned e.vector := by cases e <;> rfl

/-- The halfword mask of R167 and R333 clears bit 0. -/
theorem mask_bit0 (v : Word) : (v &&& 0xFFFFFFFE#32).getLsbD 0 = false := by simp

/-- A word with bit 0 clear that the check of BX lets pass is aligned (R333). -/
theorem wordAligned_bx {rm : RegNum} {s : State} (hr : bxRule rm s = none) (h0 : (readReg rm s).getLsbD 0 = false) :
    WordAligned (readReg rm s &&& 0xFFFFFFFE#32) := by
  have hne : (readReg rm s).extractLsb' 0 2 ≠ 0b10#2 := by simpa [bxRule] using hr
  have h1 : ((readReg rm s).extractLsb' 0 2).getLsbD 0 = false := by simpa using h0
  rw [WordAligned, BitVec.extractLsb'_and]
  generalize (readReg rm s).extractLsb' 0 2 = low at hne h1
  revert low
  decide

/-! #### Where a step may end -/

/-- The state in which Execute begins and everything that leaves its PC, its T and its tracker: ARM state (R161), an
aligned PC, the tracker cleared (R463). -/
structure Ready (s : State) : Prop where
  arm : s.cpsr.t = false
  pc : WordAligned s.pc
  tracker : s.lastUserBankTransfer = false

theorem Ready.congr {s t : State} (h : Ready s) (ht : t.cpsr.t = s.cpsr.t) (hp : t.pc = s.pc)
    (hl : t.lastUserBankTransfer = s.lastUserBankTransfer) : Ready t :=
  ⟨ht.trans h.arm, hp ▸ h.pc, hl.trans h.tracker⟩

theorem Ready.called {s t : State} (h : Ready s) (hc : Called s t) : Ready t :=
  h.congr (congrArg Psr.t hc.cpsr) hc.pc hc.tracker

theorem Ready.writeReg {s : State} (h : Ready s) (n : RegNum) (v : Word) : Ready (writeReg n v s) :=
  h.congr (by simp) (by simp) (by simp)

theorem Ready.applyWriteBack {s : State} (h : Ready s) (wb : Option (RegNum × Word)) : Ready (applyWriteBack wb s) :=
  h.congr (by simp) (by simp) (by simp)

theorem Ready.setCpsr {s : State} (h : Ready s) {p : Psr} (hp : p.t = s.cpsr.t) : Ready { s with cpsr := p } :=
  h.congr hp rfl rfl

/-- The part of the invariant about the PC and the tracker. -/
structure Landed (t : State) : Prop where
  pc : pcAligned t = true
  tracker : t.lastUserBankTransfer = true → currentBank t.cpsr ≠ .usr

theorem pcAligned_arm {s : State} (ht : s.cpsr.t = false) (hp : WordAligned s.pc) : pcAligned s = true := by
  rw [pcAligned, ht, hp]; rfl

theorem pcAligned_thumb {s : State} (ht : s.cpsr.t = true) (hp : s.pc.getLsbD 0 = false) : pcAligned s = true := by
  rw [pcAligned, ht, hp]; rfl

theorem arm_of_pcAligned {s : State} (h : pcAligned s = true) (ht : s.cpsr.t = false) : WordAligned s.pc := by
  simpa [pcAligned, ht, WordAligned] using h

theorem Landed.of_clear {t : State} (hp : pcAligned t = true) (hl : t.lastUserBankTransfer = false) : Landed t :=
  ⟨hp, fun h => absurd (hl.symm.trans h) (by decide)⟩

theorem Ready.landed_branchTo {s : State} (h : Ready s) {v : Word} (hv : WordAligned v) : Landed (branchTo v s) :=
  .of_clear (pcAligned_arm h.arm hv) h.tracker

theorem Ready.landed_advance {s : State} (h : Ready s) : Landed (advance s) :=
  h.landed_branchTo (h.pc.add (b := 4#32) rfl)

theorem Ready.landed_loadWritePC {s : State} (h : Ready s) (v : Word) : Landed (loadWritePC v s) :=
  h.landed_branchTo (wordAligned_mask v)

theorem landed_takeException (e : Exc) (s : State) : Landed (takeException e s) :=
  .of_clear (pcAligned_arm rfl (wordAligned_vector e)) rfl

theorem landed_dataAbort (wb : Option (RegNum × Word)) (s : State) : Landed (dataAbort wb s) := by
  obtain ⟨s', -, h⟩ := dataAbort_cases wb s
  exact h ▸ landed_takeException .dataAbort _

theorem landed_performReset (s : State) : Landed (performReset s) := .of_clear (pcAligned_arm rfl rfl) rfl

/-- A PC masked by the T bit it is left with (R167). -/
theorem pcAligned_maskPC {s : State} {v : Word} (h : s.pc = maskPC s.cpsr.t v) : pcAligned s = true := by
  cases ht : s.cpsr.t with
  | false => exact pcAligned_arm ht (by rw [h, ht]; exact wordAligned_mask v)
  | true => exact pcAligned_thumb ht (by rw [h, ht]; exact mask_bit0 v)

theorem Ready.landed_writePC {s : State} (h : Ready s) (v : Word) : Landed (writePC v s) :=
  .of_clear (pcAligned_maskPC rfl) h.tracker

theorem Ready.landed_exceptionReturn {s t : State} (h : Ready s) {v : Word} (he : exceptionReturn v s = .next t) :
    Landed t := by
  unfold exceptionReturn at he
  split at he
  · cases he
  · cases he
    exact .of_clear (pcAligned_maskPC rfl) h.tracker

/-- The target of B and BL (R330, R331). -/
theorem wordAligned_branchTarget {s : State} (hp : WordAligned s.pc) (offset24 : BitVec 24) :
    WordAligned (branchTarget offset24 s) :=
  (hp.add (b := Config.pcReadOffset) rfl).add (wordAligned_branchOffset offset24)

/-! #### Where each body ends -/

section
variable {s t : State}

theorem Ready.landed_dataProc (hs : Ready s) {op : AluOp} {sf : Bool} {rn rd : RegNum} {op2 : Operand2}
    (h : dataProc op sf rn rd op2 s = .next t) : Landed t := by
  have hf : ∀ r, Ready (if sf then { s with cpsr := s.cpsr.withResult r } else s) := by
    intro r; cases sf
    · exact hs
    · exact hs.setCpsr rfl
  unfold dataProc at h
  simp only at h
  split at h
  · split at h
    · split at h
      · exact hs.landed_exceptionReturn h
      · cases h; exact hs.landed_writePC _
    · cases h; exact ((hf _).writeReg _ _).landed_advance
  · cases h; exact (hf _).landed_advance

/-- R355: an MSR that passes its check leaves T as it is. -/
theorem writeFields_t {spsr f c : Bool} {v : Word} (hs : spsr = false) (hr : psrWriteRule spsr c v s = none) :
    (s.cpsr.writeFields f (c && privileged s.cpsr) v).t = s.cpsr.t := by
  subst hs
  cases hc : c && privileged s.cpsr with
  | false => cases f <;> rfl
  | true =>
    have ht : v.getLsbD 5 = s.cpsr.t := by
      by_contra hne
      simp only [psrWriteRule, hc, Bool.false_eq_true, if_false, if_true, firstRule_cons, bne_iff_ne.2 hne] at hr
      split at hr <;> cases hr
    cases f <;> exact ht

theorem Ready.landed_psrWrite (hs : Ready s) {spsr f c : Bool} {v : Word} (hr : psrWriteRule spsr c v s = none)
    (h : psrWrite spsr f c v s = .next t) : Landed t := by
  unfold psrWrite at h
  split at h
  · split at h <;> cases h
    exact (hs.congr (t := writeSpsr _ _ s) rfl rfl rfl).landed_advance
  · rename_i hspsr
    cases h
    exact (hs.setCpsr (writeFields_t (by simpa using hspsr) hr)).landed_advance

theorem Ready.landed_mrsBody (hs : Ready s) {spsr : Bool} {rd : RegNum} (h : mrsBody spsr rd s = .next t) :
    Landed t := by
  unfold mrsBody at h
  split at h
  · split at h <;> cases h
    exact (hs.writeReg rd _).landed_advance
  · cases h
    exact (hs.writeReg rd _).landed_advance

theorem Ready.landed_commitProduct (hs : Ready s) {sf : Bool} {rd : RegNum} {r : Word}
    (h : commitProduct sf rd r s = .next t) : Landed t := by
  cases h
  cases sf
  · exact (hs.writeReg rd r).landed_advance
  · exact ((hs.setCpsr (p := s.cpsr.withProduct r) rfl).writeReg rd r).landed_advance

theorem Ready.landed_commitLongProduct (hs : Ready s) {sf : Bool} {rdHi rdLo : RegNum} {p : BitVec 64}
    (h : commitLongProduct sf rdHi rdLo p s = .next t) : Landed t := by
  cases h
  cases sf
  · exact ((hs.writeReg rdLo _).writeReg rdHi _).landed_advance
  · exact (((hs.setCpsr (p := s.cpsr.withLongProduct p) rfl).writeReg rdLo _).writeReg rdHi _).landed_advance

theorem Ready.landed_finishLoad (hs : Ready s) {value : Option Word} {ad : Addressing} {rd : RegNum}
    (h : finishLoad value ad rd s = .next t) : Landed t := by
  obtain ⟨-, rfl⟩ | ⟨v, -, rfl⟩ := finishLoad_next h
  · exact landed_dataAbort _ _
  · exact ((hs.applyWriteBack _).writeReg rd v).landed_advance

theorem Ready.landed_finishLoadWord (hs : Ready s) {value : Option Word} {ad : Addressing} {rd : RegNum}
    (h : finishLoadWord value ad rd s = .next t) : Landed t := by
  obtain ⟨-, rfl⟩ | ⟨-, v, -, rfl⟩ | ⟨-, v, -, rfl⟩ := finishLoadWord_next h
  · exact landed_dataAbort _ _
  · exact (hs.applyWriteBack _).landed_loadWritePC v
  · exact ((hs.applyWriteBack _).writeReg rd v).landed_advance

theorem Ready.landed_finishStore (hs : Ready s) {outcome : StoreOutcome} {wb : Option (RegNum × Word)}
    (ho : ∀ s', (outcome = .done s' ∨ outcome = .abort s') → Called s s') (h : finishStore outcome wb = .next t) :
    Landed t := by
  obtain ⟨s', -, rfl⟩ | ⟨s', hd, rfl⟩ := finishStore_next h
  · exact landed_dataAbort wb s'
  · exact ((hs.called (ho s' (.inl hd))).applyWriteBack wb).landed_advance

theorem Ready.landed_finishSwap (hs : Ready s) {value : Option Word} {q : MemRequest} {rd : RegNum}
    (h : finishSwap value q rd s = .next t) : Landed t := by
  obtain ⟨-, rfl⟩ | ⟨-, rfl⟩ | ⟨v, -, -, rfl⟩ := finishSwap_next h
  · exact landed_dataAbort none s
  · exact landed_dataAbort none _
  · exact ((hs.called (.stored q s)).writeReg rd v).landed_advance

/-- An LDM sets the tracker only with S = 1, which its check lets pass only in a mode with an SPSR (R312, R463). -/
theorem Ready.landed_ldmBody (hs : Ready s) {p u sb w : Bool} {rn : RegNum} {list : BitVec 16}
    (hr : blockStateRule true sb list s = none) (h : ldmBody p u sb w rn list s = .next t) : Landed t := by
  obtain ⟨b, hb⟩ := blockLoad_after (fun r => blockSlot p u rn list r s) (regList list) s
  have hready : ∀ k l wb, Ready (Machine.applyWriteBack wb (commitLoaded k l { s with bus := b })) := fun k l wb =>
    hs.congr (by simp) (by simp) (by simp)
  unfold ldmBody at h
  simp only [hb] at h
  split at h
  · split at h
    · split at h
      · exact (hready _ _ _).landed_exceptionReturn h
      · cases h; exact (hready _ _ _).landed_loadWritePC _
    · cases h
      refine ⟨((hready _ _ _).congr rfl rfl rfl).landed_advance.pc, fun hsb => ?_⟩
      have hsb : sb = true := hsb
      have hbank : currentBank s.cpsr ≠ .usr := fun husr => by
        simp [blockStateRule, hsb, (currentSpsr_isNone_iff s).2 husr] at hr
      simpa using hbank
  · cases h; exact landed_dataAbort _ _

theorem landed_coprocAbsent {cp : BitVec 4} (h : coprocAbsent cp s = .next t) : Landed t := by
  unfold coprocAbsent at h
  split at h <;> cases h
  exact landed_takeException _ s

theorem Ready.landed_bxBody (hs : Ready s) {rm : RegNum} (hr : bxRule rm s = none) (h : bxBody rm s = .next t) :
    Landed t := by
  cases h
  refine .of_clear ?_ hs.tracker
  by_cases h0 : (readReg rm s).getLsbD 0 = true
  · exact pcAligned_thumb h0 (mask_bit0 _)
  · have h0 : (readReg rm s).getLsbD 0 = false := by simpa using h0
    exact pcAligned_arm h0 (wordAligned_bx hr h0)

/-- Every instruction that passes its check and reaches a next state leaves an aligned PC, and the tracker set only in
a mode with an SPSR. -/
theorem Ready.landed_execBody (hs : Ready s) {i : Instr} (hwf : wfRefusal i s = none) (h : execBody i s = .next t) :
    Landed t := by
  obtain ⟨-, hst⟩ := wfRefusal_eq_none.1 hwf
  cases i with
  | ldm => exact hs.landed_ldmBody (by simpa [stateRefusal] using hst) h
  | stm => exact hs.landed_finishStore (fun _ => .storeAll) h
  | mrs => exact hs.landed_mrsBody h
  | msrReg | msrFlg => exact hs.landed_psrWrite (by simpa [stateRefusal] using hst) h
  | msrGen =>
    simp only [stateRefusal] at hst
    split at hst
    · exact hs.landed_psrWrite (by simpa using hst) h
    · cases hst
  | mul | mla => exact hs.landed_commitProduct h
  | umull | umlal | smull | smlal => exact hs.landed_commitLongProduct h
  | swp | swpb => exact (hs.called (.called _ s)).landed_finishSwap h
  | bx => exact hs.landed_bxBody (by simpa [stateRefusal] using hst) h
  | ldrh | ldrsh | ldrsb | ldrbPre | ldrbPost | ldrbt => exact (hs.called (.called _ s)).landed_finishLoad h
  | ldrPre | ldrPost | ldrt => exact (hs.called (.called _ s)).landed_finishLoadWord h
  | strh | strPre | strPost | strt | strbPre | strbPost | strbt => exact hs.landed_finishStore (fun _ => .store) h
  | undefStoreSigned | undefHalfZero | undefTrap =>
    simp only [execBody, undefinedBody] at h
    split at h <;> cases h
    exact landed_takeException _ s
  | swi => cases h; exact landed_takeException _ s
  | b c offset24 => cases h; exact hs.landed_branchTo (wordAligned_branchTarget hs.pc offset24)
  | bl c offset24 => cases h; exact (hs.writeReg 14 _).landed_branchTo (wordAligned_branchTarget hs.pc offset24)
  | ldc c p u n w rn crd cp offset8 =>
    have hq := Called.askCoproc (.ldcBegin cp n crd) s
    simp only [execBody, ldcBody] at h
    split at h
    · exact (hs.called hq).landed_finishStore (fun _ => .ldcWords) h
    · exact landed_coprocAbsent h
  | stc c p u n w rn crd cp offset8 =>
    have hq := Called.askCoproc (.stcBegin cp n crd) s
    simp only [execBody, stcBody] at h
    split at h
    · exact (hs.called hq).landed_finishStore (fun _ => .stcWords) h
    · exact landed_coprocAbsent h
  | cdp | mcr =>
    simp only [execBody, cdpBody, mcrBody] at h
    split at h
    · cases h; exact (hs.called (.askCoproc _ s)).landed_advance
    · exact landed_coprocAbsent h
  | mrc c op1 crn rd cp op2 crm =>
    have hq := hs.called (.askCoproc (.mrc cp op1 crn crm op2) s)
    simp only [execBody, mrcBody] at h
    split at h
    · split at h <;> cases h
      · exact (hq.setCpsr (p := Psr.withFlags _ _) rfl).landed_advance
      · exact (hq.writeReg rd _).landed_advance
    · exact landed_coprocAbsent h
  | _ =>
    simp only [execBody] at h
    exact hs.landed_dataProc h

end

/-! #### The invariant -/

theorem Ready.landed_skip {s : State} (h : Ready (clearTracker s)) : Landed (skip s) := h.landed_advance

/-- An instruction in ARM state keeps the invariant: memory and the mode by the ways it can end, the PC and the tracker
by where it ends. -/
theorem exec_keeps_inv {i : Instr} {s t : State} (hs : s.Inv) (harm : s.cpsr.t = false) (h : exec i s = .next t) :
    t.Inv := by
  have hready : Ready (clearTracker s) := ⟨harm, arm_of_pcAligned hs.pc harm, rfl⟩
  obtain ⟨-, -, rfl⟩ | ⟨hx, hb⟩ := exec_next h
  · exact ⟨hs.memory, hs.mode, hready.landed_skip.pc, hready.landed_skip.tracker⟩
  · have hwf : wfRefusal i (clearTracker s) = none := wfRefusal_clearTracker i s ▸ hx.wellFormed
    have hr := execBody_reaches hwf hb
    have hl := hready.landed_execBody hwf hb
    exact ⟨hr.memory_wf hs.memory, hr.mode_legal hs.mode, hl.pc, hl.tracker⟩

theorem takeException_inv (e : Exc) {s : State} (hm : s.memory.wf = true) : (takeException e s).Inv :=
  ⟨hm, legalMode_bits e.mode, (landed_takeException e s).pc, (landed_takeException e s).tracker⟩

theorem performReset_inv {s : State} (hm : s.memory.wf = true) : (performReset s).Inv :=
  ⟨hm, legalMode_bits .supervisor, (landed_performReset s).pc, (landed_performReset s).tracker⟩

/-- Settles O7: reset, the entry of an exception and an instruction in ARM state each keep the invariant, and a step
that reaches a next state is one of these. -/
theorem invariantKeptByStep : Obligations.InvariantKeptByStep := by
  intro s t hs h
  obtain ⟨-, -, ⟨-, rfl⟩ | ⟨-, -, rfl⟩ | ⟨-, -, rfl⟩ | ⟨-, -, rfl⟩ | ⟨ht, i, hi⟩⟩ := step_next h
  · exact performReset_inv hs.memory
  · exact takeException_inv .fiq hs.memory
  · exact takeException_inv .irq hs.memory
  · exact takeException_inv .prefetchAbort hs.memory
  · have hfetched : (called (fetchRequest s) (dropInputs s)).Inv := ⟨hs.memory, hs.mode, hs.pc, hs.tracker⟩
    exact exec_keeps_inv hfetched ht hi

end Sys2Proof.Machine

/-! ### Bytes, halfwords and words (R71) -/

namespace Sys2Proof.Machine

theorem Memory.readByte_writeWord_byte {m : Memory} (hm : m.wf = true) (a v : Word) {k : Nat} (hk : k < 4) :
    (m.writeWord a v).readByte (a + BitVec.ofNat 32 k) = v.extractLsb' (8 * k) 8 := by
  obtain ⟨h0, h1, h2, h3⟩ := Memory.readByte_writeWord hm a v
  interval_cases k
  · rw [BitVec.add_zero]; exact h0
  · exact h1
  · exact h2
  · exact h3

theorem Memory.readByte_writeHalf_byte {m : Memory} (hm : m.wf = true) (a : Word) (v : BitVec 16) {k : Nat}
    (hk : k < 2) : (m.writeHalf a v).readByte (a + BitVec.ofNat 32 k) = v.extractLsb' (8 * k) 8 := by
  obtain ⟨h0, h1⟩ := Memory.readByte_writeHalf hm a v
  interval_cases k
  · rw [BitVec.add_zero]; exact h0
  · exact h1

theorem Memory.extractLsb'_readWord (m : Memory) (a : Word) {k : Nat} (hk : k < 4) :
    (m.readWord a).extractLsb' (8 * k) 8 = m.readByte (a + BitVec.ofNat 32 k) := by
  have h := bytesOfWord_wordOfBytes (m.readByte a) (m.readByte (a + 1#32)) (m.readByte (a + 2#32))
    (m.readByte (a + 3#32))
  simp only [bytesOfWord, List.cons.injEq, and_true] at h
  obtain ⟨h0, h1, h2, h3⟩ := h
  interval_cases k
  · rw [BitVec.add_zero]; exact h0
  · exact h1
  · exact h2
  · exact h3

theorem Memory.extractLsb'_readHalf (m : Memory) (a : Word) {k : Nat} (hk : k < 2) :
    (m.readHalf a).extractLsb' (8 * k) 8 = m.readByte (a + BitVec.ofNat 32 k) := by
  unfold Memory.readHalf
  interval_cases k
  · rw [BitVec.add_zero]; exact BitVec.extractLsb'_append_eq_right
  · exact BitVec.extractLsb'_append_eq_left

/-- Settles O23: the bytes of the two writes, each whole read back, and the bytes outside. -/
theorem memoryIsLittleEndian : Obligations.MemoryIsLittleEndian := fun m a v h hm =>
  ⟨Memory.writeWord_wf hm a v, Memory.writeHalf_wf hm a h, fun _ => Memory.readByte_writeWord_byte hm a v,
    fun _ => Memory.readByte_writeHalf_byte hm a h, Memory.readWord_writeWord hm a v, Memory.readHalf_writeHalf hm a h,
    fun b => Memory.readByte_writeWord_other m a b v, fun b => Memory.readByte_writeHalf_other m a b h⟩

end Sys2Proof.Machine

/-! ### What the memory collaborator answers (R70, R80, R85) -/

namespace Sys2Proof.Machine

theorem ruleMatches_iff (b : Bus) (q : MemRequest) (r : MemRule) :
    (r.own == b.own && r.request == q) = true ↔ r.own = b.own ∧ r.request = q := by simp

theorem Bus.touches_iff (b : Bus) (q : MemRequest) : b.touches q = true ↔
    ∃ a ∈ q.bytes, ∃ d ∈ b.devices, d.base ≤ a.toNat ∧ a.toNat < d.base + d.size := by
  simp [Bus.touches, DeviceRegion.covers]

/-- The byte array answers where no rule for the collaborator's state and the request holds and no device is touched. -/
theorem plain_iff (q : MemRequest) (s : State) : Plain q s ↔
    (∀ r ∈ s.bus.rules, ¬ (r.own = s.bus.own ∧ r.request = q)) ∧
      ¬ ∃ a ∈ q.bytes, ∃ d ∈ s.bus.devices, d.base ≤ a.toNat ∧ a.toNat < d.base + d.size := by
  simp only [← Bus.touches_iff, ← ruleMatches_iff, ← List.find?_eq_none, Plain, Bus.reply]
  cases s.bus.rules.find? fun r => r.own == s.bus.own && r.request == q <;> simp

/-- The first rule for the collaborator's state and the request gives the answer and the next state. -/
theorem Bus.reply_firstRule {b : Bus} {q : MemRequest} {earlier later : List MemRule} {r : MemRule}
    (hb : b.rules = earlier ++ r :: later) (he : ∀ r' ∈ earlier, ¬ (r'.own = b.own ∧ r'.request = q))
    (hr : r.own = b.own ∧ r.request = q) : b.reply q = some (r.answer, r.next) := by
  have hfind : b.rules.find? (fun r => r.own == b.own && r.request == q) = some r :=
    List.find?_eq_some_iff_append.2 ⟨(ruleMatches_iff b q r).2 hr, earlier, later, hb, fun r' h' => by
      simpa only [Bool.not_eq_true', ← Bool.not_eq_true, ruleMatches_iff] using he r' h'⟩
  simp only [Bus.reply, hfind]

theorem Plain.reply {q : MemRequest} {s : State} (h : Plain q s) : s.bus.reply q = none := h

theorem AbortRegion.covers_iff (r : AbortRegion) (kind : AccessKind) (a : Word) : r.covers kind a = true ↔
    r.base ≤ a.toNat ∧ a.toNat < r.base + r.size ∧ r.onKind kind = true := by
  simp only [AbortRegion.covers, Bool.and_eq_true, decide_eq_true_eq, and_assoc]
  exact and_rotate

theorem memAborts_plain_iff {q : MemRequest} {s : State} (h : Plain q s) : memAborts q s = true ↔
    ∃ a ∈ q.bytes, ∃ r ∈ s.abortMap, r.base ≤ a.toNat ∧ a.toNat < r.base + r.size ∧ r.onKind q.kind = true := by
  simp only [memAborts, h.reply, byteAborts, List.any_eq_true, AbortRegion.covers_iff]

theorem byteAt_plain {a : Word} {s : State} (h : Plain (.readByte a) s) : byteAt a s = s.memory.readByte a := by
  simp only [byteAt, h.reply]

theorem halfAt_plain {a : Word} {s : State} (h : Plain (.readHalf a) s) : halfAt a s = s.memory.readHalf a := by
  simp only [halfAt, h.reply]

theorem wordAt_plain {a : Word} {s : State} (h : Plain (.readWord a) s) : wordAt a s = s.memory.readWord a := by
  simp only [wordAt, h.reply]

/-- What a request is answered with where a rule or a device answers it. -/
theorem answer_of_reply {q : MemRequest} {s : State} {x : MemAnswer × Nat} (h : s.bus.reply q = some x) :
    memAborts q s = x.1.aborts ∧ (called q s).bus.own = x.2 ∧
      (∀ p, q = .readByte p → byteAt p s = x.1.value.setWidth 8) ∧
      (∀ p, q = .readHalf p → halfAt p s = x.1.value.setWidth 16) ∧ (∀ p, q = .readWord p → wordAt p s = x.1.value) := by
  refine ⟨by simp only [memAborts, h], by simp [Bus.after, h], ?_, ?_, ?_⟩
  all_goals rintro p rfl
  · simp only [byteAt, h]
  · simp only [halfAt, h]
  · simp only [wordAt, h]

/-- Settles O3: where neither a rule nor a device answers, the answers are the byte array's; the first matching rule is
the collaborator's reply, and every answer is read off that reply. -/
theorem memoryCollaboratorAnswers : Obligations.MemoryCollaboratorAnswers := by
  intro q p s matched atDevice
  refine ⟨rfl, rfl, rfl, rfl, plain_iff q s, fun h => ⟨?_, ?_⟩, byteAt_plain, fun h k hk => ?_, fun h k hk => ?_,
    fun h => ?_, written_answered, fun earlier r later hb he hr => ?_, store_aborts, fun hn ha => store_allowed ⟨hn, ha⟩⟩
  · simp [Bus.after, h.reply]
  · rw [memAborts_plain_iff h]
    cases q <;> rfl
  · rw [halfAt_plain h, Memory.extractLsb'_readHalf _ _ hk]
  · rw [wordAt_plain h, Memory.extractLsb'_readWord _ _ hk]
  · rw [written_plain h]
    cases q <;> rfl
  · obtain ⟨habort, hnext, hbyte, hhalf, hword⟩ := answer_of_reply (Bus.reply_firstRule hb he hr)
    exact ⟨habort, hnext, hbyte p, hhalf p, hword p⟩

end Sys2Proof.Machine

/-! ### What a single transfer or a swap leaves unchanged (R80, R261, R281, R282) -/

namespace Sys2Proof.Machine

/-! #### The bodies of the loads and the swaps whose read is answered -/

theorem ldrBody_answered {p u wb : Bool} {rn rd : RegNum} {off : Offset} {s : State}
    (ha : memAborts (.readWord (alignWord (transferAddress p u rn (singleOffset off s) s))) s = false) :
    let a := transferAddress p u rn (singleOffset off s) s
    ldrBody p u wb rn rd off s = finishLoadWord (some (rotateLoaded a (wordAt (alignWord a) s)))
      (addressing p u wb rn (singleOffset off s) s) rd (called (.readWord (alignWord a)) s) := by
  simp only [ldrBody, addressing, loadWord_answered ha, Option.map_some]

theorem ldrbBody_answered {p u wb : Bool} {rn rd : RegNum} {off : Offset} {s : State}
    (ha : memAborts (.readByte (transferAddress p u rn (singleOffset off s) s)) s = false) :
    let a := transferAddress p u rn (singleOffset off s) s
    ldrbBody p u wb rn rd off s = finishLoad (some ((byteAt a s).setWidth 32))
      (addressing p u wb rn (singleOffset off s) s) rd (called (.readByte a) s) := by
  simp only [ldrbBody, addressing, loadByte_answered ha, Option.map_some]

theorem loadHalfBody_answered {ext : BitVec 16 → Word} {p u w : Bool} {rn rd : RegNum} {off : HalfOffset} {s : State}
    (ha : memAborts (.readHalf (alignHalf (transferAddress p u rn (halfOffset off s) s))) s = false) :
    let a := transferAddress p u rn (halfOffset off s) s
    loadHalfBody ext p u w rn rd off s = finishLoad (some (ext (halfAt (alignHalf a) s)))
      (addressing p u (!p || w) rn (halfOffset off s) s) rd (called (.readHalf (alignHalf a)) s) := by
  simp only [loadHalfBody, addressing, loadHalf_answered ha, Option.map_some]

theorem ldrsbBody_answered {p u w : Bool} {rn rd : RegNum} {off : HalfOffset} {s : State}
    (ha : memAborts (.readByte (transferAddress p u rn (halfOffset off s) s)) s = false) :
    let a := transferAddress p u rn (halfOffset off s) s
    ldrsbBody p u w rn rd off s = finishLoad (some ((byteAt a s).signExtend 32))
      (addressing p u (!p || w) rn (halfOffset off s) s) rd (called (.readByte a) s) := by
  simp only [ldrsbBody, addressing, loadByte_answered ha, Option.map_some]

theorem swpBody_answered {rn rd rm : RegNum} {s : State}
    (ha : memAborts (.readWord (alignWord (readReg rn s))) s = false) :
    let a := readReg rn s
    swpBody rn rd rm s = finishSwap (some (rotateLoaded a (wordAt (alignWord a) s)))
      (.writeWord (alignWord a) (readReg rm s)) rd (called (.readWord (alignWord a)) s) := by
  simp only [swpBody, loadWord_answered ha, Option.map_some]

theorem swpbBody_answered {rn rd rm : RegNum} {s : State} (ha : memAborts (.readByte (readReg rn s)) s = false) :
    let a := readReg rn s
    swpbBody rn rd rm s = finishSwap (some ((byteAt a s).setWidth 32))
      (.writeByte a ((readReg rm s).extractLsb' 0 8)) rd (called (.readByte a) s) := by
  simp only [swpbBody, loadByte_answered ha, Option.map_some]

theorem memAborts_of_store_abort {q : MemRequest} {s t : State} (h : store q s = .abort t) : memAborts q s = true := by
  obtain ⟨-, e⟩ | ⟨-, ha, -⟩ | ⟨-, e⟩ := store_cases q s
  · cases e.symm.trans h
  · exact ha
  · cases e.symm.trans h

/-! #### The environment of a transfer -/

theorem SameEnvironment.trans {s t u : State} (a : SameEnvironment s t) (b : SameEnvironment t u) :
    SameEnvironment s u where
  faultMark := b.faultMark.trans a.faultMark
  refusalMark := b.refusalMark.trans a.refusalMark
  abortMap := b.abortMap.trans a.abortMap
  bus := b.bus.trans a.bus
  coproc := b.coproc.trans a.coproc
  inputs := b.inputs.trans a.inputs
  policy := b.policy.trans a.policy
  freeCount := b.freeCount.trans a.freeCount

theorem SameEnvironment.writeReg (n : RegNum) (v : Word) (s : State) : SameEnvironment s (writeReg n v s) := by
  constructor <;> simp

theorem SameEnvironment.setPc (s : State) (v : Word) : SameEnvironment s { s with pc := v } :=
  ⟨rfl, rfl, rfl, rfl, rfl, rfl, rfl, rfl⟩

/-! #### From the accesses of a transfer to its next state -/

/-- From s to t the byte array has become m and the collaborator b; beside that nothing but the listed registers, the
PC and the hazard tracker may have changed. -/
structure Transferred (changed : List (Option PhysReg)) (m : Memory) (b : Bus) (s t : State) : Prop where
  memory : t.memory = m
  environment : SameEnvironment { s with bus := b } t
  spsrs : t.spsrs = s.spsrs
  cpsr : t.cpsr = s.cpsr
  regs : SameRegsBut changed s t

/-- The registers a transfer's base write-back changes. -/
def baseWritten (wb : Bool) (rn : RegNum) (s : State) : List (Option PhysReg) :=
  if wb then [bankReg (currentBank s.cpsr) rn] else []

section
variable {changed : List (Option PhysReg)} {m : Memory} {b : Bus} {s t u : State}

/-- The accesses are made, and nothing is committed yet. -/
theorem Transferred.accesses (m : Memory) (b : Bus) (s : State) :
    Transferred [] m b s (clearTracker { s with memory := m, bus := b }) :=
  ⟨rfl, ⟨rfl, rfl, rfl, rfl, rfl, rfl, rfl, rfl⟩, rfl, rfl, fun _ _ => rfl⟩

theorem Transferred.called (q : MemRequest) (s : State) :
    Transferred [] s.memory (s.bus.after q) s (called q (clearTracker s)) := .accesses _ _ s

theorem Transferred.stored (q : MemRequest) (s : State) :
    Transferred [] (written q s) (s.bus.after q) s (stored q (clearTracker s)) := .accesses _ _ s

theorem Transferred.mono (h : Transferred changed m b s t) {more : List (Option PhysReg)} (hm : changed ⊆ more) :
    Transferred more m b s t :=
  { h with regs := fun q hq => h.regs q fun hc => hq (hm hc) }

theorem Transferred.setPc (h : Transferred changed m b s u) (v : Word) : Transferred changed m b s { u with pc := v } :=
  ⟨h.memory, h.environment.trans (.setPc u v), h.spsrs, h.cpsr, h.regs⟩

theorem Transferred.writeReg (h : Transferred changed m b s u) (n : RegNum) (v : Word) :
    Transferred (bankReg (currentBank s.cpsr) n :: changed) m b s (writeReg n v u) where
  memory := by simpa using h.memory
  environment := h.environment.trans (.writeReg n v u)
  spsrs := by simpa using h.spsrs
  cpsr := by simpa using h.cpsr
  regs q hq := by
    obtain ⟨hn, hc⟩ := not_or.1 (mt List.mem_cons.2 hq)
    rw [writeReg_other n v u q (h.cpsr ▸ Ne.symm hn), h.regs q hc]

theorem Transferred.writeBack (h : Transferred [] m b s u) (p up wb : Bool) (rn : RegNum) (offset : Word) (s' : State) :
    Transferred (baseWritten wb rn s) m b s (applyWriteBack (addressing p up wb rn offset s').writeBack u) := by
  cases wb with
  | false => exact h
  | true => exact h.writeReg rn _

/-- The condition fails (R163). -/
theorem Transferred.skip (changed : List (Option PhysReg)) (s : State) :
    Transferred changed s.memory s.bus s (skip s) :=
  ((Transferred.accesses _ _ s).setPc _).mono (List.nil_subset _)

theorem exec_transferred {i : Instr} (h : exec i s = .next t)
    (hb : execBody i (clearTracker s) = .next t → Transferred changed m b s t) :
    Transferred changed (if conditionPassed i.cond s.cpsr then m else s.memory)
      (if conditionPassed i.cond s.cpsr then b else s.bus) s t := by
  obtain ⟨-, hc, rfl⟩ | ⟨hx, hbody⟩ := exec_next h
  · simpa [hc] using Transferred.skip changed s
  · simpa [hx.condition] using hb hbody

/-! #### Loads -/

theorem finishLoad_transferred (hu : Transferred [] m b s u) {p up wb : Bool} {rn rd : RegNum} {offset v : Word}
    {s' : State} (h : finishLoad (some v) (addressing p up wb rn offset s') rd u = .next t) :
    Transferred (bankReg (currentBank s.cpsr) rd :: baseWritten wb rn s) m b s t := by
  obtain ⟨hn, -⟩ | ⟨v, -, rfl⟩ := finishLoad_next h
  · cases hn
  · exact ((hu.writeBack p up wb rn offset s').writeReg rd v).setPc _

theorem finishLoadWord_transferred (hu : Transferred [] m b s u) {p up wb : Bool} {rn rd : RegNum} {offset v : Word}
    {s' : State} (h : finishLoadWord (some v) (addressing p up wb rn offset s') rd u = .next t) :
    Transferred (bankReg (currentBank s.cpsr) rd :: baseWritten wb rn s) m b s t := by
  obtain ⟨hn, -⟩ | ⟨-, v, -, rfl⟩ | ⟨-, v, -, rfl⟩ := finishLoadWord_next h
  · cases hn
  · exact ((hu.writeBack p up wb rn offset s').setPc _).mono (List.subset_cons_self ..)
  · exact ((hu.writeBack p up wb rn offset s').writeReg rd v).setPc _

theorem ldrBody_transferred {p up wb : Bool} {rn rd : RegNum} {off : Offset} {q : MemRequest}
    (hq : q = .readWord (alignWord (transferAddress p up rn (singleOffset off s) s))) (ha : memAborts q s = false)
    (h : ldrBody p up wb rn rd off (clearTracker s) = .next t) :
    Transferred (bankReg (currentBank s.cpsr) rd :: baseWritten wb rn s) s.memory (s.bus.after q) s t := by
  subst hq
  rw [ldrBody_answered (by simpa using ha)] at h
  simpa using finishLoadWord_transferred (.called _ s) h

theorem ldrbBody_transferred {p up wb : Bool} {rn rd : RegNum} {off : Offset} {q : MemRequest}
    (hq : q = .readByte (transferAddress p up rn (singleOffset off s) s)) (ha : memAborts q s = false)
    (h : ldrbBody p up wb rn rd off (clearTracker s) = .next t) :
    Transferred (bankReg (currentBank s.cpsr) rd :: baseWritten wb rn s) s.memory (s.bus.after q) s t := by
  subst hq
  rw [ldrbBody_answered (by simpa using ha)] at h
  simpa using finishLoad_transferred (.called _ s) h

theorem loadHalfBody_transferred {ext : BitVec 16 → Word} {p up w : Bool} {rn rd : RegNum} {off : HalfOffset}
    {q : MemRequest} (hq : q = .readHalf (alignHalf (transferAddress p up rn (halfOffset off s) s)))
    (ha : memAborts q s = false) (h : loadHalfBody ext p up w rn rd off (clearTracker s) = .next t) :
    Transferred (bankReg (currentBank s.cpsr) rd :: baseWritten (!p || w) rn s) s.memory (s.bus.after q) s t := by
  subst hq
  rw [loadHalfBody_answered (by simpa using ha)] at h
  simpa using finishLoad_transferred (.called _ s) h

theorem ldrsbBody_transferred {p up w : Bool} {rn rd : RegNum} {off : HalfOffset} {q : MemRequest}
    (hq : q = .readByte (transferAddress p up rn (halfOffset off s) s)) (ha : memAborts q s = false)
    (h : ldrsbBody p up w rn rd off (clearTracker s) = .next t) :
    Transferred (bankReg (currentBank s.cpsr) rd :: baseWritten (!p || w) rn s) s.memory (s.bus.after q) s t := by
  subst hq
  rw [ldrsbBody_answered (by simpa using ha)] at h
  simpa using finishLoad_transferred (.called _ s) h

/-- The frame of a load, from what its body leaves. -/
theorem exec_loadFrame {i : Instr} {q : MemRequest} (h : exec i s = .next t)
    (hb : execBody i (clearTracker s) = .next t → Transferred changed s.memory (s.bus.after q) s t) :
    SameMemory s t ∧
      SameEnvironment { s with bus := if conditionPassed i.cond s.cpsr then s.bus.after q else s.bus } t ∧
      t.spsrs = s.spsrs ∧ t.cpsr = s.cpsr ∧ SameRegsBut changed s t := by
  have hx := exec_transferred h hb
  exact ⟨fun a => by rw [hx.memory, ite_self], hx.environment, hx.spsrs, hx.cpsr, hx.regs⟩

/-! #### Stores and swaps -/

theorem finishStore_transferred {q : MemRequest} (ha : memAborts q s = false) {p up wb : Bool} {rn : RegNum}
    {offset : Word} {s' : State}
    (h : finishStore (store q (clearTracker s)) (addressing p up wb rn offset s').writeBack = .next t) :
    Transferred (baseWritten wb rn s) (written q s) (s.bus.after q) s t := by
  obtain ⟨u, hu, -⟩ | ⟨u, hu, rfl⟩ := finishStore_next h
  · cases ha.symm.trans (memAborts_of_store_abort (s := clearTracker s) hu)
  · rw [store_done hu]
    exact ((Transferred.stored q s).writeBack p up wb rn offset s').setPc _

theorem strBody_transferred {p up wb : Bool} {rn rd : RegNum} {off : Offset} {q : MemRequest}
    (hq : q = .writeWord (alignWord (transferAddress p up rn (singleOffset off s) s)) (storedReg rd s))
    (ha : memAborts q s = false) (h : strBody p up wb rn rd off (clearTracker s) = .next t) :
    Transferred (baseWritten wb rn s) (written q s) (s.bus.after q) s t := by
  subst hq
  simp only [strBody, singleOffset_clearTracker] at h
  exact finishStore_transferred ha h

theorem strbBody_transferred {p up wb : Bool} {rn rd : RegNum} {off : Offset} {q : MemRequest}
    (hq : q = .writeByte (transferAddress p up rn (singleOffset off s) s) ((readReg rd s).extractLsb' 0 8))
    (ha : memAborts q s = false) (h : strbBody p up wb rn rd off (clearTracker s) = .next t) :
    Transferred (baseWritten wb rn s) (written q s) (s.bus.after q) s t := by
  subst hq
  simp only [strbBody, singleOffset_clearTracker] at h
  exact finishStore_transferred ha h

theorem strhBody_transferred {p up w : Bool} {rn rd : RegNum} {off : HalfOffset} {q : MemRequest}
    (hq : q = .writeHalf (alignHalf (transferAddress p up rn (halfOffset off s) s)) ((readReg rd s).extractLsb' 0 16))
    (ha : memAborts q s = false) (h : strhBody p up w rn rd off (clearTracker s) = .next t) :
    Transferred (baseWritten (!p || w) rn s) (written q s) (s.bus.after q) s t := by
  subst hq
  simp only [strhBody, halfOffset_clearTracker] at h
  exact finishStore_transferred ha h

theorem finishSwap_transferred {r q : MemRequest} (ha : memAborts q (called r s) = false) {v : Word} {rd : RegNum}
    (h : finishSwap (some v) q rd (called r (clearTracker s)) = .next t) :
    Transferred [bankReg (currentBank s.cpsr) rd] (written q (called r s)) ((called r s).bus.after q) s t := by
  obtain ⟨hn, -⟩ | ⟨hq, -⟩ | ⟨v, -, -, rfl⟩ := finishSwap_next h
  · cases hn
  · cases ha.symm.trans hq
  · exact ((Transferred.accesses _ _ s).writeReg rd v).setPc _

theorem swpBody_transferred {rn rd rm : RegNum} {r q : MemRequest} (hr : r = .readWord (alignWord (readReg rn s)))
    (hq : q = .writeWord (alignWord (readReg rn s)) (readReg rm s)) (har : memAborts r s = false)
    (haq : memAborts q (called r s) = false) (h : swpBody rn rd rm (clearTracker s) = .next t) :
    Transferred [bankReg (currentBank s.cpsr) rd] (written q (called r s)) ((called r s).bus.after q) s t := by
  subst hr hq
  rw [swpBody_answered (s := clearTracker s) har] at h
  exact finishSwap_transferred haq h

theorem swpbBody_transferred {rn rd rm : RegNum} {r q : MemRequest} (hr : r = .readByte (readReg rn s))
    (hq : q = .writeByte (readReg rn s) ((readReg rm s).extractLsb' 0 8)) (har : memAborts r s = false)
    (haq : memAborts q (called r s) = false) (h : swpbBody rn rd rm (clearTracker s) = .next t) :
    Transferred [bankReg (currentBank s.cpsr) rd] (written q (called r s)) ((called r s).bus.after q) s t := by
  subst hr hq
  rw [swpbBody_answered (s := clearTracker s) har] at h
  exact finishSwap_transferred haq h

/-- The frame of a store or a swap, from what its body leaves: the write, after the reads. -/
theorem exec_storeFrame {i : Instr} {reads : List MemRequest} {q : MemRequest} (h : exec i s = .next t)
    (hb : execBody i (clearTracker s) = .next t →
      Transferred changed (written q (callAll reads s)) ((callAll reads s).bus.after q) s t) :
    (∀ b : Word, b ∉ q.bytes → t.memory.readByte b = s.memory.readByte b) ∧
      SameEnvironment
        { s with bus := if conditionPassed i.cond s.cpsr then (callAll (reads ++ [q]) s).bus else s.bus } t ∧
      t.spsrs = s.spsrs ∧ t.cpsr = s.cpsr ∧ SameRegsBut changed s t := by
  have hx := exec_transferred h hb
  refine ⟨fun b hq => ?_, by rw [callAll_append]; exact hx.environment, hx.spsrs, hx.cpsr, hx.regs⟩
  rw [hx.memory]
  split
  · rw [readByte_written_other hq, callAll_memory]
  · rfl

end

/-- Settles O59: each of the nine loads makes its one read and then commits the base and the destination; the
post-indexed and user-mode forms are those with P = 0 (R262). -/
theorem loadFrame : Obligations.LoadFrame := by
  intro c p u w rn rd off hoff s t frame a aH base i q wb hi ha h
  simp only [List.mem_cons, List.not_mem_nil, or_false, Prod.mk.injEq] at hi
  rcases hi with ⟨rfl, rfl, rfl⟩ | ⟨rfl, rfl, rfl⟩ | ⟨rfl, rfl, rfl⟩ | ⟨rfl, rfl, rfl⟩ | ⟨rfl, rfl, rfl⟩ |
    ⟨rfl, rfl, rfl⟩ | ⟨rfl, rfl, rfl⟩ | ⟨rfl, rfl, rfl⟩ | ⟨rfl, rfl, rfl⟩
  · exact exec_loadFrame h (ldrBody_transferred rfl ha)
  · exact exec_loadFrame h (ldrBody_transferred (p := false) rfl ha)
  · exact exec_loadFrame h (ldrBody_transferred (p := false) rfl ha)
  · exact exec_loadFrame h (ldrbBody_transferred rfl ha)
  · exact exec_loadFrame h (ldrbBody_transferred (p := false) rfl ha)
  · exact exec_loadFrame h (ldrbBody_transferred (p := false) rfl ha)
  · exact exec_loadFrame h (loadHalfBody_transferred rfl ha)
  · exact exec_loadFrame h (loadHalfBody_transferred rfl ha)
  · exact exec_loadFrame h (ldrsbBody_transferred rfl ha)

/-- Settles O60: each of the seven stores makes its one write and then commits the base, each swap its read and its
write and then the destination. -/
theorem storeFrame : Obligations.StoreFrame := by
  intro c p u w rn rd rm off hoff z s t a aH base bank word byte wbReg i reads q changed hi hr ha h
  simp only [List.mem_cons, List.not_mem_nil, or_false, Prod.mk.injEq] at hi
  rcases hi with ⟨rfl, rfl, rfl, rfl⟩ | ⟨rfl, rfl, rfl, rfl⟩ | ⟨rfl, rfl, rfl, rfl⟩ | ⟨rfl, rfl, rfl, rfl⟩ |
    ⟨rfl, rfl, rfl, rfl⟩ | ⟨rfl, rfl, rfl, rfl⟩ | ⟨rfl, rfl, rfl, rfl⟩ | ⟨rfl, rfl, rfl, rfl⟩ | ⟨rfl, rfl, rfl, rfl⟩
  · exact exec_storeFrame h (strBody_transferred rfl ha)
  · exact exec_storeFrame h (strBody_transferred (p := false) rfl ha)
  · exact exec_storeFrame h (strBody_transferred (p := false) rfl ha)
  · exact exec_storeFrame h (strbBody_transferred rfl ha)
  · exact exec_storeFrame h (strbBody_transferred (p := false) rfl ha)
  · exact exec_storeFrame h (strbBody_transferred (p := false) rfl ha)
  · exact exec_storeFrame h (strhBody_transferred rfl ha)
  · exact exec_storeFrame h (swpBody_transferred rfl rfl (hr _ (List.mem_singleton_self _)) ha)
  · exact exec_storeFrame h (swpbBody_transferred rfl rfl (hr _ (List.mem_singleton_self _)) ha)

end Sys2Proof.Machine

/-! ### Fields and their parts (R8) -/

namespace Sys2Proof

/-- The bits of `v` stand in the word from bit `lo` up. Its width is implicit, so that it can be taken apart along the
concatenations of the encoder. -/
def Holds (w : Word) (lo : Nat) {len : Nat} (v : BitVec len) : Prop := field w lo len = v

section
variable {w : Word}

/-- A field of a field is a field. -/
theorem extractLsb'_field (w : Word) {lo len a n : Nat} (h : a + n ≤ len) :
    (field w lo len).extractLsb' a n = field w (lo + a) n := by
  apply BitVec.eq_of_getLsbD_eq
  intro i hi
  simp [hi, show a + i < len by omega, Nat.add_assoc]

/-- A part of a known field is known. -/
theorem subfield {lo len a n : Nat} {v : BitVec len} (h : field w lo len = v) (ha : a + n ≤ len) :
    field w (lo + a) n = v.extractLsb' a n :=
  h ▸ (extractLsb'_field w ha).symm

/-- A bit of a known field is known. -/
theorem bit_of_field {lo len : Nat} {v : BitVec len} (h : field w lo len = v) (i : Nat) (hi : i < len) :
    bit w (lo + i) = v.getLsbD i := by
  simp [← h, hi]

/-- A field is its top bit and the field below it: with a numeral on the right this lists the bits. -/
theorem field_beq_succ {lo n : Nat} {v : BitVec (n + 1)} : (field w lo (n + 1) == v) =
    ((bit w (lo + n) == v.getLsbD n) && field w lo n == v.setWidth n) := by
  rw [Bool.eq_iff_iff, Bool.and_eq_true, beq_iff_eq, beq_iff_eq, beq_iff_eq]
  constructor
  · rintro rfl
    refine ⟨by simp, BitVec.eq_of_getLsbD_eq fun i hi => ?_⟩
    simp [hi, show i < n + 1 by omega]
  · rintro ⟨hn, hlow⟩
    apply BitVec.eq_of_getLsbD_eq
    intro i hi
    rcases Nat.lt_succ_iff_lt_or_eq.1 hi with h | rfl
    · simpa [h, hi] using congrArg (·.getLsbD i) hlow
    · simpa using hn

/-- A word is another when its bits stand there from bit 0 up: the first step in taking an encoding apart. -/
theorem eq_iff_holds (v w : Word) : v = w ↔ Holds w 0 v := by simp [Holds, field, eq_comm]

/-- A concatenation stands in the word when its two parts do. -/
theorem holds_append {m n lo : Nat} {x : BitVec m} {y : BitVec n} :
    Holds w lo (no_index (x ++ y)) ↔ Holds w (lo + n) x ∧ Holds w lo y := by
  unfold Holds
  constructor
  · intro h
    have hx := extractLsb'_field w (lo := lo) (Nat.le_of_eq (Nat.add_comm n m))
    have hy := extractLsb'_field w (lo := lo) (len := m + n) (a := 0) (n := n) (by omega)
    rw [h, BitVec.extractLsb'_append_eq_left] at hx
    rw [h, BitVec.extractLsb'_append_eq_right] at hy
    exact ⟨hx.symm, hy.symm⟩
  · rintro ⟨rfl, rfl⟩
    exact (BitVec.extractLsb'_append_extractLsb'_eq_extractLsb' rfl).symm

theorem holds_condBits {c : Cond} {lo : Nat} : Holds w lo c.bits ↔ Cond.ofBits (field w lo 4) = c :=
  ⟨fun h => by rw [show field w lo 4 = c.bits from h, Cond.ofBits_bits], fun h => by rw [← h, Cond.bits_ofBits]; rfl⟩

theorem holds_aluBits {op : AluOp} {lo : Nat} : Holds w lo op.bits ↔ AluOp.ofBits (field w lo 4) = op :=
  ⟨fun h => by rw [show field w lo 4 = op.bits from h, AluOp.ofBits_bits],
    fun h => by rw [← h, AluOp.bits_ofBits]; rfl⟩

theorem holds_shiftBits {ty : ShiftType} {lo : Nat} : Holds w lo ty.bits ↔ ShiftType.ofBits (field w lo 2) = ty :=
  ⟨fun h => by rw [show field w lo 2 = ty.bits from h, ShiftType.ofBits_bits],
    fun h => by rw [← h, ShiftType.bits_ofBits]; rfl⟩

theorem holds_regBits {lo : Nat} {r : RegNum} : Holds w lo (regBits r) ↔ regField w lo = r :=
  ⟨regField_eq, fun h => h ▸ rfl⟩

theorem holds_bit {n : Nat} {a : BitVec 1} : Holds w n a ↔ bit w n = (a == 1#1) := by
  have ha : a = 0#1 ∨ a = 1#1 := by revert a; decide
  rcases ha with rfl | rfl <;> simp [Holds, BitVec.eq_of_getLsbD_eq_iff]

@[simp] theorem boolBit_beq_one (b : Bool) : (boolBit b == 1#1) = b := by cases b <;> rfl

end

/-! ### The tests of R102, on the bits they read

`simp` would respell `bit w n` as an element of the word; the proofs keep it in the decoder's spelling. -/

section
variable {w : Word}

theorem isTrap_eq (w : Word) : isTrap w = (!bit w 27 && bit w 26 && bit w 25 && bit w 4) := by
  simp [isTrap, field_beq_succ, Bool.and_assoc, -BitVec.getLsbD_eq_getElem]

theorem isSingle_eq (w : Word) : isSingle w = (!bit w 27 && bit w 26) := by
  simp [isSingle, field_beq_succ, -BitVec.getLsbD_eq_getElem]

theorem isBlock_eq (w : Word) : isBlock w = (bit w 27 && !bit w 26 && !bit w 25) := by
  simp [isBlock, field_beq_succ, Bool.and_assoc, -BitVec.getLsbD_eq_getElem]

theorem isBranch_eq (w : Word) : isBranch w = (bit w 27 && !bit w 26 && bit w 25) := by
  simp [isBranch, field_beq_succ, Bool.and_assoc, -BitVec.getLsbD_eq_getElem]

theorem isCoprocTransfer_eq (w : Word) : isCoprocTransfer w = (bit w 27 && bit w 26 && !bit w 25) := by
  simp [isCoprocTransfer, field_beq_succ, Bool.and_assoc, -BitVec.getLsbD_eq_getElem]

theorem isSwi_eq (w : Word) : isSwi w = (bit w 27 && bit w 26 && bit w 25 && bit w 24) := by
  simp [isSwi, field_beq_succ, Bool.and_assoc, -BitVec.getLsbD_eq_getElem]

theorem isCoproc_eq (w : Word) : isCoproc w = (bit w 27 && bit w 26 && bit w 25 && !bit w 24) := by
  simp [isCoproc, field_beq_succ, Bool.and_assoc, -BitVec.getLsbD_eq_getElem]

theorem isDataProc_eq (w : Word) : isDataProc w = (!bit w 27 && !bit w 26) := by
  simp [isDataProc, field_beq_succ, -BitVec.getLsbD_eq_getElem]

theorem isHalf_eq (w : Word) : isHalf w = (isDataProc w && !bit w 25 && bit w 7 && bit w 4) := by
  simp [isHalf, isDataProc_eq, field_beq_succ, Bool.and_assoc, -BitVec.getLsbD_eq_getElem]

/-- Steps 1 to 3 take the word. -/
def isEarly (w : Word) : Bool := isMul w || isMulLong w || isSwap w

theorem isEarly_iff : isEarly w = true ↔ isMul w = true ∨ isMulLong w = true ∨ isSwap w = true := by
  simp only [isEarly, Bool.or_eq_true, or_assoc]

theorem isEarly_eq_false_iff : isEarly w = false ↔ isMul w = false ∧ isMulLong w = false ∧ isSwap w = false := by
  simp only [isEarly, Bool.or_eq_false_iff, and_assoc]

/-- The words of steps 1 to 3 have the shape of step 5, with S = H = 0. -/
theorem field_4_of_isEarly (h : isEarly w = true) : field w 4 4 = 0b1001#4 := by
  simp only [isEarly_iff, isMul, isMulLong, isSwap, Bool.and_eq_true, beq_iff_eq] at h
  rcases h with ⟨-, h4⟩ | ⟨-, h4⟩ | ⟨-, h4⟩
  · exact h4
  · exact h4
  · exact subfield h4 (a := 0) (by decide)

theorem isHalf_of_isEarly (h : isEarly w = true) : isHalf w = true := by
  have h4 := field_4_of_isEarly h
  have h25 : field w 25 3 = 0b000#3 := by
    simp only [isEarly_iff, isMul, isMulLong, isSwap, Bool.and_eq_true, beq_iff_eq] at h
    rcases h with ⟨hi, -⟩ | ⟨hi, -⟩ | ⟨hi, -⟩
    · exact subfield hi (a := 3) (by decide)
    · exact subfield hi (a := 2) (by decide)
    · exact subfield hi (a := 2) (by decide)
  simp only [isHalf, h25, bit_of_field h4 3 (by decide), bit_of_field h4 0 (by decide)]
  decide

theorem isEarly_eq_false_of_not_isHalf (h : isHalf w = false) : isEarly w = false :=
  Bool.eq_false_iff.2 fun he => Bool.noConfusion (h.symm.trans (isHalf_of_isEarly he))

theorem isEarly_eq_false_of_bits (h : bit w 6 = true ∨ bit w 5 = true) : isEarly w = false := by
  refine Bool.eq_false_iff.2 fun he => ?_
  have h4 := field_4_of_isEarly he
  rcases h with h | h
  · exact Bool.noConfusion (h.symm.trans (bit_of_field h4 2 (by decide)))
  · exact Bool.noConfusion (h.symm.trans (bit_of_field h4 1 (by decide)))

/-- `halfZeroCanonical` rules out the words of steps 1 to 3 (R107). -/
theorem halfZeroCanonical_of_isEarly (h : isEarly w = true) :
    halfZeroCanonical (field w 20 5) (field w 8 12) = false := by
  have e1 : (field w 20 5).extractLsb' 2 3 = field w 22 3 := extractLsb'_field w (by decide)
  have e2 : (field w 20 5).extractLsb' 3 2 = field w 23 2 := extractLsb'_field w (by decide)
  have e3 : (field w 8 12).extractLsb' 0 4 = field w 8 4 := extractLsb'_field w (by decide)
  simp only [isEarly_iff, isMul, isMulLong, isSwap, Bool.and_eq_true, beq_iff_eq] at h
  rw [halfZeroCanonical, e1, e2, e3]
  rcases h with ⟨hi, -⟩ | ⟨hi, -⟩ | ⟨hi, lo⟩
  · rw [show field w 22 3 = 0b000#3 from subfield hi (a := 0) (by decide)]
    rfl
  · rw [show field w 23 2 = 0b01#2 from subfield hi (a := 0) (by decide)]
    simp
  · rw [show field w 23 2 = 0b10#2 from subfield hi (a := 0) (by decide),
      show field w 8 4 = 0b0000#4 from subfield lo (a := 4) (by decide)]
    simp

theorem isEarly_eq_false_of_canonical (h : halfZeroCanonical (field w 20 5) (field w 8 12) = true) :
    isEarly w = false :=
  Bool.eq_false_iff.2 fun he => Bool.noConfusion (h.symm.trans (halfZeroCanonical_of_isEarly he))

theorem isMul_of_isMulLong (h : isMulLong w = true) : isMul w = false := by
  refine Bool.eq_false_iff.2 fun hm => ?_
  simp only [isMul, isMulLong, Bool.and_eq_true, beq_iff_eq] at h hm
  have h23 : bit w 23 = true := bit_of_field h.1 0 (by decide)
  exact Bool.noConfusion (h23.symm.trans (bit_of_field hm.1 1 (by decide)))

theorem isMul_of_isSwap (h : isSwap w = true) : isMul w = false := by
  refine Bool.eq_false_iff.2 fun hm => ?_
  simp only [isMul, isSwap, Bool.and_eq_true, beq_iff_eq] at h hm
  have h24 : bit w 24 = true := bit_of_field h.1 1 (by decide)
  exact Bool.noConfusion (h24.symm.trans (bit_of_field hm.1 2 (by decide)))

theorem isMulLong_of_isSwap (h : isSwap w = true) : isMulLong w = false := by
  simp only [isSwap, Bool.and_eq_true, beq_iff_eq] at h
  simp [isMulLong, h.1]

/-- The shape of BX: a compare with S = 0 in the register-specified shift form, but for w[7] = 0 not of step 5. -/
theorem bits_of_isBx (h : isBx w = true) : isDataProc w = true ∧ bit w 25 = false ∧ field w 23 2 = 0b10#2 ∧
    bit w 20 = false ∧ bit w 7 = false ∧ bit w 4 = true := by
  simp only [isBx, beq_iff_eq] at h
  exact ⟨beq_iff_eq.2 (subfield h (a := 22) (by decide)), bit_of_field h 21 (by decide),
    subfield h (a := 19) (by decide), bit_of_field h 16 (by decide), bit_of_field h 3 (by decide),
    bit_of_field h 0 (by decide)⟩

theorem isHalf_of_isBx (h : isBx w = true) : isHalf w = false := by
  obtain ⟨-, -, -, -, h7, -⟩ := bits_of_isBx h
  simp only [isHalf_eq, h7, Bool.and_false, Bool.false_and]

/-- What steps 1 to 5 leave to the later ones. -/
theorem half_bx_eq_false (h : isDataProc w = false ∨ bit w 25 = true ∨ bit w 4 = false) :
    isHalf w = false ∧ isBx w = false := by
  constructor
  · rw [isHalf_eq]
    rcases h with h | h | h <;> simp only [h, Bool.not_true, Bool.and_false, Bool.false_and]
  · refine Bool.eq_false_iff.2 fun hb => ?_
    obtain ⟨hd, h25, -, -, -, h4⟩ := bits_of_isBx hb
    simp only [hd, h25, h4, Bool.true_eq_false, Bool.false_eq_true, or_self] at h

end

/-! ### The step that takes a word (R102) -/

section
variable {w : Word} (general : Bool)

theorem decodeWord_eq (w : Word) : decodeWord general w =
    let c := Cond.ofBits (field w 28 4)
    if isMul w then .ok (decodeMul c w) else if isMulLong w then .ok (decodeMulLong c w)
    else if isSwap w then .ok (decodeSwap c w) else if isBx w then .ok (.bx c (regField w 0))
    else if isHalf w then .ok (decodeHalf c w)
    else if isTrap w then .ok (.undefTrap c (field w 5 20) (field w 0 4))
    else if isSingle w then .ok (decodeSingle c w) else if isBlock w then .ok (decodeBlock c w)
    else if isBranch w then .ok (if bit w 24 then .bl c (field w 0 24) else .b c (field w 0 24))
    else if isCoprocTransfer w then .ok (decodeCoprocTransfer c w) else if isSwi w then .ok (.swi c (field w 0 24))
    else if isCoproc w then .ok (decodeCoproc c w) else if isDataProc w then .ok (decodeDataProc general c w)
    else .error .decoderDefect := rfl

theorem decodeWord_mul (h : isMul w = true) :
    decodeWord general w = .ok (decodeMul (Cond.ofBits (field w 28 4)) w) := by
  simp only [decodeWord_eq, h, if_true]

theorem decodeWord_mulLong (h : isMulLong w = true) :
    decodeWord general w = .ok (decodeMulLong (Cond.ofBits (field w 28 4)) w) := by
  simp only [decodeWord_eq, isMul_of_isMulLong h, h, if_true, Bool.false_eq_true, if_false]

theorem decodeWord_swap (h : isSwap w = true) :
    decodeWord general w = .ok (decodeSwap (Cond.ofBits (field w 28 4)) w) := by
  simp only [decodeWord_eq, isMul_of_isSwap h, isMulLong_of_isSwap h, h, if_true, Bool.false_eq_true, if_false]

theorem decodeWord_bx (h : isBx w = true) :
    decodeWord general w = .ok (.bx (Cond.ofBits (field w 28 4)) (regField w 0)) := by
  obtain ⟨h1, h2, h3⟩ := isEarly_eq_false_iff.1 (isEarly_eq_false_of_not_isHalf (isHalf_of_isBx h))
  simp only [decodeWord_eq, h1, h2, h3, h, if_true, Bool.false_eq_true, if_false]

theorem decodeWord_half (h : isHalf w = true) (he : isEarly w = false) :
    decodeWord general w = .ok (decodeHalf (Cond.ofBits (field w 28 4)) w) := by
  obtain ⟨h1, h2, h3⟩ := isEarly_eq_false_iff.1 he
  have hb : isBx w = false := Bool.eq_false_iff.2 fun hb => Bool.noConfusion (h.symm.trans (isHalf_of_isBx hb))
  simp only [decodeWord_eq, h1, h2, h3, hb, h, if_true, Bool.false_eq_true, if_false]

/-- The last eight steps, on the bits they test. -/
theorem decodeWord_late (hh : isHalf w = false) (hb : isBx w = false) : decodeWord general w =
    let c := Cond.ofBits (field w 28 4)
    if !bit w 27 && bit w 26 && bit w 25 && bit w 4 then .ok (.undefTrap c (field w 5 20) (field w 0 4))
    else if !bit w 27 && bit w 26 then .ok (decodeSingle c w)
    else if bit w 27 && !bit w 26 && !bit w 25 then .ok (decodeBlock c w)
    else if bit w 27 && !bit w 26 && bit w 25 then
      .ok (if bit w 24 then .bl c (field w 0 24) else .b c (field w 0 24))
    else if bit w 27 && bit w 26 && !bit w 25 then .ok (decodeCoprocTransfer c w)
    else if bit w 27 && bit w 26 && bit w 25 && bit w 24 then .ok (.swi c (field w 0 24))
    else if bit w 27 && bit w 26 && bit w 25 && !bit w 24 then .ok (decodeCoproc c w)
    else if !bit w 27 && !bit w 26 then .ok (decodeDataProc general c w) else .error .decoderDefect := by
  obtain ⟨h1, h2, h3⟩ := isEarly_eq_false_iff.1 (isEarly_eq_false_of_not_isHalf hh)
  simp only [decodeWord_eq, h1, h2, h3, hb, hh, Bool.false_eq_true, if_false, isTrap_eq, isSingle_eq, isBlock_eq,
    isBranch_eq, isCoprocTransfer_eq, isSwi_eq, isCoproc_eq, isDataProc_eq]

theorem decodeWord_trap (h : isTrap w = true) :
    decodeWord general w = .ok (.undefTrap (Cond.ofBits (field w 28 4)) (field w 5 20) (field w 0 4)) := by
  simp only [isTrap_eq, Bool.and_eq_true, Bool.not_eq_true'] at h
  obtain ⟨hh, hb⟩ := half_bx_eq_false (w := w) (.inl (by simp [isDataProc_eq, h]))
  simp [decodeWord_late general hh hb, h, -BitVec.getLsbD_eq_getElem]

theorem decodeWord_single (h : isSingle w = true) (ht : isTrap w = false) :
    decodeWord general w = .ok (decodeSingle (Cond.ofBits (field w 28 4)) w) := by
  rw [isTrap_eq] at ht
  simp only [isSingle_eq, Bool.and_eq_true, Bool.not_eq_true'] at h
  obtain ⟨hh, hb⟩ := half_bx_eq_false (w := w) (.inl (by simp [isDataProc_eq, h]))
  rw [decodeWord_late general hh hb, ht]
  simp [h, -BitVec.getLsbD_eq_getElem]

theorem decodeWord_block (h : isBlock w = true) :
    decodeWord general w = .ok (decodeBlock (Cond.ofBits (field w 28 4)) w) := by
  simp only [isBlock_eq, Bool.and_eq_true, Bool.not_eq_true'] at h
  obtain ⟨hh, hb⟩ := half_bx_eq_false (w := w) (.inl (by simp [isDataProc_eq, h]))
  simp [decodeWord_late general hh hb, h, -BitVec.getLsbD_eq_getElem]

theorem decodeWord_branch (h : isBranch w = true) : decodeWord general w = .ok (if bit w 24 then
    .bl (Cond.ofBits (field w 28 4)) (field w 0 24) else .b (Cond.ofBits (field w 28 4)) (field w 0 24)) := by
  simp only [isBranch_eq, Bool.and_eq_true, Bool.not_eq_true'] at h
  obtain ⟨hh, hb⟩ := half_bx_eq_false (w := w) (.inl (by simp [isDataProc_eq, h]))
  simp [decodeWord_late general hh hb, h, -BitVec.getLsbD_eq_getElem]

theorem decodeWord_coprocTransfer (h : isCoprocTransfer w = true) :
    decodeWord general w = .ok (decodeCoprocTransfer (Cond.ofBits (field w 28 4)) w) := by
  simp only [isCoprocTransfer_eq, Bool.and_eq_true, Bool.not_eq_true'] at h
  obtain ⟨hh, hb⟩ := half_bx_eq_false (w := w) (.inl (by simp [isDataProc_eq, h]))
  simp [decodeWord_late general hh hb, h, -BitVec.getLsbD_eq_getElem]

theorem decodeWord_swi (h : isSwi w = true) :
    decodeWord general w = .ok (.swi (Cond.ofBits (field w 28 4)) (field w 0 24)) := by
  simp only [isSwi_eq, Bool.and_eq_true] at h
  obtain ⟨hh, hb⟩ := half_bx_eq_false (w := w) (.inl (by simp [isDataProc_eq, h]))
  simp [decodeWord_late general hh hb, h, -BitVec.getLsbD_eq_getElem]

theorem decodeWord_coproc (h : isCoproc w = true) :
    decodeWord general w = .ok (decodeCoproc (Cond.ofBits (field w 28 4)) w) := by
  simp only [isCoproc_eq, Bool.and_eq_true, Bool.not_eq_true'] at h
  obtain ⟨hh, hb⟩ := half_bx_eq_false (w := w) (.inl (by simp [isDataProc_eq, h]))
  simp [decodeWord_late general hh hb, h, -BitVec.getLsbD_eq_getElem]

theorem decodeWord_dataProc (h : isDataProc w = true) (hh : isHalf w = false) (hb : isBx w = false) :
    decodeWord general w = .ok (decodeDataProc general (Cond.ofBits (field w 28 4)) w) := by
  simp only [isDataProc_eq, Bool.and_eq_true, Bool.not_eq_true'] at h
  simp [decodeWord_late general hh hb, h, -BitVec.getLsbD_eq_getElem]

end

/-! ### The tests of step 13 (R115, R357) -/

/-- The four shapes of a status transfer, in the order of R115 and R357. -/
def isMrs (w : Word) : Bool := field w 23 5 == 0b00010#5 && field w 16 6 == 0b001111#6 && field w 0 12 == 0#12
def isMsrReg (w : Word) : Bool := field w 23 5 == 0b00010#5 && field w 4 18 == 0x29F00#18
def isMsrFlg (w : Word) : Bool := field w 23 2 == 0b10#2 && field w 12 10 == 0x28F#10
def isMsrGen (w : Word) : Bool := field w 23 2 == 0b10#2 && field w 20 2 == 0b10#2 && field w 12 4 == 0b1111#4

theorem decodeDataProc_eq (general : Bool) (c : Cond) (w : Word) : decodeDataProc general c w =
    if isMrs w then .mrs c (bit w 22) (regField w 12)
    else if isMsrReg w then .msrReg c (bit w 22) (regField w 0)
    else if isMsrFlg w then .msrFlg c (bit w 22) (decodePsrSource w)
    else if general && isMsrGen w then .msrGen c (bit w 22) (field w 16 4) (decodePsrSource w)
    else dataProcInstr (AluOp.ofBits (field w 21 4)) c (bit w 20) (regField w 16) (regField w 12)
      (decodeOperand2 w) := by
  simp only [isMsrGen, ← Bool.and_assoc]
  rfl

section
variable {w : Word} {general : Bool} {c : Cond}

/-- A status transfer is a compare with S = 0. -/
theorem flagless_of_status (h : isMrs w = true ∨ isMsrReg w = true ∨ isMsrFlg w = true ∨ isMsrGen w = true) :
    field w 23 2 = 0b10#2 ∧ bit w 20 = false := by
  simp only [isMrs, isMsrReg, isMsrFlg, isMsrGen, Bool.and_eq_true, beq_iff_eq] at h
  rcases h with ⟨⟨h23, h16⟩, -⟩ | ⟨h23, h4⟩ | ⟨h23, h12⟩ | ⟨⟨h23, h20⟩, -⟩
  · exact ⟨subfield h23 (a := 0) (by decide), bit_of_field h16 4 (by decide)⟩
  · exact ⟨subfield h23 (a := 0) (by decide), bit_of_field h4 16 (by decide)⟩
  · exact ⟨h23, bit_of_field h12 8 (by decide)⟩
  · exact ⟨h23, bit_of_field h20 0 (by decide)⟩

theorem decodeDataProc_alu (h : ¬ (field w 23 2 = 0b10#2 ∧ bit w 20 = false)) : decodeDataProc general c w =
    dataProcInstr (AluOp.ofBits (field w 21 4)) c (bit w 20) (regField w 16) (regField w 12) (decodeOperand2 w) := by
  have hs := mt flagless_of_status h
  simp only [not_or, Bool.not_eq_true] at hs
  simp only [decodeDataProc_eq, hs, Bool.and_false, Bool.false_eq_true, if_false]

/-- MRS has w[21] = 0, the three forms of MSR have w[21] = 1. -/
theorem isMrs_of_msr (h : isMsrReg w = true ∨ isMsrFlg w = true ∨ isMsrGen w = true) : isMrs w = false := by
  have h21 : bit w 21 = true := by
    simp only [isMsrReg, isMsrFlg, isMsrGen, Bool.and_eq_true, beq_iff_eq] at h
    rcases h with ⟨-, h4⟩ | ⟨-, h12⟩ | ⟨⟨-, h20⟩, -⟩
    · exact bit_of_field h4 17 (by decide)
    · exact bit_of_field h12 9 (by decide)
    · exact bit_of_field h20 1 (by decide)
  refine Bool.eq_false_iff.2 fun hm => ?_
  simp only [isMrs, Bool.and_eq_true, beq_iff_eq] at hm
  obtain ⟨⟨-, h16⟩, -⟩ := hm
  exact Bool.noConfusion (h21.symm.trans (bit_of_field h16 5 (by decide)))

/-- The mask w[19:16] tells MSR_flg (1000) from MSR_reg (1001). -/
theorem mask_of_isMsrFlg (h : isMsrFlg w = true) : field w 16 4 = 0b1000#4 := by
  simp only [isMsrFlg, Bool.and_eq_true, beq_iff_eq] at h
  exact subfield h.2 (a := 4) (by decide)

theorem mask_of_isMsrReg (h : isMsrReg w = true) : field w 16 4 = 0b1001#4 := by
  simp only [isMsrReg, Bool.and_eq_true, beq_iff_eq] at h
  exact subfield h.2 (a := 12) (by decide)

/-- MSR_reg is the register form with w[11:4] = 0. -/
theorem psrSource_of_isMsrReg (h : isMsrReg w = true) : decodePsrSource w = .reg 0#8 (regField w 0) := by
  simp only [isMsrReg, Bool.and_eq_true, beq_iff_eq] at h
  have h25 : bit w 25 = false := bit_of_field h.1 2 (by decide)
  have h4 : field w 4 8 = 0#8 := subfield h.2 (a := 0) (by decide)
  simp only [decodePsrSource, h25, h4, Bool.false_eq_true, if_false]

theorem decodeDataProc_mrs (h : isMrs w = true) : decodeDataProc general c w = .mrs c (bit w 22) (regField w 12) := by
  simp only [decodeDataProc_eq, h, if_true]

theorem decodeDataProc_msrReg (h : isMsrReg w = true) :
    decodeDataProc general c w = .msrReg c (bit w 22) (regField w 0) := by
  simp only [decodeDataProc_eq, isMrs_of_msr (.inl h), h, if_true, Bool.false_eq_true, if_false]

theorem decodeDataProc_msrFlg (h : isMsrFlg w = true) :
    decodeDataProc general c w = .msrFlg c (bit w 22) (decodePsrSource w) := by
  have hr : isMsrReg w = false := Bool.eq_false_iff.2 fun hr =>
    absurd ((mask_of_isMsrReg hr).symm.trans (mask_of_isMsrFlg h)) (by decide)
  simp only [decodeDataProc_eq, isMrs_of_msr (.inr (.inl h)), hr, h, if_true, Bool.false_eq_true, if_false]

theorem msrGenCanonical_flgMask (src : PsrSource) : msrGenCanonical 0b1000#4 src = false := by cases src <;> rfl

theorem decodeDataProc_msrGen (h : isMsrGen w = true) (hg : general = true)
    (hc : msrGenCanonical (field w 16 4) (decodePsrSource w) = true) :
    decodeDataProc general c w = .msrGen c (bit w 22) (field w 16 4) (decodePsrSource w) := by
  have hf : isMsrFlg w = false := Bool.eq_false_iff.2 fun hf => by
    rw [mask_of_isMsrFlg hf, msrGenCanonical_flgMask] at hc
    cases hc
  have hr : isMsrReg w = false := Bool.eq_false_iff.2 fun hr => by
    rw [mask_of_isMsrReg hr, psrSource_of_isMsrReg hr] at hc
    cases hc
  simp only [decodeDataProc_eq, isMrs_of_msr (.inr (.inr h)), hr, hf, h, hg, Bool.true_and, if_true, Bool.false_eq_true,
    if_false]

end

/-! ### The formats (R118 to R135): a word is the encoding exactly when it passes the test of its step and its fields
are the operands -/

section
variable {w : Word} {c : Cond} {rn rd rs rm : RegNum} {a b l s h : BitVec 1} {sf p u wb n : Bool}

theorem operand2_holds_iff {o : Operand2} : Holds w 25 o.iBit ∧ Holds w 0 o.bits ↔
    decodeOperand2 w = o ∧ (bit w 25 = true ∨ bit w 7 = false ∨ bit w 4 = false) := by
  cases o with
  | imm rotate imm8 =>
    simp only [Operand2.iBit, Operand2.bits, holds_append, holds_bit, decodeOperand2, Nat.reduceAdd]
    unfold Holds
    cases bit w 25
    · cases bit w 4 <;> simp
    · simp
  | regImm m ty amount =>
    simp only [Operand2.iBit, Operand2.bits, holds_append, holds_bit, holds_regBits, holds_shiftBits, decodeOperand2,
      Nat.reduceAdd]
    unfold Holds
    cases bit w 25
    · cases bit w 4 <;> simp; tauto
    · simp
  | regReg m ty q =>
    simp only [Operand2.iBit, Operand2.bits, holds_append, holds_bit, holds_regBits, holds_shiftBits, decodeOperand2,
      Nat.reduceAdd]
    cases bit w 25
    · cases bit w 4 <;> simp; tauto
    · simp

theorem offset_holds_iff {off : Offset} : Holds w 25 off.iBit ∧ Holds w 0 off.bits ↔
    decodeOffset w = off ∧ (bit w 25 = false ∨ bit w 4 = false) := by
  cases off with
  | imm offset =>
    simp only [Offset.iBit, Offset.bits, holds_bit, decodeOffset]
    cases bit w 25 <;> simp [Holds]
  | reg m ty amount =>
    simp only [Offset.iBit, Offset.bits, holds_append, holds_bit, holds_regBits, holds_shiftBits, decodeOffset,
      Nat.reduceAdd]
    unfold Holds
    cases bit w 25 <;> simp; tauto

theorem halfOffset_holds_iff {off : HalfOffset} :
    Holds w 22 off.iBit ∧ Holds w 8 off.hiBits ∧ Holds w 0 off.loBits ↔ decodeHalfOffset w = off := by
  cases off with
  | imm offset =>
    simp only [HalfOffset.iBit, HalfOffset.hiBits, HalfOffset.loBits, holds_bit, decodeHalfOffset]
    unfold Holds
    cases bit w 22
    · simp
    · simp only [beq_self_eq_true, true_and, if_true, HalfOffset.imm.injEq]
      constructor
      · rintro ⟨h8, h0⟩
        rw [h8, h0]
        exact (BitVec.extractLsb'_append_extractLsb'_eq_extractLsb' rfl).trans BitVec.extractLsb'_eq_self
      · rintro rfl
        rw [BitVec.extractLsb'_append_eq_left, BitVec.extractLsb'_append_eq_right]
        exact ⟨rfl, rfl⟩
  | reg sbz m =>
    simp only [HalfOffset.iBit, HalfOffset.hiBits, HalfOffset.loBits, holds_bit, holds_regBits, decodeHalfOffset]
    unfold Holds
    cases bit w 22 <;> simp

theorem psrSource_holds_iff {src : PsrSource} : Holds w 25 src.iBit ∧ Holds w 0 src.bits ↔ decodePsrSource w = src := by
  cases src with
  | imm rotate imm8 =>
    simp only [PsrSource.iBit, PsrSource.bits, holds_append, holds_bit, decodePsrSource, Nat.reduceAdd]
    unfold Holds
    cases bit w 25 <;> simp
  | reg sbz m =>
    simp only [PsrSource.iBit, PsrSource.bits, holds_append, holds_bit, holds_regBits, decodePsrSource, Nat.reduceAdd]
    unfold Holds
    cases bit w 25 <;> simp

theorem encodeDataProc_eq_iff {op : AluOp} {o : Operand2} : encodeDataProc op c sf rn rd o = w ↔
    isDataProc w = true ∧ isHalf w = false ∧ Cond.ofBits (field w 28 4) = c ∧ AluOp.ofBits (field w 21 4) = op ∧
    bit w 20 = sf ∧ regField w 16 = rn ∧ regField w 12 = rd ∧ decodeOperand2 w = o := by
  have ht : isDataProc w = true ↔ Holds w 26 0b00#2 := beq_iff_eq
  have hh : isDataProc w = true → (isHalf w = false ↔ bit w 25 = true ∨ bit w 7 = false ∨ bit w 4 = false) :=
    fun hd => by
      simp only [isHalf_eq, hd, Bool.true_and, Bool.and_eq_false_iff, Bool.not_eq_false', or_assoc]
  have ho := operand2_holds_iff (w := w) (o := o)
  rw [eq_iff_holds, encodeDataProc]
  simp only [holds_append, holds_condBits, holds_aluBits, holds_regBits, holds_bit, boolBit_beq_one,
    Nat.reduceAdd] at ho ⊢
  rw [← ht]
  tauto

theorem encodeMul_eq_iff : encodeMul a c sf rd rn rs rm = w ↔ isMul w = true ∧ Cond.ofBits (field w 28 4) = c ∧
    bit w 21 = (a == 1#1) ∧ bit w 20 = sf ∧ regField w 16 = rd ∧ regField w 12 = rn ∧ regField w 8 = rs ∧
    regField w 0 = rm := by
  rw [eq_iff_holds, encodeMul]
  simp only [holds_append, holds_condBits, holds_regBits, holds_bit, boolBit_beq_one, isMul, Bool.and_eq_true,
    beq_iff_eq, Nat.reduceAdd]
  unfold Holds
  tauto

theorem encodeMulLong_eq_iff : encodeMulLong b a c sf rd rn rs rm = w ↔ isMulLong w = true ∧
    Cond.ofBits (field w 28 4) = c ∧ bit w 22 = (b == 1#1) ∧ bit w 21 = (a == 1#1) ∧ bit w 20 = sf ∧
    regField w 16 = rd ∧ regField w 12 = rn ∧ regField w 8 = rs ∧ regField w 0 = rm := by
  rw [eq_iff_holds, encodeMulLong]
  simp only [holds_append, holds_condBits, holds_regBits, holds_bit, boolBit_beq_one, isMulLong, Bool.and_eq_true,
    beq_iff_eq, Nat.reduceAdd]
  unfold Holds
  tauto

theorem encodeSwap_eq_iff {z : BitVec 2} : encodeSwap b c z rn rd rm = w ↔ isSwap w = true ∧
    Cond.ofBits (field w 28 4) = c ∧ bit w 22 = (b == 1#1) ∧ field w 20 2 = z ∧ regField w 16 = rn ∧
    regField w 12 = rd ∧ regField w 0 = rm := by
  rw [eq_iff_holds, encodeSwap]
  simp only [holds_append, holds_condBits, holds_regBits, holds_bit, isSwap, Bool.and_eq_true, beq_iff_eq,
    Nat.reduceAdd]
  unfold Holds
  tauto

theorem encodeHalf_eq_iff {off : HalfOffset} : encodeHalf l s h c p u wb rn rd off = w ↔ isHalf w = true ∧
    Cond.ofBits (field w 28 4) = c ∧ bit w 24 = p ∧ bit w 23 = u ∧ bit w 21 = wb ∧ bit w 20 = (l == 1#1) ∧
    regField w 16 = rn ∧ regField w 12 = rd ∧ bit w 6 = (s == 1#1) ∧ bit w 5 = (h == 1#1) ∧
    decodeHalfOffset w = off := by
  rw [eq_iff_holds, encodeHalf, ← halfOffset_holds_iff]
  simp only [holds_append, holds_condBits, holds_regBits, holds_bit, boolBit_beq_one, beq_self_eq_true, isHalf,
    Bool.and_eq_true, beq_iff_eq, Nat.reduceAdd]
  unfold Holds
  tauto

theorem encodeSingle_eq_iff {off : Offset} : encodeSingle a b wb l c u rn rd off = w ↔ isSingle w = true ∧
    isTrap w = false ∧ Cond.ofBits (field w 28 4) = c ∧ bit w 24 = (a == 1#1) ∧ bit w 23 = u ∧ bit w 22 = (b == 1#1) ∧
    bit w 21 = wb ∧ bit w 20 = (l == 1#1) ∧ regField w 16 = rn ∧ regField w 12 = rd ∧ decodeOffset w = off := by
  have ht : isSingle w = true ↔ Holds w 26 0b01#2 := beq_iff_eq
  have hh : isSingle w = true → (isTrap w = false ↔ bit w 25 = false ∨ bit w 4 = false) :=
    fun hs => by
      rw [isSingle_eq] at hs
      simp only [isTrap_eq, hs, Bool.true_and, Bool.and_eq_false_iff]
  have ho := offset_holds_iff (w := w) (off := off)
  rw [eq_iff_holds, encodeSingle]
  simp only [holds_append, holds_condBits, holds_regBits, holds_bit, boolBit_beq_one, Nat.reduceAdd] at ho ⊢
  rw [← ht]
  tauto

theorem encodeBlock_eq_iff {list : BitVec 16} : encodeBlock l c p u sf wb rn list = w ↔ isBlock w = true ∧
    Cond.ofBits (field w 28 4) = c ∧ bit w 24 = p ∧ bit w 23 = u ∧ bit w 22 = sf ∧ bit w 21 = wb ∧
    bit w 20 = (l == 1#1) ∧ regField w 16 = rn ∧ field w 0 16 = list := by
  rw [eq_iff_holds, encodeBlock]
  simp only [holds_append, holds_condBits, holds_regBits, holds_bit, boolBit_beq_one, isBlock, beq_iff_eq,
    Nat.reduceAdd]
  unfold Holds
  tauto

theorem encodeCoprocTransfer_eq_iff {crd cp : BitVec 4} {offset8 : BitVec 8} :
    encodeCoprocTransfer l c p u n wb rn crd cp offset8 = w ↔ isCoprocTransfer w = true ∧
    Cond.ofBits (field w 28 4) = c ∧ bit w 24 = p ∧ bit w 23 = u ∧ bit w 22 = n ∧ bit w 21 = wb ∧
    bit w 20 = (l == 1#1) ∧ regField w 16 = rn ∧ field w 12 4 = crd ∧ field w 8 4 = cp ∧ field w 0 8 = offset8 := by
  rw [eq_iff_holds, encodeCoprocTransfer]
  simp only [holds_append, holds_condBits, holds_regBits, holds_bit, boolBit_beq_one, isCoprocTransfer, beq_iff_eq,
    Nat.reduceAdd]
  unfold Holds
  tauto

theorem encodeCoprocReg_eq_iff {op1 op2 : BitVec 3} {crn cp crm : BitVec 4} :
    encodeCoprocReg l c op1 crn rd cp op2 crm = w ↔ isCoproc w = true ∧ bit w 4 = true ∧
    Cond.ofBits (field w 28 4) = c ∧ field w 21 3 = op1 ∧ bit w 20 = (l == 1#1) ∧ field w 16 4 = crn ∧
    regField w 12 = rd ∧ field w 8 4 = cp ∧ field w 5 3 = op2 ∧ field w 0 4 = crm := by
  rw [eq_iff_holds, encodeCoprocReg]
  simp only [holds_append, holds_condBits, holds_regBits, holds_bit, beq_self_eq_true, isCoproc, beq_iff_eq,
    Nat.reduceAdd]
  unfold Holds
  tauto

theorem encode_mrs_eq_iff : encode (.mrs c p rd) = w ↔ isMrs w = true ∧ Cond.ofBits (field w 28 4) = c ∧
    bit w 22 = p ∧ regField w 12 = rd := by
  rw [eq_iff_holds, encode]
  simp only [holds_append, holds_condBits, holds_regBits, holds_bit, boolBit_beq_one, isMrs, Bool.and_eq_true,
    beq_iff_eq, Nat.reduceAdd]
  unfold Holds
  tauto

theorem encode_msrReg_eq_iff : encode (.msrReg c p rm) = w ↔ isMsrReg w = true ∧ Cond.ofBits (field w 28 4) = c ∧
    bit w 22 = p ∧ regField w 0 = rm := by
  have hf : field w 4 18 = 0x29F00#18 ↔ Holds w 12 0b1010011111#10 ∧ Holds w 4 0#8 :=
    holds_append (x := 0b1010011111#10) (y := 0#8)
  rw [eq_iff_holds, encode]
  simp only [holds_append, holds_condBits, holds_regBits, holds_bit, boolBit_beq_one, isMsrReg, Bool.and_eq_true,
    beq_iff_eq, hf, Nat.reduceAdd]
  unfold Holds
  tauto

theorem encode_msrFlg_eq_iff {src : PsrSource} : encode (.msrFlg c p src) = w ↔ isDataProc w = true ∧
    isMsrFlg w = true ∧ Cond.ofBits (field w 28 4) = c ∧ bit w 22 = p ∧ decodePsrSource w = src := by
  rw [eq_iff_holds, encode, ← psrSource_holds_iff]
  simp only [holds_append, holds_condBits, holds_bit, boolBit_beq_one, isDataProc, isMsrFlg, Bool.and_eq_true,
    beq_iff_eq, Nat.reduceAdd]
  unfold Holds
  tauto

theorem encode_msrGen_eq_iff {mask : BitVec 4} {src : PsrSource} : encode (.msrGen c p mask src) = w ↔
    isDataProc w = true ∧ isMsrGen w = true ∧ Cond.ofBits (field w 28 4) = c ∧ bit w 22 = p ∧ field w 16 4 = mask ∧
    decodePsrSource w = src := by
  rw [eq_iff_holds, encode, ← psrSource_holds_iff]
  simp only [holds_append, holds_condBits, holds_bit, boolBit_beq_one, isDataProc, isMsrGen, Bool.and_eq_true,
    beq_iff_eq, Nat.reduceAdd]
  unfold Holds
  tauto

theorem encode_bx_eq_iff : encode (.bx c rm) = w ↔ isBx w = true ∧ Cond.ofBits (field w 28 4) = c ∧
    regField w 0 = rm := by
  rw [eq_iff_holds, encode]
  simp only [holds_append, holds_condBits, holds_regBits, isBx, beq_iff_eq, Nat.reduceAdd]
  unfold Holds
  tauto

theorem encode_undefStoreSigned_eq_iff {hi lo : BitVec 4} {mid : BitVec 12} :
    encode (.undefStoreSigned c hi mid n lo) = w ↔ isHalf w = true ∧ bit w 20 = false ∧ bit w 6 = true ∧
    Cond.ofBits (field w 28 4) = c ∧ field w 21 4 = hi ∧ field w 8 12 = mid ∧ bit w 5 = n ∧ field w 0 4 = lo := by
  rw [eq_iff_holds, encode]
  simp only [holds_append, holds_condBits, holds_bit, boolBit_beq_one, isHalf, Bool.and_eq_true, beq_iff_eq,
    BitVec.reduceBEq, Nat.reduceAdd]
  unfold Holds
  tauto

theorem encode_undefHalfZero_eq_iff {hi : BitVec 5} {lo : BitVec 4} {mid : BitVec 12} :
    encode (.undefHalfZero c hi mid lo) = w ↔ isHalf w = true ∧ bit w 6 = false ∧ bit w 5 = false ∧
    Cond.ofBits (field w 28 4) = c ∧ field w 20 5 = hi ∧ field w 8 12 = mid ∧ field w 0 4 = lo := by
  have h4 : field w 4 4 = 0b1001#4 ↔ bit w 7 = true ∧ bit w 6 = false ∧ bit w 5 = false ∧ bit w 4 = true := by
    rw [← beq_iff_eq]
    simp [field_beq_succ, -BitVec.getLsbD_eq_getElem]
  rw [eq_iff_holds, encode]
  simp only [holds_append, holds_condBits, isHalf, Bool.and_eq_true, beq_iff_eq, Nat.reduceAdd]
  unfold Holds
  rw [h4]
  tauto

theorem encode_undefTrap_eq_iff {hi : BitVec 20} {lo : BitVec 4} : encode (.undefTrap c hi lo) = w ↔
    isTrap w = true ∧ Cond.ofBits (field w 28 4) = c ∧ field w 5 20 = hi ∧ field w 0 4 = lo := by
  rw [eq_iff_holds, encode]
  simp only [holds_append, holds_condBits, holds_bit, beq_self_eq_true, isTrap, Bool.and_eq_true, beq_iff_eq,
    Nat.reduceAdd]
  unfold Holds
  tauto

theorem encode_b_eq_iff {offset24 : BitVec 24} : encode (.b c offset24) = w ↔ isBranch w = true ∧ bit w 24 = false ∧
    Cond.ofBits (field w 28 4) = c ∧ field w 0 24 = offset24 := by
  rw [eq_iff_holds, encode]
  simp only [holds_append, holds_condBits, holds_bit, isBranch, beq_iff_eq, BitVec.reduceBEq, Nat.reduceAdd]
  unfold Holds
  tauto

theorem encode_bl_eq_iff {offset24 : BitVec 24} : encode (.bl c offset24) = w ↔ isBranch w = true ∧ bit w 24 = true ∧
    Cond.ofBits (field w 28 4) = c ∧ field w 0 24 = offset24 := by
  rw [eq_iff_holds, encode]
  simp only [holds_append, holds_condBits, holds_bit, isBranch, beq_iff_eq, beq_self_eq_true, Nat.reduceAdd]
  unfold Holds
  tauto

theorem encode_swi_eq_iff {comment : BitVec 24} : encode (.swi c comment) = w ↔ isSwi w = true ∧
    Cond.ofBits (field w 28 4) = c ∧ field w 0 24 = comment := by
  rw [eq_iff_holds, encode]
  simp only [holds_append, holds_condBits, isSwi, beq_iff_eq, Nat.reduceAdd]
  unfold Holds
  tauto

theorem encode_cdp_eq_iff {op1 crn crd cp crm : BitVec 4} {op2 : BitVec 3} :
    encode (.cdp c op1 crn crd cp op2 crm) = w ↔ isCoproc w = true ∧ bit w 4 = false ∧
    Cond.ofBits (field w 28 4) = c ∧ field w 20 4 = op1 ∧ field w 16 4 = crn ∧ field w 12 4 = crd ∧
    field w 8 4 = cp ∧ field w 5 3 = op2 ∧ field w 0 4 = crm := by
  rw [eq_iff_holds, encode]
  simp only [holds_append, holds_condBits, holds_bit, isCoproc, beq_iff_eq, BitVec.reduceBEq, Nat.reduceAdd]
  unfold Holds
  tauto

end

/-! ### Encoding what a word decodes to (R116) -/

section
variable {w : Word} {general : Bool}

theorem encode_decodeMul (h : isMul w = true) : encode (decodeMul (Cond.ofBits (field w 28 4)) w) = w := by
  unfold decodeMul
  cases h21 : bit w 21 <;> exact encodeMul_eq_iff.2 ⟨h, rfl, h21, rfl, rfl, rfl, rfl, rfl⟩

theorem encode_decodeMulLong (h : isMulLong w = true) : encode (decodeMulLong (Cond.ofBits (field w 28 4)) w) = w := by
  unfold decodeMulLong
  cases h22 : bit w 22 <;> cases h21 : bit w 21 <;>
    exact encodeMulLong_eq_iff.2 ⟨h, rfl, h22, h21, rfl, rfl, rfl, rfl, rfl⟩

theorem encode_decodeSwap (h : isSwap w = true) : encode (decodeSwap (Cond.ofBits (field w 28 4)) w) = w := by
  unfold decodeSwap
  cases h22 : bit w 22 <;> exact encodeSwap_eq_iff.2 ⟨h, rfl, h22, rfl, rfl, rfl, rfl⟩

theorem encode_decodeHalf (h : isHalf w = true) : encode (decodeHalf (Cond.ofBits (field w 28 4)) w) = w := by
  unfold decodeHalf
  cases h6 : bit w 6
  · cases h5 : bit w 5
    · cases bit w 20 <;> exact encode_undefHalfZero_eq_iff.2 ⟨h, h6, h5, rfl, rfl, rfl, rfl⟩
    · cases h20 : bit w 20 <;> exact encodeHalf_eq_iff.2 ⟨h, rfl, rfl, rfl, rfl, h20, rfl, rfl, h6, h5, rfl⟩
  · cases h20 : bit w 20
    · exact encode_undefStoreSigned_eq_iff.2 ⟨h, h20, h6, rfl, rfl, rfl, rfl, rfl⟩
    · cases h5 : bit w 5 <;> exact encodeHalf_eq_iff.2 ⟨h, rfl, rfl, rfl, rfl, h20, rfl, rfl, h6, h5, rfl⟩

/-- The twelve forms are one format, told apart by P, B, W and L. -/
theorem encode_decodeSingle (h : isSingle w = true) (ht : isTrap w = false) :
    encode (decodeSingle (Cond.ofBits (field w 28 4)) w) = w := by
  unfold decodeSingle
  cases h24 : bit w 24 <;> cases h22 : bit w 22 <;> cases h21 : bit w 21 <;> cases h20 : bit w 20 <;>
    exact encodeSingle_eq_iff.2 ⟨h, ht, rfl, h24, rfl, h22, h21, h20, rfl, rfl, rfl⟩

theorem encode_decodeBlock (h : isBlock w = true) : encode (decodeBlock (Cond.ofBits (field w 28 4)) w) = w := by
  unfold decodeBlock
  cases h20 : bit w 20 <;> exact encodeBlock_eq_iff.2 ⟨h, rfl, rfl, rfl, rfl, rfl, h20, rfl, rfl⟩

theorem encode_decodeCoprocTransfer (h : isCoprocTransfer w = true) :
    encode (decodeCoprocTransfer (Cond.ofBits (field w 28 4)) w) = w := by
  unfold decodeCoprocTransfer
  cases h20 : bit w 20 <;> exact encodeCoprocTransfer_eq_iff.2 ⟨h, rfl, rfl, rfl, rfl, rfl, h20, rfl, rfl, rfl, rfl⟩

theorem encode_decodeCoproc (h : isCoproc w = true) : encode (decodeCoproc (Cond.ofBits (field w 28 4)) w) = w := by
  unfold decodeCoproc
  cases h4 : bit w 4
  · exact encode_cdp_eq_iff.2 ⟨h, h4, rfl, rfl, rfl, rfl, rfl, rfl, rfl⟩
  · cases h20 : bit w 20 <;> exact encodeCoprocReg_eq_iff.2 ⟨h, h4, rfl, rfl, h20, rfl, rfl, rfl, rfl, rfl⟩

theorem encode_decodeDataProc (h : isDataProc w = true) (hh : isHalf w = false) :
    encode (decodeDataProc general (Cond.ofBits (field w 28 4)) w) = w := by
  rw [decodeDataProc_eq]
  split_ifs with hmrs hreg hflg hgen
  · exact encode_mrs_eq_iff.2 ⟨hmrs, rfl, rfl, rfl⟩
  · exact encode_msrReg_eq_iff.2 ⟨hreg, rfl, rfl, rfl⟩
  · exact encode_msrFlg_eq_iff.2 ⟨h, hflg, rfl, rfl, rfl⟩
  · exact encode_msrGen_eq_iff.2 ⟨h, (Bool.and_eq_true_iff.1 hgen).2, rfl, rfl, rfl, rfl⟩
  · rw [encode_dataProcInstr]
    exact encodeDataProc_eq_iff.2 ⟨h, hh, rfl, rfl, rfl, rfl, rfl, rfl⟩

/-- Every word goes to one of the thirteen steps, and each gives an instruction of the word's own format. -/
theorem encode_decodeWord (general : Bool) (w : Word) : ∃ i, decodeWord general w = .ok i ∧ encode i = w := by
  rcases decodeWord_cases general w with ⟨h, e⟩ | ⟨-, h, e⟩ | ⟨-, -, h, e⟩ | ⟨-, -, -, h, e⟩ | ⟨-, -, -, -, h, e⟩ |
    ⟨-, h, e⟩ | ⟨ht, h, e⟩ | ⟨h, e⟩ | ⟨h, e⟩ | ⟨h, e⟩ | ⟨h, e⟩ | ⟨h, e⟩ | ⟨-, -, -, -, hh, h, e⟩ <;> refine ⟨_, e, ?_⟩
  · exact encode_decodeMul h
  · exact encode_decodeMulLong h
  · exact encode_decodeSwap h
  · exact encode_bx_eq_iff.2 ⟨h, rfl, rfl⟩
  · exact encode_decodeHalf h
  · exact encode_undefTrap_eq_iff.2 ⟨h, rfl, rfl, rfl⟩
  · exact encode_decodeSingle h ht
  · exact encode_decodeBlock h
  · cases h24 : bit w 24
    · exact encode_b_eq_iff.2 ⟨h, h24, rfl, rfl⟩
    · exact encode_bl_eq_iff.2 ⟨h, h24, rfl, rfl⟩
  · exact encode_decodeCoprocTransfer h
  · exact encode_swi_eq_iff.2 ⟨h, rfl, rfl⟩
  · exact encode_decodeCoproc h
  · exact encode_decodeDataProc h hh

end

/-! ### Decoding an encoding (R153) -/

section
variable {w : Word} {general : Bool} {i : Instr}

/-- The two parts of the check: no earlier step takes the word, and no static rule refuses the term. -/
theorem wellFormed_iff : i.WellFormed ↔ i.canonical = true ∧ i.staticRule = none := by
  simp [Instr.WellFormed, Instr.isWellFormed]

/-- TST, TEQ, CMP and CMN. -/
def AluOp.isCompare (op : AluOp) : Bool := op.bits.extractLsb' 2 2 == 0b10#2

theorem flag_of_compareRule {sf : Bool} {rn rd : RegNum} {o : Operand2} (h : compareRule sf rn rd o = none) :
    sf = true := by
  cases sf
  · simp [compareRule] at h
  · rfl

theorem decodeWord_encodeDataProc {op : AluOp} {c : Cond} {sf : Bool} {rn rd : RegNum} {o : Operand2}
    (h : encodeDataProc op c sf rn rd o = w) (hf : op.isCompare = true → sf = true) :
    decodeWord general w = .ok (dataProcInstr op c sf rn rd o) := by
  obtain ⟨hd, hh, rfl, rfl, rfl, rfl, rfl, rfl⟩ := encodeDataProc_eq_iff.1 h
  have hn : ¬ (field w 23 2 = 0b10#2 ∧ bit w 20 = false) := fun ⟨h23, h20⟩ => by
    rw [hf (by rw [AluOp.isCompare, AluOp.bits_ofBits, extractLsb'_field w (by decide), h23]; rfl)] at h20
    cases h20
  have hb : isBx w = false := Bool.eq_false_iff.2 fun hb =>
    let ⟨_, _, h23, h20, _, _⟩ := bits_of_isBx hb
    hn ⟨h23, h20⟩
  rw [decodeWord_dataProc general hd hh hb, decodeDataProc_alu hn]

theorem decodeWord_encodeMul {a : BitVec 1} {c : Cond} {sf : Bool} {rd rn rs rm : RegNum}
    (h : encodeMul a c sf rd rn rs rm = w) :
    decodeWord general w = .ok (if a == 1#1 then .mla c sf rd rn rs rm else .mul c sf rd rn rs rm) := by
  obtain ⟨ht, rfl, h21, rfl, rfl, rfl, rfl, rfl⟩ := encodeMul_eq_iff.1 h
  rw [decodeWord_mul general ht, ← h21]
  rfl

theorem sbz_of_psrSourceRule {sbz : BitVec 8} {rm : RegNum} (h : psrSourceRule (.reg sbz rm) = none) : sbz = 0#8 := by
  by_contra hn
  simp [psrSourceRule, hn] at h

theorem half_bx_eq_false_of_psrSource (h : psrSourceRule (decodePsrSource w) = none) :
    isHalf w = false ∧ isBx w = false := by
  cases h25 : bit w 25
  · refine half_bx_eq_false (.inr (.inr ?_))
    rw [decodePsrSource, h25] at h
    exact bit_of_field (sbz_of_psrSourceRule h) 0 (by decide)
  · exact half_bx_eq_false (.inr (.inl h25))

theorem decodeWord_mrs (h : isMrs w = true) :
    decodeWord general w = .ok (.mrs (Cond.ofBits (field w 28 4)) (bit w 22) (regField w 12)) := by
  have hm := h
  simp only [isMrs, Bool.and_eq_true, beq_iff_eq] at h
  obtain ⟨⟨h23, -⟩, h0⟩ := h
  have h4 : bit w 4 = false := bit_of_field h0 4 (by decide)
  have hd : field w 26 2 = 0b00#2 := subfield h23 (a := 3) (by decide)
  obtain ⟨hh, hb⟩ := half_bx_eq_false (.inr (.inr h4))
  rw [decodeWord_dataProc general (beq_iff_eq.2 hd) hh hb, decodeDataProc_mrs hm]

theorem decodeWord_msrReg (h : isMsrReg w = true) :
    decodeWord general w = .ok (.msrReg (Cond.ofBits (field w 28 4)) (bit w 22) (regField w 0)) := by
  have hm := h
  simp only [isMsrReg, Bool.and_eq_true, beq_iff_eq] at h
  have h4 : bit w 4 = false := bit_of_field h.2 0 (by decide)
  have hd : field w 26 2 = 0b00#2 := subfield h.1 (a := 3) (by decide)
  obtain ⟨hh, hb⟩ := half_bx_eq_false (.inr (.inr h4))
  rw [decodeWord_dataProc general (beq_iff_eq.2 hd) hh hb, decodeDataProc_msrReg hm]

/-- The format lemma of each constructor gives the step and every field; the well-formedness check keeps the earlier
steps and the earlier shapes of step 13 from taking the word. -/
theorem decodeWord_encode (hi : i.WellFormed) (hg : ∀ c spsr mask src, i = .msrGen c spsr mask src → general = true)
    (h : encode i = w) : decodeWord general w = .ok i := by
  obtain ⟨hcan, hrule⟩ := wellFormed_iff.1 hi
  cases i with
  | and | eor | sub | rsb | add | adc | sbc | rsc | orr | mov | bic | mvn =>
    exact decodeWord_encodeDataProc h fun hc => absurd hc (by decide)
  | tst | teq | cmp | cmn => exact decodeWord_encodeDataProc h fun _ => flag_of_compareRule hrule
  | mul | mla => exact decodeWord_encodeMul h
  | umull | umlal | smull | smlal =>
    obtain ⟨ht, rfl, h22, h21, rfl, rfl, rfl, rfl, rfl⟩ := encodeMulLong_eq_iff.1 h
    rw [decodeWord_mulLong general ht, decodeMulLong, h22, h21]
    rfl
  | swp | swpb =>
    obtain ⟨ht, rfl, h22, rfl, rfl, rfl, rfl⟩ := encodeSwap_eq_iff.1 h
    rw [decodeWord_swap general ht, decodeSwap, h22]
    rfl
  | bx =>
    obtain ⟨ht, rfl, rfl⟩ := encode_bx_eq_iff.1 h
    exact decodeWord_bx general ht
  | ldrh | strh | ldrsb | ldrsh =>
    obtain ⟨ht, rfl, rfl, rfl, rfl, h20, rfl, rfl, h6, h5, rfl⟩ := encodeHalf_eq_iff.1 h
    rw [decodeWord_half general ht (isEarly_eq_false_of_bits (by rw [h6, h5]; decide)), decodeHalf, h20, h6, h5]
    rfl
  | undefStoreSigned =>
    obtain ⟨ht, h20, h6, rfl, rfl, rfl, rfl, rfl⟩ := encode_undefStoreSigned_eq_iff.1 h
    rw [decodeWord_half general ht (isEarly_eq_false_of_bits (.inl h6)), decodeHalf, h20, h6]
  | undefHalfZero =>
    obtain ⟨ht, h6, h5, rfl, rfl, rfl, rfl⟩ := encode_undefHalfZero_eq_iff.1 h
    rw [decodeWord_half general ht (isEarly_eq_false_of_canonical hcan), decodeHalf, h6, h5]
    cases bit w 20 <;> rfl
  | undefTrap =>
    obtain ⟨ht, rfl, rfl, rfl⟩ := encode_undefTrap_eq_iff.1 h
    exact decodeWord_trap general ht
  | ldrPre | strPre | ldrbPre | strbPre | ldrPost | strPost | ldrbPost | strbPost | ldrt | strt | ldrbt | strbt =>
    obtain ⟨hs, ht, rfl, h24, rfl, h22, h21, h20, rfl, rfl, rfl⟩ := encodeSingle_eq_iff.1 h
    rw [decodeWord_single general hs ht, decodeSingle, h24, h22, h21, h20]
    rfl
  | ldm | stm =>
    obtain ⟨ht, rfl, rfl, rfl, rfl, rfl, h20, rfl, rfl⟩ := encodeBlock_eq_iff.1 h
    rw [decodeWord_block general ht, decodeBlock, h20]
    rfl
  | b =>
    obtain ⟨ht, h24, rfl, rfl⟩ := encode_b_eq_iff.1 h
    rw [decodeWord_branch general ht, h24]
    rfl
  | bl =>
    obtain ⟨ht, h24, rfl, rfl⟩ := encode_bl_eq_iff.1 h
    rw [decodeWord_branch general ht, h24]
    rfl
  | ldc | stc =>
    obtain ⟨ht, rfl, rfl, rfl, rfl, rfl, h20, rfl, rfl, rfl, rfl⟩ := encodeCoprocTransfer_eq_iff.1 h
    rw [decodeWord_coprocTransfer general ht, decodeCoprocTransfer, h20]
    rfl
  | swi =>
    obtain ⟨ht, rfl, rfl⟩ := encode_swi_eq_iff.1 h
    exact decodeWord_swi general ht
  | cdp =>
    obtain ⟨ht, h4, rfl, rfl, rfl, rfl, rfl, rfl, rfl⟩ := encode_cdp_eq_iff.1 h
    rw [decodeWord_coproc general ht, decodeCoproc, h4]
    rfl
  | mcr | mrc =>
    obtain ⟨ht, h4, rfl, rfl, h20, rfl, rfl, rfl, rfl, rfl⟩ := encodeCoprocReg_eq_iff.1 h
    rw [decodeWord_coproc general ht, decodeCoproc, h4, h20]
    rfl
  | mrs =>
    obtain ⟨ht, rfl, rfl, rfl⟩ := encode_mrs_eq_iff.1 h
    exact decodeWord_mrs ht
  | msrReg =>
    obtain ⟨ht, rfl, rfl, rfl⟩ := encode_msrReg_eq_iff.1 h
    exact decodeWord_msrReg ht
  | msrFlg c spsr src =>
    obtain ⟨hd, ht, rfl, rfl, rfl⟩ := encode_msrFlg_eq_iff.1 h
    obtain ⟨hh, hb⟩ := half_bx_eq_false_of_psrSource hrule
    rw [decodeWord_dataProc general hd hh hb, decodeDataProc_msrFlg ht]
  | msrGen =>
    obtain ⟨hd, ht, rfl, rfl, rfl, rfl⟩ := encode_msrGen_eq_iff.1 h
    obtain ⟨hh, hb⟩ := half_bx_eq_false_of_psrSource hrule
    rw [decodeWord_dataProc general hd hh hb, decodeDataProc_msrGen ht (hg _ _ _ _ rfl) hcan]

end

/-- Settles O1: the word of a well-formed instruction goes to the step of its format, which reads its fields back. -/
theorem decodeEncodeRoundTrip : Obligations.DecodeEncodeRoundTrip := fun general i rest hi hg => by
  rw [decodeBytes_bytesOfWord, decodeWord_encode hi hg rfl]

/-- Settles O2: whichever step takes the word, the fields it keeps spell the word again. -/
theorem encodeInvertsDecode : Obligations.EncodeInvertsDecode := encode_decodeWord

/-! ### The shapes of BX and of `Undefined` (R106, R141) -/

section
variable {w : Word} {general : Bool} {i : Instr}

theorem encode_of_decodeWord (h : decodeWord general w = .ok i) : encode i = w := by
  obtain ⟨j, hj, he⟩ := encode_decodeWord general w
  rw [h] at hj
  cases hj
  exact he

/-- What steps 1 to 3 give is not `Undefined`. -/
theorem isEarly_eq_false_of_undefHalfZero {c : Cond} {hi : BitVec 5} {mid : BitVec 12} {lo : BitVec 4}
    (h : decodeWord general w = .ok (.undefHalfZero c hi mid lo)) : isEarly w = false := by
  refine Bool.eq_false_iff.2 fun he => ?_
  rcases isEarly_iff.1 he with ht | ht | ht
  · rw [decodeWord_mul general ht, decodeMul] at h
    cases h21 : bit w 21 <;> rw [h21] at h <;> cases h
  · rw [decodeWord_mulLong general ht, decodeMulLong] at h
    cases h22 : bit w 22 <;> cases h21 : bit w 21 <;> rw [h22, h21] at h <;> cases h
  · rw [decodeWord_swap general ht, decodeSwap] at h
    cases h22 : bit w 22 <;> rw [h22] at h <;> cases h

theorem decodes_undefTrap_iff : (∃ c hi lo, decodeWord general w = .ok (.undefTrap c hi lo)) ↔ isTrap w = true := by
  constructor
  · rintro ⟨c, hi, lo, h⟩
    exact (encode_undefTrap_eq_iff.1 (encode_of_decodeWord h)).1
  · exact fun h => ⟨_, _, _, decodeWord_trap general h⟩

theorem decodes_undefStoreSigned_iff :
    (∃ c hi mid h lo, decodeWord general w = .ok (.undefStoreSigned c hi mid h lo)) ↔
      (isHalf w = true ∧ isEarly w = false) ∧ bit w 20 = false ∧ bit w 6 = true := by
  constructor
  · rintro ⟨c, hi, mid, n, lo, h⟩
    obtain ⟨hh, h20, h6, -⟩ := encode_undefStoreSigned_eq_iff.1 (encode_of_decodeWord h)
    exact ⟨⟨hh, isEarly_eq_false_of_bits (.inl h6)⟩, h20, h6⟩
  · rintro ⟨⟨hh, he⟩, h20, h6⟩
    rw [decodeWord_half general hh he, decodeHalf, h20, h6]
    exact ⟨_, _, _, _, _, rfl⟩

theorem decodes_undefHalfZero_iff : (∃ c hi mid lo, decodeWord general w = .ok (.undefHalfZero c hi mid lo)) ↔
    (isHalf w = true ∧ isEarly w = false) ∧ bit w 6 = false ∧ bit w 5 = false := by
  constructor
  · rintro ⟨c, hi, mid, lo, h⟩
    obtain ⟨hh, h6, h5, -⟩ := encode_undefHalfZero_eq_iff.1 (encode_of_decodeWord h)
    exact ⟨⟨hh, isEarly_eq_false_of_undefHalfZero h⟩, h6, h5⟩
  · rintro ⟨⟨hh, he⟩, h6, h5⟩
    rw [decodeWord_half general hh he, decodeHalf, h6, h5]
    cases bit w 20 <;> exact ⟨_, _, _, _, rfl⟩

end

theorem isTrap_iff {w : Word} : isTrap w = true ↔ field w 25 3 = 0b011#3 ∧ bit w 4 = true := by
  simp only [isTrap, Bool.and_eq_true, beq_iff_eq]

theorem isHalf_iff {w : Word} : isHalf w = true ↔ field w 25 3 = 0b000#3 ∧ bit w 7 = true ∧ bit w 4 = true := by
  simp only [isHalf, Bool.and_eq_true, beq_iff_eq, and_assoc]

theorem isEarly_eq_false_iff_fields {w : Word} : isEarly w = false ↔
    ¬ ((field w 22 6 = 0b000000#6 ∨ field w 23 5 = 0b00001#5) ∧ field w 4 4 = 0b1001#4 ∨
      field w 23 5 = 0b00010#5 ∧ field w 4 8 = 0b00001001#8) := by
  rw [← Bool.not_eq_true, isEarly_iff]
  simp only [isMul, isMulLong, isSwap, Bool.and_eq_true, beq_iff_eq, or_and_right, or_assoc]

/-- Settles O4: the shape of BX passes steps 1 to 3; the three clauses are the tests under which each `Undefined`
constructor is decoded. -/
theorem fixedShapesDecode : Obligations.FixedShapesDecode := by
  refine ⟨fun general w h => decodeWord_bx general (beq_iff_eq.2 h), ?_⟩
  intro general w earlier halfClass
  have hhalf : (isHalf w = true ∧ isEarly w = false) ↔ halfClass := by
    simp only [halfClass, earlier, isHalf_iff, isEarly_eq_false_iff_fields, and_assoc]
  rw [decodes_undefTrap_iff, decodes_undefStoreSigned_iff, decodes_undefHalfZero_iff, hhalf, isTrap_iff, ← or_assoc]
  exact or_comm

/-- Settles O5: each word, decoded. -/
theorem sampleWordsDecode : Obligations.SampleWordsDecode :=
  ⟨rfl, rfl, rfl, rfl, rfl, rfl, rfl, rfl, rfl, rfl, rfl, rfl, rfl, rfl, rfl⟩

end Sys2Proof

namespace Sys2Proof.Machine

theorem wfRefusal_of_staticRule {i : Instr} {r : UnpRule} (h : i.staticRule = some r) (s : State) :
    wfRefusal i s = some (.unpredictable r) := by
  simp only [wfRefusal, h]

theorem exec_refuses {i : Instr} {s : State} {r : Refusal} (h : wfRefusal i s = some r) : exec i s = .refused r := by
  rw [exec_eq_gate, gate_refuses h]

/-- Settles O19: the gate tests the check first, and the check tests the static rules first. -/
theorem illFormedIsRefused : Obligations.IllFormedIsRefused :=
  ⟨fun _ _ _ h => exec_refuses h, fun _ _ h s => exec_refuses (wfRefusal_of_staticRule h s)⟩

end Sys2Proof.Machine

/-! ### The fetch and what follows it (R160, R161, R416) -/

namespace Sys2Proof.Machine

theorem fetchDecode_thumb {s : State} (ht : s.cpsr.t = true) : fetchDecode s = .over (.refused .thumbUnsupported) :=
  if_pos ht

theorem fetchDecode_aborts {s : State} (ht : s.cpsr.t = false) (ha : memAborts (fetchRequest s) s = true) :
    fetchDecode s = .over (.next (takeException .prefetchAbort (called (fetchRequest s) s))) := by
  have hfetch : fetchWord s = (none, called (fetchRequest s) s) := loadWord_aborts ha
  simp [fetchDecode, ht, hfetch]

theorem fetchDecode_runs {s : State} (ht : s.cpsr.t = false) (ha : memAborts (fetchRequest s) s = false) {i : Instr}
    {rest : List Byte}
    (hi : decodeBytes s.policy.msrGeneralMask (bytesOfWord (wordAt (alignWord s.pc) s)) = .ok (i, rest)) :
    fetchDecode s = .run i (called (fetchRequest s) s) := by
  have hfetch : fetchWord s = (some (wordAt (alignWord s.pc) s), called (fetchRequest s) s) := loadWord_answered ha
  simp [fetchDecode, ht, hfetch, hi]

theorem bytesOfWord_readWord (m : Memory) (a : Word) :
    bytesOfWord (m.readWord a) = [m.readByte a, m.readByte (a + 1#32), m.readByte (a + 2#32), m.readByte (a + 3#32)] :=
  bytesOfWord_wordOfBytes ..

/-- Settles O6: the boundary is quiet, so the step is the fetch, the decoding and exec. -/
theorem stepRunsDecodedInstruction : Obligations.StepRunsDecodedInstruction := by
  intro s i
  refine ⟨fun h => ?_, fun hf hr h0 h1 h2 ht ha hi => ?_⟩
  · rw [wordAt_plain h, bytesOfWord_readWord]
  · rw [step_quiet hf hr h0 h1 h2, fetchDecode_runs (s := dropInputs s) ht ha hi, finish_run]
    rfl

/-! #### The entry of an exception (R410) -/

theorem takeException_entered (e : Exc) (s : State) : Entered e s.pc s.cpsr (takeException e s) where
  link := by rw [takeException_regs, RegFile.read_write_same]
  saved := SpsrFile.get_set_same _ (Exc.bank_ne_usr e) _
  status := rfl
  vector := rfl
  tracker := rfl

theorem takeException_sameRegsBut (e : Exc) (s : State) :
    SameRegsBut [some (.r14 e.mode.bank)] s (takeException e s) := fun q hq => by
  have hne : q ≠ .r14 e.mode.bank := fun h => hq (List.mem_singleton.2 (congrArg some h))
  rw [takeException_regs, RegFile.read_write_ne _ _ hne]

/-- Settles O15: the boundary is quiet, so the step is the Thumb test, or the fetch and the entry of the prefetch
abort, which leaves F as it is. -/
theorem thumbRefusedAndFetchAborts : Obligations.ThumbRefusedAndFetchAborts := by
  intro s hf hr h0 h1 h2
  rw [step_quiet hf hr h0 h1 h2]
  refine ⟨fun ht => ?_, fun ht ha => ?_⟩
  · rw [fetchDecode_thumb (s := dropInputs s) ht, finish_over]
  · rw [fetchDecode_aborts (s := dropInputs s) ht ha, finish_over]
    have hentry := takeException_entered .prefetchAbort (called (fetchRequest s) (dropInputs s))
    have hregs := takeException_sameRegsBut .prefetchAbort (called (fetchRequest s) (dropInputs s))
    have hmask : (s.cpsr.f || Exc.prefetchAbort.masksFiq) = s.cpsr.f := Bool.or_false _
    refine ⟨_, rfl, hentry.link, rfl, ?_, hentry.vector, hregs, rfl, rfl⟩
    rw [takeException_cpsr, called_cpsr, dropInputs_cpsr, hmask]
    rfl

end Sys2Proof.Machine

/-! ### The condition (R162, R163) -/

namespace Sys2Proof.Machine

/-- Settles O17: each value of the field names its row, and the row is a test of the flags. -/
theorem conditionTable : Obligations.ConditionTable := by
  intro p
  have hnot (b : Bool) : (!b) = true ↔ b = false := (Bool.not_eq_true' b).to_iff
  exact ⟨Iff.rfl, hnot p.z,
    Iff.rfl, hnot p.c,
    Iff.rfl, hnot p.n,
    Iff.rfl, hnot p.v,
    Bool.and_eq_true_iff.trans (and_congr_right' (hnot p.z)),
    Bool.or_eq_true_iff.trans (or_congr_left (hnot p.c)),
    beq_iff_eq, bne_iff_ne,
    Bool.and_eq_true_iff.trans (and_congr beq_iff_eq (hnot p.z)),
    Bool.or_eq_true_iff.trans (or_congr_left bne_iff_ne),
    rfl, Bool.false_ne_true⟩

/-- Settles O18: the gate, which every instruction goes through, skips it. -/
theorem conditionFailedOnlyAdvances : Obligations.ConditionFailedOnlyAdvances := fun i s hw hc => by
  rw [exec_eq_gate, gate_skips hw hc]
  rfl

end Sys2Proof.Machine

/-! ### The barrel shifter (R170 to R174) -/

namespace Sys2Proof.Machine

theorem getLsbD_rotateRight_word (v : Word) (n : Nat) {k : Nat} (hk : k < 32) :
    (v.rotateRight n).getLsbD k = v.getLsbD ((k + n) % 32) := by
  rw [BitVec.getLsbD_rotateRight, Bool.cond_decide]
  split
  next h => rw [show (k + n) % 32 = n % 32 + k by omega]
  next h => rw [show (k + n) % 32 = k - (32 - n % 32) by omega, decide_eq_true hk, Bool.true_and]

theorem signFill_eq (v : Word) : signFill v = if v.getLsbD 31 = true then 0xFFFFFFFF#32 else 0#32 := rfl

/-! #### The rotated immediate (R171) -/

theorem getLsbD_rotatedImm (rotate : BitVec 4) (imm8 : BitVec 8) {k : Nat} (hk : k < 32) :
    (rotatedImm rotate imm8).getLsbD k = imm8.getLsbD ((k + 2 * rotate.toNat) % 32) := by
  rw [rotatedImm, getLsbD_rotateRight_word _ _ hk, BitVec.getLsbD_setWidth,
    decide_eq_true (Nat.mod_lt _ (by decide)), Bool.true_and]

/-! #### RRX, the zero amount of ROR (R172) -/

theorem shiftImm_ror_zero (v : Word) (cin : Bool) :
    shiftImm v .ror 0#5 cin = (BitVec.ofBool cin ++ v.extractLsb' 1 31, v.getLsbD 0) := rfl

theorem getLsbD_rrx_top (v : Word) (cin : Bool) : (shiftImm v .ror 0#5 cin).1.getLsbD 31 = cin := by
  rw [shiftImm_ror_zero, BitVec.getLsbD_append]
  cases cin <;> rfl

theorem getLsbD_rrx_lower (v : Word) (cin : Bool) {k : Nat} (hk : k < 31) :
    (shiftImm v .ror 0#5 cin).1.getLsbD k = v.getLsbD (k + 1) := by
  rw [shiftImm_ror_zero, BitVec.getLsbD_append, if_pos hk, BitVec.getLsbD_extractLsb', decide_eq_true hk,
    Bool.true_and, Nat.add_comm]

/-! #### The rows of R173 -/

section
variable (v : Word) {n : Nat} (cin : Bool)

theorem shiftReg_zero (ty : ShiftType) : shiftReg v ty 0 cin = (v, cin) := rfl

theorem shiftReg_lsl_lt (h0 : n ≠ 0) (h : n < 32) : shiftReg v .lsl n cin = (v <<< n, v.getLsbD (32 - n)) := by
  simp only [shiftReg, if_neg h0, if_pos h]

theorem shiftReg_lsr_lt (h0 : n ≠ 0) (h : n < 32) : shiftReg v .lsr n cin = (v >>> n, v.getLsbD (n - 1)) := by
  simp only [shiftReg, if_neg h0, if_pos h]

theorem shiftReg_asr_lt (h0 : n ≠ 0) (h : n < 32) : shiftReg v .asr n cin = (v.sshiftRight n, v.getLsbD (n - 1)) := by
  simp only [shiftReg, if_neg h0, if_pos h]

theorem shiftReg_lsl_ge (h : 32 ≤ n) : shiftReg v .lsl n cin = (0#32, n == 32 && v.getLsbD 0) := by
  simp only [shiftReg, if_neg (show ¬ n = 0 by omega), if_neg (show ¬ n < 32 by omega)]

theorem shiftReg_lsr_ge (h : 32 ≤ n) : shiftReg v .lsr n cin = (0#32, n == 32 && v.getLsbD 31) := by
  simp only [shiftReg, if_neg (show ¬ n = 0 by omega), if_neg (show ¬ n < 32 by omega)]
  rfl

theorem shiftReg_asr_ge (h : 32 ≤ n) : shiftReg v .asr n cin = (signFill v, v.getLsbD 31) := by
  simp only [shiftReg, if_neg (show ¬ n = 0 by omega), if_neg (show ¬ n < 32 by omega)]
  rfl

theorem shiftReg_ror_multiple (h0 : n ≠ 0) (h : n % 32 = 0) : shiftReg v .ror n cin = (v, v.getLsbD 31) := by
  simp only [shiftReg, if_neg h0, if_pos h]
  rfl

theorem shiftReg_ror (h : n % 32 ≠ 0) :
    shiftReg v .ror n cin = (v.rotateRight (n % 32), v.getLsbD (n % 32 - 1)) := by
  simp only [shiftReg, if_neg (show ¬ n = 0 by rintro rfl; exact h rfl), if_neg h]

theorem toNat_shiftReg_lsl (h0 : n ≠ 0) (h : n < 32) :
    (shiftReg v .lsl n cin).1.toNat = v.toNat * 2 ^ n % 2 ^ 32 := by
  rw [shiftReg_lsl_lt v cin h0 h, BitVec.toNat_shiftLeft, Nat.shiftLeft_eq]

theorem toNat_shiftReg_lsr (h0 : n ≠ 0) (h : n < 32) :
    (shiftReg v .lsr n cin).1.toNat = v.toNat / 2 ^ n := by
  rw [shiftReg_lsr_lt v cin h0 h, BitVec.toNat_ushiftRight, Nat.shiftRight_eq_div_pow]

theorem toInt_shiftReg_asr (h0 : n ≠ 0) (h : n < 32) :
    (shiftReg v .asr n cin).1.toInt = v.toInt / 2 ^ n := by
  rw [shiftReg_asr_lt v cin h0 h, BitVec.toInt_sshiftRight, Int.shiftRight_eq_div_pow, Nat.cast_pow, Nat.cast_ofNat]

theorem getLsbD_shiftReg_ror (h : n % 32 ≠ 0) {k : Nat} (hk : k < 32) :
    (shiftReg v .ror n cin).1.getLsbD k = v.getLsbD ((k + n % 32) % 32) := by
  rw [shiftReg_ror v cin h, getLsbD_rotateRight_word v _ hk]

/-- The carry of a right shift or rotation by 1 to 31 is the last bit shifted out. -/
theorem shiftReg_carry_right (h0 : n ≠ 0) (h : n < 32) {ty : ShiftType} (hty : ty ≠ .lsl) :
    (shiftReg v ty n cin).2 = v.getLsbD (n - 1) := by
  cases ty with
  | lsl => exact absurd rfl hty
  | lsr => rw [shiftReg_lsr_lt v cin h0 h]
  | asr => rw [shiftReg_asr_lt v cin h0 h]
  | ror => rw [shiftReg_ror v cin (by omega), Nat.mod_eq_of_lt h]

end

/-! #### A shift by a non-zero immediate amount is the shift by that number (R172, R173) -/

theorem shiftImm_eq_shiftReg (v : Word) (ty : ShiftType) {n : BitVec 5} (cin : Bool) (hn : n.toNat ≠ 0) :
    shiftImm v ty n cin = shiftReg v ty n.toNat cin := by
  have h : n.toNat < 32 := n.isLt
  cases ty with
  | lsl => rw [shiftReg_lsl_lt v cin hn h, shiftImm, if_neg hn]
  | lsr => rw [shiftReg_lsr_lt v cin hn h, shiftImm, if_neg hn]
  | asr => rw [shiftReg_asr_lt v cin hn h, shiftImm, if_neg hn]
  | ror => rw [shiftReg_ror v cin (by omega), Nat.mod_eq_of_lt h, shiftImm, if_neg hn]

/-- Settles O24: the rotated immediate bit by bit, the zero amounts, and each other amount by its row of R173. -/
theorem shiftByImmediate : Obligations.ShiftByImmediate := by
  refine ⟨fun rotate imm8 cin => ⟨fun k => getLsbD_rotatedImm rotate imm8, fun h => if_pos h, fun h => if_neg h⟩,
    fun v cin => ⟨rfl, rfl, rfl, rfl, getLsbD_rrx_top v cin, fun k => getLsbD_rrx_lower v cin⟩, fun v n cin hn => ?_⟩
  have h0 : n.toNat ≠ 0 := fun h => hn (BitVec.eq_of_toNat_eq h)
  have h : n.toNat < 32 := n.isLt
  simp only [shiftImm_eq_shiftReg v _ cin h0]
  refine ⟨toNat_shiftReg_lsl v cin h0 h, by rw [shiftReg_lsl_lt v cin h0 h], toNat_shiftReg_lsr v cin h0 h,
    toInt_shiftReg_asr v cin h0 h, fun k hk => ?_, fun ty => shiftReg_carry_right v cin h0 h⟩
  rw [getLsbD_shiftReg_ror v cin (by omega) hk, Nat.mod_eq_of_lt h]

theorem operand2_regReg (rm rs : RegNum) (ty : ShiftType) (s : State) :
    operand2 (.regReg rm ty rs) s = shiftReg (readReg rm s) ty ((readReg rs s).toNat % 256) s.cpsr.c := by
  rw [operand2, BitVec.extractLsb'_toNat]
  rfl

/-- Settles O25: the rows of R173 by the range of the amount, and the three forms of operand 2. -/
theorem shiftByRegister : Obligations.ShiftByRegister := by
  refine ⟨fun v ty cin => shiftReg_zero v cin ty, fun v n cin h1 h31 => ?_, fun v cin => ?_,
    fun rotate imm8 rm rs ty n s => ⟨rfl, rfl, operand2_regReg rm rs ty s⟩⟩
  · have h0 : n ≠ 0 := by omega
    have h : n < 32 := by omega
    exact ⟨toNat_shiftReg_lsl v cin h0 h, by rw [shiftReg_lsl_lt v cin h0 h], toNat_shiftReg_lsr v cin h0 h,
      shiftReg_carry_right v cin h0 h nofun, toInt_shiftReg_asr v cin h0 h, shiftReg_carry_right v cin h0 h nofun⟩
  · refine ⟨rfl, rfl, fun n h33 _ => ?_, fun n h32 _ => shiftReg_asr_ge v cin h32,
      fun n h1 _ => shiftReg_ror_multiple v cin (by omega),
      fun n _ hm => ⟨by rw [shiftReg_ror v cin hm], fun k => getLsbD_shiftReg_ror v cin hm⟩⟩
    have hne : (n == 32) = false := beq_eq_false_iff_ne.2 (by omega)
    rw [shiftReg_lsl_ge v cin (by omega), shiftReg_lsr_ge v cin (by omega), hne]
    exact ⟨rfl, rfl⟩

end Sys2Proof.Machine

/-! ### Data processing (R200 to R203) -/

namespace Sys2Proof.Machine

section
variable {op : AluOp} {c : Cond} {sf : Bool} {rn rd : RegNum} {op2 : Operand2} {s : State} {v : Word}
  {carry overflow : Bool}

theorem exec_dataProc (h : Executes (dataProcInstr op c sf rn rd op2) s) :
    exec (dataProcInstr op c sf rn rd op2) s = dataProc op sf rn rd op2 (clearTracker s) := by
  rw [exec_executes h, execBody_dataProcInstr]

theorem exec_dataProc_writes (hw : writesRd op = true) (hd : rd ≠ 15)
    (hr : aluResult op rn op2 s = ⟨v, carry, overflow⟩)
    (h : Executes (dataProcInstr op c sf rn rd op2) s) : exec (dataProcInstr op c sf rn rd op2) s =
      .next (advance (writeReg rd v (setFlags sf v carry overflow (clearTracker s)))) := by
  rw [exec_dataProc h, dataProc_writes hw hd, aluResult_clearTracker, hr]

/-- A compare that passes its check has S = 1 (R221). -/
theorem sf_of_compare (hw : writesRd op = false) (h : Executes (dataProcInstr op c sf rn rd op2) s) : sf = true := by
  have hstatic := (wfRefusal_eq_none.1 h.wellFormed).1
  rw [staticRule_dataProcInstr, hw, compareRule] at hstatic
  cases sf with
  | false => cases hstatic
  | true => rfl

theorem exec_dataProc_compare (hw : writesRd op = false) (hr : aluResult op rn op2 s = ⟨v, carry, overflow⟩)
    (h : Executes (dataProcInstr op c sf rn rd op2) s) : exec (dataProcInstr op c sf rn rd op2) s =
      .next (advance (setFlags true v carry overflow (clearTracker s))) := by
  rw [exec_dataProc h, dataProc_compare hw, aluResult_clearTracker, hr, sf_of_compare hw h]

end

/-! #### The sums and differences of the arithmetic opcodes (R206 to R211, R214, R215) -/

theorem addWithCarry_sum (a b : Word) : addWithCarry a b false =
    ⟨a + b, decide (2 ^ 32 ≤ a.toNat + b.toNat), signedOverflow (a.toInt + b.toInt)⟩ := by
  simpa using addWithCarry_plain a b false

theorem addWithCarry_difference (a b : Word) : addWithCarry a (~~~b) true =
    ⟨a - b, decide (b.toNat ≤ a.toNat), signedOverflow (a.toInt - b.toInt)⟩ := by
  simpa using addWithCarry_not a b true

/-- Settles O28: the body with each opcode's result, its carry the shifter's and its V the old one. -/
theorem logicalResults : Obligations.LogicalResults := by
  intro c sf rn rd op2 s hd a b after
  exact ⟨exec_dataProc_writes (op := .and) rfl hd rfl, exec_dataProc_writes (op := .eor) rfl hd rfl,
    exec_dataProc_writes (op := .orr) rfl hd rfl, exec_dataProc_writes (op := .bic) rfl hd rfl,
    exec_dataProc_writes (op := .mov) rfl hd rfl, exec_dataProc_writes (op := .mvn) rfl hd rfl⟩

/-- Settles O29: the body with each opcode's sum or difference. -/
theorem arithmeticResults : Obligations.ArithmeticResults := by
  intro c sf rn rd op2 s hd a b k borrow after
  exact ⟨exec_dataProc_writes (op := .add) rfl hd (addWithCarry_sum a b),
    exec_dataProc_writes (op := .adc) rfl hd (addWithCarry_plain a b _),
    exec_dataProc_writes (op := .sub) rfl hd (addWithCarry_difference a b),
    exec_dataProc_writes (op := .sbc) rfl hd (addWithCarry_not a b _),
    exec_dataProc_writes (op := .rsb) rfl hd (addWithCarry_difference b a),
    exec_dataProc_writes (op := .rsc) rfl hd (addWithCarry_not b a _)⟩

/-- Settles O30: the body with each opcode's result and no destination. -/
theorem compareResults : Obligations.CompareResults := by
  intro c sf rn rd op2 s a b after
  exact ⟨exec_dataProc_compare (op := .tst) rfl rfl, exec_dataProc_compare (op := .teq) rfl rfl,
    exec_dataProc_compare (op := .cmp) rfl (addWithCarry_difference a b),
    exec_dataProc_compare (op := .cmn) rfl (addWithCarry_sum a b)⟩

/-! #### Rd = r15 (R202, R203) -/

section
variable {op : AluOp} {c : Cond} {sf : Bool} {rn rd : RegNum} {op2 : Operand2} {s : State}

theorem dataProc_branch (hw : writesRd op = true) :
    dataProc op false rn 15 op2 s = .next { s with pc := maskPC s.cpsr.t (aluResult op rn op2 s).value } :=
  if_pos hw

theorem dataProc_return (hw : writesRd op = true) :
    dataProc op true rn 15 op2 s = exceptionReturn (aluResult op rn op2 s).value s := if_pos hw

theorem exceptionReturn_of_saved {v : Word} {saved : Psr} (h : currentSpsr s = some saved) :
    exceptionReturn v s = .next { s with cpsr := saved, pc := maskPC saved.t v } := by
  simp only [exceptionReturn, h]

/-- WritePC refuses a value that is misaligned where it leaves T = 0 (R167). -/
theorem writePCRule_eq (t : Bool) (v : Word) :
    writePCRule t v = if t = false ∧ v.extractLsb' 0 2 ≠ 0b00#2 then some .r167 else none := by
  cases t <;> simp [writePCRule]

theorem writePCRule_eq_none {t : Bool} {v : Word} :
    writePCRule t v = none ↔ ¬ (t = false ∧ v.extractLsb' 0 2 ≠ 0b00#2) := by
  simp [writePCRule_eq]

theorem dataProcStateRule_of_ne (hd : rd ≠ 15) : dataProcStateRule op sf rn rd op2 s = none := if_neg hd

theorem dataProcStateRule_branch :
    dataProcStateRule op false rn 15 op2 s = writePCRule s.cpsr.t (aluResult op rn op2 s).value := rfl

theorem dataProcStateRule_return_none (h : currentSpsr s = none) :
    dataProcStateRule op true rn 15 op2 s = some .r41 := by
  simp only [dataProcStateRule, h, if_true]

theorem dataProcStateRule_return_some {saved : Psr} (h : currentSpsr s = some saved) :
    dataProcStateRule op true rn 15 op2 s =
      if legalMode saved.m then writePCRule saved.t (aluResult op rn op2 s).value else some .r32 := by
  simp only [dataProcStateRule, h, if_true]

/-- What a write of r15 that is not refused has: an aligned result, and for the return from an exception an SPSR of
a legal mode. -/
theorem dataProcStateRule_eq_none : dataProcStateRule op sf rn rd op2 s = none ↔
    (rd = 15 → if sf then ∃ saved, currentSpsr s = some saved ∧ legalMode saved.m = true ∧
        ¬ (saved.t = false ∧ (aluResult op rn op2 s).value.extractLsb' 0 2 ≠ 0b00#2)
      else ¬ (s.cpsr.t = false ∧ (aluResult op rn op2 s).value.extractLsb' 0 2 ≠ 0b00#2)) := by
  by_cases hd : rd = 15
  · subst hd
    rw [forall_prop_of_true rfl]
    cases sf with
    | false => exact writePCRule_eq_none
    | true =>
      cases hs : currentSpsr s with
      | none => simp [dataProcStateRule_return_none hs]
      | some saved => cases hl : legalMode saved.m <;> simp [dataProcStateRule_return_some hs, hl, writePCRule_eq_none]
  · simp [dataProcStateRule_of_ne hd, hd]

/-- An opcode that writes Rd and passes its check passes the part that reads the state. -/
theorem dataProcStateRule_of_executes (hw : writesRd op = true) (h : Executes (dataProcInstr op c sf rn rd op2) s) :
    dataProcStateRule op sf rn rd op2 s = none := by
  have hstate := (wfRefusal_eq_none.1 h.wellFormed).2
  rw [stateRefusal_dataProcInstr, if_pos hw] at hstate
  exact Option.map_eq_none_iff.1 hstate

end

/-- Settles O31: the check of R167 has passed, so the PC takes the result whole, or but for bit 0 in Thumb state. -/
theorem dataProcessingToPc : Obligations.DataProcessingToPc := by
  intro op c rn op2 s hw v
  refine ⟨fun h => ?_, fun h => ?_⟩
  · have halign := dataProcStateRule_eq_none.1 (dataProcStateRule_of_executes hw h) rfl
    rw [exec_dataProc h, dataProc_branch hw, aluResult_clearTracker, clearTracker_cpsr,
      maskPC_aligned (writePCRule_eq_none.2 halign)]
    rfl
  · obtain ⟨saved, hsaved, hlegal, halign⟩ := dataProcStateRule_eq_none.1 (dataProcStateRule_of_executes hw h) rfl
    refine ⟨saved, hsaved, hlegal, ?_⟩
    rw [exec_dataProc h, dataProc_return hw, aluResult_clearTracker,
      exceptionReturn_of_saved (s := clearTracker s) hsaved, maskPC_aligned (writePCRule_eq_none.2 halign)]

/-! #### The refusals (R220 to R223) -/

theorem regShiftUsesPc_iff {rn rd : RegNum} {op2 : Operand2} : regShiftUsesPc rn rd op2 = true ↔
    ∃ rm ty rs, op2 = .regReg rm ty rs ∧ (rd = 15 ∨ rn = 15 ∨ rm = 15 ∨ rs = 15) := by
  cases op2 <;> simp [regShiftUsesPc, or_assoc]

/-- The static refusals of the sixteen opcodes in the model's order (log entry 9). -/
theorem staticRule_dataProcInstr_eq (op : AluOp) (c : Cond) (sf : Bool) (rn rd : RegNum) (op2 : Operand2) :
    (dataProcInstr op c sf rn rd op2).staticRule =
      if writesRd op = false ∧ sf = false then some .r142 else if writesRd op = false ∧ rd ≠ 0 then some .r222
      else if (op = .mov ∨ op = .mvn) ∧ rn ≠ 0 then some .r223
      else if regShiftUsesPc rn rd op2 = true then some .r220 else none := by
  rw [staticRule_dataProcInstr]
  cases hw : writesRd op with
  | true => by_cases hm : op = .mov ∨ op = .mvn <;> simp [hm, moveRule, dataProcRule]
  | false =>
    have hm : ¬ (op = .mov ∨ op = .mvn) := by rintro (rfl | rfl) <;> cases hw
    simp [hm, compareRule]

section
variable {op : AluOp} {c : Cond} {sf : Bool} {rn rd : RegNum} {op2 : Operand2} {s : State} {r : UnpRule}

theorem exec_dataProc_static (h : (dataProcInstr op c sf rn rd op2).staticRule = some r) :
    exec (dataProcInstr op c sf rn rd op2) s = .refused (.unpredictable r) :=
  exec_refused (wfRefusal_static h s)

theorem wfRefusal_dataProcInstr (hs : (dataProcInstr op c sf rn rd op2).staticRule = none) :
    wfRefusal (dataProcInstr op c sf rn rd op2) s =
      if writesRd op then (dataProcStateRule op sf rn rd op2 s).map .unpredictable else none := by
  rw [wfRefusal_state hs, stateRefusal_dataProcInstr]

theorem exec_dataProc_toPc (hs : (dataProcInstr op c sf rn 15 op2).staticRule = none) (hw : writesRd op = true)
    (h : dataProcStateRule op sf rn 15 op2 s = some r) :
    exec (dataProcInstr op c sf rn 15 op2) s = .refused (.unpredictable r) :=
  exec_refused (by rw [wfRefusal_dataProcInstr hs, if_pos hw, h, Option.map_some])

end

/-- Settles O32: the static rules in their order, then for Rd = r15 the rules of a branch and of a return. -/
theorem dataProcessingRefusals : Obligations.DataProcessingRefusals := by
  intro op c sf rn rd op2 s i v refuses noS badRd badRn pcShift misaligned toPc
  have hstatic : i.staticRule = if noS then some .r142 else if badRd then some .r222 else if badRn then some .r223
      else if regShiftUsesPc rn rd op2 = true then some .r220 else none := staticRule_dataProcInstr_eq ..
  have hshift : regShiftUsesPc rn rd op2 = true ↔ pcShift := regShiftUsesPc_iff
  have hmove : badRn → ¬ noS ∧ ¬ badRd := by
    rintro ⟨rfl | rfl, -⟩ <;> exact ⟨nofun, nofun⟩
  have hwrites : toPc → ¬ noS ∧ ¬ badRd := fun ⟨hw, _⟩ => by simp [noS, badRd, hw]
  have hpass : ¬ noS → ¬ badRd → ¬ badRn → ¬ pcShift → i.staticRule = none := by
    intro hnoS hbadRd hbadRn hpcShift
    rw [hstatic, if_neg hnoS, if_neg hbadRd, if_neg hbadRn, if_neg (mt hshift.1 hpcShift)]
  have htoPc : ∀ r, ¬ badRn → ¬ pcShift → toPc → dataProcStateRule op sf rn 15 op2 s = some r → refuses r := by
    rintro r hbadRn hpcShift ht hr
    obtain ⟨hnoS, hbadRd⟩ := hwrites ht
    obtain ⟨hw, rfl⟩ := ht
    exact exec_dataProc_toPc (hpass hnoS hbadRd hbadRn hpcShift) hw hr
  refine ⟨fun hnoS => ?_, fun hnoS hbadRd => ?_, fun hbadRn => ?_, fun hnoS hbadRd hbadRn hpcShift => ?_,
    fun hbadRn hpcShift ht hsf hv => ?_, fun hbadRn hpcShift ht hsf hs => ?_,
    fun saved hbadRn hpcShift ht hsf hs => ⟨fun hl => ?_, fun hl hv => ?_⟩,
    fun hnoS hbadRd hbadRn hpcShift ht => ?_⟩
  · exact exec_dataProc_static (hstatic.trans (if_pos hnoS))
  · exact exec_dataProc_static (by rw [hstatic, if_neg hnoS, if_pos hbadRd])
  · obtain ⟨hnoS, hbadRd⟩ := hmove hbadRn
    exact exec_dataProc_static (by rw [hstatic, if_neg hnoS, if_neg hbadRd, if_pos hbadRn])
  · exact exec_dataProc_static (by rw [hstatic, if_neg hnoS, if_neg hbadRd, if_neg hbadRn, if_pos (hshift.2 hpcShift)])
  · subst hsf
    exact htoPc .r167 hbadRn hpcShift ht (by rw [dataProcStateRule_branch, writePCRule_eq, if_pos hv])
  · subst hsf
    exact htoPc .r41 hbadRn hpcShift ht (dataProcStateRule_return_none hs)
  · subst hsf
    exact htoPc .r32 hbadRn hpcShift ht (by rw [dataProcStateRule_return_some hs, hl]; rfl)
  · subst hsf
    exact htoPc .r167 hbadRn hpcShift ht
      (by rw [dataProcStateRule_return_some hs, if_pos hl, writePCRule_eq, if_pos hv])
  · rw [wfRefusal_dataProcInstr (hpass hnoS hbadRd hbadRn hpcShift)]
    split
    next hw => rw [dataProcStateRule_eq_none.2 fun hd => ht ⟨hw, hd⟩, Option.map_none]
    next => rfl

end Sys2Proof.Machine

/-! ### What data processing, multiplies, status transfers and branches leave unchanged (R47, R201, R241, R333, R351) -/

namespace Sys2Proof.Machine

/-- From s to t nothing but the listed registers, the PC, the CPSR and the hazard tracker may have changed. -/
structure RegisterFrame (changed : List (Option PhysReg)) (s t : State) : Prop where
  memory : SameMemory s t
  environment : SameEnvironment s t
  spsrs : t.spsrs = s.spsrs
  regs : SameRegsBut changed s t

/-- Of the CPSR only N, Z, C, V may have changed, and these only with S = 1 (R201, R241). -/
structure FlagFrame (changed : List (Option PhysReg)) (sf : Bool) (s t : State) : Prop
    extends RegisterFrame changed s t where
  control : SameControl s.cpsr t.cpsr
  kept : sf = false → t.cpsr = s.cpsr

/-- The state with N, Z, C, V set when S = 1. -/
def flagged (sf n z c v : Bool) (s : State) : State := if sf then s.withFlags n z c v else s

theorem setFlags_eq_flagged (sf : Bool) (r : Word) (c v : Bool) (s : State) :
    setFlags sf r c v s = flagged sf r.msb (r == 0#32) c v s := rfl

theorem flagged_c (sf n z v : Bool) (s : State) : (flagged sf n z s.cpsr.c v s).cpsr.c = s.cpsr.c := by
  cases sf <;> rfl

theorem flagged_v (sf n z c : Bool) (s : State) : (flagged sf n z c s.cpsr.v s).cpsr.v = s.cpsr.v := by
  cases sf <;> rfl

section
variable {changed : List (Option PhysReg)} {sf : Bool} {s t u : State}

theorem SameEnvironment.update (s : State) (r : RegFile) (pc : Word) (p : Psr) (f : SpsrFile) (b : Bool) :
    SameEnvironment s { s with regs := r, pc := pc, cpsr := p, spsrs := f, lastUserBankTransfer := b } :=
  ⟨rfl, rfl, rfl, rfl, rfl, rfl, rfl, rfl⟩

theorem RegisterFrame.clearTracker (s : State) : RegisterFrame [] s (clearTracker s) :=
  ⟨fun _ => rfl, .update s .., rfl, fun _ _ => rfl⟩

theorem RegisterFrame.mono (h : RegisterFrame changed s t) {more : List (Option PhysReg)} (hm : changed ⊆ more) :
    RegisterFrame more s t :=
  { h with regs := fun q hq => h.regs q fun hc => hq (hm hc) }

theorem RegisterFrame.setPc (h : RegisterFrame changed s u) (v : Word) : RegisterFrame changed s { u with pc := v } :=
  { h with environment := h.environment.trans (.setPc u v) }

theorem RegisterFrame.setCpsr (h : RegisterFrame changed s u) (p : Psr) :
    RegisterFrame changed s { u with cpsr := p } :=
  { h with environment := h.environment.trans (.update u ..) }

theorem RegisterFrame.writeReg (h : RegisterFrame changed s u) (hm : u.cpsr.m = s.cpsr.m) (n : RegNum) (v : Word) :
    RegisterFrame (bankReg (currentBank s.cpsr) n :: changed) s (writeReg n v u) where
  memory := by simpa [SameMemory] using h.memory
  environment := h.environment.trans (.writeReg n v u)
  spsrs := by simpa using h.spsrs
  regs q hq := by
    obtain ⟨hn, hc⟩ := not_or.1 (mt List.mem_cons.2 hq)
    rw [writeReg_other n v u q (currentBank_congr hm ▸ Ne.symm hn), h.regs q hc]

theorem FlagFrame.mono (h : FlagFrame changed sf s t) {more : List (Option PhysReg)} (hm : changed ⊆ more) :
    FlagFrame more sf s t :=
  { h with toRegisterFrame := h.toRegisterFrame.mono hm }

theorem FlagFrame.setPc (h : FlagFrame changed sf s u) (v : Word) : FlagFrame changed sf s { u with pc := v } :=
  { h with toRegisterFrame := h.toRegisterFrame.setPc v }

theorem FlagFrame.writeReg (h : FlagFrame changed sf s u) (n : RegNum) (v : Word) :
    FlagFrame (bankReg (currentBank s.cpsr) n :: changed) sf s (writeReg n v u) where
  toRegisterFrame := h.toRegisterFrame.writeReg h.control.m n v
  control := by simpa using h.control
  kept := by simpa using h.kept

theorem FlagFrame.clearTracker (sf : Bool) (s : State) : FlagFrame [] sf s (Machine.clearTracker s) :=
  { RegisterFrame.clearTracker s with control := ⟨rfl, rfl, rfl, rfl⟩, kept := fun _ => rfl }

theorem FlagFrame.flagged (sf n z c v : Bool) (s : State) :
    FlagFrame [] sf s (Machine.flagged sf n z c v (Machine.clearTracker s)) := by
  cases sf with
  | false => exact .clearTracker false s
  | true => exact { (RegisterFrame.clearTracker s).setCpsr _ with control := ⟨rfl, rfl, rfl, rfl⟩, kept := nofun }

/-- The condition fails (R163). -/
theorem FlagFrame.skip (changed : List (Option PhysReg)) (sf : Bool) (s : State) : FlagFrame changed sf s (skip s) :=
  ((FlagFrame.clearTracker sf s).setPc _).mono (List.nil_subset _)

/-- What an instruction leaves unchanged, from what a failed condition and its body leave. -/
theorem exec_frame {P : State → Prop} {i : Instr} {s t : State} (h : exec i s = .next t) (hskip : P (skip s))
    (hb : execBody i (clearTracker s) = .next t → P t) : P t := by
  obtain ⟨-, -, rfl⟩ | ⟨-, hbody⟩ := exec_next h
  · exact hskip
  · exact hb hbody

/-! #### Data processing -/

section
variable {op : AluOp} {rn rd : RegNum} {op2 : Operand2}

theorem exceptionReturn_next {v : Word} (h : exceptionReturn v s = .next t) :
    ∃ saved : Psr, t = { s with cpsr := saved, pc := maskPC saved.t v } := by
  cases hs : currentSpsr s with
  | none => simp [exceptionReturn, hs] at h
  | some saved => rw [exceptionReturn_of_saved hs] at h; cases h; exact ⟨saved, rfl⟩

theorem aluResult_overflow_logical (h : op ∈ [AluOp.and, .eor, .tst, .teq, .orr, .mov, .bic, .mvn]) :
    (aluResult op rn op2 s).overflow = s.cpsr.v := by
  simp only [List.mem_cons, List.not_mem_nil, or_false] at h
  rcases h with rfl | rfl | rfl | rfl | rfl | rfl | rfl | rfl <;> rfl

/-- The ends of data processing: r15 written, or the flags set and Rd written by the opcodes that write it (R200 to
R203). -/
theorem dataProc_next (h : dataProc op sf rn rd op2 s = .next t) :
    let r := aluResult op rn op2 s
    let u := setFlags sf r.value r.carry r.overflow s
    (writesRd op = true ∧ rd = 15 ∧ ∃ p v, t = { s with cpsr := p, pc := v } ∧ (sf = false → p = s.cpsr)) ∨
    (¬ (writesRd op = true ∧ rd = 15) ∧ t = advance (if writesRd op then writeReg rd r.value u else u)) := by
  intro r u
  cases hw : writesRd op with
  | false => rw [dataProc_compare hw] at h; cases h; exact .inr ⟨nofun, rfl⟩
  | true =>
    by_cases hd : rd = 15
    · subst hd
      refine .inl ⟨rfl, rfl, ?_⟩
      cases sf with
      | false => rw [dataProc_branch hw] at h; cases h; exact ⟨s.cpsr, _, rfl, fun _ => rfl⟩
      | true =>
        rw [dataProc_return hw] at h
        obtain ⟨saved, rfl⟩ := exceptionReturn_next h
        exact ⟨saved, _, rfl, nofun⟩
    · rw [dataProc_writes hw hd] at h; cases h; exact .inr ⟨fun hpc => hd hpc.2, rfl⟩

theorem FlagFrame.writeRd (h : FlagFrame [] sf s u) (write : Bool) (rd : RegNum) (v : Word) :
    FlagFrame (if write then [bankReg (currentBank s.cpsr) rd] else []) sf s
      (if write then Machine.writeReg rd v u else u) := by
  cases write with
  | false => exact h
  | true => exact h.writeReg rd v

theorem cpsr_writeRd (write : Bool) (rd : RegNum) (v : Word) (u : State) :
    (if write then writeReg rd v u else u).cpsr = u.cpsr := by
  cases write with
  | false => rfl
  | true => exact writeReg_cpsr rd v u

/-- What data processing leaves unchanged (R201). -/
structure DataProcFrame (op : AluOp) (sf : Bool) (rd : RegNum) (s t : State) : Prop
    extends RegisterFrame (if writesRd op then [bankReg (currentBank s.cpsr) rd] else []) s t where
  kept : sf = false → t.cpsr = s.cpsr
  status : ¬ (writesRd op = true ∧ rd = 15) → SameControl s.cpsr t.cpsr ∧
    (op ∈ [AluOp.and, .eor, .tst, .teq, .orr, .mov, .bic, .mvn] → t.cpsr.v = s.cpsr.v)

theorem dataProc_frame (h : dataProc op sf rn rd op2 (clearTracker s) = .next t) : DataProcFrame op sf rd s t := by
  obtain ⟨hw, hd, p, v, rfl, hp⟩ | ⟨-, ht⟩ := dataProc_next h
  · exact { (((RegisterFrame.clearTracker s).setCpsr p).setPc v).mono (List.nil_subset _) with
      kept := hp, status := fun hpc => absurd ⟨hw, hd⟩ hpc }
  · have hf : FlagFrame (if writesRd op then [bankReg (currentBank s.cpsr) rd] else []) sf s t := by
      rw [ht]
      exact ((FlagFrame.flagged ..).writeRd (writesRd op) rd _).setPc _
    refine { hf with status := fun _ => ⟨hf.control, fun ho => ?_⟩ }
    have hv := aluResult_overflow_logical (rn := rn) (op2 := op2) (s := clearTracker s) ho
    rw [ht, advance_cpsr, cpsr_writeRd, hv, setFlags_eq_flagged, flagged_v, clearTracker_cpsr]

theorem exec_dataProc_frame {c : Cond} (h : exec (dataProcInstr op c sf rn rd op2) s = .next t) :
    DataProcFrame op sf rd s t := by
  refine exec_frame h ?_ fun hb => ?_
  · exact { FlagFrame.skip _ sf s with status := fun _ => ⟨⟨rfl, rfl, rfl, rfl⟩, fun _ => rfl⟩ }
  · rw [execBody_dataProcInstr] at hb
    exact dataProc_frame hb

end

/-! #### Multiplies -/

/-- What the multiplies leave unchanged (R241). -/
structure MultiplyFrame (changed : List (Option PhysReg)) (sf : Bool) (s t : State) : Prop
    extends FlagFrame changed sf s t where
  c : t.cpsr.c = s.cpsr.c
  v : t.cpsr.v = s.cpsr.v

theorem MultiplyFrame.skip (changed : List (Option PhysReg)) (sf : Bool) (s : State) :
    MultiplyFrame changed sf s (skip s) :=
  { FlagFrame.skip changed sf s with c := rfl, v := rfl }

theorem commitProduct_eq (sf : Bool) (rd : RegNum) (r : Word) (s : State) : commitProduct sf rd r s =
    .next (advance (writeReg rd r (setFlags sf r s.cpsr.c s.cpsr.v s))) := by
  cases sf <;> rfl

theorem commitLongProduct_eq (sf : Bool) (rdHi rdLo : RegNum) (p : BitVec 64) (s : State) :
    commitLongProduct sf rdHi rdLo p s = .next (advance (writeReg rdHi (p.extractLsb' 32 32)
      (writeReg rdLo (p.extractLsb' 0 32) (flagged sf p.msb (p == 0#64) s.cpsr.c s.cpsr.v s)))) := by
  cases sf <;> rfl

theorem commitProduct_frame {rd : RegNum} {r : Word} (h : commitProduct sf rd r (clearTracker s) = .next t) :
    MultiplyFrame [bankReg (currentBank s.cpsr) rd] sf s t := by
  rw [commitProduct_eq] at h
  cases h
  refine { ((FlagFrame.flagged ..).writeReg rd r).setPc _ with c := ?_, v := ?_ }
  · rw [advance_cpsr, writeReg_cpsr]; exact flagged_c ..
  · rw [advance_cpsr, writeReg_cpsr]; exact flagged_v ..

theorem commitLongProduct_frame {rdHi rdLo : RegNum} {p : BitVec 64}
    (h : commitLongProduct sf rdHi rdLo p (clearTracker s) = .next t) :
    MultiplyFrame [bankReg (currentBank s.cpsr) rdHi, bankReg (currentBank s.cpsr) rdLo] sf s t := by
  rw [commitLongProduct_eq] at h
  cases h
  refine { (((FlagFrame.flagged ..).writeReg rdLo _).writeReg rdHi _).setPc _ with c := ?_, v := ?_ }
  · rw [advance_cpsr, writeReg_cpsr, writeReg_cpsr]; exact flagged_c ..
  · rw [advance_cpsr, writeReg_cpsr, writeReg_cpsr]; exact flagged_v ..

theorem exec_multiply_frame {c : Cond} {rd rn rs rm : RegNum} {i : Instr}
    (hi : i ∈ [Instr.mul c sf rd rn rs rm, .mla c sf rd rn rs rm, .umull c sf rd rn rs rm, .umlal c sf rd rn rs rm,
      .smull c sf rd rn rs rm, .smlal c sf rd rn rs rm]) (h : exec i s = .next t) :
    MultiplyFrame (bankReg (currentBank s.cpsr) rd ::
      if i = .mul c sf rd rn rs rm ∨ i = .mla c sf rd rn rs rm then [] else [bankReg (currentBank s.cpsr) rn])
      sf s t := by
  refine exec_frame h (.skip ..) fun hb => ?_
  simp only [List.mem_cons, List.not_mem_nil, or_false] at hi
  rcases hi with rfl | rfl | rfl | rfl | rfl | rfl
  · rw [if_pos (.inl rfl)]; exact commitProduct_frame hb
  · rw [if_pos (.inr rfl)]; exact commitProduct_frame hb
  all_goals rw [if_neg (by simp)]; exact commitLongProduct_frame hb

/-! #### Status transfers -/

theorem mrsBody_frame {spsr : Bool} {rd : RegNum} (h : mrsBody spsr rd (clearTracker s) = .next t) :
    FlagFrame [bankReg (currentBank s.cpsr) rd] false s t := by
  have hrd (v : Word) : FlagFrame [bankReg (currentBank s.cpsr) rd] false s
      (advance (writeReg rd v (clearTracker s))) := ((FlagFrame.clearTracker false s).writeReg rd v).setPc _
  unfold mrsBody at h
  split at h
  · split at h <;> cases h
    exact hrd _
  · cases h
    exact hrd _

/-- What a write of a status register leaves unchanged; `c` says that the control field is written (R351, R52). -/
structure StatusFrame (spsr c : Bool) (s t : State) : Prop where
  memory : SameMemory s t
  environment : SameEnvironment s t
  regs : t.regs = s.regs
  saved : spsr = true → t.cpsr = s.cpsr ∧ ∀ k : Bank, k ≠ currentBank s.cpsr → t.spsrs.get k = s.spsrs.get k
  current : spsr = false → t.spsrs = s.spsrs
  control : c = false ∨ s.cpsr.m = Mode.user.bits → SameControl s.cpsr t.cpsr

theorem StatusFrame.skip (spsr c : Bool) (s : State) : StatusFrame spsr c s (skip s) :=
  ⟨fun _ => rfl, .update s .., rfl, fun _ => ⟨rfl, fun _ _ => rfl⟩, fun _ => rfl,
    fun _ => ⟨rfl, rfl, rfl, rfl⟩⟩

theorem writeFields_control (p : Psr) (f : Bool) (v : Word) : SameControl p (p.writeFields f false v) := by
  cases f <;> exact ⟨rfl, rfl, rfl, rfl⟩

theorem psrWrite_frame {spsr f c : Bool} {v : Word} (h : psrWrite spsr f c v (clearTracker s) = .next t) :
    StatusFrame spsr c s t := by
  unfold psrWrite at h
  cases spsr with
  | true =>
    rw [if_pos rfl] at h
    split at h <;> cases h
    exact ⟨fun _ => rfl, .update s .., rfl, fun _ => ⟨rfl, fun k hk => SpsrFile.get_set_ne _ hk _⟩,
      nofun, fun _ => ⟨rfl, rfl, rfl, rfl⟩⟩
  | false =>
    cases h
    refine ⟨fun _ => rfl, .update s .., rfl, nofun, fun _ => rfl, fun hc => ?_⟩
    have hoff : (c && privileged s.cpsr) = false := by
      rcases hc with rfl | hm
      · rfl
      · rw [privileged, hm]; exact Bool.and_false c
    rw [advance_cpsr, clearTracker_cpsr, hoff]
    exact writeFields_control ..

/-- MSR_flg does not write the control field (R353). -/
theorem exec_msr_frame {c : Cond} {spsr : Bool} {rm : RegNum} {mask : BitVec 4} {src : PsrSource} {i : Instr}
    (hi : i ∈ [Instr.msrReg c spsr rm, .msrFlg c spsr src, .msrGen c spsr mask src]) (h : exec i s = .next t) :
    ∃ control : Bool, StatusFrame spsr control s t ∧ (i = .msrFlg c spsr src → control = false) := by
  simp only [List.mem_cons, List.not_mem_nil, or_false] at hi
  rcases hi with rfl | rfl | rfl
  · exact ⟨true, exec_frame h (.skip ..) psrWrite_frame, nofun⟩
  · exact ⟨false, exec_frame h (.skip ..) psrWrite_frame, fun _ => rfl⟩
  · exact ⟨mask.getLsbD 0, exec_frame h (.skip ..) psrWrite_frame, nofun⟩

/-! #### Branches -/

/-- What the branches leave unchanged: of the CPSR all but T, which BX alone writes (R333). -/
structure BranchFrame (changed : List (Option PhysReg)) (t' : Bool) (s t : State) : Prop
    extends RegisterFrame changed s t where
  cpsr : t.cpsr = { s.cpsr with t := t' }

theorem BranchFrame.skip (changed : List (Option PhysReg)) (s : State) : BranchFrame changed s.cpsr.t s (skip s) :=
  { FlagFrame.skip changed false s with cpsr := rfl }

theorem exec_branch_frame {c : Cond} {offset24 : BitVec 24} {rm : RegNum} {i : Instr}
    (hi : i ∈ [Instr.b c offset24, .bl c offset24, .bx c rm]) (h : exec i s = .next t) :
    ∃ t' : Bool, BranchFrame (if i = .bl c offset24 then [bankReg (currentBank s.cpsr) 14] else []) t' s t ∧
      (i ≠ .bx c rm → t' = s.cpsr.t) := by
  obtain ⟨-, -, rfl⟩ | ⟨-, hb⟩ := exec_next h
  · exact ⟨_, .skip _ s, fun _ => rfl⟩
  simp only [List.mem_cons, List.not_mem_nil, or_false] at hi
  have hclear := RegisterFrame.clearTracker s
  rcases hi with rfl | rfl | rfl <;> cases hb
  · exact ⟨_, { hclear.setPc _ with cpsr := rfl }, fun _ => rfl⟩
  · rw [if_pos rfl]
    have hlink := writeReg_cpsr 14 (s.pc + 4#32) (clearTracker s)
    exact ⟨_, { (hclear.writeReg rfl 14 _).setPc _ with cpsr := hlink }, fun _ => rfl⟩
  · exact ⟨_, { (hclear.setCpsr _).setPc _ with cpsr := rfl }, fun hne => absurd rfl hne⟩

end

/-- Settles O58: each body leaves its frame, and so does a failed condition. -/
theorem registerInstructionFrame : Obligations.RegisterInstructionFrame := by
  refine ⟨fun op c sf rn rd op2 s t h => ?_, fun c sf rd rn rs rm s t i hi h => ?_,
    fun c spsr rd rm mask src s t => ⟨fun h => ?_, fun i hi h => ?_⟩, fun c offset24 rm s t i hi h => ?_⟩
  · have hf := exec_dataProc_frame h
    exact ⟨hf.memory, hf.environment, hf.spsrs, hf.regs, hf.kept, hf.status⟩
  · have hf := exec_multiply_frame hi h
    exact ⟨hf.memory, hf.environment, hf.spsrs, hf.regs, hf.control, hf.c, hf.v, hf.kept⟩
  · have hf : FlagFrame _ false s t := exec_frame h (.skip ..) mrsBody_frame
    exact ⟨hf.memory, hf.environment, hf.spsrs, hf.kept rfl, hf.regs⟩
  · obtain ⟨w, hf, hw⟩ := exec_msr_frame hi h
    exact ⟨hf.memory, hf.environment, hf.regs, hf.saved, hf.current, fun hc => hf.control (hc.imp_left hw)⟩
  · obtain ⟨b, hf, hb⟩ := exec_branch_frame hi h
    refine ⟨hf.memory, hf.environment, hf.spsrs, hf.regs, ?_⟩
    rw [hf.cpsr]
    exact ⟨rfl, rfl, rfl, rfl, rfl, rfl, rfl, fun hx => by rw [hb hx]⟩

end Sys2Proof.Machine

/-! ### The multiplies (R240 to R249) -/

namespace Sys2Proof.Machine

section
variable {i : Instr} {sf : Bool} {rd rdHi rdLo : RegNum} {s : State}

theorem exec_commitProduct {r p : Word} (hb : execBody i (clearTracker s) = commitProduct sf rd r (clearTracker s))
    (hr : r = p) (h : Executes i s) :
    exec i s = .next (advance (writeReg rd p (setFlags sf p s.cpsr.c s.cpsr.v (clearTracker s)))) := by
  rw [exec_executes h, hb, hr, commitProduct_eq, clearTracker_cpsr]

theorem exec_commitLongProduct {r p : BitVec 64}
    (hb : execBody i (clearTracker s) = commitLongProduct sf rdHi rdLo r (clearTracker s)) (hr : r = p)
    (h : Executes i s) :
    exec i s = .next (advance (writeReg rdHi (p.extractLsb' 32 32) (writeReg rdLo (p.extractLsb' 0 32)
      (flagged sf p.msb (p == 0#64) s.cpsr.c s.cpsr.v (clearTracker s))))) := by
  rw [exec_executes h, hb, hr, commitLongProduct_eq, clearTracker_cpsr]

end

/-- SMULL adds nothing: its accumulator is 0. -/
theorem signedProduct64_zero (rs rm : RegNum) (s : State) :
    signedProduct64 rs rm 0#64 s = BitVec.ofInt 64 ((readReg rm s).toInt * (readReg rs s).toInt) :=
  congrArg (BitVec.ofInt 64) (Int.add_zero _)

/-- Settles O33: each body commits its product, read from registers that clearing the tracker leaves as they are. -/
theorem multiplyResults : Obligations.MultiplyResults := by
  intro c sf rd rn rs rm s x y after32 after64 acc
  exact ⟨exec_commitProduct (i := .mul ..) rfl rfl, exec_commitProduct (i := .mla ..) rfl rfl,
    exec_commitLongProduct (i := .umull ..) rfl rfl, exec_commitLongProduct (i := .umlal ..) rfl rfl,
    exec_commitLongProduct (i := .smull ..) rfl (signedProduct64_zero rs rm s),
    exec_commitLongProduct (i := .smlal ..) rfl rfl⟩

/-! #### The refusals (R248, R249) -/

/-- The refusals of MUL and MLA as one condition: those the two share, and the one on Rn that each has of its own. -/
theorem shortMultiplyRule_eq (rd rs rm : RegNum) {b : Bool} {badRn : Prop} [Decidable badRn] (hb : b = true ↔ badRn) :
    firstRule [(rd == rm, .r248), (rd == 15 || rm == 15 || rs == 15, .r248), (b, .r248)] =
      if (rd = rm ∨ rd = 15 ∨ rm = 15 ∨ rs = 15) ∨ badRn then some .r248 else none := by
  simp [ite_or, hb]

theorem mulLongRule_eq (rdHi rdLo rs rm : RegNum) : mulLongRule rdHi rdLo rs rm =
    if rdHi = rdLo ∨ rdHi = rm ∨ rdLo = rm ∨ rdHi = 15 ∨ rdLo = 15 ∨ rm = 15 ∨ rs = 15 then some .r249 else none := by
  simp [mulLongRule, ite_or]

/-- An instruction whose check reads no state and has one condition is refused exactly under it. -/
theorem refused_of_staticRule_ite {i : Instr} {r : UnpRule} {s : State} {bad : Prop} [Decidable bad]
    (hstatic : i.staticRule = if bad then some r else none) (hstate : stateRefusal i s = none) :
    (bad → exec i s = .refused (.unpredictable r)) ∧ (¬ bad → wfRefusal i s = none) :=
  ⟨fun hbad => exec_refused (wfRefusal_static (hstatic.trans (if_pos hbad)) s),
    fun hbad => wfRefusal_eq_none.2 ⟨hstatic.trans (if_neg hbad), hstate⟩⟩

/-- Settles O34: the check of each multiply is its static rule, which has one name. -/
theorem multiplyRefusals : Obligations.MultiplyRefusals := by
  intro c sf rd rn rs rm s refusedFor short long
  have hlong : mulLongRule rd rn rs rm = if long then some .r249 else none := mulLongRule_eq ..
  exact ⟨refused_of_staticRule_ite (shortMultiplyRule_eq rd rs rm bne_iff_ne) rfl,
    refused_of_staticRule_ite (shortMultiplyRule_eq rd rs rm beq_iff_eq) rfl,
    refused_of_staticRule_ite hlong rfl, refused_of_staticRule_ite hlong rfl,
    refused_of_staticRule_ite hlong rfl, refused_of_staticRule_ite hlong rfl⟩

end Sys2Proof.Machine

/-! ### The addresses of the transfers (R82, R260, R272, R300, R379) -/

namespace Sys2Proof

/-- The registers of a list that satisfy `below`, counted by their numbers. -/
theorem length_filter_regList (list : BitVec 16) (below : Nat → Bool) :
    ((regList list).filter fun q => below q.val).length =
      (List.range 16).countP fun k => list.getLsbD k && below k := by
  have hrange : List.range 16 = allRegs.map Fin.val := rfl
  rw [hrange, List.countP_map, List.countP_eq_length_filter, regList, List.filter_filter]
  exact congrArg (fun f => (allRegs.filter f).length) (funext fun q => Bool.and_comm ..)

theorem length_regList (list : BitVec 16) :
    (regList list).length = (List.range 16).countP fun k => list.getLsbD k := by
  simpa using length_filter_regList list fun _ => true

end Sys2Proof

namespace Sys2Proof.Machine

theorem blockBytes_eq_countP (list : BitVec 16) :
    blockBytes list = BitVec.ofNat 32 (4 * ((List.range 16).countP fun k => list.getLsbD k)) := by
  rw [blockBytes, length_regList]

theorem rankIn_eq_countP (list : BitVec 16) (r : RegNum) :
    rankIn list r = (List.range 16).countP fun k => list.getLsbD k && decide (k < r.val) :=
  length_filter_regList list fun k => decide (k < r.val)

theorem toNat_coprocOffset (offset8 : BitVec 8) : (coprocOffset offset8).toNat = 4 * offset8.toNat := by
  have := offset8.isLt
  simp only [coprocOffset, BitVec.toNat_mul, BitVec.toNat_setWidth, BitVec.toNat_ofNat]
  omega

/-- Settles O27: the addresses are those of the definitions; the bits of the list count the listed registers. -/
theorem transferAddresses : Obligations.TransferAddresses := by
  refine ⟨fun u rn off s => ⟨rfl, rfl⟩, fun n12 n8 z rm ty n s => ⟨?_, rfl, ?_, rfl, toNat_coprocOffset n8⟩,
    fun rn list s => ?_, fun p u rn list r s a i => ⟨?_, rfl⟩⟩
  · exact BitVec.toNat_setWidth_of_le (by decide)
  · exact BitVec.toNat_setWidth_of_le (by decide)
  · rw [← blockBytes_eq_countP]
    exact ⟨rfl, rfl, rfl, rfl, rfl, rfl⟩
  · rw [blockSlot, rankIn_eq_countP]
    rfl

end Sys2Proof.Machine

/-! ### The operands the single transfers and the swaps refuse (R73, R271, R277, R283) -/

namespace Sys2Proof

theorem swapRule_eq (sbz : BitVec 2) (rn rd rm : RegNum) : swapRule sbz rn rd rm =
    if sbz ≠ 0#2 ∨ rd = 15 ∨ rn = 15 ∨ rm = 15 ∨ rn = rm ∨ rn = rd then some .r283 else none := by
  simp [swapRule, ite_or]

end Sys2Proof

namespace Sys2Proof.Machine

section
variable {i : Instr} {r : UnpRule} {s : State} {bad : Prop}

/-- An instruction whose check reads no state is refused exactly under its static rule. -/
theorem refused_iff_of_staticRule (hstatic : (bad → i.staticRule = some r) ∧ (¬ bad → i.staticRule = none))
    (hstate : stateRefusal i s = none) :
    (bad → exec i s = .refused (.unpredictable r)) ∧ (¬ bad → wfRefusal i s = none) :=
  ⟨fun hbad => exec_refused (wfRefusal_static (hstatic.1 hbad) s),
    fun hbad => wfRefusal_eq_none.2 ⟨hstatic.2 hbad, hstate⟩⟩

/-- A halfword transfer that reads or writes a halfword is refused under its static rule, and else at an odd address
under HALF_MISALIGN = Refuse (R73). -/
theorem half_refused_iff {p u : Bool} {rn : RegNum} {off : HalfOffset}
    (hstatic : (bad → i.staticRule = some r) ∧ (¬ bad → i.staticRule = none))
    (hstate : stateRefusal i s = halfMisalignRefusal p u rn off s) :
    let odd := s.policy.halfMisalign = .refuse ∧ (transferAddress p u rn (halfOffset off s) s).getLsbD 0 = true
    (bad → exec i s = .refused (.unpredictable r)) ∧ (¬ bad → odd → exec i s = .refused .halfMisaligned) ∧
      (¬ bad → ¬ odd → wfRefusal i s = none) := by
  refine ⟨fun hbad => exec_refused (wfRefusal_static (hstatic.1 hbad) s), fun hbad hodd => ?_, fun hbad hodd => ?_⟩
  · exact exec_refused ((wfRefusal_state (hstatic.2 hbad) s).trans (hstate.trans (if_pos hodd)))
  · exact wfRefusal_eq_none.2 ⟨hstatic.2 hbad, hstate.trans (if_neg hodd)⟩

end

/-- Settles O40: the check of each form is its static rule, and for the three forms that access a halfword the test of
R73 after it. -/
theorem singleTransferRefusals : Obligations.SingleTransferRefusals := by
  intro c p u w rn rd rm off hoff z s refusedFor single wbH half a odd halfRefused swap
  have hsingle (byte wb : Bool) := singleRule_iff byte wb rn rd off
  have hhalf := halfRule_iff p w rn rd hoff
  have hswap : swapRule z rn rd rm = if swap then some .r283 else none := swapRule_eq ..
  exact ⟨refused_iff_of_staticRule (hsingle false w) rfl, refused_iff_of_staticRule (hsingle false w) rfl,
    refused_iff_of_staticRule (hsingle false true) rfl, refused_iff_of_staticRule (hsingle false true) rfl,
    refused_iff_of_staticRule (hsingle false true) rfl, refused_iff_of_staticRule (hsingle false true) rfl,
    refused_iff_of_staticRule (hsingle true w) rfl, refused_iff_of_staticRule (hsingle true w) rfl,
    refused_iff_of_staticRule (hsingle true true) rfl, refused_iff_of_staticRule (hsingle true true) rfl,
    refused_iff_of_staticRule (hsingle true true) rfl, refused_iff_of_staticRule (hsingle true true) rfl,
    half_refused_iff hhalf rfl, half_refused_iff hhalf rfl, half_refused_iff hhalf rfl,
    refused_iff_of_staticRule hhalf rfl, refused_of_staticRule_ite hswap rfl, refused_of_staticRule_ite hswap rfl⟩

end Sys2Proof.Machine

/-! ### What the single transfers and the swaps do (R260 to R283) -/

namespace Sys2Proof.Machine

section
variable {i : Instr} {p u wb : Bool} {rn rd : RegNum} {offset v : Word} {q : MemRequest} {s : State}

/-- R261, with the condition of the write-back as a statement writes it. -/
theorem applyWriteBack_addressing {writesBack : Prop} [Decidable writesBack] (hwb : wb = true ↔ writesBack)
    (t : State) :
    applyWriteBack (addressing p u wb rn offset s).writeBack t =
      if writesBack then writeReg rn (indexedBase u rn offset s) t else t := by
  simp only [← hwb]
  cases wb <;> rfl

/-! #### Accesses that are answered: from the end of the body to the next state -/

section
variable {writesBack : Prop} [Decidable writesBack] (hx : Executes i s) (hwb : wb = true ↔ writesBack)
include hx hwb

theorem exec_load_answered (hb : execBody i (clearTracker s) =
      finishLoad (some v) (addressing p u wb rn offset s) rd (called q (clearTracker s))) :
    let read := called q (clearTracker s)
    exec i s = .next (advance (writeReg rd v
      (if writesBack then writeReg rn (indexedBase u rn offset s) read else read))) := by
  rw [exec_executes hx, hb, finishLoad, applyWriteBack_addressing hwb]

theorem exec_loadWord_answered (hb : execBody i (clearTracker s) =
      finishLoadWord (some v) (addressing p u wb rn offset s) rd (called q (clearTracker s))) :
    let read := called q (clearTracker s)
    let s' := if writesBack then writeReg rn (indexedBase u rn offset s) read else read
    exec i s = .next (if rd = 15 then loadWritePC v s' else advance (writeReg rd v s')) := by
  rw [exec_executes hx, hb, finishLoadWord, applyWriteBack_addressing hwb, ← apply_ite Host.Outcome.next]

theorem exec_store_done (hb : execBody i (clearTracker s) =
      finishStore (store q (clearTracker s)) (addressing p u wb rn offset s).writeBack) (hq : StoreAllowed q s) :
    let after := stored q (clearTracker s)
    exec i s = .next (advance (if writesBack then writeReg rn (indexedBase u rn offset s) after else after)) := by
  rw [exec_executes hx, hb, store_allowed (s := clearTracker s) hq, finishStore, applyWriteBack_addressing hwb]

end

theorem exec_swap_done {r : MemRequest} (hx : Executes i s)
    (hb : execBody i (clearTracker s) = finishSwap (some v) q rd (called r (clearTracker s)))
    (hq : StoreAllowed q (called r s)) :
    exec i s = .next (advance (writeReg rd v (stored q (called r (clearTracker s))))) := by
  rw [exec_executes hx, hb, finishSwap, store_allowed (s := called r (clearTracker s)) hq]

end

/-- Settles O35: each form is the word load with its address and write-back; LDRT is the post-indexed LDR (R262). -/
theorem loadWordResults : Obligations.LoadWordResults := by
  intro c u w rn rd off s base indexed request after
  exact ⟨fun hx ha => exec_loadWord_answered hx Iff.rfl (ldrBody_answered ha),
    fun hx ha => exec_loadWord_answered hx Iff.rfl (ldrBody_answered ha),
    fun hx ha => exec_loadWord_answered hx Iff.rfl (ldrBody_answered ha)⟩

/-- Settles O36: each form's body is one store and its write-back; STRT is the post-indexed STR (R262). -/
theorem storeWordResults : Obligations.StoreWordResults := by
  intro c u w rn rd off s base indexed v request after
  exact ⟨fun hx hq => exec_store_done hx Iff.rfl rfl hq, fun hx hq => exec_store_done hx Iff.rfl rfl hq,
    fun hx hq => exec_store_done hx Iff.rfl rfl hq⟩

/-- Settles O37: as the word forms, with the byte zero-extended, and no case of r15. -/
theorem byteTransferResults : Obligations.ByteTransferResults := by
  intro c u w rn rd off s base indexed loaded request after
  exact ⟨fun hx ha => exec_load_answered hx Iff.rfl (ldrbBody_answered ha),
    fun hx ha => exec_load_answered hx Iff.rfl (ldrbBody_answered ha),
    fun hx ha => exec_load_answered hx Iff.rfl (ldrbBody_answered ha),
    fun hx hq => exec_store_done hx Iff.rfl rfl hq, fun hx hq => exec_store_done hx Iff.rfl rfl hq,
    fun hx hq => exec_store_done hx Iff.rfl rfl hq⟩

/-- Settles O38: the base is written back where P = 0 or W = 1. -/
theorem halfwordTransferResults : Obligations.HalfwordTransferResults := by
  intro c p u w rn rd off s base indexed a half wrote loaded request
  have hwb : (!p || w) = true ↔ p = false ∨ w = true := by simp
  exact ⟨fun hx ha => exec_load_answered hx hwb (loadHalfBody_answered ha),
    fun hx ha => exec_load_answered hx hwb (loadHalfBody_answered ha),
    fun hx ha => exec_load_answered hx hwb (ldrsbBody_answered ha),
    fun hx hq => exec_store_done hx hwb rfl hq⟩

/-- Settles O39: the write is made in the state after the read, and Rd is committed after the write. -/
theorem swapResults : Obligations.SwapResults := by
  intro c z rn rd rm s a p wordIn wordOut byteIn byteOut
  exact ⟨fun hx ha hq => exec_swap_done hx (swpBody_answered ha) hq,
    fun hx ha hq => exec_swap_done hx (swpbBody_answered ha) hq⟩

/-! #### Accesses that are aborted (R278, R417, R418) -/

section
variable {p u wb w : Bool} {rn rd rm : RegNum} {off : Offset} {hoff : HalfOffset} {q : MemRequest} {v : Word}
  {s : State}

theorem ldrBody_aborts
    (ha : memAborts (.readWord (alignWord (transferAddress p u rn (singleOffset off s) s))) s = true) :
    let ad := addressing p u wb rn (singleOffset off s) s
    ldrBody p u wb rn rd off s = .next (dataAbort ad.writeBack (called (.readWord (alignWord ad.addr)) s)) := by
  simp only [ldrBody, addressing, loadWord_aborts ha, Option.map_none, finishLoadWord]

theorem ldrbBody_aborts (ha : memAborts (.readByte (transferAddress p u rn (singleOffset off s) s)) s = true) :
    let ad := addressing p u wb rn (singleOffset off s) s
    ldrbBody p u wb rn rd off s = .next (dataAbort ad.writeBack (called (.readByte ad.addr) s)) := by
  simp only [ldrbBody, addressing, loadByte_aborts ha, Option.map_none, finishLoad]

theorem loadHalfBody_aborts {ext : BitVec 16 → Word}
    (ha : memAborts (.readHalf (alignHalf (transferAddress p u rn (halfOffset hoff s) s))) s = true) :
    let ad := addressing p u (!p || w) rn (halfOffset hoff s) s
    loadHalfBody ext p u w rn rd hoff s =
      .next (dataAbort ad.writeBack (called (.readHalf (alignHalf ad.addr)) s)) := by
  simp only [loadHalfBody, addressing, loadHalf_aborts ha, Option.map_none, finishLoad]

theorem ldrsbBody_aborts (ha : memAborts (.readByte (transferAddress p u rn (halfOffset hoff s) s)) s = true) :
    let ad := addressing p u (!p || w) rn (halfOffset hoff s) s
    ldrsbBody p u w rn rd hoff s = .next (dataAbort ad.writeBack (called (.readByte ad.addr) s)) := by
  simp only [ldrsbBody, addressing, loadByte_aborts ha, Option.map_none, finishLoad]

theorem finishStore_aborts {writeBack : Option (RegNum × Word)} (hn : NoHazard q s) (ha : memAborts q s = true) :
    finishStore (store q s) writeBack = .next (dataAbort writeBack (called q s)) := by
  rw [store_aborts hn ha, finishStore]

theorem swpBody_read_aborts (ha : memAborts (.readWord (alignWord (readReg rn s))) s = true) :
    swpBody rn rd rm s = .next (dataAbort none (called (.readWord (alignWord (readReg rn s))) s)) := by
  simp only [swpBody, loadWord_aborts ha, Option.map_none, finishSwap]

theorem swpbBody_read_aborts (ha : memAborts (.readByte (readReg rn s)) s = true) :
    swpbBody rn rd rm s = .next (dataAbort none (called (.readByte (readReg rn s)) s)) := by
  simp only [swpbBody, loadByte_aborts ha, Option.map_none, finishSwap]

theorem finishSwap_write_aborts (hn : NoHazard q s) (ha : memAborts q s = true) :
    finishSwap (some v) q rd s = .next (dataAbort none (called q s)) := by
  simp only [finishSwap, store_aborts hn ha]

/-- A transfer that ends in the data abort, after requests that left the collaborator b: what the entry of R417 and
the draw of R418 leave. -/
theorem exec_dataAbort {i : Instr} {b : Bus} {final : Word} (hx : Executes i s)
    (hb : execBody i (clearTracker s) =
      .next (dataAbort (if wb then some (rn, final) else none) { clearTracker s with bus := b })) :
    ∃ t : State, exec i s = .next t ∧ Entered .dataAbort s.pc s.cpsr t ∧ t.memory = s.memory ∧ t.bus = b ∧
      t.abortMap = s.abortMap ∧ t.coproc = s.coproc ∧ t.inputs = s.inputs ∧ t.policy = s.policy ∧
      (∀ k : Bank, k ≠ .abt → t.spsrs.get k = s.spsrs.get k) ∧
      (∀ q : PhysReg, q ≠ .r14 .abt →
        t.regs.read q = s.regs.read q ∨
          (wb = true ∧ bankReg (currentBank s.cpsr) rn = some q ∧ t.regs.read q = final)) := by
  let writeBack := if wb then some (rn, final) else none
  let u : State := { clearTracker s with bus := b }
  have hentered : Entered .dataAbort s.pc s.cpsr (dataAbort writeBack u) := dataAbort_entered writeBack u
  obtain ⟨hmemory, habortMap, hbus, hcoproc, hinputs, hpolicy, -, -, hspsrs⟩ := dataAbort_keeps writeBack u
  refine ⟨_, (exec_executes hx).trans hb, hentered, hmemory, hbus, habortMap, hcoproc, hinputs, hpolicy, hspsrs,
    fun q hq => ?_⟩
  obtain hold | ⟨rn', v, hwb, hbank, hv⟩ := dataAbort_regs writeBack u q hq
  · exact .inl hold
  · obtain ⟨rfl, rfl, rfl⟩ : wb = true ∧ rn' = rn ∧ v = final := by simpa [writeBack, eq_comm] using hwb
    exact .inr ⟨rfl, hbank, hv⟩

end

/-- Settles O41: every aborted access ends the body in the data abort, with the write-back of the form still to be
drawn; a swap has none. -/
theorem singleTransferAborts : Obligations.SingleTransferAborts := by
  intro c p u w rn rd rm off hoff z s base indexed indexedH aH stored32 aborted readAborts writeAborts swapAborts
  have hread {i : Instr} {q : MemRequest} {wb : Bool} {final : Word} (hb : memAborts q s = true →
      execBody i (clearTracker s) =
        .next (dataAbort (if wb then some (rn, final) else none) (called q (clearTracker s)))) :
      readAborts i q wb final := fun hx ha => exec_dataAbort hx (hb ha)
  have hwrite {i : Instr} {q : MemRequest} {wb : Bool} {final : Word} (hb : execBody i (clearTracker s) =
      finishStore (store q (clearTracker s)) (if wb then some (rn, final) else none)) : writeAborts i q wb final :=
    fun hx hn ha => exec_dataAbort hx (hb.trans (finishStore_aborts (s := clearTracker s) hn ha))
  have hswap {i : Instr} {r q : MemRequest} {v : Word} (hb : memAborts r s = false →
      execBody i (clearTracker s) = finishSwap (some v) q rd (called r (clearTracker s))) : swapAborts i r q :=
    fun hx har hn haq => exec_dataAbort (wb := false) hx
      ((hb har).trans (finishSwap_write_aborts (s := called r (clearTracker s)) hn haq))
  exact ⟨hread fun ha => ldrBody_aborts ha, hread fun ha => ldrBody_aborts ha, hread fun ha => ldrBody_aborts ha,
    hread fun ha => ldrbBody_aborts ha, hread fun ha => ldrbBody_aborts ha, hread fun ha => ldrbBody_aborts ha,
    hwrite rfl, hwrite rfl, hwrite rfl, hwrite rfl, hwrite rfl, hwrite rfl,
    hread fun ha => loadHalfBody_aborts ha, hread fun ha => loadHalfBody_aborts ha,
    hread fun ha => ldrsbBody_aborts ha, hwrite rfl,
    hread fun ha => swpBody_read_aborts ha, hread fun ha => swpbBody_read_aborts ha,
    hswap fun ha => swpBody_answered ha, hswap fun ha => swpbBody_answered ha⟩

end Sys2Proof.Machine

/-! ### The block transfers that are refused (R306, R307, R310, R312) -/

namespace Sys2Proof

theorem blockRule_load (sb w : Bool) (rn : RegNum) (list : BitVec 16) : blockRule true sb w rn list =
    if (rn = 15 ∨ list = 0#16) ∨ (sb = true ∧ w = true ∧ ¬ inList list 15 = true) then some .r312
    else if w = true ∧ inList list rn = true then some .r307 else none := by
  simp [blockRule, ite_or, and_assoc]

theorem blockRule_store (sb w : Bool) (rn : RegNum) (list : BitVec 16) : blockRule false sb w rn list =
    if (rn = 15 ∨ list = 0#16) ∨ (sb = true ∧ w = true) then some .r312
    else if w = true ∧ inList list rn = true ∧ ∃ q : RegNum, q < rn ∧ inList list q = true then some .r306
    else none := by
  simp [blockRule, ite_or, and_assoc, listedBelow_iff]

end Sys2Proof

namespace Sys2Proof.Machine

section
variable {load sb : Bool} {list : BitVec 16} {s : State} {saved : Psr}

theorem blockStateRule_none (h : currentSpsr s = none) : blockStateRule load true list s = some .r312 := by
  simp [blockStateRule, h]

theorem blockStateRule_some (h : currentSpsr s = some saved) : blockStateRule load true list s =
    if load = true ∧ inList list 15 = true ∧ legalMode saved.m = false then some .r32 else none := by
  cases hm : legalMode saved.m <;> simp [blockStateRule, restoreRule, h, hm]

end

section
variable {i : Instr} {r : UnpRule} {s : State}

theorem exec_refused_static (h : i.staticRule = some r) : exec i s = .refused (.unpredictable r) :=
  exec_refused (wfRefusal_static h s)

theorem exec_refused_state (h : i.staticRule = none) (hr : stateRefusal i s = some (.unpredictable r)) :
    exec i s = .refused (.unpredictable r) :=
  exec_refused ((wfRefusal_state h s).trans hr)

end

/-- Settles O47: the static rules in their order, then for S = 1 the SPSR and, for an LDM with r15, the mode in it. -/
theorem blockTransferRefusals : Obligations.BlockTransferRefusals := by
  intro c p u sb w rn list s noSpsr pc common notLowest ldm stm refuses ldm312 stm312 stm306 ldm307 badRestore
  have hldm : ldm.staticRule = if ldm312 then some .r312 else if ldm307 then some .r307 else none := blockRule_load ..
  have hstm : stm.staticRule = if stm312 then some .r312 else if stm306 then some .r306 else none := blockRule_store ..
  have hldm_none (h : ¬ ldm312) (h' : ¬ ldm307) : ldm.staticRule = none := by rw [hldm, if_neg h, if_neg h']
  have hstm_none (h : ¬ stm312) (h' : ¬ stm306) : stm.staticRule = none := by rw [hstm, if_neg h, if_neg h']
  have hstate_none (load : Bool) (hs : sb = true) (hn : noSpsr) : blockStateRule load sb list s = some .r312 :=
    hs ▸ blockStateRule_none hn
  have hstate_restore : badRestore → blockStateRule true sb list s = some .r32 := by
    rintro ⟨hs, hpc, saved, hsaved, hm⟩
    rw [hs, blockStateRule_some hsaved, if_pos ⟨rfl, hpc, hm⟩]
  have hstate_pass (load : Bool) (hn : ¬ (sb = true ∧ noSpsr)) (hb : load = true → ¬ badRestore) :
      blockStateRule load sb list s = none := by
    cases hsb : sb with
    | false => rfl
    | true =>
      obtain ⟨saved, hsaved⟩ := Option.ne_none_iff_exists'.1 fun h => hn ⟨hsb, h⟩
      rw [blockStateRule_some hsaved, if_neg fun ⟨hl, hpc, hm⟩ => hb hl ⟨hsb, hpc, saved, hsaved, hm⟩]
  refine ⟨fun h => exec_refused_static (by rw [hldm, if_pos h]),
    fun h h' => exec_refused_static (by rw [hldm, if_neg h, if_pos h']),
    fun h h' hs hn => exec_refused_state (hldm_none h h') (congrArg (Option.map _) (hstate_none true hs hn)),
    fun h h' hb => exec_refused_state (hldm_none h h') (congrArg (Option.map _) (hstate_restore hb)),
    fun h h' hn hb => wfRefusal_eq_none.2
      ⟨hldm_none h h', congrArg (Option.map _) (hstate_pass true hn fun _ => hb)⟩,
    fun h => exec_refused_static (by rw [hstm, if_pos h]),
    fun h h' => exec_refused_static (by rw [hstm, if_neg h, if_pos h']),
    fun h h' hs hn => exec_refused_state (hstm_none h h') (congrArg (Option.map _) (hstate_none false hs hn)),
    fun h h' hn => wfRefusal_eq_none.2 ⟨hstm_none h h', congrArg (Option.map _) (hstate_pass false hn nofun)⟩⟩

end Sys2Proof.Machine

/-! ### What the block transfers load, store and write back (R300 to R311) -/

namespace Sys2Proof.Machine

/-! #### From the accesses of a block transfer to its next state -/

section
variable {changed : List (Option PhysReg)} {m : Memory} {b : Bus} {s u : State}

theorem Transferred.setTracker (h : Transferred changed m b s u) (tracker : Bool) :
    Transferred changed m b s { u with lastUserBankTransfer := tracker } :=
  ⟨h.memory, h.environment.trans (.update u ..), h.spsrs, h.cpsr, h.regs⟩

theorem Transferred.setMemory (h : Transferred changed m b s u) (m' : Memory) :
    Transferred changed m' b s { u with memory := m' } :=
  ⟨rfl, h.environment.trans ⟨rfl, rfl, rfl, rfl, rfl, rfl, rfl, rfl⟩, h.spsrs, h.cpsr, h.regs⟩

/-- One request more. -/
theorem Transferred.call (h : Transferred changed m b s u) (q : MemRequest) :
    Transferred changed m (b.after q) s (Machine.called q u) where
  memory := h.memory
  environment := { h.environment with bus := congrArg (Bus.after · q) h.environment.bus }
  spsrs := h.spsrs
  cpsr := h.cpsr
  regs := h.regs

theorem Transferred.calledAll (qs : List MemRequest) (s : State) :
    Transferred [] s.memory (callAll qs s).bus s (clearTracker (callAll qs s)) := by
  rw [callAll_eq]
  exact .accesses _ _ s

theorem Transferred.storedAll (qs : List MemRequest) (s : State) :
    Transferred [] (storedAll qs (clearTracker s)).memory (callAll qs s).bus s (storedAll qs (clearTracker s)) := by
  rw [storedAll_eq, callAll_clearTracker]
  exact .accesses _ _ s

theorem Transferred.commitLoaded (h : Transferred [] m b s u) (k : Bank) (loaded : List (RegNum × Word)) :
    Transferred (loaded.map fun x => bankReg k x.1) m b s (commitLoaded k loaded u) where
  memory := by simpa using h.memory
  environment := h.environment.trans (by constructor <;> simp)
  spsrs := by simpa using h.spsrs
  cpsr := by simpa using h.cpsr
  regs q hq := by
    rw [commitLoaded_other k q loaded u fun x hx hb => hq (List.mem_map.2 ⟨x, hx, hb⟩), h.regs q List.not_mem_nil]

theorem Transferred.blockWriteBack (h : Transferred changed m b s u) (up w : Bool) (rn : RegNum) (list : BitVec 16)
    (s' : State) : Transferred ((if w then [bankReg (currentBank s.cpsr) rn] else []) ++ changed) m b s
      (applyWriteBack (blockWriteBack up w rn list s') u) := by
  cases w with
  | false => exact h
  | true => exact h.writeReg rn _

/-- The environment of a transfer, as that of the state after its requests. -/
theorem Transferred.environment_callAll {qs : List MemRequest} (h : Transferred changed m (callAll qs s).bus s u) :
    SameEnvironment (callAll qs s) u := by
  rw [callAll_eq]
  exact h.environment

end

theorem readRegIn_of_regs_eq {k : Bank} {n : RegNum} (hn : n ≠ 15) {s t : State} (h : t.regs = s.regs) :
    readRegIn k n t = readRegIn k n s := by
  obtain ⟨q, hq⟩ := bankReg_isSome k n hn
  simp only [readRegIn, hq, h]

theorem readReg_advance {n : RegNum} (hn : n ≠ 15) (s : State) : readReg n (advance s) = readReg n s :=
  readRegIn_of_regs_eq hn rfl

/-- The base a block transfer writes back holds the final base (R302). -/
theorem readReg_blockWriteBack {up w : Bool} {rn : RegNum} (hrn : rn ≠ 15) (hw : w = true) (list : BitVec 16)
    (s u : State) : readReg rn (applyWriteBack (blockWriteBack up w rn list s) u) = blockFinal up rn list s := by
  subst hw
  exact readReg_writeReg_same rn hrn _ _

/-! #### LDM -/

section
variable (p u sb w : Bool) (rn : RegNum) (list : BitVec 16) (s : State)

/-- The read an LDM makes for a listed register (R301). -/
def slotRead (r : RegNum) : MemRequest := .readWord (blockSlot p u rn list r s)

/-- The state in which an LDM makes that read. -/
def beforeSlotRead (r : RegNum) : State := beforeSlot (slotRead p u rn list s) list r s

/-- The word that read returns, if it is not aborted. -/
def slotWord (r : RegNum) : Word := wordAt (blockSlot p u rn list r s) (beforeSlotRead p u rn list s r)

/-- The collaborator does not abort the read for a listed register. -/
def SlotAnswered (r : RegNum) : Prop := memAborts (slotRead p u rn list s r) (beforeSlotRead p u rn list s r) = false

/-- What an LDM leaves whose reads are all answered, but for the PC, the CPSR and the hazard tracker (R302, R304). -/
def ldmCommitted : State :=
  applyWriteBack (blockWriteBack u w rn list s)
    (commitLoaded (blockBank true sb list s) ((regList list).map fun r => (r, slotWord p u rn list s r))
      (callAll ((regList list).map (slotRead p u rn list s)) (clearTracker s)))

theorem ldmCommitted_pc : (ldmCommitted p u sb w rn list s).pc = s.pc := by simp [ldmCommitted]

theorem ldmCommitted_lastUserBankTransfer :
    (ldmCommitted p u sb w rn list s).lastUserBankTransfer = false := by simp [ldmCommitted]

/-- The registers an LDM may change (R302, R304, R310, R311). -/
def ldmChanged : List (Option PhysReg) :=
  (if w then [bankReg (currentBank s.cpsr) rn] else []) ++ (regList list).map (bankReg (blockBank true sb list s))

theorem ldmCommitted_transferred :
    Transferred (ldmChanged sb w rn list s) s.memory
      (callAll ((regList list).map (slotRead p u rn list s)) s).bus s (ldmCommitted p u sb w rn list s) := by
  have hreads := Transferred.calledAll ((regList list).map (slotRead p u rn list s)) s
  rw [← callAll_clearTracker] at hreads
  have hloaded := hreads.commitLoaded (blockBank true sb list s)
    ((regList list).map fun r => (r, slotWord p u rn list s r))
  rw [List.map_map] at hloaded
  exact hloaded.blockWriteBack ..

end

section
variable {c : Cond} {p u sb w : Bool} {rn : RegNum} {list : BitVec 16} {s : State}

theorem blockBank_load_current (h : sb = true → inList list 15 = true) :
    blockBank true sb list s = currentBank s.cpsr := by
  cases hsb : sb with
  | false => rfl
  | true => simp [blockBank, h hsb]

theorem blockBank_load_user (h : inList list 15 = false) : blockBank true true list s = .usr := by
  simp [blockBank, h]

theorem ldmChanged_current (h : sb = true → inList list 15 = true) : ldmChanged sb w rn list s =
    ((if w then [rn] else []) ++ regList list).map (bankReg (currentBank s.cpsr)) := by
  rw [ldmChanged, blockBank_load_current h]
  cases w <;> rfl

theorem ldmChanged_user (h : inList list 15 = false) :
    ldmChanged true false rn list s = (regList list).map (bankReg .usr) := by
  rw [ldmChanged, blockBank_load_user h]
  rfl

/-- R312: an LDM of the User bank writes no base back. -/
theorem ldm_user_bank (h : wfRefusal (.ldm c p u sb w rn list) s = none) (hw : w = true) (hsb : sb = true) :
    inList list 15 = true := by
  have hstatic : blockRule true sb w rn list = none := (wfRefusal_eq_none.1 h).1
  rw [blockRule_load] at hstatic
  by_contra h15
  simp [hw, hsb, h15] at hstatic

/-- A listed register holds its word, whatever becomes of the PC, the CPSR and the hazard tracker. -/
theorem ldmCommitted_loaded (h : wfRefusal (.ldm c p u sb w rn list) s = none) {t : State}
    (ht : t.regs = (ldmCommitted p u sb w rn list s).regs) {r : RegNum} (hr : inList list r = true) (h15 : r ≠ 15) :
    readRegIn (blockBank true sb list s) r t = slotWord p u rn list s r := by
  have hload := commitLoaded_listed (blockBank true sb list s) (slotWord p u rn list s)
    (callAll ((regList list).map (slotRead p u rn list s)) (clearTracker s)) hr h15
  rw [readRegIn_of_regs_eq h15 ht, ← hload]
  cases hw : w with
  | false => rfl
  | true =>
    have hne : r ≠ rn := fun e => by simpa [← e, hr] using (ldm_base h hw).2
    have hbank := blockBank_load_current (s := s) (ldm_user_bank h hw)
    simpa [ldmCommitted, blockWriteBack, applyWriteBack, writeReg, hbank] using readRegIn_writeRegIn_ne _ hne _ _

/-- The base holds the final base, likewise. -/
theorem ldmCommitted_base (h : wfRefusal (.ldm c p u sb w rn list) s = none) {t : State}
    (ht : t.regs = (ldmCommitted p u sb w rn list s).regs) (hw : w = true) :
    readRegIn (currentBank s.cpsr) rn t = blockFinal u rn list s := by
  have hrn := (ldm_base h hw).1
  have hbase : readReg rn (ldmCommitted p u sb w rn list s) = blockFinal u rn list s :=
    readReg_blockWriteBack hrn hw list s _
  rwa [readReg, (ldmCommitted_transferred ..).cpsr, ← readRegIn_of_regs_eq hrn ht] at hbase

theorem exec_ldm_answered (hx : Executes (.ldm c p u sb w rn list) s)
    (ha : ∀ r : RegNum, inList list r = true → SlotAnswered p u rn list s r) :
    exec (.ldm c p u sb w rn list) s =
      if inList list 15 then
        if sb then exceptionReturn (slotWord p u rn list s 15) (ldmCommitted p u sb w rn list s)
        else .next (loadWritePC (slotWord p u rn list s 15) (ldmCommitted p u sb w rn list s))
      else .next (advance { ldmCommitted p u sb w rn list s with lastUserBankTransfer := sb }) := by
  rw [exec_executes hx, execBody, ldmBody_loaded]
  · simp only [blockSlot_clearTracker, beforeSlot_clearTracker, wordAt_clearTracker]
    rfl
  · simp only [blockSlot_clearTracker, beforeSlot_clearTracker, memAborts_clearTracker]
    exact ha

/-- An LDM that is no return from an exception: the PC takes the word of r15 where it is listed. -/
theorem exec_ldm_loads (hx : Executes (.ldm c p u sb w rn list) s)
    (ha : ∀ r : RegNum, inList list r = true → SlotAnswered p u rn list s r)
    (hret : ¬ (sb = true ∧ inList list 15 = true)) :
    ∃ t : State, exec (.ldm c p u sb w rn list) s = .next t ∧ t.regs = (ldmCommitted p u sb w rn list s).regs ∧
      Transferred (ldmChanged sb w rn list s) s.memory
        (callAll ((regList list).map (slotRead p u rn list s)) s).bus s t ∧
      t.pc = (if inList list 15 then slotWord p u rn list s 15 &&& 0xFFFFFFFC#32 else s.pc + 4#32) ∧
      t.lastUserBankTransfer = sb := by
  have hexec := exec_ldm_answered hx ha
  have ht := ldmCommitted_transferred p u sb w rn list s
  by_cases h15 : inList list 15 = true
  · have hsb : sb = false := by simpa [h15] using hret
    rw [if_pos h15, hsb, if_neg Bool.false_ne_true] at hexec
    subst hsb
    exact ⟨_, hexec, rfl, ht.setPc _, (if_pos h15).symm, ldmCommitted_lastUserBankTransfer ..⟩
  · rw [if_neg h15] at hexec
    exact ⟨_, hexec, rfl, (ht.setTracker sb).setPc _,
      (congrArg (· + 4#32) (ldmCommitted_pc ..)).trans (if_neg h15).symm, rfl⟩

end

/-- Settles O43: the listed registers and the base are those of the current mode, and the PC takes the word of r15 or
advances. -/
theorem blockLoadResults : Obligations.BlockLoadResults := by
  intro c p u w rn list s request before word hx ha
  obtain ⟨t, hexec, hregs, ht, hpc, htracker⟩ := exec_ldm_loads hx ha (by simp)
  refine ⟨t, hexec, fun r hr h15 => ?_, fun hw => ?_, ldmChanged_current (sb := false) nofun ▸ ht.regs, hpc, ht.cpsr,
    ht.spsrs, ht.memory, ht.environment_callAll, htracker⟩
  · rw [readReg, ht.cpsr]
    exact ldmCommitted_loaded hx.wellFormed hregs hr h15
  · rw [readReg, ht.cpsr]
    exact ldmCommitted_base hx.wellFormed hregs hw

/-- Settles O45: with r15 not listed the bank is the User bank, and R312 leaves no write-back. -/
theorem userBankLoadResults : Obligations.UserBankLoadResults := by
  intro c p u w rn list s h15 request before hx ha
  obtain ⟨t, hexec, hregs, ht, hpc, htracker⟩ := exec_ldm_loads hx ha (by simp [h15])
  have hw : w = false := Bool.eq_false_iff.2 fun hw => by simp [ldm_user_bank hx.wellFormed hw rfl] at h15
  subst hw
  refine ⟨t, hexec, fun r hr => ?_, ldmChanged_user h15 ▸ ht.regs, by simpa [h15] using hpc, ht.cpsr, ht.spsrs,
    ht.memory, ht.environment_callAll, htracker⟩
  have hne : r ≠ 15 := fun e => by simp [← e, hr] at h15
  rw [← blockBank_load_user h15 (s := s)]
  exact ldmCommitted_loaded hx.wellFormed hregs hr hne

/-- Settles O46: the registers and the base are committed in the bank of the start, and then the CPSR is restored from
the SPSR that the check of R312 found. -/
theorem blockLoadExceptionReturn : Obligations.BlockLoadExceptionReturn := by
  intro c p u w rn list s h15 request before word bank hx ha
  have ht := ldmCommitted_transferred p u true w rn list s
  have hbank : blockBank true true list s = bank := blockBank_load_current fun _ => h15
  have hstate : blockStateRule true true list s = none := Option.map_eq_none_iff.1 (wfRefusal_eq_none.1 hx.wellFormed).2
  obtain ⟨saved, hsaved⟩ : ∃ saved, currentSpsr s = some saved :=
    Option.ne_none_iff_exists'.1 fun hn => by simp [blockStateRule_none hn] at hstate
  have hspsr : currentSpsr (ldmCommitted p u true w rn list s) = some saved := by
    rw [currentSpsr, ht.spsrs, ht.cpsr]
    exact hsaved
  have hexec := exec_ldm_answered hx ha
  rw [if_pos h15, if_pos rfl, exceptionReturn_of_saved hspsr] at hexec
  refine ⟨saved, _, hsaved, hexec, fun r hr hne => ?_, ldmCommitted_base hx.wellFormed rfl,
    ldmChanged_current (fun _ => h15) ▸ ht.regs, rfl, rfl, ht.spsrs, ht.memory,
    ht.environment_callAll.trans (.update _ ..), ldmCommitted_lastUserBankTransfer ..⟩
  rw [← hbank]
  exact ldmCommitted_loaded hx.wellFormed (by rfl) hr hne

/-! #### STM -/

/-- What the writes leave in the byte array does not depend on the hazard tracker. -/
theorem WordsStored.of_clearTracker {ι : Type} {made : ι → Prop} {slot value : ι → Word} {before : ι → State}
    {m m' : Memory} (h : WordsStored made slot value (fun i => clearTracker (before i)) m m') :
    WordsStored made slot value before m m' :=
  ⟨h.words, h.others⟩

section
variable (p u sb : Bool) (rn : RegNum) (list : BitVec 16) (s : State)

/-- The value an STM stores for a listed register: the one at the start, of the User bank with S = 1 (R303, R311). -/
def slotValue (r : RegNum) : Word :=
  if r = 15 then s.pc + 12#32 else readRegIn (if sb then .usr else currentBank s.cpsr) r s

/-- The write an STM makes for a listed register (R301). -/
def slotWrite (r : RegNum) : MemRequest := .writeWord (blockSlot p u rn list r s) (slotValue sb s r)

/-- The state in which an STM makes that write, but for the bytes written before it. -/
def beforeSlotWrite (r : RegNum) : State := beforeSlot (slotWrite p u sb rn list s) list r s

end

section
variable {c : Cond} {p u sb w : Bool} {rn : RegNum} {list : BitVec 16} {s : State}

/-- R312: the base of a block store is below r15. -/
theorem stm_base (h : wfRefusal (.stm c p u sb w rn list) s = none) : rn ≠ 15 := by
  have hstatic : blockRule false sb w rn list = none := (wfRefusal_eq_none.1 h).1
  rw [blockRule_store] at hstatic
  rintro rfl
  simp at hstatic

theorem blockBank_store : blockBank false sb list s = if sb then .usr else currentBank s.cpsr := by
  cases sb <;> rfl

theorem stmBody_eq : stmBody p u sb w rn list (clearTracker s) =
    finishStore (storeAll ((regList list).map (slotWrite p u sb rn list s)) (clearTracker s))
      (blockWriteBack u w rn list s) := by
  rw [stmBody, blockBank_store]
  rfl

/-- An STM every write of which is allowed. -/
theorem exec_stm_done (hx : Executes (.stm c p u sb w rn list) s)
    (ha : ∀ r : RegNum, inList list r = true →
      StoreAllowed (slotWrite p u sb rn list s r) (beforeSlotWrite p u sb rn list s r)) :
    let after := storedAll ((regList list).map (slotWrite p u sb rn list s)) (clearTracker s)
    exec (.stm c p u sb w rn list) s = .next (advance (applyWriteBack (blockWriteBack u w rn list s) after)) ∧
      WordsStored (fun r => inList list r = true) (fun r => blockSlot p u rn list r s) (slotValue sb s)
        (beforeSlotWrite p u sb rn list s) s.memory after.memory := by
  obtain ⟨hdone, hwords⟩ := storeAll_prefix (p := p) (u := u) (rn := rn) (s := clearTracker s) (slotValue sb s)
    (List.append_nil (regList list)).symm fun r hr => by
      rw [beforeSlot_clearTracker]
      exact ha r ((mem_regList list r).1 hr)
  simp only [beforeSlot_clearTracker] at hwords
  refine ⟨?_, hwords.of_clearTracker.congr (mem_regList list)⟩
  rw [exec_executes hx, execBody, stmBody_eq]
  exact congrArg (finishStore · _) hdone

end

/-- Settles O44: the writes leave their words, and then the base is written back. -/
theorem blockStoreResults : Obligations.BlockStoreResults := by
  intro c p u sb w rn list s bank slot value request before hx ha
  obtain ⟨hexec, hwords⟩ := exec_stm_done hx ha
  have ht := (Transferred.storedAll ((regList list).map request) s).blockWriteBack u w rn list s
  rw [List.append_nil] at ht
  refine ⟨_, hexec, ?_, fun hw => ?_, ht.regs, ?_, ht.cpsr, ht.spsrs, (ht.setPc _).environment_callAll, ?_⟩
  · rwa [advance_memory, applyWriteBack_memory]
  · have hrn := stm_base hx.wellFormed
    rw [readReg_advance hrn, readReg_blockWriteBack hrn hw]
  · rw [advance_pc, applyWriteBack_pc, storedAll_eq, clearTracker_pc]
  · rw [advance_lastUserBankTransfer, applyWriteBack_lastUserBankTransfer, storedAll_eq,
      clearTracker_lastUserBankTransfer]

end Sys2Proof.Machine

/-! ### The block transfers that are aborted (R313, R417, R418) -/

namespace Sys2Proof.Machine

theorem storeAll_aborts {q : MemRequest} {s : State} (hn : NoHazard q s) (ha : memAborts q s = true)
    (rest : List MemRequest) : storeAll (q :: rest) s = .abort (called q s) := by
  simp only [storeAll, store_aborts hn ha]

/-- A block transfer that ends in the data abort after accesses, and loads, that left u. -/
theorem blockAbort_entered {i : Instr} {changed : List (Option PhysReg)} {m : Memory} {b : Bus} {up w : Bool}
    {rn : RegNum} {list : BitVec 16} {s u : State}
    (hexec : exec i s = .next (dataAbort (blockWriteBack up w rn list s) u)) (hu : Transferred changed m b s u)
    (hpc : u.pc = s.pc) :
    ∃ t : State, exec i s = .next t ∧ Entered .dataAbort s.pc s.cpsr t ∧ t.memory = m ∧ t.bus = b ∧
      t.coproc = s.coproc ∧ (∀ k : Bank, k ≠ .abt → t.spsrs.get k = s.spsrs.get k) ∧
      ∀ q : PhysReg, q ≠ .r14 .abt → t.regs.read q = u.regs.read q ∨
        (w = true ∧ bankReg (currentBank s.cpsr) rn = some q ∧ t.regs.read q = blockFinal up rn list s) := by
  have hentered := dataAbort_entered (blockWriteBack up w rn list s) u
  rw [hpc, hu.cpsr] at hentered
  obtain ⟨hmemory, -, hbus, hcoproc, -, -, -, -, hspsrs⟩ := dataAbort_keeps (blockWriteBack up w rn list s) u
  refine ⟨_, hexec, hentered, hmemory.trans hu.memory, hbus.trans hu.environment.bus,
    hcoproc.trans hu.environment.coproc, fun k hk => (hspsrs k hk).trans (by rw [hu.spsrs]), fun q hq => ?_⟩
  obtain hold | ⟨rn', v, hwb, hbank, hv⟩ := dataAbort_regs (blockWriteBack up w rn list s) u q hq
  · exact .inl hold
  · obtain ⟨rfl, rfl, rfl⟩ : w = true ∧ rn' = rn ∧ v = blockFinal up rn list s := by
      simpa [blockWriteBack, eq_comm] using hwb
    exact .inr ⟨rfl, hu.cpsr ▸ hbank, hv⟩

section
variable {c : Cond} {p u sb w : Bool} {rn : RegNum} {list : BitVec 16} {r : RegNum} {s : State}

/-- An LDM stopped at the read for register r: some of the registers below it keep what was loaded into them. -/
theorem exec_ldm_stopped (hx : Executes (.ldm c p u sb w rn list) s) (hr : inList list r = true)
    (hbelow : ∀ q : RegNum, inList list q = true → q < r → SlotAnswered p u rn list s q)
    (ha : ¬ SlotAnswered p u rn list s r) :
    ∃ kept : List (RegNum × Word),
      (∀ x ∈ kept, inList list x.1 = true ∧ x.1 < r ∧ x.1 ≠ 15 ∧ x.2 = slotWord p u rn list s x.1) ∧
      exec (.ldm c p u sb w rn list) s = .next (dataAbort (blockWriteBack u w rn list s)
        (commitLoaded (blockBank true sb list s) kept
          (called (slotRead p u rn list s r) (clearTracker (beforeSlotRead p u rn list s r))))) := by
  obtain ⟨pre, post, e⟩ := List.append_of_mem ((mem_regList list r).2 hr)
  have hread := blockLoad_stopped (fun q => blockSlot p u rn list q s)
    (fun q => clearTracker (beforeSlotRead p u rn list s q)) r post pre (clearTracker s)
    (fun pre' q rest e' => by
      rw [beforeSlotRead, beforeSlot_split _ _ _ _ _ _ (e.trans e'), ← callAll_clearTracker]
      simp only [alignWord_blockSlot]
      rfl)
    (fun q hq => by
      rw [alignWord_blockSlot]
      exact hbelow q ((mem_before e).1 hq).1 ((mem_before e).1 hq).2)
    (by
      rw [alignWord_blockSlot]
      exact eq_true_of_ne_false ha)
  simp only [alignWord_blockSlot, ← e] at hread
  have hexec : exec (.ldm c p u sb w rn list) s = .next (dataAbort (blockWriteBack u w rn list s)
      (commitLoaded (blockBank true sb list s)
        ((pre.map fun q => (q, slotWord p u rn list s q)).filter fun x =>
          (Config.abortLoaded s.freeCount).getLsbD x.1.val && x.1 != 15)
        (called (slotRead p u rn list s r) (clearTracker (beforeSlotRead p u rn list s r))))) := by
    rw [exec_executes hx, execBody, ldmBody]
    simp only [blockSlot_clearTracker, hread]
    rfl
  refine ⟨_, fun x hx => ?_, hexec⟩
  obtain ⟨hread, hkept⟩ := List.mem_filter.1 hx
  obtain ⟨q, hq, rfl⟩ := List.mem_map.1 hread
  obtain ⟨hlisted, hlt⟩ := (mem_before e).1 hq
  exact ⟨hlisted, hlt, bne_iff_ne.1 (Bool.and_eq_true_iff.1 hkept).2, rfl⟩

/-- An STM stopped at the write for register r: the words of the registers below it stand. -/
theorem exec_stm_stopped (hx : Executes (.stm c p u sb w rn list) s) (hr : inList list r = true)
    (hbelow : ∀ q : RegNum, inList list q = true → q < r →
      StoreAllowed (slotWrite p u sb rn list s q) (beforeSlotWrite p u sb rn list s q))
    (hn : NoHazard (slotWrite p u sb rn list s r) s)
    (ha : memAborts (slotWrite p u sb rn list s r) (beforeSlotWrite p u sb rn list s r) = true) :
    ∃ m : Memory, exec (.stm c p u sb w rn list) s = .next (dataAbort (blockWriteBack u w rn list s)
        (called (slotWrite p u sb rn list s r)
          (clearTracker { beforeSlotWrite p u sb rn list s r with memory := m }))) ∧
      WordsStored (fun q => inList list q = true ∧ q < r) (fun q => blockSlot p u rn list q s) (slotValue sb s)
        (beforeSlotWrite p u sb rn list s) s.memory m := by
  obtain ⟨m, rest, hstore, hwords⟩ := storeAll_at (p := p) (u := u) (rn := rn) (s := clearTracker s)
    (slotValue sb s) hr fun q hq hlt => by
      rw [beforeSlot_clearTracker]
      exact hbelow q hq hlt
  simp only [beforeSlot_clearTracker] at hwords
  refine ⟨m, ?_, hwords.of_clearTracker⟩
  have hpc : (beforeSlotWrite p u sb rn list s r).pc = s.pc := callAll_pc ..
  rw [beforeSlot_clearTracker] at hstore
  rw [exec_executes hx, execBody, stmBody_eq]
  have habort := storeAll_aborts (q := slotWrite p u sb rn list s r)
    (s := clearTracker { beforeSlotWrite p u sb rn list s r with memory := m }) (fun a h => hpc ▸ hn a h) ha rest
  exact congrArg (finishStore · _) (hstore.trans habort)

end

/-- Settles O48: the accesses before the aborted one were made, and the entry of the data abort follows; a register
that an LDM keeps loaded was read before it. -/
theorem blockTransferAborts : Obligations.BlockTransferAborts := by
  intro c p u sb w rn list r s slot current read beforeRead answered value write beforeWrite hr
  refine ⟨fun hx hbelow ha => ?_, fun hx hbelow hn ha => ?_⟩
  · obtain ⟨kept, hkept, hexec⟩ := exec_ldm_stopped hx hr hbelow ha
    have hreads : Transferred [] s.memory ((beforeRead r).bus.after (read r)) s
        (called (read r) (clearTracker (beforeRead r))) := (Transferred.calledAll _ s).call (read r)
    obtain ⟨t, ht, hentered, hmemory, hbus, hcoproc, hspsrs, hregs⟩ :=
      blockAbort_entered hexec (hreads.commitLoaded _ kept) ((commitLoaded_pc ..).trans (callAll_pc ..))
    refine ⟨t, ht, hentered, hmemory, hbus, hcoproc, hspsrs, fun q hq => ?_⟩
    obtain hloads | hbase := hregs q hq
    · obtain hold | ⟨⟨n, v⟩, hn, hbank, hv⟩ := commitLoaded_cases (blockBank true sb list s) q kept _
      · exact .inl (hloads.trans (hold.trans (hreads.regs q List.not_mem_nil)))
      · obtain ⟨hlisted, hlt, hne, hword⟩ := hkept _ hn
        exact .inr (.inl ⟨n, hlisted, hne, fun m hm hle => hbelow m hm (lt_of_le_of_lt hle hlt), hbank,
          hloads.trans (hv.trans hword)⟩)
    · exact .inr (.inr hbase)
  · obtain ⟨m, hexec, hwords⟩ := exec_stm_stopped hx hr hbelow hn ha
    have hwrites : Transferred [] m ((beforeWrite r).bus.after (write r)) s
        (called (write r) (clearTracker { beforeWrite r with memory := m })) :=
      ((Transferred.calledAll _ s).setMemory m).call (write r)
    obtain ⟨t, ht, hentered, hmemory, hbus, hcoproc, hspsrs, hregs⟩ :=
      blockAbort_entered hexec hwrites (callAll_pc ..)
    refine ⟨t, ht, hentered, hbus, hcoproc, hspsrs, hmemory ▸ hwords, fun q hq => ?_⟩
    rw [← hwrites.regs q List.not_mem_nil]
    exact hregs q hq

end Sys2Proof.Machine

/-! ### The branches (R330 to R333) -/

namespace Sys2Proof.Machine

/-! #### The target of B and BL (R330, R331), and the three bodies -/

/-- The two zero bits below the offset multiply it by four, and the sign is kept (R131). -/
theorem branchOffset_eq (offset24 : BitVec 24) : branchOffset offset24 = BitVec.ofInt 32 (4 * offset24.toInt) :=
  congrArg (BitVec.ofInt 32) BitVec.toInt_append_zero

theorem branchTarget_eq (offset24 : BitVec 24) (s : State) :
    branchTarget offset24 s = s.pc + 8#32 + BitVec.ofInt 32 (4 * offset24.toInt) :=
  congrArg (s.pc + 8#32 + ·) (branchOffset_eq offset24)

section
variable {c : Cond} {offset24 : BitVec 24} {rm : RegNum} {s : State}

theorem exec_b (h : Executes (.b c offset24) s) :
    exec (.b c offset24) s = .next (branchTo (branchTarget offset24 s) (clearTracker s)) :=
  exec_executes h

theorem exec_bl (h : Executes (.bl c offset24) s) : exec (.bl c offset24) s =
    .next (branchTo (branchTarget offset24 s) (writeReg 14 (s.pc + 4#32) (clearTracker s))) :=
  exec_executes h

theorem exec_bx (h : Executes (.bx c rm) s) : exec (.bx c rm) s = .next (branchTo (readReg rm s &&& 0xFFFFFFFE#32)
    { clearTracker s with cpsr := { s.cpsr with t := (readReg rm s).getLsbD 0 } }) :=
  exec_executes h

/-! #### BX: the operands it refuses (R333, P17 of 93_implementation_defined.md) -/

theorem bxRule_eq : bxRule rm s =
    if (readReg rm s).getLsbD 1 = true ∧ (readReg rm s).getLsbD 0 = false then some .r333 else none := by
  have hlow : ((readReg rm s).extractLsb' 0 2 == 0b10#2) =
      ((readReg rm s).getLsbD 1 && !(readReg rm s).getLsbD 0) := by
    simp [field_beq_succ]
  simp [bxRule, hlow]

/-- The static rule and the rule that reads Rm as one condition. -/
theorem wfRefusal_bx_eq : wfRefusal (.bx c rm) s =
    if rm = 15 ∨ ((readReg rm s).getLsbD 1 = true ∧ (readReg rm s).getLsbD 0 = false) then
      some (.unpredictable .r333) else none := by
  by_cases hpc : rm = 15
  · rw [if_pos (.inl hpc)]
    exact wfRefusal_static (by simp [Instr.staticRule, hpc]) s
  · rw [wfRefusal_state (by simp [Instr.staticRule, hpc]), stateRefusal, bxRule_eq]
    simp only [hpc, false_or]
    split <;> rfl

end

/-- Settles O49: the target of a taken branch, and for BX the check as one condition on Rm. -/
theorem branchResults : Obligations.BranchResults := by
  intro c offset24 rm s target m refusedTarget
  have htarget : branchTarget offset24 s = target := branchTarget_eq offset24 s
  refine ⟨fun h => ?_, fun h => ?_, fun hbad => ?_, fun hok => ?_, fun h => ?_, rfl, rfl⟩
  · exact htarget ▸ exec_b h
  · exact htarget ▸ exec_bl h
  · exact exec_refused (wfRefusal_bx_eq.trans (if_pos hbad))
  · exact wfRefusal_bx_eq.trans (if_neg hok)
  · exact exec_bx h

end Sys2Proof.Machine

/-! ### The status transfers (R350 to R357) -/

namespace Sys2Proof

/-- The restrictions of R356 on the source of an MSR as one condition. -/
theorem psrSourceRule_iff (src : PsrSource) :
    let bad := ∃ z m, src = .reg z m ∧ (m = 15 ∨ z ≠ 0#8)
    (psrSourceRule src = some .r356 ↔ bad) ∧ (psrSourceRule src = none ↔ ¬ bad) := by
  cases src with
  | imm rotate imm8 => simp [psrSourceRule]
  | reg z m =>
    have h := firstRule_one (r := .r356) [(m == 15, .r356), (z != 0, .r356)] (by simp)
    simpa [psrSourceRule] using h

end Sys2Proof

namespace Sys2Proof.Machine

/-! #### The word MRS reads (R42, R51) -/

theorem Psr.toWord_reserved (p : Psr) : p.toWord.extractLsb' 8 20 = 0#20 := by
  rw [Psr.toWord, field_append_high, field_append_high, field_append_high, field_append_high]
  · exact field_append_exact _ _
  all_goals decide

/-! #### What refuses a status transfer (R356, R32, R355) -/

/-- The SPSR is named in a mode that has none (R356). -/
abbrev NoSpsr (spsr : Bool) (s : State) : Prop := spsr = true ∧ s.spsrs.get (currentBank s.cpsr) = none

/-- The control field of the CPSR is written: `c` selects it, and the mode is privileged (R351, R52). -/
abbrev WritesControl (spsr c : Bool) (s : State) : Prop := c = true ∧ spsr = false ∧ s.cpsr.m ≠ 0b10000#5

/-- The word would bring an illegal mode into the CPSR (R32). -/
abbrev BadMode (spsr c : Bool) (v : Word) (s : State) : Prop :=
  WritesControl spsr c s ∧ legalMode (v.extractLsb' 0 5) = false

/-- The word would change T of the CPSR (R355). -/
abbrev BadT (spsr c : Bool) (v : Word) (s : State) : Prop := WritesControl spsr c s ∧ v.getLsbD 5 ≠ s.cpsr.t

section
variable {i : Instr} {cond : Cond} {spsr f c : Bool} {rd : RegNum} {mask : BitVec 4} {src : PsrSource} {v : Word}
  {s : State}

/-- A mode that has the SPSR an instruction names. -/
theorem exists_saved (h : ¬ NoSpsr true s) : ∃ saved, currentSpsr s = some saved :=
  Option.ne_none_iff_exists'.1 fun hnone => h ⟨rfl, hnone⟩

theorem not_noSpsr_of_writesControl (h : WritesControl spsr c s) : ¬ NoSpsr spsr s := by
  obtain ⟨-, rfl, -⟩ := h
  exact fun ⟨hspsr, _⟩ => Bool.false_ne_true hspsr

/-- The rules that read the state, in the order of R351. -/
theorem psrWriteRule_eq : psrWriteRule spsr c v s =
    if NoSpsr spsr s then some .r356 else if BadMode spsr c v s then some .r32
    else if BadT spsr c v s then some .r355 else none := by
  cases spsr with
  | true => simp [psrWriteRule, currentSpsr, NoSpsr, BadMode, BadT, WritesControl]
  | false =>
    by_cases hc : c = true ∧ s.cpsr.m ≠ 0b10000#5
    · simp [psrWriteRule, privileged, NoSpsr, BadMode, BadT, WritesControl, hc]
    · have hoff : (c && privileged s.cpsr) = false := by simpa [privileged] using hc
      have hcontrol : ¬ WritesControl false c s := fun ⟨h, _, hm⟩ => hc ⟨h, hm⟩
      simp [psrWriteRule, NoSpsr, BadMode, BadT, hoff, hcontrol]

/-- The two refusals of MRS as one condition. -/
theorem wfRefusal_mrs : wfRefusal (.mrs cond spsr rd) s =
    if rd = 15 ∨ NoSpsr spsr s then some (.unpredictable .r356) else none := by
  by_cases hpc : rd = 15
  · rw [if_pos (.inl hpc)]
    exact wfRefusal_static (by simp [Instr.staticRule, hpc]) s
  · rw [wfRefusal_state (by simp [Instr.staticRule, hpc])]
    cases spsr <;> simp [stateRefusal, currentSpsr, NoSpsr, hpc, apply_ite]

theorem stateRefusal_msrGen (h : s.policy.msrGeneralMask = true) : stateRefusal (.msrGen cond spsr mask src) s =
    (psrWriteRule spsr (mask.getLsbD 0) (psrSource src s) s).map .unpredictable := if_pos h

/-- MSR_gen executes only under MSR_GENERAL_MASK (R357, R142). -/
theorem msrGeneralMask_of_executes (h : Executes (.msrGen cond spsr mask src) s) : s.policy.msrGeneralMask = true := by
  have hnone := (wfRefusal_eq_none.1 h.wellFormed).2
  by_contra hoff
  rw [stateRefusal, if_neg hoff] at hnone
  cases hnone

/-- The check of an MSR, `bad` standing for its static refusal (R356); the rules of R351 follow in their order. -/
theorem exec_msr_refusals {bad : Prop}
    (hstatic : (i.staticRule = some .r356 ↔ bad) ∧ (i.staticRule = none ↔ ¬ bad))
    (hstate : stateRefusal i s = (psrWriteRule spsr c v s).map .unpredictable) :
    (bad ∨ NoSpsr spsr s → exec i s = .refused (.unpredictable .r356)) ∧
    (¬ bad → BadMode spsr c v s → exec i s = .refused (.unpredictable .r32)) ∧
    (¬ bad → ¬ BadMode spsr c v s → BadT spsr c v s → exec i s = .refused (.unpredictable .r355)) ∧
    (¬ bad → ¬ NoSpsr spsr s → ¬ BadMode spsr c v s → ¬ BadT spsr c v s → wfRefusal i s = none) := by
  obtain ⟨hbad, hok⟩ := hstatic
  rw [psrWriteRule_eq] at hstate
  refine ⟨fun h => ?_, fun h hm => ?_, fun h hm ht => ?_, fun h hn hm ht => ?_⟩
  · by_cases hb : bad
    · exact exec_refused_static (hbad.2 hb)
    · exact exec_refused_state (hok.2 hb) (by rw [hstate, if_pos (h.resolve_left hb), Option.map_some])
  · have hn := not_noSpsr_of_writesControl hm.1
    exact exec_refused_state (hok.2 h) (by rw [hstate, if_neg hn, if_pos hm, Option.map_some])
  · have hn := not_noSpsr_of_writesControl ht.1
    exact exec_refused_state (hok.2 h) (by rw [hstate, if_neg hn, if_neg hm, if_pos ht, Option.map_some])
  · rw [wfRefusal_state (hok.2 h), hstate, if_neg hn, if_neg hm, if_neg ht, Option.map_none]

/-! #### What a status transfer writes (R350, R351) -/

theorem mrsBody_saved {saved : Psr} (h : currentSpsr s = some saved) :
    mrsBody true rd s = .next (advance (writeReg rd saved.toWord s)) := by
  simp only [mrsBody, if_true, h]

theorem psrWrite_saved {saved : Psr} (h : currentSpsr s = some saved) : psrWrite true f c v s =
    .next (advance { s with spsrs := s.spsrs.set (currentBank s.cpsr) (saved.writeFields f c v) }) := by
  simp only [psrWrite, if_true, h]
  rfl

/-- Field by field what R351 writes. -/
theorem Psr.writeFields_eq (p : Psr) (f c : Bool) (v : Word) : p.writeFields f c v =
    Psr.mk (if f then v.getLsbD 31 else p.n) (if f then v.getLsbD 30 else p.z) (if f then v.getLsbD 29 else p.c)
      (if f then v.getLsbD 28 else p.v) (if c then v.getLsbD 7 else p.i) (if c then v.getLsbD 6 else p.f)
      (if c then v.getLsbD 5 else p.t) (if c then v.extractLsb' 0 5 else p.m) := by
  cases f <;> cases c <;> rfl

/-- An MSR whose check has passed writes the SPSR or the CPSR; in User mode the CPSR keeps its control field. -/
theorem exec_msr (hx : Executes i s) (hbody : execBody i (clearTracker s) = psrWrite spsr f c v (clearTracker s))
    (hstate : stateRefusal i s = (psrWriteRule spsr c v s).map .unpredictable) :
    if spsr then ∃ saved : Psr, s.spsrs.get (currentBank s.cpsr) = some saved ∧ exec i s = .next (advance
      { clearTracker s with spsrs := s.spsrs.set (currentBank s.cpsr) (saved.writeFields f c v) })
    else exec i s = .next (advance
      { clearTracker s with cpsr := s.cpsr.writeFields f (c && s.cpsr.m != 0b10000#5) v }) := by
  rw [exec_executes hx, hbody]
  cases spsr with
  | false => rfl
  | true =>
    have hsaved : ¬ NoSpsr true s := fun hn => by
      have hnone := (wfRefusal_eq_none.1 hx.wellFormed).2
      rw [hstate, psrWriteRule_eq, if_pos hn] at hnone
      cases hnone
    obtain ⟨saved, hs⟩ := exists_saved hsaved
    exact ⟨saved, hs, psrWrite_saved (s := clearTracker s) hs⟩

end

/-- Settles O51: the check has passed, so the status register the MSR names exists, and R351 writes its fields. -/
theorem statusWriteResults : Obligations.StatusWriteResults := by
  intro cond spsr rm mask src s written bank writes value
  have hwrites {i : Instr} {f c : Bool} {v : Word} (hx : Executes i s)
      (hbody : execBody i (clearTracker s) = psrWrite spsr f c v (clearTracker s))
      (hstate : stateRefusal i s = (psrWriteRule spsr c v s).map .unpredictable) : writes i f c v := by
    have h := exec_msr hx hbody hstate
    simpa only [Psr.writeFields_eq] using h
  have hvalue : psrSource src s = value := by cases src <;> rfl
  refine ⟨fun hx => hwrites hx rfl rfl, fun hx => ?_, fun hx => ?_⟩
  · rw [← hvalue]
    exact hwrites hx rfl rfl
  · rw [← hvalue]
    exact hwrites hx rfl (stateRefusal_msrGen (msrGeneralMask_of_executes hx))

/-- Settles O52: the static rule first, then for an MSR the rules of R351 in their order. -/
theorem statusTransferRefusals : Obligations.StatusTransferRefusals := by
  intro cond spsr rd rm mask src s noSpsr badSrc value ctl badMode badT refuses checked
  have hchecked {i : Instr} {bad on : Prop} {c : Bool} {v : Word} (hon : c = true ↔ on)
      (hstatic : (i.staticRule = some .r356 ↔ bad) ∧ (i.staticRule = none ↔ ¬ bad))
      (hstate : stateRefusal i s = (psrWriteRule spsr c v s).map .unpredictable) : checked i bad on v := by
    obtain rfl := propext hon
    exact exec_msr_refusals hstatic hstate
  refine ⟨fun h => exec_refused (wfRefusal_mrs.trans (if_pos h)),
    fun h hn => wfRefusal_mrs.trans (if_neg (not_or.2 ⟨h, hn⟩)), ?_, ?_, fun hmask => ?_⟩
  · exact hchecked (by decide) (by simp [Instr.staticRule]) rfl
  · exact hchecked (by decide) (psrSourceRule_iff src) rfl
  · exact hchecked Iff.rfl (psrSourceRule_iff src) (stateRefusal_msrGen hmask)

/-- Settles O50: an SPSR that passed the check exists, and the fields of the word are those that `Psr.ofWord` reads. -/
theorem statusReadResults : Obligations.StatusReadResults := by
  refine ⟨fun cond rd s h => exec_executes h, fun cond rd s h => ?_, fun p => ?_⟩
  · obtain ⟨saved, hsaved⟩ := exists_saved fun hn => by
      have hnone := h.wellFormed
      rw [wfRefusal_mrs, if_pos (.inr hn)] at hnone
      cases hnone
    exact ⟨saved, hsaved, (exec_executes h).trans (mrsBody_saved (s := clearTracker s) hsaved)⟩
  · have h := Psr.ofWord_toWord p
    exact ⟨congrArg Psr.n h, congrArg Psr.z h, congrArg Psr.c h, congrArg Psr.v h, p.toWord_reserved,
      congrArg Psr.i h, congrArg Psr.f h, congrArg Psr.t h, congrArg Psr.m h, h⟩

end Sys2Proof.Machine

/-! ### Leaving User mode (R426), reset and the interrupts (R405, R450) -/

namespace Sys2Proof.Machine

/-- What the entry of an exception leaves of the status registers, for any exception and any old status. -/
theorem Entered.status_parts {e : Exc} {pc : Word} {old : Psr} {t : State} (h : Entered e pc old t) :
    t.cpsr.m = e.mode.bits ∧ t.pc = e.vector ∧ t.spsrs.get e.mode.bank = some old ∧ t.cpsr.i = true ∧
      t.cpsr.t = false ∧ t.cpsr.f = (old.f || e.masksFiq) := by
  refine ⟨?_, h.vector, h.saved, ?_, ?_, ?_⟩ <;> rw [h.status]

/-- An instruction leaves User mode only by the entry of an exception, which saves the status of that mode: there is
no SPSR to return by (R41), and the control field is not written (R52). -/
theorem Reaches.enters_of_leaves_user {s t : State} (h : Reaches s t) (hs : s.cpsr.m = Mode.user.bits)
    (ht : t.cpsr.m ≠ Mode.user.bits) : ∃ e : Exc, Entered e s.pc s.cpsr t := by
  have hnone := currentSpsr_user hs
  cases h with
  | ordinary h => exact absurd (h.m.trans hs) ht
  | entry e s' h hc hp ht' => exact ⟨e, by rw [ht', ← hc, ← hp]; exact takeException_entered e s'⟩
  | exceptionReturn saved v s' h hc hsome => rw [hnone] at hsome; cases hsome
  | savedStatus p q hsome => rw [hnone] at hsome; cases hsome
  | control f v hp => rw [privileged, hs] at hp; cases hp
  | userBank l b ht' => subst ht'; exact absurd (by simpa using hs) ht
  | userBankAbort l wb b ht' =>
    have hentered := dataAbort_entered wb (commitLoaded .usr l { s with bus := b })
    rw [commitLoaded_pc, commitLoaded_cpsr] at hentered
    exact ⟨.dataAbort, ht' ▸ hentered⟩

/-- Settles O9: of the ways a step ends, reset, the entries at the boundary and of the prefetch abort, and the entry an
instruction makes leave User mode. -/
theorem userModeLeavesOnlyByException : Obligations.UserModeLeavesOnlyByException := by
  intro s t hs h ht
  obtain ⟨-, -, ⟨hreset, rfl⟩ | ⟨-, -, rfl⟩ | ⟨-, -, rfl⟩ | ⟨-, -, rfl⟩ | ⟨-, i, hi⟩⟩ := step_next h
  · exact .inl ⟨hreset, rfl, rfl⟩
  · exact .inr ⟨.fiq, (takeException_entered .fiq (dropInputs s)).status_parts⟩
  · exact .inr ⟨.irq, (takeException_entered .irq (dropInputs s)).status_parts⟩
  · exact .inr ⟨.prefetchAbort, (takeException_entered .prefetchAbort (called _ (dropInputs s))).status_parts⟩
  · obtain ⟨-, -, rfl⟩ | ⟨hx, hb⟩ := exec_next hi
    · exact absurd hs ht
    · have hr := execBody_reaches (wfRefusal_clearTracker i _ ▸ hx.wellFormed) hb
      obtain ⟨e, he⟩ := hr.enters_of_leaves_user hs ht
      exact .inr ⟨e, he.status_parts⟩

theorem takeException_sameSpsrsBut (e : Exc) (s : State) {k : Bank} (hk : k ≠ e.mode.bank) :
    (takeException e s).spsrs.get k = s.spsrs.get k := SpsrFile.get_set_ne _ hk _

theorem takeException_sameEnvironment (e : Exc) (s : State) : SameEnvironment s (takeException e s) :=
  ⟨rfl, rfl, rfl, rfl, rfl, rfl, rfl, rfl⟩

/-- The status after an entry, with F as the mask of that entry leaves it. -/
theorem takeException_status {e : Exc} {s : State} {f : Bool} (hf : (s.cpsr.f || e.masksFiq) = f) :
    (takeException e s).cpsr = { s.cpsr with m := e.mode.bits, t := false, i := true, f := f } := by
  rw [takeException_cpsr, hf]

/-- Settles O16: the row of each exception is what `Exc.mode`, `Exc.vector` and the link and mask of its entry say. -/
theorem exceptionEntryIsWhole : Obligations.ExceptionEntryIsWhole := by
  intro e s t row
  obtain ⟨hlink, hsaved, hstatus, hvector, htracker⟩ := takeException_entered e s
  have hregs := takeException_sameRegsBut e s
  have hspsrs := fun k => takeException_sameSpsrsBut e s (k := k)
  have henv := takeException_sameEnvironment e s
  cases e <;> exact ⟨hlink, hsaved, hstatus, hvector, hregs, hspsrs, rfl, henv, htracker⟩

/-! #### The tests at a step boundary (R160, R405) -/

section
variable {inp : HostInputs} {s : State}

theorem boundary_reset (h : inp.reset = true) : boundary inp s = .over (.next (performReset s)) := if_pos h

theorem boundary_fiq (h : inp.reset = false) (hfiq : inp.fiq = true) (hf : s.cpsr.f = false) :
    boundary inp s = .over (.next (takeException .fiq s)) := by
  simp [boundary, h, hfiq, hf]

theorem boundary_irq (h : inp.reset = false) (hfiq : inp.fiq = false ∨ s.cpsr.f = true) (hirq : inp.irq = true)
    (hi : s.cpsr.i = false) : boundary inp s = .over (.next (takeException .irq s)) := by
  rcases hfiq with hfiq | hf
  · simp [boundary, h, hfiq, hirq, hi]
  · simp [boundary, h, hf, hirq, hi]

end

/-- Settles O12: the boundary test for reset comes first, and of the two free values nothing is said. -/
theorem resetDuringRun : Obligations.ResetDuringRun := by
  intro s hf hr hreset
  refine ⟨performReset (dropInputs s), ?_, rfl, rfl, rfl, fun q hq => ?_, fun k hk => SpsrFile.get_set_ne _ hk _, rfl,
    rfl, rfl, hf, hr, rfl⟩
  · rw [step_unmarked hf hr, boundary_reset hreset, finish_over]
  · exact RegFile.read_write_ne _ _ fun h => hq (List.mem_singleton.2 (congrArg some h))

/-- Settles O14: the two entries at the boundary; with neither due the step is the fetch, which the inputs do not
reach. -/
theorem interruptEntries : Obligations.InterruptEntries := by
  intro s hf hr hreset
  refine ⟨fun hfiq hmask => ?_, fun hfiq hirq hmask => ?_, fun hfiq hirq => ?_⟩
  · have hentry := takeException_entered .fiq (dropInputs s)
    have hstatus := takeException_status (e := .fiq) (s := dropInputs s) (Bool.or_true _)
    refine ⟨_, ?_, hentry.link, rfl, hstatus, hentry.vector, takeException_sameRegsBut .fiq (dropInputs s), rfl, rfl⟩
    rw [step_unmarked hf hr, boundary_fiq (s := dropInputs s) hreset hfiq hmask, finish_over]
  · have hentry := takeException_entered .irq (dropInputs s)
    have hstatus := takeException_status (e := .irq) (s := dropInputs s) (Bool.or_false _)
    refine ⟨_, ?_, hentry.link, rfl, hstatus, hentry.vector, takeException_sameRegsBut .irq (dropInputs s), rfl, rfl⟩
    rw [step_unmarked hf hr, boundary_irq (s := dropInputs s) hreset hfiq hirq hmask, finish_over]
  · rw [step_quiet hf hr hreset hfiq hirq]
    exact (step_quiet (s := { s with inputs := quietInputs :: s.inputs.tail }) hf hr rfl (.inl rfl) (.inl rfl)).symm

/-! #### Marked states (R15, R451) -/

theorem step_faultMark {s : State} {f : Fault} (h : s.faultMark = some f) : step s = .fault f := by
  simp only [step, beginCycle, h, finish_over]

theorem step_refusalMark {s : State} {r : Refusal} (hf : s.faultMark = none) (h : s.refusalMark = some r) :
    step s = .refused r := by
  simp only [step, beginCycle, hf, h, finish_over]

theorem fetchDecode_run {i : Instr} {s t : State} (h : fetchDecode s = .run i t) : t = called (fetchRequest s) s := by
  have hfetch : (fetchWord s).2 = called (fetchRequest s) s := rfl
  unfold fetchDecode at h
  split at h
  · cases h
  split at h
  · cases h
  next hword =>
    split at h <;> cases h
    rw [← hfetch, hword]

theorem boundary_run {inp : HostInputs} {i : Instr} {s t : State} (h : boundary inp s = .run i t) :
    fetchDecode s = .run i t := by
  unfold boundary at h
  split at h
  · cases h
  split at h
  · cases h
  split at h
  · cases h
  exact h

theorem beginCycle_run {i : Instr} {s t : State} (h : beginCycle s = .run i t) :
    boundary (currentInputs s) (dropInputs s) = .run i t := by
  unfold beginCycle at h
  split at h
  · cases h
  split at h
  · cases h
  exact h

/-- Before Execute a step uses up the inputs of its boundary and makes the fetch, or it has done nothing. -/
theorem atExecute_cases (s : State) : atExecute s = s ∨ atExecute s = called (fetchRequest s) (dropInputs s) := by
  unfold atExecute
  split
  next h => exact .inr (fetchDecode_run (boundary_run (beginCycle_run h)))
  · exact .inl rfl

theorem atExecute_keeps (s : State) : (atExecute s).faultMark = s.faultMark ∧ (atExecute s).regs = s.regs ∧
    (atExecute s).pc = s.pc ∧ (atExecute s).cpsr = s.cpsr ∧ (atExecute s).spsrs = s.spsrs := by
  obtain h | h := atExecute_cases s <;> rw [h] <;> exact ⟨rfl, rfl, rfl, rfl, rfl⟩

/-- The state a stop leaves, but for its mark: what it has of the state before the step, and what the stop kept. -/
theorem stoppedState_keeps (s : State) (kept : Option Collaborators) :
    let t := stoppedState s kept
    t.faultMark = s.faultMark ∧ t.regs = s.regs ∧ t.pc = s.pc ∧ t.cpsr = s.cpsr ∧ t.spsrs = s.spsrs ∧
      ∀ k : Collaborators, kept = some k → t.memory = k.memory ∧ t.bus = k.bus ∧ t.coproc = k.coproc := by
  obtain ⟨hmark, hregs, hpc, hcpsr, hspsrs⟩ := atExecute_keeps s
  cases kept with
  | none => exact ⟨hmark, hregs, hpc, hcpsr, hspsrs, nofun⟩
  | some k => exact ⟨hmark, hregs, hpc, hcpsr, hspsrs, fun _ h => Option.some.inj h ▸ ⟨rfl, rfl, rfl⟩⟩

/-- Settles O13: the settled state has the mark that the first test of the next step finds. -/
theorem markedStateTakesNoStep : Obligations.MarkedStateTakesNoStep := by
  refine ⟨fun s f => step_faultMark, fun s r => step_refusalMark, fun s t ht => ⟨fun f h => ?_, fun r h => ?_⟩⟩
  · obtain ⟨-, hkept⟩ := stoppedState_keeps s f.kept
    rw [h] at ht
    subst ht
    exact ⟨step_faultMark rfl, hkept⟩
  · obtain ⟨hmark, hkept⟩ := stoppedState_keeps s r.kept
    have hf : s.faultMark = none := Option.eq_none_iff_forall_ne_some.2 fun f hf => by
      cases h.symm.trans (step_faultMark hf)
    rw [h] at ht
    subst ht
    exact ⟨step_refusalMark (hmark.trans hf) rfl, hkept⟩

end Sys2Proof.Machine

/-! ### Software interrupts and the undefined encodings (R370, R385) -/

namespace Sys2Proof.Machine

theorem undefinedBody_trap {s : State} (h : s.policy.undef = .trap) :
    undefinedBody s = .next (takeException .undefinedInstruction s) := by simp only [undefinedBody, h]

theorem undefinedBody_halt {s : State} (h : s.policy.undef = .halt) : undefinedBody s = .fault .undefinedHalt := by
  simp only [undefinedBody, h]

/-- What a trap leaves that an instruction takes at its own address: F stays as it is. -/
theorem trap_effect (e : Exc) (hmask : e.masksFiq = false) (s : State) :
    let t := takeException e (clearTracker s)
    t.regs.read (.r14 e.mode.bank) = s.pc + e.linkOffset ∧ t.spsrs.get e.mode.bank = some s.cpsr ∧
      t.cpsr = { s.cpsr with m := e.mode.bits, t := false, i := true } ∧ t.pc = e.vector ∧
      SameRegsBut [some (.r14 e.mode.bank)] s t ∧ t.memory = s.memory ∧ SameEnvironment s t := by
  have hentry := takeException_entered e (clearTracker s)
  have hf : ((clearTracker s).cpsr.f || e.masksFiq) = s.cpsr.f := by rw [hmask]; exact Bool.or_false _
  exact ⟨hentry.link, hentry.saved, takeException_status hf, hentry.vector,
    takeException_sameRegsBut e (clearTracker s), rfl,
    (RegisterFrame.clearTracker s).environment.trans (takeException_sameEnvironment e _)⟩

/-- Settles O53: the four instructions have no refusal, SWI's body is its entry, and the body of the undefined encodings
is that of R385. -/
theorem softwareTraps : Obligations.SoftwareTraps := by
  intro c comment hi4 hi5 mid h lo hi20 s undefs
  have hundef : ∀ i ∈ undefs, wfRefusal i s = none ∧ i.cond = c ∧ execBody i = undefinedBody := by
    simp only [undefs, List.forall_mem_cons, List.not_mem_nil, false_implies, implies_true, and_true]
    exact ⟨⟨rfl, rfl, rfl⟩, ⟨rfl, rfl, rfl⟩, rfl, rfl, rfl⟩
  refine ⟨rfl, fun i hi => (hundef i hi).1, fun hc => List.forall_mem_cons.2
    ⟨conditionFailedOnlyAdvances _ s rfl hc, fun i hi => ?_⟩, fun hx => ?_, fun i hi hx => ?_⟩
  · obtain ⟨hw, rfl, -⟩ := hundef i hi
    exact conditionFailedOnlyAdvances i s hw hc
  · obtain ⟨hlink, hsaved, heffect⟩ := trap_effect .softwareInterrupt rfl s
    exact ⟨_, exec_executes hx, hlink, Option.some.inj hsaved, heffect⟩
  · obtain ⟨-, -, hb⟩ := hundef i hi
    have hexec : exec i s = undefinedBody (clearTracker s) := hb ▸ exec_executes hx
    refine ⟨fun hp => ?_, fun hp => hexec.trans (undefinedBody_halt (s := clearTracker s) hp)⟩
    obtain ⟨hlink, hsaved, heffect⟩ := trap_effect .undefinedInstruction rfl s
    exact ⟨_, hexec.trans (undefinedBody_trap (s := clearTracker s) hp), hlink, Option.some.inj hsaved, heffect⟩

end Sys2Proof.Machine

/-! ### The hazard of a User-bank load (R463) -/

namespace Sys2Proof.Machine

/-- The banked registers of each mode, as R463 has them. -/
theorem isBanked_iff (bank : Bank) (n : RegNum) : isBanked bank n = true ↔ (bank = .fiq ∧ 8 ≤ n.val ∧ n.val ≤ 14) ∨
    ((bank = .irq ∨ bank = .svc ∨ bank = .abt ∨ bank = .und) ∧ (n.val = 13 ∨ n.val = 14)) := by
  cases bank <;> simp [isBanked] <;> omega

theorem bankedHazard_iff {i : Instr} {s : State} (h : s.lastUserBankTransfer = true) :
    bankedHazard i s = true ↔ ∃ n ∈ i.namedRegs, isBanked (currentBank s.cpsr) n = true := by
  simp only [bankedHazard, h, Bool.true_and, List.any_eq_true]

theorem executes_clearTracker {i : Instr} {s : State} (hw : wfRefusal i s = none)
    (hc : conditionPassed i.cond s.cpsr = true) : Executes i (clearTracker s) :=
  ⟨wfRefusal_clearTracker i s ▸ hw, hc, rfl⟩

/-- Settles O20: the test of the hazard is whether a named register is banked, and the body sees the tracker cleared
whatever it was. -/
theorem bankedRegisterHazard : Obligations.BankedRegisterHazard := by
  intro i s htracker hw hc bank banked inOperand2 inOffset inHalfOffset inSource names
  have hoperand2 (o : Operand2) (n : RegNum) : n ∈ o.regs ↔ inOperand2 o n := by
    cases o <;> simp [Operand2.regs, inOperand2]
  have hoffset (o : Offset) (n : RegNum) : n ∈ o.regs ↔ inOffset o n := by
    cases o <;> simp [Offset.regs, inOffset]
  have hhalfOffset (o : HalfOffset) (n : RegNum) : n ∈ o.regs ↔ inHalfOffset o n := by
    cases o <;> simp [HalfOffset.regs, inHalfOffset]
  have hsource (o : PsrSource) (n : RegNum) : n ∈ o.regs ↔ inSource o n := by
    cases o <;> simp [PsrSource.regs, inSource]
  have hnames (n : RegNum) : n ∈ i.namedRegs ↔ names n := by
    cases i <;> simp only [Instr.namedRegs, names, List.mem_cons, List.not_mem_nil, or_false, hoperand2, hoffset,
      hhalfOffset, hsource, mem_regList, inList]
  have hhazard : bankedHazard i s = true ↔ ∃ n, names n ∧ banked n := by
    simp only [bankedHazard_iff htracker, hnames, isBanked_iff, banked, bank]
  refine ⟨fun h => ?_, fun h => ?_⟩
  · rw [exec_eq_gate, gate_hazard hw hc (hhazard.2 h)]
  · have hx : Executes i s := ⟨hw, hc, Bool.eq_false_iff.2 fun hb => by
      obtain ⟨n, hn, hbanked⟩ := hhazard.1 hb
      exact h n hn hbanked⟩
    rw [exec_executes hx, exec_executes (executes_clearTracker hw hc)]
    rfl

end Sys2Proof.Machine

/-! ### Only a User-bank load leaves the hazard tracker set (R311, R463) -/

namespace Sys2Proof.Machine

@[simp] theorem dataAbort_lastUserBankTransfer (wb : Option (RegNum × Word)) (s : State) :
    (dataAbort wb s).lastUserBankTransfer = false := (dataAbort_entered wb s).tracker

@[simp] theorem setFlags_lastUserBankTransfer (sf : Bool) (r : Word) (c v : Bool) (s : State) :
    (setFlags sf r c v s).lastUserBankTransfer = s.lastUserBankTransfer := by cases sf <;> rfl

@[simp] theorem flagged_lastUserBankTransfer (sf n z c v : Bool) (s : State) :
    (flagged sf n z c v s).lastUserBankTransfer = s.lastUserBankTransfer := by cases sf <;> rfl

/-! #### The bodies that leave it clear -/

section
variable {s t : State}

theorem exceptionReturn_tracker {v : Word} (h : exceptionReturn v s = .next t) :
    t.lastUserBankTransfer = s.lastUserBankTransfer := by
  obtain ⟨saved, rfl⟩ := exceptionReturn_next h
  rfl

theorem dataProc_tracker {op : AluOp} {sf : Bool} {rn rd : RegNum} {op2 : Operand2}
    (h : dataProc op sf rn rd op2 s = .next t) : t.lastUserBankTransfer = s.lastUserBankTransfer := by
  obtain ⟨-, -, p, v, rfl, -⟩ | ⟨-, rfl⟩ := dataProc_next h
  · rfl
  · cases writesRd op <;> simp

theorem psrWrite_tracker {spsr f c : Bool} {v : Word} (h : psrWrite spsr f c v s = .next t) :
    t.lastUserBankTransfer = s.lastUserBankTransfer := by
  unfold psrWrite at h
  split at h
  · split at h <;> cases h
    rfl
  · cases h
    rfl

theorem mrsBody_tracker {spsr : Bool} {rd : RegNum} (h : mrsBody spsr rd s = .next t) :
    t.lastUserBankTransfer = s.lastUserBankTransfer := by
  unfold mrsBody at h
  split at h
  · split at h <;> cases h
    simp
  · cases h
    simp

theorem commitProduct_tracker {sf : Bool} {rd : RegNum} {r : Word} (h : commitProduct sf rd r s = .next t) :
    t.lastUserBankTransfer = s.lastUserBankTransfer := by
  rw [commitProduct_eq] at h
  cases h
  simp

theorem commitLongProduct_tracker {sf : Bool} {rdHi rdLo : RegNum} {p : BitVec 64}
    (h : commitLongProduct sf rdHi rdLo p s = .next t) : t.lastUserBankTransfer = s.lastUserBankTransfer := by
  rw [commitLongProduct_eq] at h
  cases h
  simp

section
variable (hs : s.lastUserBankTransfer = false)
include hs

theorem finishLoad_tracker {value : Option Word} {ad : Addressing} {rd : RegNum}
    (h : finishLoad value ad rd s = .next t) : t.lastUserBankTransfer = false := by
  obtain ⟨-, rfl⟩ | ⟨v, -, rfl⟩ := finishLoad_next h <;> simp [hs]

theorem finishLoadWord_tracker {value : Option Word} {ad : Addressing} {rd : RegNum}
    (h : finishLoadWord value ad rd s = .next t) : t.lastUserBankTransfer = false := by
  obtain ⟨-, rfl⟩ | ⟨-, v, -, rfl⟩ | ⟨-, v, -, rfl⟩ := finishLoadWord_next h <;> simp [hs]

theorem finishStore_tracker {outcome : StoreOutcome} {wb : Option (RegNum × Word)}
    (ho : ∀ u, (outcome = .done u ∨ outcome = .abort u) → Called s u) (h : finishStore outcome wb = .next t) :
    t.lastUserBankTransfer = false := by
  obtain ⟨u, -, rfl⟩ | ⟨u, hu, rfl⟩ := finishStore_next h
  · simp
  · simp [(ho u (.inl hu)).tracker, hs]

theorem finishSwap_tracker {value : Option Word} {q : MemRequest} {rd : RegNum}
    (h : finishSwap value q rd s = .next t) : t.lastUserBankTransfer = false := by
  obtain ⟨-, rfl⟩ | ⟨-, rfl⟩ | ⟨v, -, -, rfl⟩ := finishSwap_next h <;> simp [hs]

end

theorem undefinedBody_tracker (h : undefinedBody s = .next t) : t.lastUserBankTransfer = false := by
  unfold undefinedBody at h
  split at h <;> cases h
  rfl

theorem coprocAbsent_tracker {cp : BitVec 4} (h : coprocAbsent cp s = .next t) : t.lastUserBankTransfer = false := by
  unfold coprocAbsent at h
  split at h <;> cases h
  rfl

/-- An LDM leaves the tracker set where it has loaded the User bank. -/
theorem ldmBody_tracker (hs : s.lastUserBankTransfer = false) {p u sb w : Bool} {rn : RegNum} {list : BitVec 16}
    (h : ldmBody p u sb w rn list s = .next t) (ht : t.lastUserBankTransfer = true) :
    sb = true ∧ inList list 15 = false ∧ t.pc = s.pc + 4#32 := by
  obtain ⟨b, hb⟩ := blockLoad_after (fun r => blockSlot p u rn list r s) (regList list) s
  unfold ldmBody at h
  simp only [hb] at h
  split at h
  · split at h
    · split at h
      · rw [exceptionReturn_tracker h] at ht
        simp [hs] at ht
      · cases h
        simp [hs] at ht
    next h15 =>
      cases h
      exact ⟨ht, by simpa using h15, by simp⟩
  · cases h
    simp at ht

/-- No instruction but LDM sets the tracker. -/
theorem execBody_tracker (hs : s.lastUserBankTransfer = false) {i : Instr} (h : execBody i s = .next t) :
    t.lastUserBankTransfer = false ∨ ∃ c p u sb w rn list, i = .ldm c p u sb w rn list := by
  cases i with
  | ldm => exact .inr ⟨_, _, _, _, _, _, _, rfl⟩
  | stm => exact .inl (finishStore_tracker hs (fun _ => .storeAll) h)
  | mrs => exact .inl ((mrsBody_tracker h).trans hs)
  | msrReg | msrFlg | msrGen => exact .inl ((psrWrite_tracker h).trans hs)
  | mul | mla => exact .inl ((commitProduct_tracker h).trans hs)
  | umull | umlal | smull | smlal => exact .inl ((commitLongProduct_tracker h).trans hs)
  | swp | swpb => exact .inl (finishSwap_tracker (s := called _ s) hs h)
  | bx => cases h; exact .inl hs
  | ldrh | ldrsh | ldrsb | ldrbPre | ldrbPost | ldrbt => exact .inl (finishLoad_tracker (s := called _ s) hs h)
  | ldrPre | ldrPost | ldrt => exact .inl (finishLoadWord_tracker (s := called _ s) hs h)
  | strh | strPre | strPost | strt | strbPre | strbPost | strbt =>
    exact .inl (finishStore_tracker hs (fun _ => .store) h)
  | undefStoreSigned | undefHalfZero | undefTrap => exact .inl (undefinedBody_tracker h)
  | swi => cases h; exact .inl rfl
  | b => cases h; exact .inl hs
  | bl => cases h; exact .inl (by simp [hs])
  | ldc c p u n w rn crd cp offset8 =>
    left
    simp only [execBody, ldcBody] at h
    split at h
    · exact finishStore_tracker hs (fun _ hu => (Called.askCoproc _ s).trans (.ldcWords hu)) h
    · exact coprocAbsent_tracker h
  | stc c p u n w rn crd cp offset8 =>
    left
    simp only [execBody, stcBody] at h
    split at h
    · exact finishStore_tracker hs (fun _ hu => (Called.askCoproc _ s).trans (.stcWords hu)) h
    · exact coprocAbsent_tracker h
  | cdp | mcr =>
    left
    simp only [execBody, cdpBody, mcrBody] at h
    split at h
    · cases h; exact hs
    · exact coprocAbsent_tracker h
  | mrc =>
    left
    simp only [execBody, mrcBody] at h
    split at h
    · split at h <;> cases h
      · exact hs
      · simp [hs]
    · exact coprocAbsent_tracker h
  | _ =>
    simp only [execBody] at h
    exact .inl ((dataProc_tracker h).trans hs)

end

/-- Settles O21: a skipped instruction clears the tracker, and of the bodies only LDM's sets it. -/
theorem trackerSetOnlyByUserBankLoad : Obligations.TrackerSetOnlyByUserBankLoad := by
  intro i s t h ht
  obtain ⟨-, -, rfl⟩ | ⟨hx, hb⟩ := exec_next h
  · cases ht
  · obtain hclear | ⟨c, p, u, sb, w, rn, list, rfl⟩ := execBody_tracker (s := clearTracker s) rfl hb
    · cases hclear.symm.trans ht
    · obtain ⟨rfl, h15, hpc⟩ := ldmBody_tracker (s := clearTracker s) rfl hb ht
      exact ⟨c, p, u, w, rn, list, rfl, h15, hx.condition, hpc⟩

end Sys2Proof.Machine

/-! ### The coprocessor collaborator, and the coprocessor instructions that it does not answer (R375 to R384) -/

namespace Sys2Proof.Machine

section
variable {port : CoprocPort} {q : CoprocRequest}

theorem CoprocPort.reply_unregistered (h : port.units[q.cp.toNat].registered = false) :
    (port.reply q).1.present = false ∧ (port.reply q).2 = port.units[q.cp.toNat].own := by
  simp [CoprocPort.reply, h]

theorem coprocRuleMatches_iff (own : Nat) (r : CoprocRule) :
    (r.own == own && r.request == q) = true ↔ r.own = own ∧ r.request = q := by simp

/-- The first rule for the coprocessor's own state and the request gives the answer and the next state. -/
theorem CoprocPort.reply_firstRule (h : port.units[q.cp.toNat].registered = true) {earlier later : List CoprocRule}
    {r : CoprocRule} (hrules : port.rules = earlier ++ r :: later)
    (he : ∀ r' ∈ earlier, ¬ (r'.own = port.units[q.cp.toNat].own ∧ r'.request = q))
    (hr : r.own = port.units[q.cp.toNat].own ∧ r.request = q) : port.reply q = (r.answer, r.next) := by
  have hfind : port.rules.find? (fun r => r.own == port.units[q.cp.toNat].own && r.request == q) = some r :=
    List.find?_eq_some_iff_append.2 ⟨(coprocRuleMatches_iff _ r).2 hr, earlier, later, hrules, fun r' h' => by
      simpa only [Bool.not_eq_true', ← Bool.not_eq_true, coprocRuleMatches_iff] using he r' h'⟩
  simp only [CoprocPort.reply, h, if_true, hfind]

/-- The unit a request names keeps its registration and takes the state of the reply. -/
theorem CoprocPort.after_units_same : (port.after q).units[q.cp.toNat] =
    { registered := port.units[q.cp.toNat].registered, own := (port.reply q).2 } := by
  simp [CoprocPort.after]

theorem CoprocPort.after_units_ne {k : Nat} (h : k < 16) (hk : k ≠ q.cp.toNat) :
    (port.after q).units[k] = port.units[k] := by
  simp [CoprocPort.after, Vector.getElem_set_ne _ _ hk.symm]

theorem CoprocPort.after_units_unregistered (h : port.units[q.cp.toNat].registered = false) :
    (port.after q).units = port.units := by
  simp only [CoprocPort.after, (CoprocPort.reply_unregistered h).2]
  exact Vector.set_getElem_self _

end

end Sys2Proof.Machine

namespace Sys2Proof

/-- R384 as one condition. -/
theorem coprocTransferRule_eq (p w : Bool) (rn : RegNum) : coprocTransferRule p w rn =
    if ((w = true ∨ p = false) ∧ rn = 15) ∨ (p = false ∧ w = false) then some .r384 else none := by
  simp [coprocTransferRule, ite_or]

end Sys2Proof

namespace Sys2Proof.Machine

section
variable {i : Instr} {q : CoprocRequest} {cp : BitVec 4} {s : State}

theorem coprocAbsent_refuse (h : s.policy.coprocAbsent = .refuse) :
    coprocAbsent cp s = .refused (.coprocessorAbsent cp s.collaborators) := by simp only [coprocAbsent, h]

theorem coprocAbsent_halt (h : s.policy.coprocAbsent = .halt) :
    coprocAbsent cp s = .fault (.coprocessorHalt s.collaborators) := by simp only [coprocAbsent, h]

theorem coprocAbsent_trap (h : s.policy.coprocAbsent = .trapUndefined) :
    coprocAbsent cp s = .next (takeException .undefinedInstruction s) := by simp only [coprocAbsent, h]

/-! #### The bodies, by the answer to their first request -/

section
variable {p u n w : Bool} {rn rd : RegNum} {op4 crn crd crm : BitVec 4} {op3 op2 : BitVec 3} {offset8 : BitVec 8}

theorem cdpBody_eq : cdpBody op4 crn crd cp op2 crm s =
    let q := .cdp cp op4 crn crd op2 crm
    if (s.coproc.reply q).1.present then .next (advance (askCoproc q s).2)
    else coprocAbsent cp (askCoproc q s).2 := rfl

theorem mcrBody_eq : mcrBody op3 crn rd cp op2 crm s =
    let q := .mcr cp op3 crn crm op2 (storedReg rd s)
    if (s.coproc.reply q).1.present then .next (advance (askCoproc q s).2)
    else coprocAbsent cp (askCoproc q s).2 := rfl

theorem mrcBody_eq : mrcBody op3 crn rd cp op2 crm s =
    let q := .mrc cp op3 crn crm op2
    let value := (s.coproc.reply q).1.value
    if (s.coproc.reply q).1.present then
      if rd = 15 then .next (advance { (askCoproc q s).2 with cpsr := s.cpsr.withFlags value })
      else .next (advance (writeReg rd value (askCoproc q s).2))
    else coprocAbsent cp (askCoproc q s).2 := rfl

theorem ldcBody_eq : ldcBody p u n w rn crd cp offset8 s =
    let q := .ldcBegin cp n crd
    let ad := addressing p u (w || !p) rn (coprocOffset offset8) s
    if (s.coproc.reply q).1.present then
      finishStore (ldcWords cp ad.addr (List.range ((s.coproc.reply q).1.more.val + 1)) (askCoproc q s).2) ad.writeBack
    else coprocAbsent cp (askCoproc q s).2 := rfl

theorem stcBody_eq : stcBody p u n w rn crd cp offset8 s =
    let q := .stcBegin cp n crd
    let ad := addressing p u (w || !p) rn (coprocOffset offset8) s
    if (s.coproc.reply q).1.present then
      finishStore (stcWords cp ad.addr (List.range ((s.coproc.reply q).1.more.val + 1)) (askCoproc q s).2) ad.writeBack
    else coprocAbsent cp (askCoproc q s).2 := rfl

end

/-- The state in which a coprocessor instruction goes on: the tracker cleared, and the coprocessors as the requests made
of them have left them. -/
def coprocAsked (port : CoprocPort) (s : State) : State := { clearTracker s with coproc := port }

/-- An absent coprocessor under each COPROC_ABSENT_POLICY (R377). -/
theorem exec_coprocAbsent (hx : Executes i s)
    (hb : execBody i (clearTracker s) = coprocAbsent cp (coprocAsked (s.coproc.after q) s)) :
    (s.policy.coprocAbsent = .refuse →
      exec i s = .refused (.coprocessorAbsent cp ⟨s.memory, s.bus, s.coproc.after q⟩)) ∧
    (s.policy.coprocAbsent = .halt → exec i s = .fault (.coprocessorHalt ⟨s.memory, s.bus, s.coproc.after q⟩)) ∧
    (s.policy.coprocAbsent = .trapUndefined → ∃ t : State, exec i s = .next t ∧
      Entered .undefinedInstruction s.pc s.cpsr t ∧ SameRegsBut [some (.r14 .und)] s t ∧
      (∀ k : Bank, k ≠ .und → t.spsrs.get k = s.spsrs.get k) ∧ t.memory = s.memory ∧ t.bus = s.bus ∧
      t.coproc = s.coproc.after q) := by
  rw [exec_executes hx, hb]
  let u := coprocAsked (s.coproc.after q) s
  exact ⟨coprocAbsent_refuse (s := u), coprocAbsent_halt (s := u), fun h => ⟨_, coprocAbsent_trap (s := u) h,
    takeException_entered .undefinedInstruction u, takeException_sameRegsBut .undefinedInstruction u,
    fun k => takeException_sameSpsrsBut .undefinedInstruction u, rfl, rfl, rfl⟩⟩

end

/-- Settles O57: a request changes the unit it names alone; the two transfers have R384's rule and the others none; the
answer Absent to its first request ends each body by the policy. -/
theorem coprocessorAbsentOrRefused : Obligations.CoprocessorAbsentOrRefused := by
  refine ⟨fun port q => ?_, fun c p u n w rn rd op4 crn crd cp crm op3 op2 offset8 s => ?_⟩
  · have hsame := CoprocPort.after_units_same (port := port) (q := q)
    refine ⟨fun h => ⟨(CoprocPort.reply_unregistered h).1, CoprocPort.after_units_unregistered h⟩,
      fun earlier r later h hrules he hr => ?_, fun k h => CoprocPort.after_units_ne h, by rw [hsame], rfl, rfl⟩
    have hreply := CoprocPort.reply_firstRule h hrules he hr
    exact ⟨hreply, by rw [hsame, h, hreply]⟩
  · intro bad sent kept
    have hrule : coprocTransferRule p w rn = if bad then some .r384 else none := coprocTransferRule_eq p w rn
    refine ⟨?_, ?_, fun x hx => ?_⟩
    · simp only [List.forall_mem_cons]
      exact ⟨refused_of_staticRule_ite hrule rfl, refused_of_staticRule_ite hrule rfl, List.forall_mem_nil _⟩
    · simp only [List.forall_mem_cons]
      exact ⟨rfl, rfl, rfl, List.forall_mem_nil _⟩
    · simp only [List.mem_cons, List.not_mem_nil, or_false] at hx
      have hnot {q : CoprocRequest} (habsent : (s.coproc.reply q).1.present = false) :
          ¬ (s.coproc.reply q).1.present = true := Bool.eq_false_iff.1 habsent
      rcases hx with rfl | rfl | rfl | rfl | rfl <;> intro habsent hx
      · exact exec_coprocAbsent hx (ldcBody_eq.trans (if_neg (hnot habsent)))
      · exact exec_coprocAbsent hx (stcBody_eq.trans (if_neg (hnot habsent)))
      · exact exec_coprocAbsent hx (cdpBody_eq.trans (if_neg (hnot habsent)))
      · exact exec_coprocAbsent hx (mcrBody_eq.trans (if_neg (hnot habsent)))
      · exact exec_coprocAbsent hx (mrcBody_eq.trans (if_neg (hnot habsent)))

/-! #### CDP, MCR and MRC that are answered (R380 to R382) -/

/-- Settles O54: each body goes on from the answer to its one request. -/
theorem coprocessorRegisterResults : Obligations.CoprocessorRegisterResults := by
  intro c op4 op3 crn crd cp crm op2 rd s asked ok sent cdp mcr mrc v
  refine ⟨fun hx h => ?_, fun hx h => ?_, fun hx h hd => ?_, fun hx h hd => ?_⟩
  · exact (exec_executes hx).trans (cdpBody_eq.trans (if_pos h))
  · exact (exec_executes hx).trans (mcrBody_eq.trans (if_pos h))
  · exact (exec_executes hx).trans (mrcBody_eq.trans ((if_pos h).trans (if_neg hd)))
  · exact (exec_executes hx).trans (mrcBody_eq.trans ((if_pos h).trans (if_pos hd)))

end Sys2Proof.Machine

/-! ### LDC and STC that the coprocessor answers (R379, R383) -/

namespace Sys2Proof.Machine

theorem coprocOffset_eq (offset8 : BitVec 8) : coprocOffset offset8 = BitVec.ofNat 32 (4 * offset8.toNat) := by
  rw [← toNat_coprocOffset, BitVec.ofNat_toNat, BitVec.setWidth_eq]

theorem callAll_coprocAsked (qs : List MemRequest) (port : CoprocPort) (s : State) :
    callAll qs (coprocAsked port s) = coprocAsked port (callAll qs s) := by
  rw [coprocAsked, callAll_setCoproc, callAll_clearTracker, coprocAsked]

/-! #### The words of LDC -/

section
variable (cp : BitVec 4) (a : Word) (s : State) (k : Nat)

/-- The read LDC makes for its k-th word, from address `a`. -/
def wordRead : MemRequest := .readWord (coprocSlot a k)

/-- The state in which LDC makes that read, but for the coprocessors. -/
def beforeWordRead : State := callAll ((List.range k).map (wordRead a)) s

/-- The request that hands the k-th word over. -/
def wordHanded : CoprocRequest := .ldcWord cp k (wordAt (coprocSlot a k) (beforeWordRead a s k))

end

section
variable {cp : BitVec 4} {a : Word} {port : CoprocPort} {s : State} {n k : Nat}

/-- The words before the k-th are read and handed over. -/
theorem ldcWords_range (ha : ∀ j < k, memAborts (wordRead a j) (beforeWordRead a s j) = false) :
    ldcWords cp a (List.range k) (coprocAsked port s) =
      .done (coprocAsked (port.afterAll ((List.range k).map (wordHanded cp a s))) (beforeWordRead a s k)) := by
  have hdone := ldcWords_done cp a (fun j => coprocAsked port (beforeWordRead a s j)) (List.range k)
    (coprocAsked port s)
    (fun pre j post e => by rw [range_split e]; exact (callAll_coprocAsked ..).symm)
    fun j hj => ha j (List.mem_range.1 hj)
  rw [callAll_coprocAsked] at hdone
  exact hdone

/-- The k-th word is not read: the words after it are not asked for. -/
theorem ldcWords_aborts (hk : k < n) (ha : ∀ j < k, memAborts (wordRead a j) (beforeWordRead a s j) = false)
    (hab : memAborts (wordRead a k) (beforeWordRead a s k) = true) :
    ldcWords cp a (List.range n) (coprocAsked port s) = .abort (called (wordRead a k)
      (coprocAsked (port.afterAll ((List.range k).map (wordHanded cp a s))) (beforeWordRead a s k))) := by
  rw [range_cut hk, ldcWords_append, ldcWords_range ha]
  have hload (p : CoprocPort) := loadWord_aborts (a := coprocSlot a k) (s := coprocAsked p (beforeWordRead a s k))
    (by rw [alignWord_coprocSlot]; exact hab)
  simp only [ldcWords, hload, alignWord_coprocSlot]
  rfl

end

/-! #### The words of STC -/

section
variable (cp : BitVec 4) (port : CoprocPort) (a : Word) (s : State) (k : Nat)

/-- The coprocessors when STC has asked for k words. -/
def wordsAsked : CoprocPort := port.afterAll ((List.range k).map fun j => .stcWord cp j)

/-- The k-th word the coprocessor supplies. -/
def wordSupplied : Word := ((wordsAsked cp port k).reply (.stcWord cp k)).1.value

/-- The write STC makes of that word, from address `a`. -/
def wordWrite : MemRequest := .writeWord (coprocSlot a k) (wordSupplied cp port k)

/-- The state in which STC makes that write, but for the coprocessors and the bytes written before it. -/
def beforeWordWrite : State := callAll ((List.range k).map (wordWrite cp port a)) s

theorem wordsAsked_succ : wordsAsked cp port (k + 1) = (wordsAsked cp port k).after (.stcWord cp k) := by
  rw [wordsAsked, List.range_succ, List.map_append, afterAll_append]
  rfl

end

section
variable {cp : BitVec 4} {port : CoprocPort} {a : Word} {s u : State} {n k : Nat}

/-- The words before the k-th are supplied and written. -/
theorem stcWords_range (hk : k < 2 ^ 30)
    (ha : ∀ j < k, StoreAllowed (wordWrite cp port a j) (beforeWordWrite cp port a s j)) :
    ∃ m : Memory, stcWords cp a (List.range k) (coprocAsked port s) =
        .done { coprocAsked (wordsAsked cp port k) (beforeWordWrite cp port a s k) with memory := m } ∧
      WordsStored (· < k) (coprocSlot a) (wordSupplied cp port) (beforeWordWrite cp port a s) s.memory m := by
  let writes := (List.range k).map (wordWrite cp port a)
  have hdone := stcWords_done cp a (wordSupplied cp port) (List.range k) (coprocAsked port s) fun pre j post e => by
    have hj : j < k := List.mem_range.1 (by rw [e]; simp)
    rw [range_split e, callAll_coprocAsked]
    exact ⟨rfl, ha j hj⟩
  obtain ⟨⟨hwords, hothers⟩, -⟩ := storedAll_words (coprocSlot a) (wordSupplied cp port)
    (fun j => coprocAsked port (beforeWordWrite cp port a s j)) (coprocAsked port s) (List.range k)
    (coprocSlot_apart a hk) fun pre j post e => by rw [range_split e]; exact (callAll_coprocAsked ..).symm
  refine ⟨(storedAll writes (coprocAsked port s)).memory, ?_,
    WordsStored.congr (fun j => List.mem_range) ⟨hwords, hothers⟩⟩
  have hbefore : beforeWordWrite cp port a s k = { s with bus := (callAll writes s).bus } := callAll_eq writes s
  rw [hdone, storedAll_eq, callAll_coprocAsked, hbefore]
  rfl

/-- The loop of STC up to its k-th word, whose write decides the rest (R379, R383, R462). -/
theorem stcWords_at (hk : k < n) (hn : n < 2 ^ 30)
    (ha : ∀ j < k, StoreAllowed (wordWrite cp port a j) (beforeWordWrite cp port a s j)) :
    ∃ (m : Memory) (rest : List Nat), stcWords cp a (List.range n) (coprocAsked port s) = stcWords cp a (k :: rest)
        { coprocAsked (wordsAsked cp port k) (beforeWordWrite cp port a s k) with memory := m } ∧
      WordsStored (· < k) (coprocSlot a) (wordSupplied cp port) (beforeWordWrite cp port a s) s.memory m := by
  obtain ⟨m, hdone, hwords⟩ := stcWords_range (hk.trans hn) ha
  exact ⟨m, _, by rw [range_cut hk, stcWords_append, hdone], hwords⟩

theorem stcWords_cons_aborts (rest : List Nat) :
    let q := MemRequest.writeWord (coprocSlot a k) (u.coproc.reply (.stcWord cp k)).1.value
    NoHazard q u → memAborts q u = true →
      stcWords cp a (k :: rest) u = .abort (called q (askCoproc (.stcWord cp k) u).2) := by
  intro q hn hab
  have hstore : store q (askCoproc (.stcWord cp k) u).2 = _ := store_aborts hn hab
  simp only [stcWords, askCoproc_answer, q, hstore]

theorem stcWords_cons_hazard (rest : List Nat) :
    let q := MemRequest.writeWord (coprocSlot a k) (u.coproc.reply (.stcWord cp k)).1.value
    (∃ b ∈ q.bytes, inPrefetchWindow u.pc b = true) →
      stcWords cp a (k :: rest) u = .hazard (askCoproc (.stcWord cp k) u).2 := by
  intro q hq
  have hstore : store q (askCoproc (.stcWord cp k) u).2 = _ := store_hazard hq
  simp only [stcWords, askCoproc_answer, q, hstore]

section
variable (hk : k < n) (hn : n < 2 ^ 30)
  (ha : ∀ j < k, StoreAllowed (wordWrite cp port a j) (beforeWordWrite cp port a s j))
include hk hn ha

/-- The write of the k-th word is aborted (R383). -/
theorem stcWords_aborts (hno : NoHazard (wordWrite cp port a k) s)
    (hab : memAborts (wordWrite cp port a k) (beforeWordWrite cp port a s k) = true) :
    ∃ m : Memory, stcWords cp a (List.range n) (coprocAsked port s) = .abort (called (wordWrite cp port a k)
        { coprocAsked (wordsAsked cp port (k + 1)) (beforeWordWrite cp port a s k) with memory := m }) ∧
      WordsStored (· < k) (coprocSlot a) (wordSupplied cp port) (beforeWordWrite cp port a s) s.memory m := by
  obtain ⟨m, rest, hwords, hstored⟩ := stcWords_at hk hn ha
  have hpc : (beforeWordWrite cp port a s k).pc = s.pc := callAll_pc ..
  refine ⟨m, ?_, hstored⟩
  rw [hwords, wordsAsked_succ]
  exact stcWords_cons_aborts rest (fun b hb => hpc ▸ hno b hb) hab

/-- The write of the k-th word meets the prefetch window (R462). -/
theorem stcWords_hazard (hw : ∃ b ∈ (wordWrite cp port a k).bytes, inPrefetchWindow s.pc b = true) :
    ∃ m : Memory, stcWords cp a (List.range n) (coprocAsked port s) =
        .hazard { coprocAsked (wordsAsked cp port (k + 1)) (beforeWordWrite cp port a s k) with memory := m } ∧
      WordsStored (· < k) (coprocSlot a) (wordSupplied cp port) (beforeWordWrite cp port a s) s.memory m := by
  obtain ⟨m, rest, hwords, hstored⟩ := stcWords_at hk hn ha
  have hpc : (beforeWordWrite cp port a s k).pc = s.pc := callAll_pc ..
  refine ⟨m, ?_, hstored⟩
  rw [hwords, wordsAsked_succ]
  rw [← hpc] at hw
  exact stcWords_cons_hazard rest hw

end

end

/-! #### The ends of a coprocessor transfer -/

section
variable {changed : List (Option PhysReg)} {m : Memory} {b : Bus} {port : CoprocPort} {s u : State}

theorem Transferred.coprocCalls (port : CoprocPort) (qs : List MemRequest) (s : State) :
    Transferred [] s.memory (callAll qs s).bus { s with coproc := port } (coprocAsked port (callAll qs s)) := by
  rw [callAll_eq]
  exact .accesses _ _ { s with coproc := port }

/-- The environment of a coprocessor transfer, as that of the state after its memory requests. -/
theorem Transferred.environment_coproc {qs : List MemRequest}
    (h : Transferred changed m (callAll qs s).bus { s with coproc := port } u) :
    SameEnvironment { callAll qs s with coproc := port } u := by
  rw [callAll_eq]
  exact h.environment

section
variable {i : Instr} {p up w : Bool} {rn : RegNum} {offset : Word}

/-- A transfer whose accesses, all done, left u: the base is written back, it being no r15 (R384), and the PC
advances. -/
theorem transfer_committed {qs : List MemRequest}
    (hexec : exec i s = finishStore (.done u) (addressing p up (w || !p) rn offset s).writeBack)
    (hu : Transferred [] m (callAll qs s).bus { s with coproc := port } u) (hpc : u.pc = s.pc)
    (hrn : p = false ∨ w = true → rn ≠ 15) :
    ∃ t : State, exec i s = .next t ∧
      ((p = false ∨ w = true → readReg rn t = indexedBase up rn offset s) ∧
        SameRegsBut (if p = false ∨ w = true then [bankReg (currentBank s.cpsr) rn] else []) s t ∧
        t.pc = s.pc + 4#32 ∧ t.cpsr = s.cpsr ∧ t.spsrs = s.spsrs) ∧
      t.memory = m ∧ SameEnvironment { callAll qs s with coproc := port } t := by
  have hwb : (w || !p) = true ↔ p = false ∨ w = true := by cases p <;> cases w <;> decide
  have hchanged : baseWritten (w || !p) rn s =
      if p = false ∨ w = true then [bankReg (currentBank s.cpsr) rn] else [] := by simp only [baseWritten, hwb]
  have ht : Transferred (baseWritten (w || !p) rn s) m (callAll qs s).bus { s with coproc := port }
      (advance (applyWriteBack (addressing p up (w || !p) rn offset s).writeBack u)) :=
    (hu.writeBack p up (w || !p) rn offset s).setPc _
  refine ⟨_, hexec, ⟨fun h => ?_, hchanged ▸ ht.regs, ?_, ht.cpsr, ht.spsrs⟩, ht.memory, ht.environment_coproc⟩
  · rw [readReg_advance (hrn h), addressing, if_pos (hwb.2 h)]
    exact readReg_writeReg_same rn (hrn h) _ _
  · rw [advance_pc, applyWriteBack_pc, hpc]

/-- A transfer whose accesses, the last of them aborted, left u: the data abort (R383, R417, R418). -/
theorem transfer_aborted
    (hexec : exec i s = finishStore (.abort u) (addressing p up (w || !p) rn offset s).writeBack)
    (hu : Transferred [] m b { s with coproc := port } u) (hpc : u.pc = s.pc) :
    ∃ t : State, exec i s = .next t ∧
      (Entered .dataAbort s.pc s.cpsr t ∧ (∀ k : Bank, k ≠ .abt → t.spsrs.get k = s.spsrs.get k) ∧
        ∀ q : PhysReg, q ≠ .r14 .abt → t.regs.read q = s.regs.read q ∨ ((p = false ∨ w = true) ∧
          bankReg (currentBank s.cpsr) rn = some q ∧ t.regs.read q = indexedBase up rn offset s)) ∧
      t.memory = m ∧ t.bus = b ∧ t.coproc = port := by
  let writeBack := (addressing p up (w || !p) rn offset s).writeBack
  have hentered := dataAbort_entered writeBack u
  rw [hpc, hu.cpsr] at hentered
  obtain ⟨hmemory, -, hbus, hcoproc, -, -, -, -, hspsrs⟩ := dataAbort_keeps writeBack u
  refine ⟨_, hexec, ⟨hentered, fun k hk => (hspsrs k hk).trans (by rw [hu.spsrs]), fun q hq => ?_⟩,
    hmemory.trans hu.memory, hbus.trans hu.environment.bus, hcoproc.trans hu.environment.coproc⟩
  obtain hold | ⟨rn', v, hwb, hbank, hv⟩ := dataAbort_regs writeBack u q hq
  · exact .inl (hold.trans (hu.regs q List.not_mem_nil))
  · obtain ⟨hw, hsome⟩ := Option.ite_none_right_eq_some.1 hwb
    obtain ⟨rfl, rfl⟩ := Prod.mk.inj (Option.some.inj hsome)
    exact .inr ⟨by simpa [or_comm] using hw, hu.cpsr ▸ hbank, hv⟩

end

end

section
variable {c : Cond} {p u n w : Bool} {rn : RegNum} {crd cp : BitVec 4} {offset8 : BitVec 8} {s : State}

theorem exec_ldc_present (hx : Executes (.ldc c p u n w rn crd cp offset8) s) :
    let begins := CoprocRequest.ldcBegin cp n crd
    let ad := addressing p u (w || !p) rn (BitVec.ofNat 32 (4 * offset8.toNat)) s
    (s.coproc.reply begins).1.present = true → exec (.ldc c p u n w rn crd cp offset8) s =
      finishStore (ldcWords cp ad.addr (List.range ((s.coproc.reply begins).1.more.val + 1))
        (coprocAsked (s.coproc.after begins) s)) ad.writeBack := by
  intro begins ad h
  rw [exec_executes hx, execBody, ldcBody_eq, coprocOffset_eq]
  exact if_pos h

theorem exec_stc_present (hx : Executes (.stc c p u n w rn crd cp offset8) s) :
    let begins := CoprocRequest.stcBegin cp n crd
    let ad := addressing p u (w || !p) rn (BitVec.ofNat 32 (4 * offset8.toNat)) s
    (s.coproc.reply begins).1.present = true → exec (.stc c p u n w rn crd cp offset8) s =
      finishStore (stcWords cp ad.addr (List.range ((s.coproc.reply begins).1.more.val + 1))
        (coprocAsked (s.coproc.after begins) s)) ad.writeBack := by
  intro begins ad h
  rw [exec_executes hx, execBody, stcBody_eq, coprocOffset_eq]
  exact if_pos h

/-- The words of a coprocessor transfer are few enough that their addresses do not wrap into one another (R378). -/
theorem coprocCount_lt (more : Fin 16) : more.val + 1 < 2 ^ 30 := by omega

/-- R384: a base that is written back is below r15. -/
theorem coprocTransfer_base {i : Instr} (hi : i.staticRule = coprocTransferRule p w rn) (hx : Executes i s)
    (hwb : p = false ∨ w = true) : rn ≠ 15 := by
  have hstatic := (wfRefusal_eq_none.1 hx.wellFormed).1
  rw [hi, coprocTransferRule_eq] at hstatic
  rintro rfl
  rw [if_pos (.inl ⟨hwb.symm, rfl⟩)] at hstatic
  cases hstatic

end

/-- Settles O55: every word of the loop is answered, and then the base is written back. -/
theorem coprocessorTransferResults : Obligations.CoprocessorTransferResults := by
  intro c p u n w rn crd cp offset8 s base offset indexed slot finalBase
  constructor
  · intro begins count request before asked hx hpresent ha
    have hexec := (exec_ldc_present hx hpresent).trans (congrArg (finishStore · _) (ldcWords_range ha))
    exact transfer_committed hexec (.coprocCalls asked ((List.range count).map request) s) (callAll_pc ..)
      (coprocTransfer_base rfl hx)
  · intro begins count asked value request before hx hpresent ha
    obtain ⟨m, hdone, hwords⟩ := stcWords_range (coprocCount_lt _) ha
    have hexec := (exec_stc_present hx hpresent).trans (congrArg (finishStore · _) hdone)
    have hwrites := (Transferred.coprocCalls (asked count) ((List.range count).map request) s).setMemory m
    obtain ⟨t, ht, hfinal, rfl, henv⟩ := transfer_committed hexec hwrites (callAll_pc ..) (coprocTransfer_base rfl hx)
    exact ⟨t, ht, hfinal, hwords, henv⟩

/-- Settles O56: the words before the aborted one are transferred, and the data abort follows its request. -/
theorem coprocessorTransferAborts : Obligations.CoprocessorTransferAborts := by
  intro c p u n w rn crd cp offset8 s k base offset indexed slot aborted
  constructor
  · intro begins request before hx hpresent hk ha hab
    have hexec := (exec_ldc_present hx hpresent).trans
      (congrArg (finishStore · _) (ldcWords_aborts (Nat.lt_succ_of_le hk) ha hab))
    exact transfer_aborted hexec ((Transferred.coprocCalls _ ((List.range k).map request) s).call (request k))
      (callAll_pc ..)
  · intro begins asked value request before hx hpresent hk ha hn hab
    obtain ⟨m, hstopped, hwords⟩ := stcWords_aborts (Nat.lt_succ_of_le hk) (coprocCount_lt _) ha hn hab
    have hexec := (exec_stc_present hx hpresent).trans (congrArg (finishStore · _) hstopped)
    have hwrites := ((Transferred.coprocCalls (asked (k + 1)) ((List.range k).map request) s).setMemory m).call
      (request k)
    obtain ⟨t, ht, habort, rfl, hbus, hcoproc⟩ := transfer_aborted hexec hwrites (callAll_pc ..)
    exact ⟨t, ht, habort, hbus, hcoproc, hwords⟩

end Sys2Proof.Machine

/-! ### Writes into the prefetch window (R462) -/

namespace Sys2Proof.Machine

/-- One of the n bytes from `a` is one of pc + 4 to pc + 11. -/
def Hits (pc : Word) (n : Nat) (a : Word) : Prop :=
  ∃ k < n, ∃ j : Nat, 4 ≤ j ∧ j ≤ 11 ∧ a + BitVec.ofNat 32 k = pc + BitVec.ofNat 32 j

section
variable {pc a : Word}

theorem inWindow_of_hits {q : MemRequest} {n : Nat} (hb : ∀ k < n, a + BitVec.ofNat 32 k ∈ q.bytes)
    (h : Hits pc n a) : ∃ b ∈ q.bytes, inPrefetchWindow pc b = true := by
  obtain ⟨k, hk, j, h4, h11, he⟩ := h
  exact ⟨_, hb k hk, (inPrefetchWindow_iff pc _).2 ⟨j, h4, h11, he⟩⟩

theorem Hits.writeWord (h : Hits pc 4 a) (v : Word) :
    ∃ b ∈ (MemRequest.writeWord a v).bytes, inPrefetchWindow pc b = true :=
  inWindow_of_hits (fun k hk => by interval_cases k <;> simp [MemRequest.bytes]) h

theorem Hits.writeHalf (h : Hits pc 2 a) (v : BitVec 16) :
    ∃ b ∈ (MemRequest.writeHalf a v).bytes, inPrefetchWindow pc b = true :=
  inWindow_of_hits (fun k hk => by interval_cases k <;> simp [MemRequest.bytes]) h

theorem Hits.writeByte (h : Hits pc 1 a) (v : Byte) :
    ∃ b ∈ (MemRequest.writeByte a v).bytes, inPrefetchWindow pc b = true :=
  inWindow_of_hits (fun k hk => by interval_cases k; simp [MemRequest.bytes]) h

end

section
variable {i : Instr} {q : MemRequest} {s : State}

theorem exec_store_hazard {writeBack : Option (RegNum × Word)} (hx : Executes i s)
    (hb : execBody i (clearTracker s) = finishStore (store q (clearTracker s)) writeBack)
    (hq : ∃ b ∈ q.bytes, inPrefetchWindow s.pc b = true) :
    exec i s = .fault (.prefetchHazard ⟨s.memory, s.bus, s.coproc⟩) := by
  rw [exec_executes hx, hb, store_hazard (s := clearTracker s) hq]
  rfl

theorem exec_swap_hazard {r : MemRequest} {v : Word} {rd : RegNum} (hx : Executes i s)
    (hb : execBody i (clearTracker s) = finishSwap (some v) q rd (called r (clearTracker s)))
    (hq : ∃ b ∈ q.bytes, inPrefetchWindow s.pc b = true) :
    exec i s = .fault (.prefetchHazard ⟨s.memory, s.bus.after r, s.coproc⟩) := by
  rw [exec_executes hx, hb, finishSwap, store_hazard (s := called r (clearTracker s)) hq]
  rfl

theorem storeAll_hazard (hq : ∃ b ∈ q.bytes, inPrefetchWindow s.pc b = true) (rest : List MemRequest) :
    storeAll (q :: rest) s = .hazard s := by
  simp only [storeAll, store_hazard hq]

/-- An STM whose write for register r meets the window: the words of the registers below it stand. -/
theorem exec_stm_hazard {c : Cond} {p u sb w : Bool} {rn : RegNum} {list : BitVec 16} {r : RegNum}
    (hx : Executes (.stm c p u sb w rn list) s) (hr : inList list r = true)
    (hbelow : ∀ q : RegNum, inList list q = true → q < r →
      StoreAllowed (slotWrite p u sb rn list s q) (beforeSlotWrite p u sb rn list s q))
    (hw : ∃ b ∈ (slotWrite p u sb rn list s r).bytes, inPrefetchWindow s.pc b = true) :
    ∃ m : Memory, exec (.stm c p u sb w rn list) s =
        .fault (.prefetchHazard ⟨m, (beforeSlotWrite p u sb rn list s r).bus, s.coproc⟩) ∧
      WordsStored (fun q => inList list q = true ∧ q < r) (fun q => blockSlot p u rn list q s) (slotValue sb s)
        (beforeSlotWrite p u sb rn list s) s.memory m := by
  obtain ⟨m, rest, hstore, hwords⟩ := storeAll_at (p := p) (u := u) (rn := rn) (s := clearTracker s)
    (slotValue sb s) hr fun q hq hlt => by
      rw [beforeSlot_clearTracker]
      exact hbelow q hq hlt
  simp only [beforeSlot_clearTracker] at hstore hwords
  have hpc : (beforeSlotWrite p u sb rn list s r).pc = s.pc := callAll_pc ..
  have hcoproc : (beforeSlotWrite p u sb rn list s r).coproc = s.coproc := callAll_coproc ..
  rw [← hpc] at hw
  have hhazard := storeAll_hazard (q := slotWrite p u sb rn list s r)
    (s := clearTracker { beforeSlotWrite p u sb rn list s r with memory := m }) hw rest
  refine ⟨m, ?_, hwords.of_clearTracker⟩
  rw [exec_executes hx, execBody, stmBody_eq, ← hcoproc]
  exact congrArg (finishStore · _) (hstore.trans hhazard)

end

/-- Settles O42: in each form the write that meets the window ends the body in the fault, which keeps what the accesses
before it left. -/
theorem storePrefetchHazard : Obligations.StorePrefetchHazard := by
  intro c p u sb w rn rd rm off hoff z list crd cp offset8 s base indexed aH hits faults
  refine ⟨fun hx h => exec_store_hazard hx rfl (Hits.writeWord h _),
    fun hx h => exec_store_hazard hx rfl (Hits.writeWord h _),
    fun hx h => exec_store_hazard hx rfl (Hits.writeWord h _),
    fun hx h => exec_store_hazard hx rfl (Hits.writeByte h _),
    fun hx h => exec_store_hazard hx rfl (Hits.writeByte h _),
    fun hx h => exec_store_hazard hx rfl (Hits.writeByte h _),
    fun hx h => exec_store_hazard hx rfl (Hits.writeHalf h _),
    fun hx ha h => exec_swap_hazard hx (swpBody_answered ha) (Hits.writeWord h _),
    fun hx ha h => exec_swap_hazard hx (swpbBody_answered ha) (Hits.writeByte h _),
    fun r hx hr h hbelow => exec_stm_hazard hx hr hbelow (Hits.writeWord h _), ?_⟩
  intro i offset slot begins asked value request before hpresent hi hx h ha
  obtain ⟨m, hstopped, hwords⟩ := stcWords_hazard (Nat.lt_succ_of_le hi) (coprocCount_lt _) ha (Hits.writeWord h _)
  have hexec := (exec_stc_present hx hpresent).trans (congrArg (finishStore · _) hstopped)
  exact ⟨m, hexec, hwords⟩

end Sys2Proof.Machine
